-- ==== Sys2Proof/Word.lean ====
section
/-! DEFINITION. The word types of SPU-SPI (spec 00_scope R10, R11): a byte of host memory and a
register or operand of 32 bits. Every number is unsigned. -/

namespace Sys2Proof

/-- One byte of host buffer memory, or one byte on the MF wire. -/
abbrev Byte := BitVec 8

/-- A register value, a bit length or a frequency: 32 bits (R11). -/
abbrev Word := BitVec 32

end Sys2Proof
end

