-- ==== Sys2Proof/Config.lean ====
section
/-! DEFINITION. What an implementation fixes (spec 00_scope R9) and the free values the spec leaves
open. A constant with a body is a number the spec gives, or a default of the spec that a log entry
names; an `opaque` constant is a value the spec leaves open, of which nothing can be proved. The OPEN
parameters that a state carries (FIFO_BYTES, CHUNK_BYTES, FILL, REF_HZ, T_POLL, T_SETTLE, DELAY_MAX, the register
maps) are fields of `Machine.Params`, and NCHAN is the number of channels the state holds. -/

namespace Sys2Proof.Config

/-- `WL_MIN`, least legal word length in bits (R9). -/
def wlMin : Nat := 4

/-- `WL_MAX`, greatest legal word length in bits (R9). -/
def wlMax : Nat := 32

/-- `NCHAN`, RC channel count: the default of R9, for which the opcode table has rows. The channel count of a
machine is the length of its list of channels (log 15). -/
def nchanDefault : Nat := 4

/-- Number of words of the RC shared block (10_state R33). -/
def nshared : Nat := 11

/-- `MF_NCS`, chip-selects MF supports (R9). -/
def mfNcs : Nat := 2

/-- `N_STATUS`, samples of the loader's status wait (R9, 44_loader R253). -/
def nStatus : Nat := 200

/-- `T_CFG_PULSE` in microseconds (R9, 44_loader R252). -/
def tCfgPulseUs : Nat := 40

/-- `T_STATUS_STEP` in microseconds (R9, 44_loader R253). -/
def tStatusStepUs : Nat := 10

/-- `PAD_BITS`, padding after the bitstream (R9, 44_loader R255). -/
def padBits : Nat := 8

/-- Word length of a new session (40_contract R122). -/
def wlInitial : BitVec 8 := 8#8

/-- What a byte of host memory that nothing has written reads as. DESIGN CHOICE (log 8): the spec
gives host memory no contents. -/
def memDefault : Byte := 0#8

/-- The register offsets of the RC window (10_state R27) as one record: word `j` of the shared block stands at
`shared + 4 * j`, channel `c` at `chBase + chStride * c`. -/
structure RcMap where
  shared : Nat
  chBase : Nat
  chStride : Nat
  conf : Nat
  stat : Nat
  ctrl : Nat
  tx : Nat
  rx : Nat
  deriving DecidableEq, Repr

/-- R27: `SHARED` at 0x00 to 0x2B, `CHBASE(c) = 0x2C + 0x14 * c` and the five offsets of a channel. -/
def rcMap : RcMap :=
  { shared := 0x00, chBase := 0x2C, chStride := 0x14, conf := 0x00, stat := 0x04, ctrl := 0x08, tx := 0x0C, rx := 0x10 }

/-- The register offsets of the MF window (10_state R36) as one record. A FIFO window takes `2 ^ winBits` bytes of
offsets (30_encoding R99). -/
structure MfMap where
  winBits : Nat
  txfifo : Nat
  busctl : Nat
  cs0 : Nat
  cs1 : Nat
  speed : Nat
  mode : Nat
  wrbyte : Nat
  rdbyte : Nat
  read : Nat
  rxfifo : Nat
  deriving DecidableEq, Repr

/-- R36, R99: windows of 256 bytes. -/
def mfMap : MfMap :=
  { winBits := 8, txfifo := 0x000, busctl := 0x100, cs0 := 0x104, cs1 := 0x108, speed := 0x10C, mode := 0x110,
    wrbyte := 0x114, rdbyte := 0x118, read := 0x11C, rxfifo := 0x200 }

/-- What decides which register a key names: the channel count and the two register maps, parameters of the step
(10_state R46). -/
structure Layout where
  nchan : Nat
  rc : RcMap
  mf : MfMap
  deriving DecidableEq, Repr

/-- The layout of `opcode_table.json`: 4 channels and the maps of R27 and R36. -/
def layout : Layout := { nchan := nchanDefault, rc := rcMap, mf := mfMap }

/-! ## Free values: draws past the end of a state's scripted answers (log 5) -/

/-- The MISO sample number `k` of BB (93 U24). -/
opaque freeMiso : Nat → Bool
/-- The word number `k` an RC channel receives; the low `w` bits count (93 U24). -/
opaque freeWord : Nat → Word
/-- The byte number `k` the MF peer receives (93 U24). -/
opaque freeByte : Nat → Byte
/-- The loader's status sample number `k` (93 U24). -/
opaque freeStatus : Nat → Bool
/-- The loader's done sample number `k` (93 U24). -/
opaque freeDone : Nat → Bool
/-- The loader's CRC-error sample number `k` (93 U24). -/
opaque freeCrc : Nat → Bool
/-- The byte past the end of the loader's buffer at load number `k` (93 U23, 20_memory R71). -/
opaque freePad : Nat → Byte
/-- By how much the timer has advanced at reading number `k` (93 U25). -/
opaque freeTick : Nat → Nat
/-- How many readings before the deadline timed wait number `k` can make (log 7). -/
opaque freeRounds : Nat → Nat
/-- The shifter steps offered in gap number `k`, each by its channel (93 U18, log 6). -/
opaque freeSchedule : Nat → List Nat
/-- Whether BB skips the samples of transmit-only transfer number `k` in phase 1 (93 U2). -/
opaque freeFast : Nat → Bool

/-! ## Free values: parameters and reset values the spec leaves open -/

/-- BB's delay count for a frequency before the laws of 41_bitbang R153 are imposed (log 18). -/
opaque freeDelay : Word → Word

/-- Whether a `bb.setup` that fails on the secondary select or on the counts keeps the count of bound selects it has
latched: 41_bitbang R150 latches it before those tests, 60_exceptions R285 says that nothing changes except `cfg_ok`,
and no ruling decides (log 17). -/
opaque failedBindStands : Bool

/-- The profile of a slave the Device Profile does not list (log 24): maximum frequency. -/
opaque freeMaxHz : Nat → Word
/-- The same: clock polarity. -/
opaque freeCpol : Nat → Bool
/-- The same: clock phase. -/
opaque freeCpha : Nat → Bool
/-- The same: select polarity. -/
opaque freeCsHigh : Nat → Bool

/-- SCLK level after reset: unspecified (10_state R44, 70 R312; log 9). -/
opaque resetSclk : Bool
/-- MOSI level after reset: unspecified (R44, R312; log 9). -/
opaque resetMosi : Bool
/-- Physical levels of BB's selects before a select event drives them: R44 gives the logical ones only (log 9). -/
opaque resetCsLevel : BitVec 256
/-- NCFG level after reset: unspecified (R44, R312; log 9). -/
opaque resetNcfg : Bool
/-- Timer value after reset: unspecified (R44; log 9). -/
opaque resetNow : Nat
/-- `sh_out[c]` after reset: unspecified (R44; log 9). -/
opaque resetShOut : Nat → Word
/-- `sh_cfg[c].WL` after reset: unspecified (R44; log 9). -/
opaque resetShWl : Nat → BitVec 5
/-- `sh_cfg[c].POL` after reset: unspecified (R44; log 9). -/
opaque resetShPol : Nat → Bool
/-- `sh_cfg[c].PHA` after reset: unspecified (R44; log 9). -/
opaque resetShPha : Nat → Bool
/-- `sh_cfg[c].TRM` after reset: unspecified (R44; log 9). -/
opaque resetShTrm : Nat → BitVec 2

/-- CHUNK_BYTES minus 1 (R9: OPEN, at least 1; logs 11, 16). The bound: the longest transfer of a load, one
byte more than a chunk, has a bit length of 32 bits (44_loader R254, R255, 30_encoding R94). -/
opaque resetChunkPred : Fin 536870910
/-- REF_HZ (R9: OPEN; log 11). -/
opaque resetRefHz : Nat
/-- T_SETTLE, 2 milliseconds in the timer's unit, which is open (R9; log 11). -/
opaque resetTSettle : Nat
/-- DELAY_MAX (R9: OPEN; log 11). -/
opaque resetDelayMax : Word

end Sys2Proof.Config
end

