-- ==== Sys2Proof/Syntax.lean ====
section
/-! DEFINITION. The operations of SPU-SPI as abstract syntax (spec 30_encoding R90 to R100): one
constructor of `Instr` for each mnemonic of `opcode_table.json`; the rows that share a mnemonic differ
in the channel number, the word number or the offset, which are operands. -/

namespace Sys2Proof

/-- The three transport units (00_scope R1). A bus has one of them (10_state R21). -/
inductive BusUnit where
  | bb
  | rc
  | mf
  deriving DecidableEq, Repr

/-- The `mode` operand (30_encoding R96). -/
structure Mode where
  cpha : Bool
  cpol : Bool
  csHigh : Bool
  deriving DecidableEq, Repr

/-- The `flags` of a transfer descriptor (R95). -/
structure Flags where
  begins : Bool
  ends : Bool
  lsb : Bool
  deriving DecidableEq, Repr

/-- `DESC`, the transfer descriptor (R94). An absent buffer is `none`, not address 0. -/
structure Desc where
  n : Word
  out : Option Nat
  inp : Option Nat
  flags : Flags
  deriving DecidableEq, Repr

/-- The registers of the RC window (10_state R27): a word of the shared block, or a register of a
channel. -/
inductive RcReg where
  | shared (j : Nat)
  | conf (c : Nat)
  | stat (c : Nat)
  | ctrl (c : Nat)
  | tx (c : Nat)
  | rx (c : Nat)
  deriving DecidableEq, Repr

/-- The registers of the MF window (10_state R36). A FIFO window register carries its offset inside the
window. -/
inductive MfReg where
  | txfifo (j : Nat)
  | busctl
  | cs0
  | cs1
  | speed
  | mode
  | wrbyte
  | rdbyte
  | read
  | rxfifo (j : Nat)
  deriving DecidableEq, Repr

/-- One operation of the host, or one register access. `s` names a session, `c` an RC channel, `j` a
word of the RC shared block, `o` an offset inside an MF FIFO window, `v` the value written, `h` a loader
handle: it stands last and is handle 0 where it is left out. The bus operand has one legal value and is checked by the decoder (logs 1, 2). -/
inductive Instr where
  -- BB, unit 0
  | bbSetup
  | bbClaim (cs : BitVec 8)
  | bbRelease (s : Nat)
  | bbSetSpeed (s : Nat) (hz : Word)
  | bbSetMode (s : Nat) (m : Mode)
  | bbSetWordlen (s : Nat) (bits : BitVec 8)
  | bbTransfer (s : Nat) (d : Desc)
  -- RC, unit 1
  | rcSetup
  | rcClaim (cs : BitVec 8)
  | rcRelease (s : Nat)
  | rcSetSpeed (s : Nat) (hz : Word)
  | rcSetMode (s : Nat) (m : Mode)
  | rcSetWordlen (s : Nat) (bits : BitVec 8)
  | rcTransfer (s : Nat) (d : Desc)
  -- MF, unit 2
  | mfSetup
  | mfClaim (cs : BitVec 8)
  | mfRelease (s : Nat)
  | mfSetSpeed (s : Nat) (hz : Word)
  | mfSetMode (s : Nat) (m : Mode)
  | mfSetWordlen (s : Nat) (bits : BitVec 8)
  | mfTransfer (s : Nat) (d : Desc)
  -- LD, unit 3
  | ldErase (offset len : Word) (h : Nat := 0)
  | ldRead (offset len : Word) (dst : Nat) (h : Nat := 0)
  | ldWrite (offset : Word) (src : Nat) (len : Word) (h : Nat := 0)
  | ldSync (h : Nat := 0)
  | ldLock (offset len : Word) (h : Nat := 0)
  | ldUnlock (offset len : Word) (h : Nat := 0)
  -- RC register accesses
  | rcChconfR (c : Nat)
  | rcChconfW (c : Nat) (v : Word)
  | rcChstatR (c : Nat)
  | rcChstatW (c : Nat) (v : Word)
  | rcChctrlR (c : Nat)
  | rcChctrlW (c : Nat) (v : Word)
  | rcTxR (c : Nat)
  | rcTxW (c : Nat) (v : Word)
  | rcRxR (c : Nat)
  | rcRxW (c : Nat) (v : Word)
  | rcSharedR (j : Nat)
  | rcSharedW (j : Nat) (v : Word)
  -- MF register accesses
  | mfTxfifoW (o : Nat) (v : BitVec 16)
  | mfBusctlW (v : Word)
  | mfCs0W (v : Word)
  | mfCs1W (v : Word)
  | mfSpeedW (v : Word)
  | mfModeW (v : Word)
  | mfWrbyteW (v : Word)
  | mfRdbyteR
  | mfReadW (v : Word)
  | mfRxfifoR (o : Nat)
  deriving DecidableEq, Repr

/-- Where a word arrives: the operation port, or a register window with the width in bits of the access
(R90: the formats `OP`, `REG_RC`, `REG_MF`; log 3). -/
inductive Port where
  | op
  | rcWindow (width : Nat)
  | mfWindow (width : Nat)
  deriving DecidableEq, Repr

/-- One thing the host issues: the port and the bytes, the lowest first. -/
structure Issue where
  port : Port
  bytes : List Byte
  deriving DecidableEq, Repr

/-- A step of the host (00_scope R7): it issues a word, or it changes bytes of a buffer it owns, which it may between
two operations (20_memory R78, R79; log 31). -/
inductive HostAct where
  | issue (x : Issue)
  | store (addr : Nat) (bytes : List Byte)
  deriving DecidableEq, Repr

end Sys2Proof
end

