-- ==== Sys2Proof/WellFormed.lean ====
section
/-! DEFINITION. Which instructions the encodings of spec 30_encoding can spell: a session name of 32
bits and an address of 64 bits, a handle of 8 (log 2), a channel below NCHAN (R98), a word of the shared block (10_state
R33), an even offset inside a FIFO window (R99). The channel count and the size of the windows are the layout's. -/

namespace Sys2Proof

/-- A session operand fits its field (log 2). -/
def sidOk (s : Nat) : Bool := s < 2 ^ 32

/-- An address operand fits its field (log 2). -/
def addrOk (a : Nat) : Bool := a < 2 ^ 64

/-- An optional buffer operand fits its field. -/
def bufOk : Option Nat → Bool
  | none => true
  | some a => addrOk a

/-- A handle operand fits its field (log 2). -/
def handleOk (h : Nat) : Bool := h < 2 ^ 8

/-- A channel the RC window has (R98). -/
def chanOk (L : Config.Layout) (c : Nat) : Bool := c < L.nchan

/-- A word the shared block has (10_state R33). -/
def sharedOk (j : Nat) : Bool := j < Config.nshared

/-- An even offset that a FIFO window row matches (R99). -/
def fifoOffOk (L : Config.Layout) (o : Nat) : Bool := o % 2 == 0 && o < 2 ^ L.mf.winBits

/-- The instruction has an encoding under a layout. -/
def Instr.wellFormed (L : Config.Layout) : Instr → Bool
  | .bbSetup => true
  | .bbClaim _ => true
  | .bbRelease s => sidOk s
  | .bbSetSpeed s _ => sidOk s
  | .bbSetMode s _ => sidOk s
  | .bbSetWordlen s _ => sidOk s
  | .bbTransfer s d => sidOk s && bufOk d.out && bufOk d.inp
  | .rcSetup => true
  | .rcClaim _ => true
  | .rcRelease s => sidOk s
  | .rcSetSpeed s _ => sidOk s
  | .rcSetMode s _ => sidOk s
  | .rcSetWordlen s _ => sidOk s
  | .rcTransfer s d => sidOk s && bufOk d.out && bufOk d.inp
  | .mfSetup => true
  | .mfClaim _ => true
  | .mfRelease s => sidOk s
  | .mfSetSpeed s _ => sidOk s
  | .mfSetMode s _ => sidOk s
  | .mfSetWordlen s _ => sidOk s
  | .mfTransfer s d => sidOk s && bufOk d.out && bufOk d.inp
  | .ldErase _ _ h => handleOk h
  | .ldRead _ _ dst h => handleOk h && addrOk dst
  | .ldWrite _ src _ h => handleOk h && addrOk src
  | .ldSync h => handleOk h
  | .ldLock _ _ h => handleOk h
  | .ldUnlock _ _ h => handleOk h
  | .rcChconfR c => chanOk L c
  | .rcChconfW c _ => chanOk L c
  | .rcChstatR c => chanOk L c
  | .rcChstatW c _ => chanOk L c
  | .rcChctrlR c => chanOk L c
  | .rcChctrlW c _ => chanOk L c
  | .rcTxR c => chanOk L c
  | .rcTxW c _ => chanOk L c
  | .rcRxR c => chanOk L c
  | .rcRxW c _ => chanOk L c
  | .rcSharedR j => sharedOk j
  | .rcSharedW j _ => sharedOk j
  | .mfTxfifoW o _ => fifoOffOk L o
  | .mfBusctlW _ => true
  | .mfCs0W _ => true
  | .mfCs1W _ => true
  | .mfSpeedW _ => true
  | .mfModeW _ => true
  | .mfWrbyteW _ => true
  | .mfRdbyteR => true
  | .mfReadW _ => true
  | .mfRxfifoR o => fifoOffOk L o

end Sys2Proof
end

