-- ==== Sys2Proof/Decode.lean ====
section
/-! DEFINITION. Decoding, total on any bytes, and encoding (spec 30_encoding). An operation is its
16-bit header (R91) and its operands in the order of R92, each little-endian in the width log 2 gives
it; a register access is its 13-bit key (R98, R99) and the data of a write. Which register a key names is the
layout's (10_state R46). What spells nothing is rejected by a name of `DecodeError`. -/

namespace Sys2Proof

/-- Why bytes spell no operation. -/
inductive DecodeError where
  /-- Fewer bytes than the format has. -/
  | truncated
  /-- R102: unknown `opc`, reserved `unit`, or non-zero reserved header bits. -/
  | unknownOperation
  /-- R102: the header's unit has no bus of that number (logs 1, 2). -/
  | busUnitMismatch
  /-- The machine has no configuration handle of that number (10_state R39, logs 1, 2). -/
  | noSuchHandle
  /-- R102: `flags` bits 7:3 are not 0. -/
  | reservedFlags
  /-- R102: `mode` bits 7:3 are not 0. -/
  | reservedMode
  /-- A buffer operand whose presence byte is neither 0 nor 1, or an absent buffer with an address
  (log 2). -/
  | badBuffer
  /-- A register access whose word has a bit above the 13 of the key (R98, R99). -/
  | reservedKeyBits
  /-- R98, R99, 20_memory R69: no row matches, or the width or alignment is another. -/
  | unmappedAccess
  deriving DecidableEq, Repr

/-! ## Bytes -/

/-- The low `k` bytes of `v`, lowest first. -/
def leBytes : Nat → Nat → List Byte
  | 0, _ => []
  | k + 1, v => BitVec.ofNat 8 v :: leBytes k (v / 256)

/-- Take `k` bytes, lowest first, as a number. -/
def takeLe : Nat → List Byte → Except DecodeError (Nat × List Byte)
  | 0, bs => .ok (0, bs)
  | _ + 1, [] => .error .truncated
  | k + 1, b :: bs =>
    match takeLe k bs with
    | .ok (v, rest) => .ok (b.toNat + 256 * v, rest)
    | .error e => .error e

/-! ## Operand fields -/

/-- A word operand of 32 bits. -/
def takeWord (bs : List Byte) : Except DecodeError (Word × List Byte) := do
  let (v, bs) ← takeLe 4 bs
  return (BitVec.ofNat 32 v, bs)

/-- An operand of 8 bits. -/
def takeByte (bs : List Byte) : Except DecodeError (BitVec 8 × List Byte) := do
  let (v, bs) ← takeLe 1 bs
  return (BitVec.ofNat 8 v, bs)

/-- A session operand: the session's name (log 2). It carries no bus, and each unit names its own sessions: of 30_encoding
R102's "a `unit` that disagrees with the bus" nothing can be told from a session word, and the name is looked up on the
header's unit (DESIGN CHOICE, logs 2, 13). -/
def takeSid (bs : List Byte) : Except DecodeError (Nat × List Byte) := takeLe 4 bs

/-- A host address operand (log 2). -/
def takeAddr (bs : List Byte) : Except DecodeError (Nat × List Byte) := takeLe 8 bs

/-- The bus operand: each unit has one bus, number 0 (logs 1, 2). -/
def takeBus (bs : List Byte) : Except DecodeError (List Byte) := do
  let (b, bs) ← takeByte bs
  if b = 0#8 then return bs else throw .busUnitMismatch

/-- The handle operand: a number of 8 bits (log 2). -/
def takeHandle (bs : List Byte) : Except DecodeError (Nat × List Byte) := takeLe 1 bs

/-- An optional buffer operand: a presence byte and an address (log 2). -/
def takeBuf (bs : List Byte) : Except DecodeError (Option Nat × List Byte) := do
  let (p, bs) ← takeByte bs
  let (a, bs) ← takeAddr bs
  if p = 1#8 then return (some a, bs)
  else if p = 0#8 ∧ a = 0 then return (none, bs)
  else throw .badBuffer

/-- R95: BEGIN bit 0, END bit 1, LSB bit 2, bits 7:3 zero. -/
def takeFlags (bs : List Byte) : Except DecodeError (Flags × List Byte) := do
  let (b, bs) ← takeByte bs
  if b.toNat < 8 then
    return ({ begins := b.getLsbD 0, ends := b.getLsbD 1, lsb := b.getLsbD 2 }, bs)
  else throw .reservedFlags

/-- R96: cpha bit 0, cpol bit 1, cs_high bit 2, bits 7:3 zero. -/
def takeMode (bs : List Byte) : Except DecodeError (Mode × List Byte) := do
  let (b, bs) ← takeByte bs
  if b.toNat < 8 then
    return ({ cpha := b.getLsbD 0, cpol := b.getLsbD 1, csHigh := b.getLsbD 2 }, bs)
  else throw .reservedMode

/-- R94: `n`, `out`, `in`, `flags`. -/
def takeDesc (bs : List Byte) : Except DecodeError (Desc × List Byte) := do
  let (n, bs) ← takeWord bs
  let (out, bs) ← takeBuf bs
  let (inp, bs) ← takeBuf bs
  let (flags, bs) ← takeFlags bs
  return ({ n := n, out := out, inp := inp, flags := flags }, bs)

/-! ## The operation rows -/

/-- The contract operations, `opc` 0x00 to 0x06 (R92). -/
inductive ContractOp where
  | setup
  | claim
  | release
  | setSpeed
  | setMode
  | setWordlen
  | transfer
  deriving DecidableEq, Repr

/-- The loader operations, `opc` 0x10 to 0x15 (R92). -/
inductive LoaderOp where
  | erase
  | read
  | write
  | sync
  | lock
  | unlock
  deriving DecidableEq, Repr

/-- What an `OP` header names. -/
inductive OpKind where
  | contract (u : BusUnit) (o : ContractOp)
  | loader (o : LoaderOp)
  deriving DecidableEq, Repr

/-- The `OP` rows of BB. -/
def opRowsBb : List (Nat × OpKind) :=
  [ (0x0000, .contract .bb .setup),
    (0x0001, .contract .bb .claim),
    (0x0002, .contract .bb .release),
    (0x0003, .contract .bb .setSpeed),
    (0x0004, .contract .bb .setMode),
    (0x0005, .contract .bb .setWordlen),
    (0x0006, .contract .bb .transfer) ]

/-- The `OP` rows of RC. -/
def opRowsRc : List (Nat × OpKind) :=
  [ (0x0100, .contract .rc .setup),
    (0x0101, .contract .rc .claim),
    (0x0102, .contract .rc .release),
    (0x0103, .contract .rc .setSpeed),
    (0x0104, .contract .rc .setMode),
    (0x0105, .contract .rc .setWordlen),
    (0x0106, .contract .rc .transfer) ]

/-- The `OP` rows of MF. -/
def opRowsMf : List (Nat × OpKind) :=
  [ (0x0200, .contract .mf .setup),
    (0x0201, .contract .mf .claim),
    (0x0202, .contract .mf .release),
    (0x0203, .contract .mf .setSpeed),
    (0x0204, .contract .mf .setMode),
    (0x0205, .contract .mf .setWordlen),
    (0x0206, .contract .mf .transfer) ]

/-- The `OP` rows of LD. -/
def opRowsLd : List (Nat × OpKind) :=
  [ (0x0310, .loader .erase),
    (0x0311, .loader .read),
    (0x0312, .loader .write),
    (0x0313, .loader .sync),
    (0x0314, .loader .lock),
    (0x0315, .loader .unlock) ]

/-- The 27 `OP` rows of `opcode_table.json`: the header is matched whole (mask 0xFFFF). -/
def opRows : List (Nat × OpKind) := opRowsBb ++ opRowsRc ++ opRowsMf ++ opRowsLd

/-- What the header names, if anything (R102). -/
def opOfHeader (h : Nat) : Option OpKind := (opRows.find? (fun r => r.1 == h)).map (·.2)

/-- The operands of a contract operation (R92). Of the two operands R92 gives `setup` its word carries the bus alone, as
R104 writes it; the profile is the one the bus record holds (DESIGN CHOICE, log 2). -/
def decodeContract (u : BusUnit) (o : ContractOp) (bs : List Byte) :
    Except DecodeError (Instr × List Byte) := do
  match o with
  | .setup =>
    let bs ← takeBus bs
    return (match u with | .bb => .bbSetup | .rc => .rcSetup | .mf => .mfSetup, bs)
  | .claim =>
    let bs ← takeBus bs
    let (cs, bs) ← takeByte bs
    return (match u with | .bb => .bbClaim cs | .rc => .rcClaim cs | .mf => .mfClaim cs, bs)
  | .release =>
    let (s, bs) ← takeSid bs
    return (match u with | .bb => .bbRelease s | .rc => .rcRelease s | .mf => .mfRelease s, bs)
  | .setSpeed =>
    let (s, bs) ← takeSid bs
    let (hz, bs) ← takeWord bs
    return (match u with | .bb => .bbSetSpeed s hz | .rc => .rcSetSpeed s hz | .mf => .mfSetSpeed s hz, bs)
  | .setMode =>
    let (s, bs) ← takeSid bs
    let (m, bs) ← takeMode bs
    return (match u with | .bb => .bbSetMode s m | .rc => .rcSetMode s m | .mf => .mfSetMode s m, bs)
  | .setWordlen =>
    let (s, bs) ← takeSid bs
    let (w, bs) ← takeByte bs
    return (match u with
      | .bb => .bbSetWordlen s w | .rc => .rcSetWordlen s w | .mf => .mfSetWordlen s w, bs)
  | .transfer =>
    let (s, bs) ← takeSid bs
    let (d, bs) ← takeDesc bs
    return (match u with | .bb => .bbTransfer s d | .rc => .rcTransfer s d | .mf => .mfTransfer s d, bs)

/-- The operands of a loader operation (R92). -/
def decodeLoader (o : LoaderOp) (bs : List Byte) : Except DecodeError (Instr × List Byte) := do
  let (h, bs) ← takeHandle bs
  match o with
  | .erase =>
    let (offset, bs) ← takeWord bs
    let (len, bs) ← takeWord bs
    return (.ldErase offset len h, bs)
  | .read =>
    let (offset, bs) ← takeWord bs
    let (len, bs) ← takeWord bs
    let (dst, bs) ← takeAddr bs
    return (.ldRead offset len dst h, bs)
  | .write =>
    let (offset, bs) ← takeWord bs
    let (src, bs) ← takeAddr bs
    let (len, bs) ← takeWord bs
    return (.ldWrite offset src len h, bs)
  | .sync => return (.ldSync h, bs)
  | .lock =>
    let (offset, bs) ← takeWord bs
    let (len, bs) ← takeWord bs
    return (.ldLock offset len h, bs)
  | .unlock =>
    let (offset, bs) ← takeWord bs
    let (len, bs) ← takeWord bs
    return (.ldUnlock offset len h, bs)

/-- An `OP` word (R90, R91). -/
def decodeOp (bs : List Byte) : Except DecodeError (Instr × List Byte) := do
  let (h, bs) ← takeLe 2 bs
  match opOfHeader h with
  | none => throw .unknownOperation
  | some (.contract u o) => decodeContract u o bs
  | some (.loader o) => decodeLoader o bs

/-! ## The register rows -/

/-- The byte offset of an RC register in its window (10_state R27, R33). -/
def rcOff (M : Config.RcMap) : RcReg → Nat
  | .shared j => M.shared + 4 * j
  | .conf c => M.chBase + M.chStride * c + M.conf
  | .stat c => M.chBase + M.chStride * c + M.stat
  | .ctrl c => M.chBase + M.chStride * c + M.ctrl
  | .tx c => M.chBase + M.chStride * c + M.tx
  | .rx c => M.chBase + M.chStride * c + M.rx

/-- The byte offset of an MF register in its window (10_state R36). -/
def mfOff (M : Config.MfMap) : MfReg → Nat
  | .txfifo j => M.txfifo + j
  | .busctl => M.busctl
  | .cs0 => M.cs0
  | .cs1 => M.cs1
  | .speed => M.speed
  | .mode => M.mode
  | .wrbyte => M.wrbyte
  | .rdbyte => M.rdbyte
  | .read => M.read
  | .rxfifo j => M.rxfifo + j

/-- R98, R99: the key is `{dir, off}`. -/
def keyOf (write : Bool) (off : Nat) : Nat := write.toNat * 0x1000 + off

/-- A `REG_*` row: it matches a key when `(key AND mask) = match` (R98). For the rows of a block of
registers `reg` is the block's first. -/
structure KeyRow (α : Type) where
  mask : Nat
  pattern : Nat
  write : Bool
  reg : α
  deriving DecidableEq, Repr

/-- The row of one register in one direction: all 13 bits of the key. -/
def exactRow {α : Type} (write : Bool) (off : Nat) (g : α) : KeyRow α := ⟨0x1FFF, keyOf write off, write, g⟩

/-- The row of a block of `2 ^ w` bytes of offsets, whose first register is `g`: it leaves the low `w` bits of the key
open. -/
abbrev blockRow {α : Type} (w : Nat) (write : Bool) (off : Nat) (g : α) : KeyRow α :=
  ⟨0x2000 - 2 ^ w, keyOf write off, write, g⟩

/-- The registers of channel `c`, in the order of the table. -/
def rcChannelRegs (c : Nat) : List RcReg := [.conf c, .stat c, .ctrl c, .tx c, .rx c]

/-- The channel registers of a controller of `n` channels. -/
def rcRegs (n : Nat) : List RcReg := (List.range n).flatMap rcChannelRegs

/-- The channel rows, regenerated from `CHBASE(c)` for any channel count (R100): one for each register and
direction. -/
def rcRowsChannels (L : Config.Layout) : List (KeyRow RcReg) :=
  (rcRegs L.nchan).flatMap (fun g => [exactRow false (rcOff L.rc g) g, exactRow true (rcOff L.rc g) g])

/-- The eleven words of the shared block as blocks of 8, 2 and 1 words (R98): the bits of the offset each leaves
open, and its first word. -/
def sharedBlocks : List (Nat × Nat) := [(5, 0), (3, 8), (2, 10)]

/-- The six rows of the shared block, three masks for each direction. -/
def rcRowsShared (M : Config.RcMap) : List (KeyRow RcReg) :=
  [false, true].flatMap (fun d => sharedBlocks.map (fun b => blockRow b.1 d (rcOff M (.shared b.2)) (.shared b.2)))

/-- The `REG_RC` rows: the 46 of `opcode_table.json` under its layout. -/
def rcRows (L : Config.Layout) : List (KeyRow RcReg) := rcRowsChannels L ++ rcRowsShared L.rc

/-- The row of an MF FIFO window: it leaves `winBits` bits of the offset open (R99). -/
def windowRow (M : Config.MfMap) (write : Bool) (off : Nat) (g : MfReg) : KeyRow MfReg :=
  blockRow M.winBits write off g

/-- The command registers that are written. -/
def mfCommands : List MfReg := [.busctl, .cs0, .cs1, .speed, .mode, .wrbyte, .read]

/-- The `REG_MF` rows: the 10 of `opcode_table.json` under its layout. -/
def mfRows (M : Config.MfMap) : List (KeyRow MfReg) :=
  windowRow M true M.txfifo (.txfifo 0) :: mfCommands.map (fun g => exactRow true (mfOff M g) g) ++
    [exactRow false (mfOff M .rdbyte) .rdbyte, windowRow M false M.rxfifo (.rxfifo 0)]

/-- The row a key matches. -/
def rowOfKey {α : Type} (rows : List (KeyRow α)) (key : Nat) : Option (KeyRow α) :=
  rows.find? (fun r => key &&& r.mask == r.pattern)

/-- R98: the direction and register of an RC key; every access is 4-byte aligned. -/
def rcOfKey (L : Config.Layout) (key : Nat) : Option (Bool × RcReg) :=
  match rowOfKey (rcRows L) key with
  | none => none
  | some r =>
    if key % 4 = 0 then
      match r.reg with
      | .shared _ => some (r.write, .shared ((key % 0x1000 - L.rc.shared) / 4))
      | g => some (r.write, g)
    else none

/-- R99: the direction and register of an MF key; a window offset is even. -/
def mfOfKey (M : Config.MfMap) (key : Nat) : Option (Bool × MfReg) :=
  match rowOfKey (mfRows M) key with
  | none => none
  | some r =>
    match r.reg with
    | .txfifo _ => if key % 2 = 0 then some (r.write, .txfifo (key % 2 ^ M.winBits)) else none
    | .rxfifo _ => if key % 2 = 0 then some (r.write, .rxfifo (key % 2 ^ M.winBits)) else none
    | g => some (r.write, g)

/-- A layout whose registers have each a place of their own in the 12 bits of an offset: the shared block where its
three masks reach it; the channel registers aligned, outside it and apart; the written commands and the transmit window apart, and the read command
and the receive window. -/
def legalLayout (L : Config.Layout) : Bool :=
  let offs := (rcRegs L.nchan).map (rcOff L.rc)
  let cmds := mfCommands.map (mfOff L.mf)
  let win := 2 ^ L.mf.winBits
  (L.rc.shared % 0x20 == 0 && L.rc.shared + 4 * Config.nshared ≤ 0x1000) &&
    offs.all (fun o => (o < L.rc.shared || L.rc.shared + 4 * Config.nshared ≤ o) && o < 0x1000 && o % 4 == 0) && decide offs.Nodup &&
    cmds.all (fun o => o < 0x1000 && o / win != L.mf.txfifo / win) && decide cmds.Nodup &&
    (1 ≤ L.mf.winBits && L.mf.winBits ≤ 12 && L.mf.txfifo % win == 0 && L.mf.txfifo < 0x1000 &&
      L.mf.rxfifo % win == 0 && L.mf.rxfifo < 0x1000 && L.mf.rdbyte < 0x1000 &&
      L.mf.rdbyte / win != L.mf.rxfifo / win)

/-- The width in bits of an MF register (10_state R36). -/
def mfWidth : MfReg → Nat
  | .txfifo _ => 16
  | .rxfifo _ => 16
  | .busctl => 32
  | .cs0 => 32
  | .cs1 => 32
  | .speed => 32
  | .mode => 32
  | .wrbyte => 32
  | .rdbyte => 32
  | .read => 32

/-- The key of a register access: 13 bits in a 16-bit word (R98, R99). -/
def takeKey (bs : List Byte) : Except DecodeError (Nat × List Byte) := do
  let (k, bs) ← takeLe 2 bs
  if k < 0x2000 then return (k, bs) else throw .reservedKeyBits

/-- The instruction that reads an RC register. -/
def rcReadInstr : RcReg → Instr
  | .shared j => .rcSharedR j
  | .conf c => .rcChconfR c
  | .stat c => .rcChstatR c
  | .ctrl c => .rcChctrlR c
  | .tx c => .rcTxR c
  | .rx c => .rcRxR c

/-- The instruction that writes an RC register. -/
def rcWriteInstr (v : Word) : RcReg → Instr
  | .shared j => .rcSharedW j v
  | .conf c => .rcChconfW c v
  | .stat c => .rcChstatW c v
  | .ctrl c => .rcChctrlW c v
  | .tx c => .rcTxW c v
  | .rx c => .rcRxW c v

/-- A `REG_RC` access: every RC register is accessed with 32 bits (20_memory R68). -/
def decodeRc (L : Config.Layout) (width : Nat) (bs : List Byte) : Except DecodeError (Instr × List Byte) := do
  let (key, bs) ← takeKey bs
  if width = 32 then
    match rcOfKey L key with
    | none => throw .unmappedAccess
    | some (false, g) => return (rcReadInstr g, bs)
    | some (true, g) =>
      let (v, bs) ← takeWord bs
      return (rcWriteInstr v g, bs)
  else throw .unmappedAccess

/-- The instruction that writes an MF register, where there is one (R99). -/
def mfWriteInstr (v : Word) : MfReg → Option Instr
  | .txfifo o => some (.mfTxfifoW o (v.setWidth 16))
  | .busctl => some (.mfBusctlW v)
  | .cs0 => some (.mfCs0W v)
  | .cs1 => some (.mfCs1W v)
  | .speed => some (.mfSpeedW v)
  | .mode => some (.mfModeW v)
  | .wrbyte => some (.mfWrbyteW v)
  | .read => some (.mfReadW v)
  | .rdbyte => none
  | .rxfifo _ => none

/-- The instruction that reads an MF register, where there is one (R99). -/
def mfReadInstr : MfReg → Option Instr
  | .rdbyte => some .mfRdbyteR
  | .rxfifo o => some (.mfRxfifoR o)
  | .txfifo _ => none
  | .busctl => none
  | .cs0 => none
  | .cs1 => none
  | .speed => none
  | .mode => none
  | .wrbyte => none
  | .read => none

/-- An access that no row answers is `unmappedAccess`. -/
def orUnmapped : Option Instr → Except DecodeError Instr
  | some i => .ok i
  | none => .error .unmappedAccess

/-- A `REG_MF` access: windows 16 bits wide, command registers 32 (20_memory R68). -/
def decodeMf (M : Config.MfMap) (width : Nat) (bs : List Byte) : Except DecodeError (Instr × List Byte) := do
  let (key, bs) ← takeKey bs
  match mfOfKey M key with
  | none => throw .unmappedAccess
  | some (wr, g) =>
    if width = mfWidth g then
      if wr then
        let (v, bs) ← takeLe (mfWidth g / 8) bs
        let i ← orUnmapped (mfWriteInstr (BitVec.ofNat 32 v) g)
        return (i, bs)
      else
        let i ← orUnmapped (mfReadInstr g)
        return (i, bs)
    else throw .unmappedAccess

/-- Decoding, total on any bytes: the instruction and the bytes after it. -/
def decode (L : Config.Layout) (p : Port) (bs : List Byte) : Except DecodeError (Instr × List Byte) :=
  match p with
  | .op => decodeOp bs
  | .rcWindow w => decodeRc L w bs
  | .mfWindow w => decodeMf L.mf w bs

/-- The instruction an issued word spells; bytes after it are not looked at. -/
def decodeIssue (L : Config.Layout) (x : Issue) : Except DecodeError Instr :=
  match decode L x.port x.bytes with
  | .ok (i, _) => .ok i
  | .error e => .error e

/-! ## Encoding -/

/-- The unit field of a header (R91). -/
def unitCode : BusUnit → Nat
  | .bb => 0
  | .rc => 1
  | .mf => 2

/-- `opc` of a contract operation (R92). -/
def contractCode : ContractOp → Nat
  | .setup => 0x00
  | .claim => 0x01
  | .release => 0x02
  | .setSpeed => 0x03
  | .setMode => 0x04
  | .setWordlen => 0x05
  | .transfer => 0x06

/-- `opc` of a loader operation (R92). -/
def loaderCode : LoaderOp → Nat
  | .erase => 0x10
  | .read => 0x11
  | .write => 0x12
  | .sync => 0x13
  | .lock => 0x14
  | .unlock => 0x15

/-- R91: `unit` in bits 11:8, `opc` in bits 7:0; unit 3 is LD. -/
def headerOf : OpKind → Nat
  | .contract u o => unitCode u * 0x100 + contractCode o
  | .loader o => 3 * 0x100 + loaderCode o

/-- An optional buffer (log 2). -/
def bufBytes : Option Nat → List Byte
  | none => leBytes 1 0 ++ leBytes 8 0
  | some a => leBytes 1 1 ++ leBytes 8 a

/-- R95. -/
def flagsByte (f : Flags) : Nat := f.begins.toNat + 2 * f.ends.toNat + 4 * f.lsb.toNat

/-- R96. -/
def modeByte (m : Mode) : Nat := m.cpha.toNat + 2 * m.cpol.toNat + 4 * m.csHigh.toNat

/-- R94. -/
def descBytes (d : Desc) : List Byte :=
  leBytes 4 d.n.toNat ++ bufBytes d.out ++ bufBytes d.inp ++ leBytes 1 (flagsByte d.flags)

/-- A contract operation's word. -/
def opIssue (u : BusUnit) (o : ContractOp) (operands : List Byte) : Issue :=
  { port := .op, bytes := leBytes 2 (headerOf (.contract u o)) ++ operands }

/-- A loader operation's word. -/
def loaderIssue (o : LoaderOp) (h : Nat) (operands : List Byte) : Issue :=
  { port := .op, bytes := leBytes 2 (headerOf (.loader o)) ++ leBytes 1 h ++ operands }

/-- An RC read's word. -/
def rcReadIssue (M : Config.RcMap) (g : RcReg) : Issue :=
  { port := .rcWindow 32, bytes := leBytes 2 (keyOf false (rcOff M g)) }

/-- An RC write's word. -/
def rcWriteIssue (M : Config.RcMap) (g : RcReg) (v : Word) : Issue :=
  { port := .rcWindow 32, bytes := leBytes 2 (keyOf true (rcOff M g)) ++ leBytes 4 v.toNat }

/-- An MF read's word. -/
def mfReadIssue (M : Config.MfMap) (g : MfReg) : Issue :=
  { port := .mfWindow (mfWidth g), bytes := leBytes 2 (keyOf false (mfOff M g)) }

/-- An MF write's word. -/
def mfWriteIssue (M : Config.MfMap) (g : MfReg) (v : Nat) : Issue :=
  { port := .mfWindow (mfWidth g),
    bytes := leBytes 2 (keyOf true (mfOff M g)) ++ leBytes (mfWidth g / 8) v }

/-- The word of an instruction under a layout. -/
def encode (L : Config.Layout) : Instr → Issue
  | .bbSetup => opIssue .bb .setup (leBytes 1 0)
  | .bbClaim cs => opIssue .bb .claim (leBytes 1 0 ++ leBytes 1 cs.toNat)
  | .bbRelease s => opIssue .bb .release (leBytes 4 s)
  | .bbSetSpeed s hz => opIssue .bb .setSpeed (leBytes 4 s ++ leBytes 4 hz.toNat)
  | .bbSetMode s m => opIssue .bb .setMode (leBytes 4 s ++ leBytes 1 (modeByte m))
  | .bbSetWordlen s w => opIssue .bb .setWordlen (leBytes 4 s ++ leBytes 1 w.toNat)
  | .bbTransfer s d => opIssue .bb .transfer (leBytes 4 s ++ descBytes d)
  | .rcSetup => opIssue .rc .setup (leBytes 1 0)
  | .rcClaim cs => opIssue .rc .claim (leBytes 1 0 ++ leBytes 1 cs.toNat)
  | .rcRelease s => opIssue .rc .release (leBytes 4 s)
  | .rcSetSpeed s hz => opIssue .rc .setSpeed (leBytes 4 s ++ leBytes 4 hz.toNat)
  | .rcSetMode s m => opIssue .rc .setMode (leBytes 4 s ++ leBytes 1 (modeByte m))
  | .rcSetWordlen s w => opIssue .rc .setWordlen (leBytes 4 s ++ leBytes 1 w.toNat)
  | .rcTransfer s d => opIssue .rc .transfer (leBytes 4 s ++ descBytes d)
  | .mfSetup => opIssue .mf .setup (leBytes 1 0)
  | .mfClaim cs => opIssue .mf .claim (leBytes 1 0 ++ leBytes 1 cs.toNat)
  | .mfRelease s => opIssue .mf .release (leBytes 4 s)
  | .mfSetSpeed s hz => opIssue .mf .setSpeed (leBytes 4 s ++ leBytes 4 hz.toNat)
  | .mfSetMode s m => opIssue .mf .setMode (leBytes 4 s ++ leBytes 1 (modeByte m))
  | .mfSetWordlen s w => opIssue .mf .setWordlen (leBytes 4 s ++ leBytes 1 w.toNat)
  | .mfTransfer s d => opIssue .mf .transfer (leBytes 4 s ++ descBytes d)
  | .ldErase offset len h => loaderIssue .erase h (leBytes 4 offset.toNat ++ leBytes 4 len.toNat)
  | .ldRead offset len dst h =>
    loaderIssue .read h (leBytes 4 offset.toNat ++ leBytes 4 len.toNat ++ leBytes 8 dst)
  | .ldWrite offset src len h =>
    loaderIssue .write h (leBytes 4 offset.toNat ++ leBytes 8 src ++ leBytes 4 len.toNat)
  | .ldSync h => loaderIssue .sync h []
  | .ldLock offset len h => loaderIssue .lock h (leBytes 4 offset.toNat ++ leBytes 4 len.toNat)
  | .ldUnlock offset len h => loaderIssue .unlock h (leBytes 4 offset.toNat ++ leBytes 4 len.toNat)
  | .rcChconfR c => rcReadIssue L.rc (.conf c)
  | .rcChconfW c v => rcWriteIssue L.rc (.conf c) v
  | .rcChstatR c => rcReadIssue L.rc (.stat c)
  | .rcChstatW c v => rcWriteIssue L.rc (.stat c) v
  | .rcChctrlR c => rcReadIssue L.rc (.ctrl c)
  | .rcChctrlW c v => rcWriteIssue L.rc (.ctrl c) v
  | .rcTxR c => rcReadIssue L.rc (.tx c)
  | .rcTxW c v => rcWriteIssue L.rc (.tx c) v
  | .rcRxR c => rcReadIssue L.rc (.rx c)
  | .rcRxW c v => rcWriteIssue L.rc (.rx c) v
  | .rcSharedR j => rcReadIssue L.rc (.shared j)
  | .rcSharedW j v => rcWriteIssue L.rc (.shared j) v
  | .mfTxfifoW o v => mfWriteIssue L.mf (.txfifo o) v.toNat
  | .mfBusctlW v => mfWriteIssue L.mf .busctl v.toNat
  | .mfCs0W v => mfWriteIssue L.mf .cs0 v.toNat
  | .mfCs1W v => mfWriteIssue L.mf .cs1 v.toNat
  | .mfSpeedW v => mfWriteIssue L.mf .speed v.toNat
  | .mfModeW v => mfWriteIssue L.mf .mode v.toNat
  | .mfWrbyteW v => mfWriteIssue L.mf .wrbyte v.toNat
  | .mfRdbyteR => mfReadIssue L.mf .rdbyte
  | .mfReadW v => mfWriteIssue L.mf .read v.toNat
  | .mfRxfifoR o => mfReadIssue L.mf (.rxfifo o)

/-! ## Words as `opcode_table.json` numbers them -/

/-- The longest instruction is a transfer: 2 + 4 + 4 + 9 + 9 + 1 bytes. -/
def longestBytes : Nat := 29

/-- The ports a table word of `nbits` bits may be meant for, in the order they are tried. The table's
words do not say their port (log 3): of the rows of more than 16 bits only MF window rows exist. -/
def tablePorts (nbits : Nat) : List Port :=
  if nbits ≤ 16 then [.op, .rcWindow 32, .mfWindow 32, .mfWindow 16]
  else [.mfWindow 16, .mfWindow 32, .rcWindow 32, .op]

/-- A table word as the host issues it: its bits, zeros above them, at the first port where it spells
something (log 3). -/
def issueOfTableWord (L : Config.Layout) (nbits w : Nat) : Issue :=
  let bytes := leBytes longestBytes (w % 2 ^ nbits)
  match (tablePorts nbits).find? (fun p => (decode L p bytes).toBool) with
  | some p => { port := p, bytes := bytes }
  | none => { port := .op, bytes := bytes }

/-- The instruction this decoder reads from a word of `opcode_table.json`, under the table's layout. -/
def decodeTableWord (nbits w : Nat) : Option Instr :=
  match decodeIssue Config.layout (issueOfTableWord Config.layout nbits w) with
  | .ok i => some i
  | .error _ => none

end Sys2Proof
end

