-- ==== Sys2Proof/Machine/State.lean ====
section
/-! DEFINITION. The state of SPU-SPI as plain data (spec 10_state R20 to R46), and the machine right
after reset (R44). -/

namespace Sys2Proof.Machine

/-! ## How an operation ends (00_scope R13) -/

/-- The errors an operation returns (60_exceptions R280). They are results, not faults. -/
inductive Err where
  | noSuchChipSelect
  | unsupportedBitOrder
  | bitLengthNotWordAligned
  | timeout
  | resourceUnavailable
  | configurationRejected
  deriving DecidableEq, Repr

/-- What an operation returns (30_encoding R92): nothing, ok, the name of the new session, the count of
bits or bytes, the value a register read gives, or an error. -/
inductive OpResult where
  | nothing
  | ok
  | session (id : Nat)
  | count (n : Word)
  | value (v : Word)
  | error (e : Err)
  deriving DecidableEq, Repr

/-- The model faults (60_exceptions R287): situations to which the spec gives no meaning. Each ends the
run; all are safe, since nothing is claimed of what the hardware does. -/
inductive Fault where
  /-- An operation on a session that is not its bus's live session (40_contract R120). Raised by the
  release, the setters and the transfer of each unit. Safe. -/
  | notClaimed
  /-- CLAIM on a claimed bus (R122). Raised by the claims and by `ld.write`. Safe. -/
  | reentrantClaim
  /-- RELEASE while the session's primary select is asserted (R123). Raised by the releases and by
  `ld.write`. Safe. -/
  | releaseWhileSelected
  /-- SETUP on a claimed bus (R121). Raised by the setups. Safe. -/
  | setupWhileClaimed
  /-- Output and input buffer overlap without being identical (20_memory R81). Raised by the
  transfers. Safe. -/
  | bufferOverlap
  /-- A register access no row matches (20_memory R69). Raised by the fetch and the accesses. Safe. -/
  | unmappedAccess
  /-- A word started with reserved WL or TRM (42_regctl R182), or a reserved BUSCTL value (43_mmfifo
  R222). Raised by the RC shifter and by `mf.busctl.w`. Safe. -/
  | reservedConfig
  /-- A second RC channel would be active (42_regctl R187), or a second MF select asserted (43_mmfifo
  R223). Raised by CONF writes, the RC shifter and the MF select writes. Safe. -/
  | multiChannelActive
  /-- TX written while TXS = 0 (42_regctl R177). Raised by `rc.tx.w`. Safe. -/
  | txOverrun
  /-- A word or byte arrives with no room (42_regctl R183, 43_mmfifo R230). Raised by the RC shifter and
  by the MF exchanges. Safe. -/
  | rxOverrun
  /-- RX read while RXS = 0 (42_regctl R179), or an MF queue read with too few bytes (43_mmfifo R227,
  R229). Raised by `rc.rx.r`, `mf.rdbyte.r`, `mf.rxfifo.r`. Safe. -/
  | rxUnderrun
  deriving DecidableEq, Repr

/-- Why the machine has no meaning for what was issued. -/
inductive Refusal where
  /-- The instruction has no meaning in this model yet. Raised by exec's arms only. Safe. -/
  | notModelled (mnemonic : String)
  /-- What was issued spells no operation (30_encoding R102). Raised by the fetch, and by the loader's operations
  for a handle the machine does not have (10_state R39). Safe. -/
  | noOperation (why : DecodeError)
  deriving DecidableEq, Repr

/-! ## Observations (00_scope R8, R12) -/

/-- The argument of a `DLY` marker. -/
inductive DelayTime where
  /-- BB idle cycles (41_bitbang R156). -/
  | cycles (n : Word)
  /-- Microseconds (44_loader R252, R253). -/
  | micros (n : Nat)
  deriving DecidableEq, Repr

/-- The pin events (R12). The events of a bus carry its unit, those of the handshake lines their handle. -/
inductive PinEvent where
  /-- `CK=b` -/
  | clk (u : BusUnit) (b : Bool)
  /-- `DO=b` -/
  | dout (u : BusUnit) (b : Bool)
  /-- `DI?b` -/
  | din (u : BusUnit) (b : Bool)
  /-- `CS[i]+` (true) and `CS[i]-` (false) -/
  | cs (u : BusUnit) (i : Nat) (asserted : Bool)
  /-- `CS2+` (true) and `CS2-` (false) -/
  | cs2 (u : BusUnit) (asserted : Bool)
  /-- `NCFG=b` -/
  | ncfg (h : Nat) (b : Bool)
  /-- `ST?b` -/
  | status (h : Nat) (b : Bool)
  /-- `DN?b` -/
  | done (h : Nat) (b : Bool)
  /-- `CRC?b` -/
  | crc (h : Nat) (b : Bool)
  /-- `DLY(t)` -/
  | delay (t : DelayTime)
  /-- `WORD(c, w, pol, pha, out, in)`; `in` is absent for a transmit-only word -/
  | word (c w : Nat) (pol pha : Bool) (out : Word) (inp : Option Word)
  /-- `ABORT(c)`: how many bits reached the pins is not determined (42_regctl R175) -/
  | abort (c : Nat)
  /-- `BYTE(out, in)` -/
  | byte (out inp : Byte)
  deriving DecidableEq, Repr

/-- A register of a window, by its name in the register maps (10_state R27, R36). -/
inductive RegName where
  | rc (g : RcReg)
  | mf (g : MfReg)
  deriving DecidableEq, Repr

/-- One access to a register window (00_scope R8, R11). Its offset is what the layout gives the register
(`RegAccess.off`). -/
structure RegAccess where
  reg : RegName
  write : Bool
  width : Nat
  value : Word
  deriving DecidableEq, Repr

/-- The window an access is made to. -/
def RegAccess.unit (a : RegAccess) : BusUnit :=
  match a.reg with
  | .rc _ => .rc
  | .mf _ => .mf

/-- The byte offset of an access in its window (R11). -/
def RegAccess.off (L : Config.Layout) (a : RegAccess) : Nat :=
  match a.reg with
  | .rc g => rcOff L.rc g
  | .mf g => mfOff L.mf g

/-- One entry of the trace: a pin event or a register access. -/
inductive Obs where
  | pin (e : PinEvent)
  | reg (a : RegAccess)
  deriving DecidableEq, Repr

/-! ## Inputs: the Device Profile, the parameters, the environment -/

/-- What the Device Profile says of one slave (10_state R43). -/
structure SlaveProfile where
  maxHz : Word
  cpol : Bool
  cpha : Bool
  csHigh : Bool
  deriving DecidableEq, Repr

/-- What the Device Profile says of a bus (R43). Entry `i` of `slaves` is slave `i`. Whether SCLK, MOSI and MISO
(`linesOk`) and the secondary select (`cs2Ok`) can be obtained is no profile field of R43, and 41_bitbang R150 gives
it no source: that the two are constants of the bus, so that a repeated SETUP ends the same way, is a DESIGN CHOICE
(log 32). -/
structure BusProfile where
  ncs : BitVec 8
  nbound : BitVec 8
  hasCs2 : Bool
  linesOk : Bool
  cs2Ok : Bool
  windowOk : Bool
  slaves : List SlaveProfile
  deriving DecidableEq, Repr

/-- The OPEN parameters of 00_scope R9 and the register maps (R46). `fifoHalf` and `chunkPred` make FIFO_BYTES even
and positive, and CHUNK_BYTES positive and such that a chunk and one byte more have a bit length of 32 bits (log 16).
NCHAN is the number of channels of `RcBus`. -/
structure Params where
  rcMap : Config.RcMap
  mfMap : Config.MfMap
  fifoHalf : Nat
  chunkPred : Fin 536870910
  fill : Byte
  refHz : Nat
  tPoll : Nat
  tSettle : Nat
  delayMax : Word
  deriving DecidableEq, Repr

/-- Answers of one kind still to come: a scripted part, and how many have been taken. Past the script
an answer is a free value of that number (log 5). -/
structure Draws (α : Type) where
  script : List α
  taken : Nat
  deriving DecidableEq, Repr

/-- The environment's answers (00_scope R7) and the choices the spec leaves free (93 U2, U18). -/
structure Env where
  miso : Draws Bool
  word : Draws Word
  byte : Draws Byte
  status : Draws Bool
  done : Draws Bool
  crc : Draws Bool
  /-- the byte past the end of the loader's buffer (20_memory R71, 93 U23) -/
  pad : Draws Byte
  /-- by how much the timer advances at each reading (93 U25) -/
  tick : Draws Nat
  /-- how many readings before the deadline each timed wait can make (log 7) -/
  rounds : Draws Nat
  /-- the shifter steps offered in each gap, by channel (log 6) -/
  sched : Draws (List Nat)
  /-- BB's choice for transmit-only transfers in phase 1 (93 U2) -/
  fast : Draws Bool
  deriving DecidableEq, Repr

/-! ## Bus and session (10_state R21, R22) -/

/-- The session attribute registers (R22). `id` is the model's name of the session (log 13). -/
structure Session where
  id : Nat
  cs : BitVec 8
  cpol : Bool
  cpha : Bool
  csHigh : Bool
  wordlen : BitVec 8
  clkd : BitVec 4
  delay : Word
  hz : Word
  deriving DecidableEq, Repr

/-- The bus record (R21). `claimed` is stored as `cur` being present. -/
structure BusRec where
  profile : BusProfile
  cfgOk : Bool
  cur : Option Session
  cs2Asserted : Bool
  nextSid : Nat
  deriving DecidableEq, Repr

/-! ## The units -/

/-- BB (10_state R26). `csAsserted` and `csLevel` hold one bit for each index: whether the line is asserted, and the
physical level it was last driven to (41_bitbang R156, 70_reset_and_hazards R321; log 19). -/
structure BbBus where
  bus : BusRec
  nbound : BitVec 8
  csAsserted : BitVec 256
  csLevel : BitVec 256
  sclk : Bool
  mosi : Bool
  deriving DecidableEq, Repr

/-- The configuration latched for the word in flight (10_state R34). -/
structure ShiftCfg where
  wl : BitVec 5
  pol : Bool
  pha : Bool
  trm : BitVec 2
  deriving DecidableEq, Repr

/-- One RC channel: registers (10_state R28 to R32) and hidden state (R34). -/
structure Channel where
  conf : Word
  ctrl : Word
  tx : Word
  rx : Word
  txFull : Bool
  rxFull : Bool
  rxReq : Bool
  busy : Bool
  shCfg : ShiftCfg
  shOut : Word
  deriving DecidableEq, Repr

/-- RC (10_state R27 to R34). Entry `c` of `ch` is channel `c`. -/
structure RcBus where
  bus : BusRec
  shared : Vector Word 11
  ch : List Channel
  deriving DecidableEq, Repr

/-- NCHAN (00_scope R9): how many channels the controller has. No step changes it. -/
def RcBus.nchan (r : RcBus) : Nat := r.ch.length

/-- MF (10_state R37, R38). `cs0`, `cs1` are 1 when de-asserted. -/
structure MfBus where
  bus : BusRec
  claimed : Bool
  cs0 : Bool
  cs1 : Bool
  speed : Word
  mode : Word
  rxq : List Byte
  deriving DecidableEq, Repr

/-- The loader's states (44_loader R250). -/
inductive LdState where
  | idle
  | resetting
  | streaming
  | awaitingDone
  | ready
  | failed
  deriving DecidableEq, Repr

/-- A configuration handle (10_state R39, R40); `bus`, `cs`, `size`, `hasCrc` come from the profile. -/
structure Handle where
  bus : BusUnit
  cs : BitVec 8
  size : Word
  hasCrc : Bool
  state : LdState
  lastError : Option Err
  crcDiag : Option Bool
  ncfg : Bool
  deriving DecidableEq, Repr

end Sys2Proof.Machine

namespace Sys2Proof.Machine

/-- The state of the machine: one bus of each unit (log 1), one configuration handle per loader target (10_state R39),
host memory, the timer and the fault mark; the inputs; and the observations. -/
structure State where
  bb : BbBus
  rc : RcBus
  mf : MfBus
  ld : List Handle
  mem : List Host.Cell
  now : Nat
  faultMark : List Fault
  params : Params
  env : Env
  queue : List HostAct
  trace : List Obs
  result : Option OpResult
  deriving DecidableEq, Repr

/-! ## Reset (10_state R44, 70 R310) -/

/-- A bus record after reset, under a profile. -/
def BusRec.reset (p : BusProfile) : BusRec :=
  { profile := p, cfgOk := false, cur := none, cs2Asserted := false, nextSid := 0 }

/-- The Device Profile `State.reset` carries: `n` selects, all bound, no secondary select, everything
obtainable, no slave listed. DESIGN CHOICE (log 10): the profile is the outside's. -/
def BusProfile.initial (n : BitVec 8) : BusProfile :=
  { ncs := n, nbound := n, hasCs2 := false, linesOk := true, cs2Ok := true, windowOk := true, slaves := [] }

/-- No answer scripted (log 5). -/
def Draws.reset {α : Type} : Draws α := { script := [], taken := 0 }

/-- R44; the shifter's latches are unspecified while no word is in flight (log 9). -/
def Channel.reset (c : Nat) : Channel :=
  { conf := 0#32, ctrl := 0#32, tx := 0#32, rx := 0#32,
    txFull := false, rxFull := false, rxReq := false, busy := false,
    shCfg := { wl := Config.resetShWl c, pol := Config.resetShPol c, pha := Config.resetShPha c,
               trm := Config.resetShTrm c },
    shOut := Config.resetShOut c }

/-- R44. -/
def BbBus.reset : BbBus :=
  { bus := BusRec.reset (BusProfile.initial 2#8), nbound := 0#8, csAsserted := 0#256,
    csLevel := Config.resetCsLevel, sclk := Config.resetSclk, mosi := Config.resetMosi }

/-- R44, with the default NCHAN (log 15). -/
def RcBus.reset : RcBus :=
  { bus := BusRec.reset (BusProfile.initial 4#8),
    shared := #v[0#32, 0#32, 0#32, 0#32, 0#32, 0#32, 0#32, 0#32, 0#32, 0#32, 0#32],
    ch := (List.range Config.nchanDefault).map Channel.reset }

/-- R44. -/
def MfBus.reset : MfBus :=
  { bus := BusRec.reset (BusProfile.initial 2#8), claimed := false, cs0 := true, cs1 := true,
    speed := 0#32, mode := 0#32, rxq := [] }

/-- R44; the handle's profile fields are log 10's. -/
def Handle.reset : Handle :=
  { bus := .bb, cs := 0#8, size := 0#32, hasCrc := false, state := .idle, lastError := none,
    crcDiag := none, ncfg := Config.resetNcfg }

/-- The parameters of R9 with a default at it; the others free (log 11). -/
def Params.initial : Params :=
  { rcMap := Config.rcMap, mfMap := Config.mfMap, fifoHalf := 127, chunkPred := Config.resetChunkPred, fill := 0xFF#8, refHz := Config.resetRefHz,
    tPoll := 10, tSettle := Config.resetTSettle, delayMax := Config.resetDelayMax }

/-- No answer scripted. -/
def Env.reset : Env :=
  { miso := .reset, word := .reset, byte := .reset, status := .reset, done := .reset, crc := .reset,
    pad := .reset, tick := .reset, rounds := .reset, sched := .reset, fast := .reset }

/-- The machine right after power-on: it waits for the host's first operation (70 R310). -/
def State.reset : State :=
  { bb := BbBus.reset, rc := RcBus.reset, mf := MfBus.reset, ld := [Handle.reset], mem := [],
    now := Config.resetNow, faultMark := [], params := Params.initial, env := Env.reset, queue := [],
    trace := [], result := none }

end Sys2Proof.Machine
end

