-- ==== Sys2Proof/Machine/Ops.lean ====
section
/-! DEFINITION. The operations every unit shares: host memory (spec 20_memory R61), the draws of the
environment (00_scope R7), the timer (60_exceptions R295), the trace (00_scope R12), the bus records, the
secondary select, and how an operation ends (00_scope R13). There are no traps (60_exceptions R288): an
error is the result an operation returns, and `finish` is the one place that records it. -/

namespace Sys2Proof.Machine

/-! ## Host memory: address and byte, addresses strictly rising, no entry equal to the default -/

/-- Host memory in its canonical form (log 8). -/
abbrev Memory := List Host.Cell

/-- The byte at an address. -/
def readByte : Memory → Nat → Byte
  | [], _ => Config.memDefault
  | (k, v) :: m, a => if a < k then Config.memDefault else if a = k then v else readByte m a

/-- Store a byte; storing the default removes the entry. -/
def writeByte : Memory → Nat → Byte → Memory
  | [], a, v => if v = Config.memDefault then [] else [(a, v)]
  | (k, w) :: m, a, v =>
    if a < k then (if v = Config.memDefault then (k, w) :: m else (a, v) :: (k, w) :: m)
    else if a = k then (if v = Config.memDefault then m else (a, v) :: m)
    else (k, w) :: writeByte m a v

/-- The address is below every key of the memory's first entry. -/
def belowFirst (a : Nat) : Memory → Bool
  | [] => true
  | (k, _) :: _ => decide (a < k)

/-- The canonical form holds. -/
def Memory.wf : Memory → Bool
  | [] => true
  | (k, v) :: m => decide (v ≠ Config.memDefault) && belowFirst k m && Memory.wf m

/-- `MemWrite(a, 1, v)` (R61). -/
def storeByte (a : Nat) (v : Byte) (s : State) : State := { s with mem := writeByte s.mem a v }

/-- `MemWrite` of consecutive bytes, ascending. -/
def storeBytes : Nat → List Byte → State → State
  | _, [], s => s
  | a, v :: vs, s => storeBytes (a + 1) vs (storeByte a v s)

/-- `MemRead(a, n)` (R61). -/
def loadBytes (m : Memory) (a : Nat) : Nat → List Byte
  | 0 => []
  | n + 1 => readByte m a :: loadBytes m (a + 1) n

/-! ## Draws -/

/-- The next answer: the script's, or past its end the free value of that number (log 5). -/
def Draws.next {α : Type} (free : Nat → α) (d : Draws α) : α :=
  match d.script with
  | a :: _ => a
  | [] => free d.taken

/-- The answers after the next one. -/
def Draws.rest {α : Type} (d : Draws α) : Draws α := { script := d.script.tail, taken := d.taken + 1 }

/-! ## Trace -/

/-- Add one entry to the trace. -/
def emit (o : Obs) (s : State) : State := { s with trace := s.trace ++ [o] }

/-- Add a pin event to the trace. -/
def emitPin (e : PinEvent) (s : State) : State := emit (.pin e) s

/-! ## Timer (R295) -/

/-- `Now()`: a reading that is not below the last one. -/
def readNow (s : State) : Nat × State :=
  let t := s.now + s.env.tick.next Config.freeTick
  (t, { s with now := t, env := { s.env with tick := s.env.tick.rest } })

/-- The reading that ends a timed wait whose deadline is before `t` (log 7): not below the last one and
not below `t`. -/
def readNowFrom (t : Nat) (s : State) : State :=
  { s with now := max (s.now + s.env.tick.next Config.freeTick) t,
           env := { s.env with tick := s.env.tick.rest } }

/-- How many readings before its deadline the timed wait that starts now can make (log 7). -/
def drawRounds (s : State) : Nat × State :=
  (s.env.rounds.next Config.freeRounds, { s with env := { s.env with rounds := s.env.rounds.rest } })

/-! ## Configuration handles (10_state R39) -/

/-- The handle of number `h`. A number that is no handle reads as a handle after reset; no operation reaches one. -/
def State.handle (s : State) (h : Nat) : Handle :=
  match s.ld[h]? with
  | some x => x
  | none => Handle.reset

/-- Replace the handle of number `h`. -/
def setHandle (h : Nat) (x : Handle) (s : State) : State := { s with ld := s.ld.set h x }

/-! ## Bus records -/

/-- The bus record of a unit. -/
def State.bus (s : State) : BusUnit → BusRec
  | .bb => s.bb.bus
  | .rc => s.rc.bus
  | .mf => s.mf.bus

/-- Replace the bus record of a unit. -/
def State.setBus (u : BusUnit) (b : BusRec) (s : State) : State :=
  match u with
  | .bb => { s with bb := { s.bb with bus := b } }
  | .rc => { s with rc := { s.rc with bus := b } }
  | .mf => { s with mf := { s.mf with bus := b } }

/-- `bus.claimed` (10_state R21). -/
def BusRec.claimed (b : BusRec) : Bool := b.cur.isSome

/-- The profile of slave `cs`; of a slave the Device Profile does not list it is free (log 24). -/
def BusProfile.slave (p : BusProfile) (cs : Nat) : SlaveProfile :=
  match p.slaves[cs]? with
  | some x => x
  | none => { maxHz := Config.freeMaxHz cs, cpol := Config.freeCpol cs, cpha := Config.freeCpha cs,
              csHigh := Config.freeCsHigh cs }

/-- R120: the session a name stands for must be the live session of its bus. -/
def liveSession (u : BusUnit) (sid : Nat) (s : State) : Except Fault Session :=
  match (s.bus u).cur with
  | some S => if S.id = sid then .ok S else .error .notClaimed
  | none => .error .notClaimed

/-- Replace the attributes of a bus's live session. -/
def putSession (u : BusUnit) (S : Session) (s : State) : State :=
  s.setBus u { s.bus u with cur := some S }

/-- Drive the secondary select of a bus, whatever the profile says (R156). -/
def driveCs2 (u : BusUnit) (a : Bool) (s : State) : State :=
  emitPin (.cs2 u a) (s.setBus u { s.bus u with cs2Asserted := a })

/-- `Cs2(S, a)` (40_contract R137): only when the bus has a secondary select. -/
def cs2 (u : BusUnit) (a : Bool) (s : State) : State :=
  if (s.bus u).profile.hasCs2 then driveCs2 u a s else s

/-! ## Parameters -/

/-- The layout under which the machine's keys are read: its channel count and its register maps (10_state R46). -/
def State.layout (s : State) : Config.Layout :=
  { nchan := s.rc.nchan, rc := s.params.rcMap, mf := s.params.mfMap }

/-- FIFO_BYTES: even and positive (log 16). -/
def Params.fifoBytes (p : Params) : Nat := 2 * (p.fifoHalf + 1)

/-- CHUNK_BYTES: 1 to 2^29 - 2 (log 16). -/
def Params.chunkBytes (p : Params) : Nat := p.chunkPred.val + 1

/-! ## How an operation ends (00_scope R13) -/

/-- The numeric code of an error (60_exceptions R280). -/
def Err.code : Err → Nat
  | .noSuchChipSelect => 1
  | .unsupportedBitOrder => 2
  | .bitLengthNotWordAligned => 3
  | .timeout => 4
  | .resourceUnavailable => 5
  | .configurationRejected => 6

/-- An operation ends with a result, which may be an error, or with a model fault. -/
def finish : Except Fault (OpResult × State) → Host.Outcome State Fault Refusal
  | .ok (r, s) => .next { s with result := some r }
  | .error f => .fault f

/-- What answers bytes that spell nothing: a register access no row matches is the fault
`UnmappedAccess` (20_memory R69); anything else is refused (30_encoding R102). -/
def rejected : DecodeError → Host.Outcome State Fault Refusal
  | .unmappedAccess => .fault .unmappedAccess
  | .truncated => .refused (.noOperation .truncated)
  | .unknownOperation => .refused (.noOperation .unknownOperation)
  | .busUnitMismatch => .refused (.noOperation .busUnitMismatch)
  | .noSuchHandle => .refused (.noOperation .noSuchHandle)
  | .reservedFlags => .refused (.noOperation .reservedFlags)
  | .reservedMode => .refused (.noOperation .reservedMode)
  | .badBuffer => .refused (.noOperation .badBuffer)
  | .reservedKeyBits => .refused (.noOperation .reservedKeyBits)

end Sys2Proof.Machine
end

