-- ==== Sys2Proof/Machine/Flags.lean ====
section
/-! DEFINITION. Control and status bits: the fields of CONF (spec 10_state R28), STAT (R29), EN (R30), the
conditions of the RC shifter (42_regctl R182), the select pin (R185), and the physical select levels. -/

namespace Sys2Proof.Machine

/-- The fields of CONF (R28); its other bits are reserved and read 0. -/
structure ConfFields where
  pha : Bool
  pol : Bool
  clkd : BitVec 4
  epol : Bool
  wl : BitVec 5
  trm : BitVec 2
  force : Bool
  deriving DecidableEq, Repr

/-- The fields at their positions (R28). -/
def confFields (v : Word) : ConfFields :=
  { pha := v.getLsbD 0, pol := v.getLsbD 1, clkd := v.extractLsb' 2 4, epol := v.getLsbD 6,
    wl := v.extractLsb' 7 5, trm := v.extractLsb' 12 2, force := v.getLsbD 20 }

/-- The register value with these fields and reserved bits 0. -/
def confWord (f : ConfFields) : Word :=
  (BitVec.ofBool f.pha).setWidth 32 ||| ((BitVec.ofBool f.pol).setWidth 32 <<< 1) |||
  (f.clkd.setWidth 32 <<< 2) ||| ((BitVec.ofBool f.epol).setWidth 32 <<< 6) |||
  (f.wl.setWidth 32 <<< 7) ||| (f.trm.setWidth 32 <<< 12) ||| ((BitVec.ofBool f.force).setWidth 32 <<< 20)

/-- The bits of CONF that are not reserved (42_regctl R171). -/
def confMask : Word := 0x00103FFF#32

/-- The bits of CTRL that are not reserved (R175). -/
def ctrlMask : Word := 0x00000001#32

/-- The bits of MF MODE that are not reserved (43_mmfifo R225). -/
def modeMask : Word := 0x00000007#32

/-- `CONF.FORCE`. -/
def Channel.force (x : Channel) : Bool := x.conf.getLsbD 20

/-- `CONF.TRM`. -/
def Channel.trm (x : Channel) : BitVec 2 := x.conf.extractLsb' 12 2

/-- `CONF.WL`. -/
def Channel.wl (x : Channel) : BitVec 5 := x.conf.extractLsb' 7 5

/-- `CTRL.EN`. -/
def Channel.en (x : Channel) : Bool := x.ctrl.getLsbD 0

/-- `STAT.TXS` (R29): no word waiting and none in flight. -/
def Channel.txs (x : Channel) : Bool := !x.txFull && !x.busy

/-- `STAT.RXS` (R29). -/
def Channel.rxs (x : Channel) : Bool := x.rxFull

/-- `STAT` (R29, 42_regctl R173): RXS bit 0, TXS bit 1, the rest 0. -/
def Channel.stat (x : Channel) : Word :=
  (BitVec.ofBool x.rxs).setWidth 32 ||| ((BitVec.ofBool x.txs).setWidth 32 <<< 1)

/-- R185, R35: `CS[c]` is asserted, which is also when the channel is active (R187). -/
def Channel.active (x : Channel) : Bool := x.force || x.busy

/-- R185: the physical level of `CS[c]`. -/
def Channel.csLevel (x : Channel) : Bool := if x.conf.getLsbD 6 then !x.active else x.active

/-- A receive-only word is requested and there is room for it (R182). -/
def Channel.receiveWaits (x : Channel) : Bool := x.rxReq && !x.rxFull

/-- R182: when `Start` is enabled: under TRM 0 and 2 when a word waits to be sent, under TRM 1 when one is requested.
Under the reserved TRM 3, for which R182 gives no direction, when either waits: the start is the fault of 30_encoding
R101 (log 25). -/
def Channel.startable (x : Channel) : Bool :=
  x.en && !x.busy &&
    ((x.trm != 1#2 && x.txFull) || ((x.trm == 1#2 || x.trm == 3#2) && x.receiveWaits))

/-- R182, R183: some shifter step is enabled. -/
def Channel.movable (x : Channel) : Bool := x.busy || x.startable

/-- The word length of a channel's in-flight word. -/
def ShiftCfg.bits (k : ShiftCfg) : Nat := k.wl.toNat + 1

/-- 41_bitbang R156, 43_mmfifo R223: the physical level of a primary select, asserted or not, under `cs_high`. -/
def selectLevel (csHigh asserted : Bool) : Bool := if csHigh then asserted else !asserted

/-- MF's slot `i` is asserted: its bit is 0 (10_state R37). -/
def MfBus.asserted (x : MfBus) (i : Nat) : Bool := if i = 0 then !x.cs0 else !x.cs1

/-- 43_mmfifo R223: the physical level of slot `i`'s select follows bit 2 of `mf_mode`, at once (log 19). -/
def MfBus.csLevel (x : MfBus) (i : Nat) : Bool := selectLevel (x.mode.getLsbD 2) (x.asserted i)

/-- The expansion of a word into line events (42_regctl R186): `w` bits, the most significant first. -/
def expandWord (u : BusUnit) (pol pha : Bool) (out : Word) (inp : Option Word) : Nat → List PinEvent
  | 0 => []
  | w + 1 =>
    let di : List PinEvent := match inp with
      | some i => [.din u (i.getLsbD w)]
      | none => []
    (if pha then [.clk u (!pol), .dout u (out.getLsbD w), .clk u pol] ++ di
     else [.dout u (out.getLsbD w), .clk u (!pol)] ++ di ++ [.clk u pol])
    ++ expandWord u pol pha out inp w

/-- The line events of a pin event: a word and a byte expand (R186; 43_mmfifo R230 under `mf_mode`), any
other event is itself. -/
def lineEvents (mfMode : Word) : PinEvent → List PinEvent
  | .word _ w pol pha out inp => expandWord .rc pol pha out inp w
  | .byte o i =>
    expandWord .mf (mfMode.getLsbD 1) (mfMode.getLsbD 0) (o.setWidth 32) (some (i.setWidth 32)) 8
  | e => [e]

end Sys2Proof.Machine
end

