-- ==== Sys2Proof/Machine/Operands.lean ====
section
/-! DEFINITION. The operand forms of a transfer (spec 20_memory R61 to R67, R81): the buffer as a bit
stream, elements, partial bytes, byte pairs, and the test of overlapping buffers. -/

namespace Sys2Proof.Machine

/-- `ceil(n/8)` (40_contract R138). -/
def byteLen (n : Nat) : Nat := (n + 7) / 8

/-- `rev8` (00_scope R10): bit `i` of the result is bit `7 - i`. -/
def rev8 (b : Byte) : Byte := b.reverse

/-- R62, R63: the bit of its byte that stream bit `k` is. -/
def bitPos (lsb : Bool) (k : Nat) : Nat := if lsb then k % 8 else 7 - k % 8

/-- Output stream bit `k` of a buffer: bit `bitPos` of byte `k div 8`; 0 without a buffer
(40_contract R132). -/
def outBit (out : Option Nat) (lsb : Bool) (m : Memory) (k : Nat) : Bool :=
  match out with
  | none => false
  | some a => (readByte m (a + k / 8)).getLsbD (bitPos lsb k)

/-- `b[p] <- v`. -/
def putBit (b : Byte) (p : Nat) (v : Bool) : Byte :=
  if v then b ||| (1#8 <<< p) else b &&& ~~~(1#8 <<< p)

/-- Input stream bit `k` goes into the assembly byte `acc`; the byte is stored when it is complete or
when the bit is the last (R61, R64), and the assembly starts again from 0, so that the low bits of a
partial last byte are 0. -/
def putInBit (inp : Option Nat) (lsb last : Bool) (k : Nat) (b : Bool) (acc : Byte) (s : State) :
    Byte × State :=
  let acc := putBit acc (bitPos lsb k) b
  if k % 8 = 7 ∨ last then
    match inp with
    | some a => (0#8, storeByte (a + k / 8) acc s)
    | none => (0#8, s)
  else (acc, s)

/-- The number whose bits, the most significant first, are `f k, f (k+1), ..` (`w` of them), after the
bits of `acc`. -/
def gatherBits (f : Nat → Bool) : Nat → Nat → Word → Word
  | 0, _, acc => acc
  | w + 1, k, acc => gatherBits f w (k + 1) ((acc <<< 1) ||| (BitVec.ofBool (f k)).setWidth 32)

/-- `zext_32(E_out(i))` (R65): the first stream bit of the element is its most significant. -/
def outElem (out : Option Nat) (lsb : Bool) (m : Memory) (w i : Nat) : Word :=
  gatherBits (outBit out lsb m) w (i * w) 0#32

/-- R66: the bits `r[j-1], .., r[0]` are stream bits `k, ..`; `n` is the length of the transfer. RC
receives most significant bit first only (42_regctl R202). -/
def putInElem (inp : Option Nat) (n : Nat) (r : Word) : Nat → Nat → Byte → State → Byte × State
  | 0, _, acc, s => (acc, s)
  | j + 1, k, acc, s =>
    let (acc, s) := putInBit inp false (k + 1 == n) k (r.getLsbD j) acc s
    putInElem inp n r j (k + 1) acc s

/-- The low `w` bits, the rest 0. -/
def lowBits (w : Nat) (v : Word) : Word := v &&& BitVec.ofNat 32 (2 ^ w - 1)

/-- MF's `F` (43_mmfifo R238): each byte reversed for LSB-first. -/
def flipByte (lsb : Bool) (b : Byte) : Byte := if lsb then rev8 b else b

/-- R67: the byte at the lower address, or received first, in bits 7:0. -/
def pairWord (lo hi : Byte) : Word := (hi ++ lo).setWidth 32

/-- Bits 7:0 of a register value. -/
def loByte (v : Word) : Byte := v.setWidth 8

/-- Bits 15:8 of a register value. -/
def hiByte (v : Word) : Byte := (v >>> 8).setWidth 8

/-- R81, 40_contract R127 test 7: two ranges of `l` bytes overlap without being identical. -/
def overlapping (out inp : Option Nat) (l : Nat) : Bool :=
  match out, inp with
  | some a, some b => a ≠ b && decide (a < b + l) && decide (b < a + l)
  | _, _ => false

end Sys2Proof.Machine
end

