-- ==== Sys2Proof/Machine/MfPeer.lean ====
section
/-! DEFINITION. The MF peer (spec 43_mmfifo, Part A): what each access to the window does (R221 to R231).
The peer takes no step of its own (R220). -/

namespace Sys2Proof.Machine

/-- A register access in the trace. -/
def mfLog (write : Bool) (g : MfReg) (v : Word) (s : State) : State :=
  emit (.reg { reg := .mf g, write := write, width := mfWidth g, value := v }) s

/-- R230: `EXCH(o)`: a byte is exchanged and the received byte queued. -/
def mfExch (o : Byte) (s : State) : Except Fault State :=
  let i := s.env.byte.next Config.freeByte
  let s := { s with env := { s.env with byte := s.env.byte.rest } }
  let s := emitPin (.byte o i) s
  if s.mf.rxq.length < s.params.fifoBytes then
    .ok { s with mf := { s.mf with rxq := s.mf.rxq ++ [i] } }
  else .error .rxOverrun

/-- R228: `EXCH(0x00)` this many times. -/
def mfExchZeros : Nat → State → Except Fault State
  | 0, s => .ok s
  | n + 1, s => do
    let s ← mfExch 0#8 s
    mfExchZeros n s

/-- R223: the write of a select slot: bit 0 of the value, 0 asserts. -/
def mfSelectWrite (i : Nat) (v : Word) (s : State) : Except Fault State :=
  let level := v.getLsbD 0
  let other := if i = 0 then s.mf.cs1 else s.mf.cs0
  if !level && !other then .error .multiChannelActive
  else
    let s := { s with mf :=
      if i = 0 then { s.mf with cs0 := level } else { s.mf with cs1 := level } }
    .ok (emitPin (.cs .mf i (!level)) s)

/-- R222: 1 claims, 0 releases. -/
def mfBusctl (v : Word) (s : State) : Except Fault State :=
  if v = 1#32 then .ok { s with mf := { s.mf with claimed := true } }
  else if v = 0#32 then .ok { s with mf := { s.mf with claimed := false } }
  else .error .reservedConfig

/-- The offset lies in a FIFO window and is even (R221, R229). -/
def mfWindowOk (p : Params) (o : Nat) : Bool := o % 2 == 0 && o < p.fifoBytes

/-- A write of the MF window (R221 to R226, R228); `v` is the value, of 16 bits for the window. -/
def mfWrite (g : MfReg) (v : Word) (s : State) : Except Fault State :=
  let logged := mfLog true g v s
  match g with
  | .txfifo o =>
    if mfWindowOk s.params o then do
      let s ← mfExch (loByte v) logged
      mfExch (hiByte v) s
    else .error .unmappedAccess
  | .busctl => mfBusctl v logged
  | .cs0 => mfSelectWrite 0 v logged
  | .cs1 => mfSelectWrite 1 v logged
  | .speed => .ok { logged with mf := { logged.mf with speed := v } }
  | .mode => .ok { logged with mf := { logged.mf with mode := v &&& modeMask } }
  | .wrbyte => mfExch (loByte v) logged
  | .read => mfExchZeros v.toNat logged
  | .rdbyte => .error .unmappedAccess
  | .rxfifo _ => .error .unmappedAccess

/-- A read of the MF window (R227, R229). -/
def mfRead (g : MfReg) (s : State) : Except Fault (Word × State) :=
  match g with
  | .rdbyte =>
    match s.mf.rxq with
    | b :: q => .ok (b.setWidth 32, mfLog false g (b.setWidth 32) { s with mf := { s.mf with rxq := q } })
    | [] => .error .rxUnderrun
  | .rxfifo o =>
    if mfWindowOk s.params o then
      match s.mf.rxq with
      | b0 :: b1 :: q =>
        .ok (pairWord b0 b1, mfLog false g (pairWord b0 b1) { s with mf := { s.mf with rxq := q } })
      | _ => .error .rxUnderrun
    else .error .unmappedAccess
  | .txfifo _ => .error .unmappedAccess
  | .busctl => .error .unmappedAccess
  | .cs0 => .error .unmappedAccess
  | .cs1 => .error .unmappedAccess
  | .speed => .error .unmappedAccess
  | .mode => .error .unmappedAccess
  | .wrbyte => .error .unmappedAccess
  | .read => .error .unmappedAccess

/-- The slot register of a chip-select (R238): `0x104 + 4 * cs`; MF has two. -/
def mfSlot (cs : BitVec 8) : Option MfReg :=
  if cs = 0#8 then some .cs0 else if cs = 1#8 then some .cs1 else none

/-- R238: a write of the slot of a session's chip-select; past the two slots there is no register. -/
def mfSlotWrite (cs : BitVec 8) (v : Word) (s : State) : Except Fault State :=
  match mfSlot cs with
  | some g => mfWrite g v s
  | none => .error .unmappedAccess

end Sys2Proof.Machine
end

