-- ==== Sys2Proof/Machine/RcController.lean ====
section
/-! DEFINITION. The RC controller (spec 42_regctl, Part A): what each register access does (R171 to
R181), the shifter's steps (R182, R183), and the gap in which the shifter acts (R76, R184). -/

namespace Sys2Proof.Machine

/-- Channel `c`. An index that is no channel reads as a channel after reset; no access reaches one. -/
def RcBus.chan (r : RcBus) (c : Nat) : Channel :=
  match r.ch[c]? with
  | some x => x
  | none => Channel.reset c

/-- Replace channel `c`. -/
def setChan (c : Nat) (x : Channel) (s : State) : State :=
  { s with rc := { s.rc with ch := s.rc.ch.set c x } }

/-- R187: some channel other than `c` is forced or shifting. -/
def otherActive (r : RcBus) (c : Nat) : Bool :=
  (List.range r.nchan).any (fun k => k != c && (r.chan k).active)

/-- A register access in the trace. -/
def rcLog (write : Bool) (g : RcReg) (v : Word) (s : State) : State :=
  emit (.reg { reg := .rc g, write := write, width := 32, value := v }) s

/-- The RC window has this register (10_state R27): its channel is one of `n`. -/
def rcMapped (n : Nat) : RcReg → Bool
  | .shared j => j < Config.nshared
  | .conf c => c < n
  | .stat c => c < n
  | .ctrl c => c < n
  | .tx c => c < n
  | .rx c => c < n

/-! ## Register accesses -/

/-- The `CS[c]` event of a write that changes FORCE while no word is in flight (R171, R185). The begin and end phases of
a transfer add the event where the pin was already there (`repeatSelect`). -/
def confSelectEvent (c : Nat) (old new : Channel) (s : State) : State :=
  if old.busy then s
  else if !old.force && new.force then emitPin (.cs .rc c true) s
  else if old.force && !new.force then emitPin (.cs .rc c false) s
  else s

/-- R171. -/
def confWrite (c : Nat) (v : Word) (s : State) : Except Fault State :=
  let old := s.rc.chan c
  let new := { old with conf := v &&& confMask }
  if new.force && otherActive s.rc c then .error .multiChannelActive
  else
    let req := if new.trm == 1#2 && new.en then true else old.rxReq
    .ok (confSelectEvent c old new (setChan c { new with rxReq := req } s))

/-- R175: enabling flushes. -/
def Channel.enabled (x : Channel) : Channel :=
  { x with txFull := false, rxFull := false, rxReq := false }

/-- R175: disabling cancels what has not finished and keeps the received word. What `sh_cfg` and `sh_out` hold while no
word is in flight is unspecified (10_state R44, U26); they keep the last word's here, and nothing reads them (DESIGN
CHOICE, log 9). -/
def Channel.disabled (x : Channel) : Channel :=
  { x with txFull := false, rxReq := false, busy := false }

/-- R175: the events of disabling with a word in flight. -/
def abortEvents (c : Nat) (old : Channel) (s : State) : State :=
  if old.busy then
    let s := emitPin (.abort c) s
    if old.force then s else emitPin (.cs .rc c false) s
  else s

/-- R175. -/
def ctrlWrite (c : Nat) (v : Word) (s : State) : State :=
  let old := s.rc.chan c
  let new := { old with ctrl := v &&& ctrlMask }
  if !old.en && new.en then setChan c new.enabled s
  else if old.en && !new.en then abortEvents c old (setChan c new.disabled s)
  else setChan c new s

/-- R177. -/
def txWrite (c : Nat) (v : Word) (s : State) : Except Fault State :=
  let x := s.rc.chan c
  if x.txFull || x.busy then .error .txOverrun
  else .ok (setChan c { x with tx := v, txFull := true } s)

/-- R179: what a read of RX leaves: the word is taken, and an enabled receive-only channel is asked for
the next. -/
def Channel.rxTaken (x : Channel) : Channel :=
  { x with rxFull := false, rxReq := if x.en && x.trm == 1#2 then true else x.rxReq }

/-- A write of the RC window: unmapped (20_memory R69), or logged and done (R171, R174, R175, R177, R180,
R181). -/
def rcWrite (g : RcReg) (v : Word) (s : State) : Except Fault State :=
  if rcMapped s.rc.nchan g then
    let s := rcLog true g v s
    match g with
    | .shared j => .ok { s with rc := { s.rc with shared := s.rc.shared.setIfInBounds j v } }
    | .conf c => confWrite c v s
    | .stat _ => .ok s
    | .ctrl c => .ok (ctrlWrite c v s)
    | .tx c => txWrite c v s
    | .rx _ => .ok s
  else .error .unmappedAccess

/-- Word `j` of the shared block (R181). -/
def RcBus.sharedWord (r : RcBus) (j : Nat) : Word :=
  match r.shared[j]? with
  | some v => v
  | none => 0#32

/-- A read of the RC window: unmapped, or the value and its side effect, logged (R172, R173, R176, R178,
R179, R181). -/
def rcRead (g : RcReg) (s : State) : Except Fault (Word × State) :=
  if rcMapped s.rc.nchan g then
    match g with
    | .shared j => .ok (s.rc.sharedWord j, rcLog false g (s.rc.sharedWord j) s)
    | .conf c => .ok ((s.rc.chan c).conf, rcLog false g (s.rc.chan c).conf s)
    | .stat c => .ok ((s.rc.chan c).stat, rcLog false g (s.rc.chan c).stat s)
    | .ctrl c => .ok ((s.rc.chan c).ctrl, rcLog false g (s.rc.chan c).ctrl s)
    | .tx c => .ok ((s.rc.chan c).tx, rcLog false g (s.rc.chan c).tx s)
    | .rx c =>
      let x := s.rc.chan c
      if x.rxFull then .ok (x.rx, rcLog false g x.rx (setChan c x.rxTaken s)) else .error .rxUnderrun
  else .error .unmappedAccess

/-! ## The shifter -/

/-- R182: the word that starts: the low `w` bits of TX, or 0 for receive-only (40_contract R132). -/
def Channel.startWord (x : Channel) : Word :=
  if x.trm == 1#2 then 0#32 else lowBits (x.wl.toNat + 1) x.tx

/-- R182: what `Start` leaves of the channel. -/
def Channel.started (x : Channel) : Channel :=
  { x with
    shCfg := { wl := x.wl, pol := x.conf.getLsbD 1, pha := x.conf.getLsbD 0, trm := x.trm },
    shOut := x.startWord,
    txFull := if x.trm == 1#2 then x.txFull else false,
    rxReq := if x.trm == 1#2 then false else x.rxReq,
    busy := true }

/-- R182: `Start(c)`, taken when it is enabled. -/
def shifterStart (c : Nat) (s : State) : Except Fault State :=
  let x := s.rc.chan c
  if x.wl.toNat < 3 || x.trm == 3#2 then .error .reservedConfig
  else if otherActive s.rc c then .error .multiChannelActive
  else
    let s := setChan c x.started s
    .ok (if x.force then s else emitPin (.cs .rc c true) s)

/-- R183: the word received: the low `w` bits of the slave's answer; none is drawn for transmit-only. -/
def drawWord (k : ShiftCfg) (s : State) : Option Word × State :=
  if k.trm == 2#2 then (none, s)
  else (some (lowBits k.bits (s.env.word.next Config.freeWord)),
        { s with env := { s.env with word := s.env.word.rest } })

/-- R183: what `Complete` leaves of the channel. `sh_cfg` and `sh_out`, unspecified from here on until the next `Start`
(10_state R44, U26), keep the word's (DESIGN CHOICE, log 9). -/
def Channel.completed (x : Channel) (inp : Option Word) : Channel :=
  match inp with
  | some r => if x.shCfg.trm == 0#2 || x.shCfg.trm == 1#2
      then { x with rx := r, rxFull := true, busy := false } else { x with busy := false }
  | none => { x with busy := false }

/-- R183: `Complete(c)`, taken when it is enabled. -/
def shifterComplete (c : Nat) (s : State) : Except Fault State :=
  let x := s.rc.chan c
  let (inp, s) := drawWord x.shCfg s
  let s := emitPin (.word c x.shCfg.bits x.shCfg.pol x.shCfg.pha (lowBits x.shCfg.bits x.shOut) inp) s
  if (x.shCfg.trm == 0#2 || x.shCfg.trm == 1#2) && x.rxFull then .error .rxOverrun
  else
    let s := setChan c (x.completed inp) s
    .ok (if x.force then s else emitPin (.cs .rc c false) s)

/-- The enabled step of channel `c`'s shifter, if there is one: `Complete` when a word is in flight,
`Start` when one can start. -/
def shifterStep (c : Nat) (s : State) : Except Fault State :=
  let x := s.rc.chan c
  if c < s.rc.nchan then
    if x.busy then shifterComplete c s
    else if x.startable then shifterStart c s
    else .ok s
  else .ok s

/-- The steps a schedule offers, in order. -/
def shifterRun : List Nat → State → Except Fault State
  | [], s => .ok s
  | c :: cs, s => do
    let s ← shifterStep c s
    shifterRun cs s

/-- Some channel's shifter has an enabled step. -/
def anyMovable (r : RcBus) : Bool := (List.range r.nchan).any (fun c => (r.chan c).movable)

/-- A gap between accesses or events: the shifters take any finite sequence of enabled steps (R76, R184), the one
the schedule drawn for this gap says (log 6). Where no step is enabled there is nothing to draw. -/
def shifterGap (s : State) : Except Fault State :=
  if anyMovable s.rc then
    shifterRun (s.env.sched.next Config.freeSchedule)
      { s with env := { s.env with sched := s.env.sched.rest } }
  else .ok s

end Sys2Proof.Machine
end

