-- ==== Sys2Proof/Machine/Contract.lean ====
section
/-! DEFINITION. The SPI transaction contract (spec 40_contract): the parts of SETUP, CLAIM, RELEASE, the
setters and TRANSFER that the three units share, over the unit's own primitives (R137). -/

namespace Sys2Proof.Machine

/-! ## SETUP (R121) -/

/-- Bit `i` of an array of lines. -/
def putLine (lines : BitVec 256) (i : Nat) (b : Bool) : BitVec 256 :=
  if b then lines ||| (1#256 <<< i) else lines &&& ~~~(1#256 <<< i)

/-- 41_bitbang R156: drive select line `i` of BB, asserted or not, with the polarity given. -/
def driveLine (i : Nat) (csHigh a : Bool) (s : State) : State :=
  emitPin (.cs .bb i a) { s with bb := { s.bb with
    csAsserted := putLine s.bb.csAsserted i a, csLevel := putLine s.bb.csLevel i (selectLevel csHigh a) } }

/-- `CS[i]-` for the lines `i, i+1, ..` (41_bitbang R150), each with the polarity the profile gives its slave
(log 19). -/
def deassertLines : Nat → Nat → State → State
  | 0, _, s => s
  | n + 1, i, s =>
    deassertLines n (i + 1) (driveLine i (s.bb.bus.profile.slave i).csHigh false s)

/-- `B.nbound <- profile.nbound`, where it stands. -/
def latchBound (stands : Bool) (s : State) : State :=
  { s with bb := { s.bb with nbound := if stands then s.bb.bus.profile.nbound else s.bb.nbound } }

/-- 41_bitbang R150, `BB_BIND`: bind the lines, count the bound selects, drive every select to not asserted. Whether the
count it latches before the two tests stands when one of them fails is free: R150's pseudocode says that it does,
60_exceptions R285 that it does not (log 17). -/
def bbBind (s : State) : Bool × State :=
  let p := s.bb.bus.profile
  if !p.linesOk then (false, s)
  else if p.hasCs2 && !p.cs2Ok then (false, latchBound Config.failedBindStands s)
  else if p.nbound ≠ p.ncs then (false, latchBound Config.failedBindStands s)
  else (true, cs2 .bb false (deassertLines p.ncs.toNat 0 (latchBound true s)))

/-- 42_regctl R190, 43_mmfifo R232: obtain the window and the secondary select (60_exceptions R285(a)),
and drive the secondary select to not asserted; nothing is driven on failure (log 17). -/
def windowBind (u : BusUnit) (s : State) : Bool × State :=
  let p := (s.bus u).profile
  if !p.windowOk then (false, s)
  else if p.hasCs2 && !p.cs2Ok then (false, s)
  else (true, cs2 u false s)

/-- `UnitBind(B)` (R137). -/
def unitBind : BusUnit → State → Bool × State
  | .bb, s => bbBind s
  | .rc, s => windowBind .rc s
  | .mf, s => windowBind .mf s

/-- R121. -/
def setupOp (u : BusUnit) (s : State) : Except Fault (OpResult × State) :=
  if (s.bus u).claimed then .error .setupWhileClaimed
  else
    let (ok, s) := unitBind u s
    let s := s.setBus u { s.bus u with cfgOk := ok }
    .ok (if ok then .ok else .error .resourceUnavailable, s)

/-! ## Setters (R124 to R126) -/

/-- 42_regctl R193: the least `k`, counted up from the first argument over that many candidates, with
`REF_HZ div 2^k <= hz`; 15 if there is none. -/
def leastDiv (refHz hz : Nat) : Nat → Nat → Nat
  | 0, _ => 15
  | n + 1, k => if refHz / 2 ^ k ≤ hz then k else leastDiv refHz hz n (k + 1)

/-- 42_regctl R193's pseudocode, for every `REF_HZ`: `hz = 0` gives the least `k` with `REF_HZ div 2^k = 0`, or 15. The
prose of R193 and the example of R124 give 15 for `hz = 0` without a word on `REF_HZ`; the two differ when `REF_HZ` is
below 2^14, and the pseudocode is followed (DEDUCED, log 34). -/
def selectDiv (refHz : Nat) (hz : Word) : BitVec 4 := BitVec.ofNat 4 (leastDiv refHz hz.toNat 16 0)

/-- 41_bitbang R153: at most DELAY_MAX, and DELAY_MAX for 0; otherwise free (log 18). -/
def delayOf (delayMax hz : Word) : Word :=
  if hz = 0#32 then delayMax
  else BitVec.ofNat 32 ((Config.freeDelay hz).toNat % (delayMax.toNat + 1))

/-- `UnitSetSpeed(S, hz)` (R124): BB stores a delay, RC a divisor index, MF the request, which it also
writes to SPEED (41_bitbang R153, 42_regctl R193, 43_mmfifo R235). -/
def unitSetSpeed (u : BusUnit) (S : Session) (hz : Word) (s : State) : Except Fault State :=
  match u with
  | .bb => .ok (putSession .bb { S with delay := delayOf s.params.delayMax hz } s)
  | .rc => .ok (putSession .rc { S with clkd := selectDiv s.params.refHz hz } s)
  | .mf => mfWrite .speed hz (putSession .mf { S with hz := hz } s)

/-- 43_mmfifo R236: `{cs_high, cpol, cpha}`. -/
def modeWord (cpol cpha csHigh : Bool) : Word := BitVec.ofNat 32 (modeByte { cpha, cpol, csHigh })

/-- `UnitSetMode(S)` (R125): only MF has an action, the MODE write (43_mmfifo R236). -/
def unitSetMode (u : BusUnit) (S : Session) (s : State) : Except Fault State :=
  match u with
  | .bb => .ok s
  | .rc => .ok s
  | .mf => mfWrite .mode (modeWord S.cpol S.cpha S.csHigh) s

/-- R124. -/
def setSpeedOp (u : BusUnit) (sid : Nat) (hz : Word) (s : State) : Except Fault (OpResult × State) := do
  let S ← liveSession u sid s
  let s ← unitSetSpeed u S hz s
  return (.nothing, s)

/-- R125. No line moves here. A new `cpol` reaches BB's SCLK with the next phase that drives it, be it an exchange or
the END of a select held since before: the phases read the session as it is (log 35). -/
def setModeOp (u : BusUnit) (sid : Nat) (m : Mode) (s : State) : Except Fault (OpResult × State) := do
  let S ← liveSession u sid s
  let S := { S with cpol := m.cpol, cpha := m.cpha, csHigh := m.csHigh }
  let s ← unitSetMode u S (putSession u S s)
  return (.nothing, s)

/-- R126: stored unchecked. -/
def setWordlenOp (u : BusUnit) (sid : Nat) (bits : BitVec 8) (s : State) :
    Except Fault (OpResult × State) := do
  let S ← liveSession u sid s
  return (.nothing, putSession u { S with wordlen := bits } s)

/-! ## CLAIM (R122) and RELEASE (R123) -/

/-- `Limit(B)`: BB `ncs`, RC `min(ncs, NCHAN)`, MF `min(ncs, MF_NCS)`. -/
def claimLimit (u : BusUnit) (nchan : Nat) (p : BusProfile) : Nat :=
  match u with
  | .bb => p.ncs.toNat
  | .rc => min p.ncs.toNat nchan
  | .mf => min p.ncs.toNat Config.mfNcs

/-- The session CLAIM creates: the profile's mode, word length 8; a unit's unused speed attributes are 0
(log 14). -/
def newSession (id : Nat) (cs : BitVec 8) (p : SlaveProfile) : Session :=
  { id := id, cs := cs, cpol := p.cpol, cpha := p.cpha, csHigh := p.csHigh, wordlen := Config.wlInitial,
    clkd := 0#4, delay := 0#32, hz := 0#32 }

/-- `UnitClaim(S)` (R122): MF writes BUSCTL 1 (43_mmfifo R233). -/
def unitClaim (u : BusUnit) (s : State) : Except Fault State :=
  match u with
  | .bb => .ok s
  | .rc => .ok s
  | .mf => mfWrite .busctl 1#32 s

/-- `UnitRelease(S)` (R123): MF writes BUSCTL 0 (43_mmfifo R234). -/
def unitRelease (u : BusUnit) (s : State) : Except Fault State :=
  match u with
  | .bb => .ok s
  | .rc => .ok s
  | .mf => mfWrite .busctl 0#32 s

/-- R122, past its checks. -/
def openSession (u : BusUnit) (cs : BitVec 8) (s : State) : Except Fault (OpResult × State) := do
  let b := s.bus u
  let p := b.profile.slave cs.toNat
  let S := newSession b.nextSid cs p
  let s := s.setBus u { b with cur := some S, nextSid := b.nextSid + 1 }
  let s ← unitClaim u s
  let s ← unitSetSpeed u S p.maxHz s
  let s ← unitSetMode u S s
  return (.session S.id, s)

/-- R122: reentrant claim, index, setup, in this order. -/
def claimOp (u : BusUnit) (cs : BitVec 8) (s : State) : Except Fault (OpResult × State) :=
  let b := s.bus u
  if b.claimed then .error .reentrantClaim
  else if claimLimit u s.rc.nchan b.profile ≤ cs.toNat then .ok (.error .noSuchChipSelect, s)
  else if !b.cfgOk then .ok (.error .resourceUnavailable, s)
  else openSession u cs s

/-- `PrimaryAsserted(S)` (R123): BB the line, RC the force bit, MF the slot at 0 (41_bitbang R152, 42_regctl
R192, 43_mmfifo R234). -/
def primaryAsserted (u : BusUnit) (cs : BitVec 8) (s : State) : Bool :=
  match u with
  | .bb => s.bb.csAsserted.getLsbD cs.toNat
  | .rc => (s.rc.chan cs.toNat).force
  | .mf => (cs == 0#8 && !s.mf.cs0) || (cs == 1#8 && !s.mf.cs1)

/-- R123. -/
def releaseOp (u : BusUnit) (sid : Nat) (s : State) : Except Fault (OpResult × State) := do
  let S ← liveSession u sid s
  if primaryAsserted u S.cs s then throw .releaseWhileSelected
  else
    let s ← unitRelease u s
    return (.nothing, s.setBus u { s.bus u with cur := none })

/-! ## TRANSFER (R127 to R136) -/

/-- R127, tests 2 to 6 in their order: the error that fires, if one does. -/
def entryError (u : BusUnit) (S : Session) (d : Desc) : Option Err :=
  let w := S.wordlen.toNat
  if w < Config.wlMin ∨ Config.wlMax < w then some .bitLengthNotWordAligned
  else if d.flags.lsb ∧ w ≠ 8 then some .unsupportedBitOrder
  else if u = .rc ∧ d.flags.lsb ∧ d.inp.isSome then some .unsupportedBitOrder
  else if d.n ≠ 0#32 ∧ d.n.toNat % w ≠ 0 then some .bitLengthNotWordAligned
  else if u = .mf ∧ d.n.toNat % 8 ≠ 0 then some .bitLengthNotWordAligned
  else none

/-- R134: an exchange takes place. -/
def exchanges (d : Desc) : Bool := d.n != 0#32 && (d.out.isSome || d.inp.isSome)

/-- The result of a transfer that met no error (R135). -/
def transferResult (d : Desc) : OpResult := .count (if exchanges d then d.n else 0#32)

/-- R127: the session, then the errors, then test 7; a transfer that passes runs the unit's body. -/
def checkedTransfer (u : BusUnit) (sid : Nat) (d : Desc)
    (body : Session → State → Except Fault (OpResult × State)) (s : State) :
    Except Fault (OpResult × State) := do
  let S ← liveSession u sid s
  match entryError u S d with
  | some e => return (.error e, s)
  | none =>
    if overlapping d.out d.inp (byteLen d.n.toNat) then throw .bufferOverlap
    else body S s

end Sys2Proof.Machine
end

