-- ==== Sys2Proof/Machine/Bb.lean ====
section
/-! DEFINITION. BB, the bit-bang unit (spec 41_bitbang): line primitives (R156), bit cells (R157 to R159),
the exchange (R160), and the meanings of the seven `bb.*` operations. BB never polls and never reads the
timer (R162). -/

namespace Sys2Proof.Machine

/-! ## Line primitives (R156) -/

/-- Drive SCLK: the latch and `CK=b`. -/
def driveClk (b : Bool) (s : State) : State :=
  emitPin (.clk .bb b) { s with bb := { s.bb with sclk := b } }

/-- Drive MOSI: the latch and `DO=b`. -/
def driveMosi (b : Bool) (s : State) : State :=
  emitPin (.dout .bb b) { s with bb := { s.bb with mosi := b } }

/-- Sample MISO: a draw, `DI?b`. -/
def sampleMiso (s : State) : Bool × State :=
  let b := s.env.miso.next Config.freeMiso
  (b, emitPin (.din .bb b) { s with env := { s.env with miso := s.env.miso.rest } })

/-- `Gap(S)`: a marker when the delay is not 0. -/
def gap (S : Session) (s : State) : State :=
  if S.delay = 0#32 then s else emitPin (.delay (.cycles S.delay)) s

/-- `CsPrimary(S, a)`: the line of the session's chip-select, with the session's polarity. -/
def bbCsPrimary (S : Session) (a : Bool) (s : State) : State := driveLine S.cs.toNat S.csHigh a s

/-! ## Bit cells -/

/-- The sample of a cell, when it takes one; a cell that skips it answers 0 (R159). -/
def cellSample (sample : Bool) (s : State) : Bool × State :=
  if sample then sampleMiso s else (false, s)

/-- R157 `CELL0`, or without its sample R159 `FAST0`. The levels are those of the session's `cpol` as it stands, also
when it was changed while the select is held (DEDUCED, log 35). -/
def cell0 (S : Session) (sample o : Bool) (s : State) : Bool × State :=
  let s := gap S (driveMosi o s)
  let s := driveClk (!S.cpol) s
  let (i, s) := cellSample sample s
  let s := gap S (gap S s)
  let s := driveClk S.cpol s
  (i, gap S s)

/-- R158 `CELL1`, or without its sample R159 `FAST1`; `cpol` as in `cell0` (log 35). -/
def cell1 (S : Session) (sample o : Bool) (s : State) : Bool × State :=
  let s := gap S s
  let s := driveMosi o (driveClk (!S.cpol) s)
  let s := gap S (gap S s)
  let s := driveClk S.cpol s
  let (i, s) := cellSample sample s
  (i, gap S s)

/-- The cell of the session's phase. -/
def cell (S : Session) (sample o : Bool) (s : State) : Bool × State :=
  if S.cpha then cell1 S sample o s else cell0 S sample o s

/-! ## The exchange (R160) -/

/-- Stream bits `k, k+1, ..`, the first argument counting those still to come. -/
def bbBits (S : Session) (d : Desc) (fast : Bool) : Nat → Nat → Byte → State → State
  | 0, _, _, s => s
  | rem + 1, k, acc, s =>
    let (i, s) := cell S (!fast) (outBit d.out d.flags.lsb s.mem k) s
    if fast then bbBits S d fast rem (k + 1) acc s
    else
      let (acc, s) := putInBit d.inp d.flags.lsb (rem == 0) k i acc s
      bbBits S d fast rem (k + 1) acc s

/-- R159: transmit-only in phase 0 skips the samples; in phase 1 the unit chooses, once per transfer
(93 U2); any other transfer samples. -/
def chooseFast (S : Session) (d : Desc) (s : State) : Bool × State :=
  if d.out.isSome && d.inp.isNone then
    if S.cpha then
      (s.env.fast.next Config.freeFast, { s with env := { s.env with fast := s.env.fast.rest } })
    else (true, s)
  else (false, s)

/-- R160 `BB_EXCHANGE`. -/
def bbExchange (S : Session) (d : Desc) (s : State) : State :=
  let (fast, s) := chooseFast S d s
  bbBits S d fast d.n.toNat 0 0#8 s

/-- 40_contract R128: clock to idle, secondary, primary. -/
def bbBegin (S : Session) (s : State) : State := bbCsPrimary S true (cs2 .bb true (driveClk S.cpol s))

/-- 40_contract R133: primary, secondary, clock to idle, the idle level of the session's `cpol` as it stands
(log 35). -/
def bbEnd (S : Session) (s : State) : State := driveClk S.cpol (cs2 .bb false (bbCsPrimary S false s))

/-- 40_contract R135 for BB. -/
def bbTransferBody (d : Desc) (S : Session) (s : State) : Except Fault (OpResult × State) :=
  let s := if d.flags.begins then bbBegin S s else s
  let s := if exchanges d then bbExchange S d s else s
  let s := if d.flags.ends then bbEnd S s else s
  .ok (transferResult d, s)

/-- `bb.transfer` (R160). -/
def bbTransferOp (sid : Nat) (d : Desc) (s : State) : Except Fault (OpResult × State) :=
  checkedTransfer .bb sid d (bbTransferBody d) s

/-! ## Meanings -/

/-- `bb.setup` (R150). -/
def execBbSetup (s : State) : Host.Outcome State Fault Refusal := finish (setupOp .bb s)

/-- `bb.claim` (R151). -/
def execBbClaim (cs : BitVec 8) (s : State) : Host.Outcome State Fault Refusal :=
  finish (claimOp .bb cs s)

/-- `bb.release` (R152). -/
def execBbRelease (sid : Nat) (s : State) : Host.Outcome State Fault Refusal :=
  finish (releaseOp .bb sid s)

/-- `bb.set_speed` (R153). -/
def execBbSetSpeed (sid : Nat) (hz : Word) (s : State) : Host.Outcome State Fault Refusal :=
  finish (setSpeedOp .bb sid hz s)

/-- `bb.set_mode` (R154). -/
def execBbSetMode (sid : Nat) (m : Mode) (s : State) : Host.Outcome State Fault Refusal :=
  finish (setModeOp .bb sid m s)

/-- `bb.set_wordlen` (R155). -/
def execBbSetWordlen (sid : Nat) (bits : BitVec 8) (s : State) : Host.Outcome State Fault Refusal :=
  finish (setWordlenOp .bb sid bits s)

/-- `bb.transfer` (R160). -/
def execBbTransfer (sid : Nat) (d : Desc) (s : State) : Host.Outcome State Fault Refusal :=
  finish (bbTransferOp sid d s)

end Sys2Proof.Machine
end

