-- ==== Sys2Proof/Machine/Mf.lean ====
section
/-! DEFINITION. MF's sequencer (spec 43_mmfifo, Part B): bursts through the FIFO windows and the single
byte registers (R238), and the meanings of the seven `mf.*` operations. MF never polls and never reads
the timer (R239). -/

namespace Sys2Proof.Machine

/-! ## One burst (R238) -/

/-- Feed the transmit window with pairs, and an odd last byte through WRBYTE; `q` counts the pairs. -/
def mfFeed : List Byte → Nat → State → Except Fault State
  | [], _, s => .ok s
  | [b], _, s => mfWrite .wrbyte (b.setWidth 32) s
  | lo :: hi :: bs, q, s => do
    let s ← mfWrite (.txfifo (2 * q)) (pairWord lo hi) s
    mfFeed bs (q + 1) s

/-- Store a received byte when there is an input buffer. -/
def mfStore (inp : Option Nat) (lsb : Bool) (pos : Nat) (b : Byte) (s : State) : State :=
  match inp with
  | some a => storeByte (a + pos) (flipByte lsb b) s
  | none => s

/-- Drain the receive queue: pairs through the window, an odd last byte through RDBYTE. The first
argument counts the bytes still to come, `q` the pairs drained, `pos` is the position of the burst. -/
def mfDrain (inp : Option Nat) (lsb : Bool) (pos : Nat) : Nat → Nat → State → Except Fault State
  | 0, _, s => .ok s
  | 1, q, s => do
    let (v, s) ← mfRead .rdbyte s
    return mfStore inp lsb (pos + 2 * q) (loByte v) s
  | n + 2, q, s => do
    let (v, s) ← mfRead (.rxfifo (2 * q)) s
    let s := mfStore inp lsb (pos + 2 * q) (loByte v) s
    let s := mfStore inp lsb (pos + 2 * q + 1) (hiByte v) s
    mfDrain inp lsb pos n (q + 1) s

/-- The sending half of a burst: the buffer's bytes, or a hardware-assisted read of `b` bytes. -/
def mfSendBurst (d : Desc) (pos b : Nat) (s : State) : Except Fault State :=
  match d.out with
  | some a => mfFeed ((loadBytes s.mem (a + pos) b).map (flipByte d.flags.lsb)) 0 s
  | none => mfWrite .read (BitVec.ofNat 32 b) s

/-- One burst of `b` bytes at position `pos`. -/
def mfBurst (d : Desc) (pos b : Nat) (s : State) : Except Fault State := do
  let s ← mfSendBurst d pos b s
  mfDrain d.inp d.flags.lsb pos b 0 s

/-- Bursts of at most FIFO_BYTES from position `pos` of `l` bytes on; the first argument counts them. -/
def mfBursts (d : Desc) (l : Nat) : Nat → Nat → State → Except Fault State
  | 0, _, s => .ok s
  | k + 1, pos, s => do
    let b := min (l - pos) s.params.fifoBytes
    let s ← mfBurst d pos b s
    mfBursts d l k (pos + b) s

/-- How many bursts `l` bytes take. -/
def burstCount (l fifo : Nat) : Nat := (l + fifo - 1) / fifo

/-- The exchange of R238, when there is one: `n div 8` bytes. -/
def mfExchange (d : Desc) (s : State) : Except Fault State :=
  if exchanges d then mfBursts d (d.n.toNat / 8) (burstCount (d.n.toNat / 8) s.params.fifoBytes) 0 s
  else .ok s

/-- R238, begin: the secondary select, then the slot. -/
def mfBegin (S : Session) (d : Desc) (s : State) : Except Fault State :=
  if d.flags.begins then mfSlotWrite S.cs 0#32 (cs2 .mf true s) else .ok s

/-- R238, end: the slot, then the secondary select. -/
def mfEnd (S : Session) (d : Desc) (s : State) : Except Fault State :=
  if d.flags.ends then do
    let s ← mfSlotWrite S.cs 1#32 s
    return cs2 .mf false s
  else .ok s

/-- R238. -/
def mfTransferBody (d : Desc) (S : Session) (s : State) : Except Fault (OpResult × State) := do
  let s ← mfBegin S d s
  let s ← mfExchange d s
  let s ← mfEnd S d s
  return (transferResult d, s)

/-- `mf.transfer` (R238). -/
def mfTransferOp (sid : Nat) (d : Desc) (s : State) : Except Fault (OpResult × State) :=
  checkedTransfer .mf sid d (mfTransferBody d) s

/-! ## Meanings -/

/-- `mf.setup` (R232). -/
def execMfSetup (s : State) : Host.Outcome State Fault Refusal := finish (setupOp .mf s)

/-- `mf.claim` (R233). -/
def execMfClaim (cs : BitVec 8) (s : State) : Host.Outcome State Fault Refusal :=
  finish (claimOp .mf cs s)

/-- `mf.release` (R234). -/
def execMfRelease (sid : Nat) (s : State) : Host.Outcome State Fault Refusal :=
  finish (releaseOp .mf sid s)

/-- `mf.set_speed` (R235). -/
def execMfSetSpeed (sid : Nat) (hz : Word) (s : State) : Host.Outcome State Fault Refusal :=
  finish (setSpeedOp .mf sid hz s)

/-- `mf.set_mode` (R236). -/
def execMfSetMode (sid : Nat) (m : Mode) (s : State) : Host.Outcome State Fault Refusal :=
  finish (setModeOp .mf sid m s)

/-- `mf.set_wordlen` (R237). -/
def execMfSetWordlen (sid : Nat) (bits : BitVec 8) (s : State) : Host.Outcome State Fault Refusal :=
  finish (setWordlenOp .mf sid bits s)

/-- `mf.transfer` (R238). -/
def execMfTransfer (sid : Nat) (d : Desc) (s : State) : Host.Outcome State Fault Refusal :=
  finish (mfTransferOp sid d s)

end Sys2Proof.Machine
end

