-- ==== Sys2Proof/Machine/Rc.lean ====
section
/-! DEFINITION. RC's polling sequencer (spec 42_regctl, Part B): accesses and select events with the shifter's gap
before each (20_memory R76), the poll (R196), CONF programming (R197), the exchange (R200), the timeout path
(R201), and the meanings of the seven `rc.*` operations. -/

namespace Sys2Proof.Machine

/-! ## Accesses of the sequencer -/

/-- `RegWrite(RC, g, 32, v)`, after the shifters have taken what steps they take. -/
def seqWrite (g : RcReg) (v : Word) (s : State) : Except Fault State := do
  let s ← shifterGap s
  rcWrite g v s

/-- `RegRead(RC, g, 32)`, after the shifters have taken what steps they take. -/
def seqRead (g : RcReg) (s : State) : Except Fault (Word × State) := do
  let s ← shifterGap s
  rcRead g s

/-- `Cs2(S, a)` of the sequencer (40_contract R137), after the shifters have taken what steps they take. -/
def seqCs2 (a : Bool) (s : State) : Except Fault State := do
  let s ← shifterGap s
  return cs2 .rc a s

/-! ## The poll (R196) -/

/-- The rounds of a poll for STAT bit `b`, started at `t0`: the status is tested before the deadline in
each round, the comparison is strict. The first argument is how many readings before the deadline this
wait can still make; with none left the next reading is past it (log 7). `true` means seen. -/
def pollRounds (c b t0 : Nat) : Nat → State → Except Fault (Bool × State)
  | 0, s => do
    let (v, s) ← seqRead (.stat c) s
    if v.getLsbD b then return (true, s)
    else return (false, readNowFrom (t0 + s.params.tPoll + 1) s)
  | k + 1, s => do
    let (v, s) ← seqRead (.stat c) s
    if v.getLsbD b then return (true, s)
    else
      let (t, s) := readNow s
      if s.params.tPoll < t - t0 then return (false, s)
      else pollRounds c b t0 k s

/-- `POLL(c, b)`. -/
def poll (c b : Nat) (s : State) : Except Fault (Bool × State) :=
  let (t0, s) := readNow s
  let (k, s) := drawRounds s
  pollRounds c b t0 k s

/-- The bit of TXS in STAT (10_state R29). -/
def txsBit : Nat := 1

/-- The bit of RXS in STAT (10_state R29). -/
def rxsBit : Nat := 0

/-! ## CONF (R197) -/

/-- The fields `RC_CONF` gives CONF; `none` keeps. -/
def programConf (S : Session) (trm : Option (BitVec 2)) (force : Option Bool) (f : ConfFields) :
    ConfFields :=
  { pha := S.cpha, pol := S.cpol, clkd := S.clkd, epol := !S.csHigh,
    wl := (S.wordlen - 1#8).setWidth 5, trm := trm.getD f.trm, force := force.getD f.force }

/-- `RC_CONF(S, c, trm, force)`: a read-modify-write. -/
def rcConf (S : Session) (c : Nat) (trm : Option (BitVec 2)) (force : Option Bool) (s : State) :
    Except Fault State := do
  let (v, s) ← seqRead (.conf c) s
  seqWrite (.conf c) (confWord (programConf S trm force (confFields v))) s

/-- 00_scope R12, 40_contract R128 and R133, 93 U34: a BEGIN on a select that is asserted, and an END on one that is not,
perform the select event again, although the pin does not change; where the CONF write has changed the pin its event is
R171's. -/
def repeatSelect (c : Nat) (a : Bool) (old : Channel) (s : State) : State :=
  if old.active == a && (s.rc.chan c).active == a then emitPin (.cs .rc c a) s else s

/-- `CsPrimary(S, a)` of the begin and end phases (40_contract R128, R133, R137): CONF is programmed with FORCE `a`, and
the select event is performed (log 36). -/
def rcPhase (S : Session) (c : Nat) (trm : Option (BitVec 2)) (a : Bool) (s : State) : Except Fault State := do
  let (v, s) ← seqRead (.conf c) s
  let s ← shifterGap s
  let t ← rcWrite (.conf c) (confWord (programConf S trm (some a) (confFields v))) s
  return repeatSelect c a (s.rc.chan c) t

/-! ## The exchange (R200) -/

/-- The transfer direction (30_encoding R97): both 0, input only 1, output only 2. -/
def trmOf (d : Desc) : BitVec 2 :=
  match d.out, d.inp with
  | some _, some _ => 0#2
  | none, _ => 1#2
  | some _, none => 2#2

/-- R200: disable before the last read. -/
def rcDisableLast (last : Bool) (c : Nat) (s : State) : Except Fault State :=
  if last then seqWrite (.ctrl c) 0#32 s else .ok s

/-- The receive half of an element: poll RXS, disable before the last read, read RX, store the bits. -/
def rcReceive (d : Desc) (c w i : Nat) (last : Bool) (acc : Byte) (s : State) :
    Except Fault (Bool × Byte × State) := do
  let (seen, s) ← poll c rxsBit s
  if seen then
    let s ← rcDisableLast last c s
    let (r, s) ← seqRead (.rx c) s
    let (acc, s) := putInElem d.inp d.n.toNat r w (i * w) acc s
    return (true, acc, s)
  else return (false, acc, s)

/-- The send half of an element, in a direction that sends: poll TXS, write TX. -/
def rcSend (d : Desc) (c w i : Nat) (s : State) : Except Fault (Bool × State) :=
  if trmOf d = 1#2 then .ok (true, s)
  else do
    let (seen, s) ← poll c txsBit s
    if seen then
      let s ← seqWrite (.tx c) (outElem d.out d.flags.lsb s.mem w i) s
      return (true, s)
    else return (false, s)

/-- One element; `false` means a poll expired. -/
def rcElement (d : Desc) (c w i : Nat) (last : Bool) (acc : Byte) (s : State) :
    Except Fault (Bool × Byte × State) := do
  let (sent, s) ← rcSend d c w i s
  if sent then
    if trmOf d = 2#2 then return (true, acc, s) else rcReceive d c w i last acc s
  else return (false, acc, s)

/-- Elements `i, i+1, ..`, the first argument counting those still to come; `false` means a poll
expired. -/
def rcElements (d : Desc) (c w : Nat) : Nat → Nat → Byte → State → Except Fault (Bool × State)
  | 0, _, _, s => .ok (true, s)
  | rem + 1, i, acc, s => do
    let (fine, acc, s) ← rcElement d c w i (rem == 0) acc s
    if fine then rcElements d c w rem (i + 1) acc s else return (false, s)

/-- R200, after the last element of a transmit-only transfer: the last word has left, disable. -/
def rcDrain (d : Desc) (c : Nat) (s : State) : Except Fault (Bool × State) :=
  if trmOf d = 2#2 then do
    let (seen, s) ← poll c txsBit s
    if seen then
      let s ← seqWrite (.ctrl c) 0#32 s
      return (true, s)
    else return (false, s)
  else .ok (true, s)

/-- R201 `TIMEOUT`. -/
def rcTimeout (S : Session) (c : Nat) (s : State) : Except Fault (OpResult × State) := do
  let s ← seqWrite (.ctrl c) 0#32 s
  let s ← rcConf S c none (some false) s
  let s ← seqCs2 false s
  return (.error .timeout, s)

/-- The begin half of the select (R199, R200): the secondary, when the flag is set. -/
def rcBeginCs2 (d : Desc) (s : State) : Except Fault State :=
  if d.flags.begins then seqCs2 true s else .ok s

/-- The end phase (R199, R200): FORCE is cleared, then the secondary select falls. -/
def rcEnd (S : Session) (c : Nat) (d : Desc) (s : State) : Except Fault State :=
  if d.flags.ends then do
    let s ← rcPhase S c none false s
    seqCs2 false s
  else .ok s

/-- R199, begin: the secondary select, then FORCE. -/
def rcBeginOnly (S : Session) (c : Nat) (d : Desc) (s : State) : Except Fault State := do
  let s ← rcBeginCs2 d s
  if d.flags.begins then rcPhase S c none true s else return s

/-- R199: a select-only descriptor. -/
def rcSelectOnly (S : Session) (c : Nat) (d : Desc) (s : State) : Except Fault (OpResult × State) := do
  let s ← rcBeginOnly S c d s
  let s ← rcEnd S c d s
  return (.count 0#32, s)

/-- R200: CONF is programmed for an exchange; without BEGIN the FORCE bit is kept. -/
def rcProgram (S : Session) (c : Nat) (d : Desc) (s : State) : Except Fault State :=
  if d.flags.begins then rcPhase S c (some (trmOf d)) true s else rcConf S c (some (trmOf d)) none s

/-- R200 up to its last poll: `true` when every poll has seen its bit, `false` from the timer reading that ended one
which had not. -/
def rcShift (S : Session) (c : Nat) (d : Desc) (s : State) : Except Fault (Bool × State) := do
  let w := S.wordlen.toNat
  let s ← rcBeginCs2 d s
  let s ← seqWrite (.ctrl c) 1#32 s
  let s ← rcProgram S c d s
  let (fine, s) ← rcElements d c w (d.n.toNat / w) 0 0#8 s
  if fine then rcDrain d c s else return (false, s)

/-- R200. -/
def rcExchange (S : Session) (c : Nat) (d : Desc) (s : State) : Except Fault (OpResult × State) := do
  let (fine, s) ← rcShift S c d s
  if fine then
    let s ← rcEnd S c d s
    return (.count d.n, s)
  else rcTimeout S c s

/-- R198. -/
def rcTransferBody (d : Desc) (S : Session) (s : State) : Except Fault (OpResult × State) :=
  if exchanges d then rcExchange S S.cs.toNat d s else rcSelectOnly S S.cs.toNat d s

/-- `rc.transfer` (R198). -/
def rcTransferOp (sid : Nat) (d : Desc) (s : State) : Except Fault (OpResult × State) :=
  checkedTransfer .rc sid d (rcTransferBody d) s

/-! ## Meanings -/

/-- `rc.setup` (R190). -/
def execRcSetup (s : State) : Host.Outcome State Fault Refusal := finish (setupOp .rc s)

/-- `rc.claim` (R191). -/
def execRcClaim (cs : BitVec 8) (s : State) : Host.Outcome State Fault Refusal :=
  finish (claimOp .rc cs s)

/-- `rc.release` (R192). -/
def execRcRelease (sid : Nat) (s : State) : Host.Outcome State Fault Refusal :=
  finish (releaseOp .rc sid s)

/-- `rc.set_speed` (R193). -/
def execRcSetSpeed (sid : Nat) (hz : Word) (s : State) : Host.Outcome State Fault Refusal :=
  finish (setSpeedOp .rc sid hz s)

/-- `rc.set_mode` (R194). -/
def execRcSetMode (sid : Nat) (m : Mode) (s : State) : Host.Outcome State Fault Refusal :=
  finish (setModeOp .rc sid m s)

/-- `rc.set_wordlen` (R195). -/
def execRcSetWordlen (sid : Nat) (bits : BitVec 8) (s : State) : Host.Outcome State Fault Refusal :=
  finish (setWordlenOp .rc sid bits s)

/-- `rc.transfer` (R198 to R202). -/
def execRcTransfer (sid : Nat) (d : Desc) (s : State) : Host.Outcome State Fault Refusal :=
  finish (rcTransferOp sid d s)

end Sys2Proof.Machine
end

