-- ==== Sys2Proof/Machine/Ld.lean ====
section
/-! DEFINITION. LD, the FPGA configuration loader (spec 44_loader): the handshake lines of a handle (R267), the state
machine of `ld.write` (R250 to R260), and the meanings of the six `ld.*` operations. `h` is the number of the handle
the operation names (10_state R39). LD uses its bus only through the contract operations. -/

namespace Sys2Proof.Machine

/-! ## Handshake lines (R267) -/

/-- What happens before an event of the loader: the shifters of its bus take what steps they take (20_memory R76). BB
and MF have none, and another bus is another machine (00_scope R14; log 6). -/
def ldGap (h : Nat) (s : State) : Except Fault State :=
  if (s.handle h).bus = .rc then shifterGap s else .ok s

/-- An event of the loader, with that gap before it. -/
def afterGap {α : Type} (h : Nat) (event : State → α) (s : State) : Except Fault α := do
  let s ← ldGap h s
  return event s

/-- `NCFG=b` and the latch (10_state R40). -/
def ncfgEvent (h : Nat) (b : Bool) (s : State) : State :=
  emitPin (.ncfg h b) (setHandle h { s.handle h with ncfg := b } s)

/-- A sample of STATUS: a draw, `ST?b`. -/
def statusEvent (h : Nat) (s : State) : Bool × State :=
  let b := s.env.status.next Config.freeStatus
  (b, emitPin (.status h b) { s with env := { s.env with status := s.env.status.rest } })

/-- A sample of DONE: a draw, `DN?b`. -/
def doneEvent (h : Nat) (s : State) : Bool × State :=
  let b := s.env.done.next Config.freeDone
  (b, emitPin (.done h b) { s with env := { s.env with done := s.env.done.rest } })

/-- A sample of CRCERR: a draw, `CRC?b`. -/
def crcEvent (h : Nat) (s : State) : Bool × State :=
  let b := s.env.crc.next Config.freeCrc
  (b, emitPin (.crc h b) { s with env := { s.env with crc := s.env.crc.rest } })

/-- `PinWrite(NCFG, b)`. -/
def driveNcfg (h : Nat) (b : Bool) (s : State) : Except Fault State := afterGap h (ncfgEvent h b) s

/-- `PinRead(STATUS)`. -/
def sampleStatus (h : Nat) (s : State) : Except Fault (Bool × State) := afterGap h (statusEvent h) s

/-- `PinRead(DONE)`. -/
def sampleDone (h : Nat) (s : State) : Except Fault (Bool × State) := afterGap h (doneEvent h) s

/-- `PinRead(CRCERR)`. -/
def sampleCrc (h : Nat) (s : State) : Except Fault (Bool × State) := afterGap h (crcEvent h) s

/-- `Delay` of so many microseconds: a marker. -/
def delayMicros (h t : Nat) (s : State) : Except Fault State := afterGap h (emitPin (.delay (.micros t))) s

/-- `h.state <- x`. -/
def setLdState (h : Nat) (x : LdState) (s : State) : State := setHandle h { s.handle h with state := x } s

/-! ## Terminal states (R259, R260) -/

/-- R260 `DIAG`: exactly one sample, when the line is wired. -/
def diag (h : Nat) (s : State) : Except Fault State :=
  if (s.handle h).hasCrc then do
    let (b, s) ← sampleCrc h s
    return setHandle h { s.handle h with crcDiag := some b } s
  else .ok s

/-- R259 `FAIL`: Failed, the error recorded, the diagnostic sample; the error is the result. -/
def fail (h : Nat) (e : Err) (s : State) : Except Fault (OpResult × State) := do
  let s ← diag h (setHandle h { s.handle h with state := .failed, lastError := some e } s)
  return (.error e, s)

/-! ## The contract operations of the handle's bus -/

/-- TRANSFER on a bus (40_contract R135). -/
def transferOp (u : BusUnit) (sid : Nat) (d : Desc) (s : State) : Except Fault (OpResult × State) :=
  match u with
  | .bb => bbTransferOp sid d s
  | .rc => rcTransferOp sid d s
  | .mf => mfTransferOp sid d s

/-- RELEASE, then the load fails. -/
def releaseAndFail (h sid : Nat) (e : Err) (s : State) : Except Fault (OpResult × State) := do
  let (_, s) ← releaseOp (s.handle h).bus sid s
  fail h e s

/-! ## The phases -/

/-- R252. -/
def resetPulse (h : Nat) (s : State) : Except Fault State := do
  let s ← driveNcfg h false s
  let s ← delayMicros h Config.tCfgPulseUs s
  driveNcfg h true s

/-- R253: at most so many samples; a delay follows each that reads 0; `true` means the status rose. -/
def statusWait (h : Nat) : Nat → State → Except Fault (Bool × State)
  | 0, s => .ok (false, s)
  | n + 1, s => do
    let (st, s) ← sampleStatus h s
    if st then return (true, setLdState h .streaming s)
    else
      let s ← delayMicros h Config.tStatusStepUs s
      statusWait h n s

/-- The descriptor of a streaming transfer of `bytes` bytes from `a` (R254): transmit-only, LSB-first. -/
def chunkDesc (a bytes : Nat) (first last : Bool) : Desc :=
  { n := BitVec.ofNat 32 (8 * bytes), out := some a, inp := none,
    flags := { begins := first, ends := last, lsb := true } }

/-- The select-only descriptor with END (R256). -/
def endDesc : Desc :=
  { n := 0#32, out := none, inp := none, flags := { begins := false, ends := true, lsb := false } }

/-- R256 `ABORT`: a rejection after a BEGIN lets the select go first; release; fail. -/
def abort (h sid pos : Nat) (e : Err) (s : State) : Except Fault (OpResult × State) := do
  if 0 < pos ∧ e = .configurationRejected then
    let (_, s) ← transferOp (s.handle h).bus sid endDesc s
    releaseAndFail h sid e s
  else releaseAndFail h sid e s

/-- The transfers before the last one (R254): while more than CHUNK_BYTES remain. -/
def chunkCount (len chunk : Nat) : Nat := (len - 1) / chunk

/-- The byte one past the caller's buffer, as the last transfer reads it: a draw (R255, 20_memory R71; log 33). -/
def drawPad (s : State) : Byte × State :=
  (s.env.pad.next Config.freePad, { s with env := { s.env with pad := s.env.pad.rest } })

/-- A transfer that takes no input, reading `v` at address `a`; memory is as before it. -/
def transferWith (a : Nat) (v : Byte) (u : BusUnit) (sid : Nat) (d : Desc) (s : State) :
    Except Fault (OpResult × State) := do
  let (r, t) ← transferOp u sid d { s with mem := writeByte s.mem a v }
  return (r, { t with mem := s.mem })

/-- How streaming ends: every transfer returned, or the load has failed with this result. -/
inductive Streamed where
  | sent
  | stopped (r : OpResult)
  deriving DecidableEq, Repr

/-- The load has failed inside the stream. -/
def stopStream (x : Except Fault (OpResult × State)) : Except Fault (Streamed × State) := do
  let (r, s) ← x
  return (.stopped r, s)

/-- R255: the last transfer of the stream: what remains from `pos` and the byte after it. -/
def lastTransfer (h sid src len pos : Nat) (s : State) : Except Fault (Streamed × State) := do
  let (v, s) := drawPad s
  let (r, s) ← transferWith (src + len) v (s.handle h).bus sid
    (chunkDesc (src + pos) (len - pos + 1) (pos == 0) true) s
  match r with
  | .error e => stopStream (abort h sid pos e s)
  | _ => return (.sent, s)

/-- R254 `STREAM` from position `pos`, the first argument counting the transfers before the last: the
status is sampled before each transfer; the last one has one byte more (R255). -/
def stream (h sid src len : Nat) : Nat → Nat → State → Except Fault (Streamed × State)
  | 0, pos, s => do
    let (st, s) ← sampleStatus h s
    if st then lastTransfer h sid src len pos s
    else stopStream (abort h sid pos .configurationRejected s)
  | k + 1, pos, s => do
    let (st, s) ← sampleStatus h s
    if st then
      let (r, s) ← transferOp (s.handle h).bus sid
        (chunkDesc (src + pos) s.params.chunkBytes (pos == 0) false) s
      match r with
      | .error e => stopStream (abort h sid pos e s)
      | _ => stream h sid src len k (pos + s.params.chunkBytes) s
    else stopStream (abort h sid pos .configurationRejected s)

/-- How the settle wait ends. -/
inductive Settled where
  | configured
  | stopped (e : Err)
  deriving DecidableEq, Repr

/-- One round's samples (R258): status first, then done. -/
def settleSamples (h : Nat) (s : State) : Except Fault (Option Settled × State) := do
  let (st, s) ← sampleStatus h s
  if st then
    let (dn, s) ← sampleDone h s
    return (if dn then some .configured else none, s)
  else return (some (.stopped .configurationRejected), s)

/-- The rounds of the settle wait started at `t0`; the first argument is how many readings before the
deadline it can still make (log 7). -/
def settleRounds (h t0 : Nat) : Nat → State → Except Fault (Settled × State)
  | 0, s => do
    let (x, s) ← settleSamples h s
    match x with
    | some x => return (x, s)
    | none => return (.stopped .timeout, readNowFrom (t0 + s.params.tSettle + 1) s)
  | k + 1, s => do
    let (x, s) ← settleSamples h s
    match x with
    | some x => return (x, s)
    | none =>
      let (t, s) := readNow s
      if s.params.tSettle < t - t0 then return (.stopped .timeout, s) else settleRounds h t0 k s

/-- R258 `DONE_WAIT`. -/
def doneWait (h : Nat) (s : State) : Except Fault (Settled × State) :=
  let (t0, s) := readNow s
  let (k, s) := drawRounds s
  settleRounds h t0 k s

/-- R257, R258, R260: release, settle, the terminal state and the result. -/
def finishLoad (h sid : Nat) (len : Word) (s : State) : Except Fault (OpResult × State) := do
  let (_, s) ← releaseOp (s.handle h).bus sid s
  let (x, s) ← doneWait h (setLdState h .awaitingDone s)
  match x with
  | .configured =>
    let s ← diag h (setLdState h .ready s)
    return (.count len, s)
  | .stopped e => fail h e s

/-- The load once the bus is claimed (R251 to R258). -/
def runLoad (h sid src : Nat) (len : Word) (s : State) : Except Fault (OpResult × State) := do
  let s ← resetPulse h (setLdState h .resetting s)
  let (risen, s) ← statusWait h Config.nStatus s
  if risen then
    let (x, s) ← stream h sid src len.toNat (chunkCount len.toNat s.params.chunkBytes) 0 s
    match x with
    | .sent => finishLoad h sid len s
    | .stopped r => return (r, s)
  else releaseAndFail h sid .timeout s

/-- R251: every load starts from Idle. -/
def enterIdle (h : Nat) (s : State) : State :=
  setHandle h { s.handle h with state := .idle, lastError := none, crcDiag := none } s

/-- R251. A CLAIM ends in a session or in an error (40_contract R122). -/
def ldWriteOp (h src : Nat) (len : Word) (s : State) : Except Fault (OpResult × State) := do
  let s := enterIdle h s
  let (r, s) ← claimOp (s.handle h).bus (s.handle h).cs s
  match r with
  | .session sid => runLoad h sid src len s
  | .error e => fail h e s
  | r => return (r, s)

/-! ## Meanings -/

/-- An operation of the loader: on a handle the machine does not have it is no operation (10_state R39, 30_encoding
R92; log 1). -/
def onHandle (h : Nat) (s : State) (x : Except Fault (OpResult × State)) : Host.Outcome State Fault Refusal :=
  if h < s.ld.length then finish x else .refused (.noOperation .noSuchHandle)

/-- `ld.erase` (R261): no effect. -/
def execLdErase (_offset _len : Word) (s : State) (h : Nat := 0) : Host.Outcome State Fault Refusal :=
  onHandle h s (.ok (.ok, s))

/-- `ld.read` (R262): the fill value at every byte of the destination. 20_memory R60 and 10_state R42 say that the
controller reaches host memory only in TRANSFER and through it in `ld.write`; the operation's own rule, which stores, is
followed (DEDUCED, log 37). -/
def execLdRead (_offset len : Word) (dst : Nat) (s : State) (h : Nat := 0) : Host.Outcome State Fault Refusal :=
  onHandle h s (.ok (.ok, storeBytes dst (List.replicate len.toNat s.params.fill) s))

/-- `ld.write` (R251); the offset is ignored. -/
def execLdWrite (_offset : Word) (src : Nat) (len : Word) (s : State) (h : Nat := 0) :
    Host.Outcome State Fault Refusal :=
  onHandle h s (ldWriteOp h src len s)

/-- `ld.sync` (R263): no effect. -/
def execLdSync (s : State) (h : Nat := 0) : Host.Outcome State Fault Refusal := onHandle h s (.ok (.ok, s))

/-- `ld.lock` (R264): no effect. -/
def execLdLock (_offset _len : Word) (s : State) (h : Nat := 0) : Host.Outcome State Fault Refusal :=
  onHandle h s (.ok (.ok, s))

/-- `ld.unlock` (R265): no effect. -/
def execLdUnlock (_offset _len : Word) (s : State) (h : Nat := 0) : Host.Outcome State Fault Refusal :=
  onHandle h s (.ok (.ok, s))

end Sys2Proof.Machine
end

