-- ==== Sys2Proof/Machine/RcRegs.lean ====
section
/-! DEFINITION. The meanings of the RC register accesses the host makes itself (spec 42_regctl R171 to
R181; 30_encoding R98): each is one access of the controller. A read returns its value. -/

namespace Sys2Proof.Machine

/-- A read ends with the value read. -/
def returnRead : Except Fault (Word × State) → Except Fault (OpResult × State)
  | .ok (v, s) => .ok (.value v, s)
  | .error f => .error f

/-- A write ends with no value. -/
def returnWrite : Except Fault State → Except Fault (OpResult × State)
  | .ok s => .ok (.nothing, s)
  | .error f => .error f

/-- `rc.chconf.r` (R172). -/
def execRcChconfR (c : Nat) (s : State) : Host.Outcome State Fault Refusal :=
  finish (returnRead (rcRead (.conf c) s))

/-- `rc.chconf.w` (R171). -/
def execRcChconfW (c : Nat) (v : Word) (s : State) : Host.Outcome State Fault Refusal :=
  finish (returnWrite (rcWrite (.conf c) v s))

/-- `rc.chstat.r` (R173). -/
def execRcChstatR (c : Nat) (s : State) : Host.Outcome State Fault Refusal :=
  finish (returnRead (rcRead (.stat c) s))

/-- `rc.chstat.w` (R174). -/
def execRcChstatW (c : Nat) (v : Word) (s : State) : Host.Outcome State Fault Refusal :=
  finish (returnWrite (rcWrite (.stat c) v s))

/-- `rc.chctrl.r` (R176). -/
def execRcChctrlR (c : Nat) (s : State) : Host.Outcome State Fault Refusal :=
  finish (returnRead (rcRead (.ctrl c) s))

/-- `rc.chctrl.w` (R175). -/
def execRcChctrlW (c : Nat) (v : Word) (s : State) : Host.Outcome State Fault Refusal :=
  finish (returnWrite (rcWrite (.ctrl c) v s))

/-- `rc.tx.r` (R178). -/
def execRcTxR (c : Nat) (s : State) : Host.Outcome State Fault Refusal :=
  finish (returnRead (rcRead (.tx c) s))

/-- `rc.tx.w` (R177). -/
def execRcTxW (c : Nat) (v : Word) (s : State) : Host.Outcome State Fault Refusal :=
  finish (returnWrite (rcWrite (.tx c) v s))

/-- `rc.rx.r` (R179). -/
def execRcRxR (c : Nat) (s : State) : Host.Outcome State Fault Refusal :=
  finish (returnRead (rcRead (.rx c) s))

/-- `rc.rx.w` (R180). -/
def execRcRxW (c : Nat) (v : Word) (s : State) : Host.Outcome State Fault Refusal :=
  finish (returnWrite (rcWrite (.rx c) v s))

/-- `rc.shared.r` (R181). -/
def execRcSharedR (j : Nat) (s : State) : Host.Outcome State Fault Refusal :=
  finish (returnRead (rcRead (.shared j) s))

/-- `rc.shared.w` (R181). -/
def execRcSharedW (j : Nat) (v : Word) (s : State) : Host.Outcome State Fault Refusal :=
  finish (returnWrite (rcWrite (.shared j) v s))

end Sys2Proof.Machine
end

