-- ==== Sys2Proof/Machine/MfRegs.lean ====
section
/-! DEFINITION. The meanings of the MF register accesses the host makes itself (spec 43_mmfifo R221 to
R229; 30_encoding R99): each is one access of the peer. -/

namespace Sys2Proof.Machine

/-- `mf.txfifo.w` (R221). -/
def execMfTxfifoW (o : Nat) (v : BitVec 16) (s : State) : Host.Outcome State Fault Refusal :=
  finish (returnWrite (mfWrite (.txfifo o) (v.setWidth 32) s))

/-- `mf.busctl.w` (R222). -/
def execMfBusctlW (v : Word) (s : State) : Host.Outcome State Fault Refusal :=
  finish (returnWrite (mfWrite .busctl v s))

/-- `mf.cs0.w` (R223). -/
def execMfCs0W (v : Word) (s : State) : Host.Outcome State Fault Refusal :=
  finish (returnWrite (mfWrite .cs0 v s))

/-- `mf.cs1.w` (R223). -/
def execMfCs1W (v : Word) (s : State) : Host.Outcome State Fault Refusal :=
  finish (returnWrite (mfWrite .cs1 v s))

/-- `mf.speed.w` (R224). -/
def execMfSpeedW (v : Word) (s : State) : Host.Outcome State Fault Refusal :=
  finish (returnWrite (mfWrite .speed v s))

/-- `mf.mode.w` (R225). -/
def execMfModeW (v : Word) (s : State) : Host.Outcome State Fault Refusal :=
  finish (returnWrite (mfWrite .mode v s))

/-- `mf.wrbyte.w` (R226). -/
def execMfWrbyteW (v : Word) (s : State) : Host.Outcome State Fault Refusal :=
  finish (returnWrite (mfWrite .wrbyte v s))

/-- `mf.rdbyte.r` (R227). -/
def execMfRdbyteR (s : State) : Host.Outcome State Fault Refusal :=
  finish (returnRead (mfRead .rdbyte s))

/-- `mf.read.w` (R228). -/
def execMfReadW (v : Word) (s : State) : Host.Outcome State Fault Refusal :=
  finish (returnWrite (mfWrite .read v s))

/-- `mf.rxfifo.r` (R229). -/
def execMfRxfifoR (o : Nat) (s : State) : Host.Outcome State Fault Refusal :=
  finish (returnRead (mfRead (.rxfifo o) s))

end Sys2Proof.Machine
end

