-- ==== Sys2Proof/Machine/Dispatch.lean ====
section
/-! DEFINITION. One arm for each constructor of Instr: the meaning it runs. -/

namespace Sys2Proof.Machine

def exec (i : Instr) (s : State) : Host.Outcome State Fault Refusal :=
  match i with
  | .bbSetup => Sys2Proof.Machine.execBbSetup s
  | .bbClaim cs => Sys2Proof.Machine.execBbClaim cs s
  | .bbRelease sid => Sys2Proof.Machine.execBbRelease sid s
  | .bbSetSpeed sid hz => Sys2Proof.Machine.execBbSetSpeed sid hz s
  | .bbSetMode sid m => Sys2Proof.Machine.execBbSetMode sid m s
  | .bbSetWordlen sid bits => Sys2Proof.Machine.execBbSetWordlen sid bits s
  | .bbTransfer sid d => Sys2Proof.Machine.execBbTransfer sid d s
  | .rcSetup => Sys2Proof.Machine.execRcSetup s
  | .rcClaim cs => Sys2Proof.Machine.execRcClaim cs s
  | .rcRelease sid => Sys2Proof.Machine.execRcRelease sid s
  | .rcSetSpeed sid hz => Sys2Proof.Machine.execRcSetSpeed sid hz s
  | .rcSetMode sid m => Sys2Proof.Machine.execRcSetMode sid m s
  | .rcSetWordlen sid bits => Sys2Proof.Machine.execRcSetWordlen sid bits s
  | .rcTransfer sid d => Sys2Proof.Machine.execRcTransfer sid d s
  | .mfSetup => Sys2Proof.Machine.execMfSetup s
  | .mfClaim cs => Sys2Proof.Machine.execMfClaim cs s
  | .mfRelease sid => Sys2Proof.Machine.execMfRelease sid s
  | .mfSetSpeed sid hz => Sys2Proof.Machine.execMfSetSpeed sid hz s
  | .mfSetMode sid m => Sys2Proof.Machine.execMfSetMode sid m s
  | .mfSetWordlen sid bits => Sys2Proof.Machine.execMfSetWordlen sid bits s
  | .mfTransfer sid d => Sys2Proof.Machine.execMfTransfer sid d s
  | .ldErase offset len h => Sys2Proof.Machine.execLdErase offset len s h
  | .ldRead offset len dst h => Sys2Proof.Machine.execLdRead offset len dst s h
  | .ldWrite offset src len h => Sys2Proof.Machine.execLdWrite offset src len s h
  | .ldSync h => Sys2Proof.Machine.execLdSync s h
  | .ldLock offset len h => Sys2Proof.Machine.execLdLock offset len s h
  | .ldUnlock offset len h => Sys2Proof.Machine.execLdUnlock offset len s h
  | .rcChconfR c => Sys2Proof.Machine.execRcChconfR c s
  | .rcChconfW c v => Sys2Proof.Machine.execRcChconfW c v s
  | .rcChstatR c => Sys2Proof.Machine.execRcChstatR c s
  | .rcChstatW c v => Sys2Proof.Machine.execRcChstatW c v s
  | .rcChctrlR c => Sys2Proof.Machine.execRcChctrlR c s
  | .rcChctrlW c v => Sys2Proof.Machine.execRcChctrlW c v s
  | .rcTxR c => Sys2Proof.Machine.execRcTxR c s
  | .rcTxW c v => Sys2Proof.Machine.execRcTxW c v s
  | .rcRxR c => Sys2Proof.Machine.execRcRxR c s
  | .rcRxW c v => Sys2Proof.Machine.execRcRxW c v s
  | .rcSharedR j => Sys2Proof.Machine.execRcSharedR j s
  | .rcSharedW j v => Sys2Proof.Machine.execRcSharedW j v s
  | .mfTxfifoW o v => Sys2Proof.Machine.execMfTxfifoW o v s
  | .mfBusctlW v => Sys2Proof.Machine.execMfBusctlW v s
  | .mfCs0W v => Sys2Proof.Machine.execMfCs0W v s
  | .mfCs1W v => Sys2Proof.Machine.execMfCs1W v s
  | .mfSpeedW v => Sys2Proof.Machine.execMfSpeedW v s
  | .mfModeW v => Sys2Proof.Machine.execMfModeW v s
  | .mfWrbyteW v => Sys2Proof.Machine.execMfWrbyteW v s
  | .mfRdbyteR => Sys2Proof.Machine.execMfRdbyteR s
  | .mfReadW v => Sys2Proof.Machine.execMfReadW v s
  | .mfRxfifoR o => Sys2Proof.Machine.execMfRxfifoR o s

end Sys2Proof.Machine
end

