-- ==== Sys2Proof/Machine/Fetch.lean ====
section
/-! DEFINITION. How the next instruction comes to run: the host takes the steps of its queue one at a time
(spec 00_scope R7, R14), and a word of `opcode_table.json` is placed at the queue's head. -/

namespace Sys2Proof.Machine

/-- The host's next step (00_scope R7): a word it issues is run; bytes it stores in its buffers are seen by the
operations after it (20_memory R78, R79). That it stores between two operations of its queue, and each time so many
consecutive bytes, is the model's choice (log 31). With nothing left the machine waits (70_reset_and_hazards
R310). -/
def issueNext (s : State) : Host.Outcome State Fault Refusal :=
  match s.queue with
  | [] => .next s
  | .store addr bytes :: rest => .next (storeBytes addr bytes { s with queue := rest })
  | .issue x :: rest =>
    match decodeIssue s.layout x with
    | .ok i => exec i { s with queue := rest }
    | .error e => rejected e

/-- The state in which the host issues this table word next. -/
def placeTableWord (s : State) (nbits w : Nat) : State :=
  { s with queue := .issue (issueOfTableWord s.layout nbits w) :: s.queue }

/-- One step: a state with a fault mark is never final (60_exceptions R287); the shifters take what steps
they take (42_regctl R182 to R184); then the host's next step happens. -/
def stepOnce (s : State) : Host.Outcome State Fault Refusal :=
  match s.faultMark with
  | f :: _ => .fault f
  | [] =>
    match shifterGap s with
    | .ok s => issueNext s
    | .error f => .fault f

end Sys2Proof.Machine
end

