-- ==== Sys2Proof/Machine/Step.lean ====
section
/-! DEFINITION. The step function and where it fetches. -/

namespace Sys2Proof.Machine

/-- One step of the machine. -/
def step (s : State) : Host.Outcome State Fault Refusal := stepOnce s

/-- `s` with a word of `opcode_table.json` placed where `step` fetches its next instruction: at the head
of the host's queue (log 4). -/
def State.withFetchWord (s : State) (nbits w : Nat) : State := placeTableWord s nbits w

end Sys2Proof.Machine
end

