-- ==== Sys2Proof/Safety.lean ====
section
/-! DEFINITION. What counts as a safe state of the machine, in the terms claims use: the invariants the
spec states of the state (10_state R21, R28, R30, R34, R38, R45; 42_regctl R182, R187; 43_mmfifo R223,
R225) and the canonical form of host memory. -/

namespace Sys2Proof.Machine

/-- A register value that has no reserved bit set. -/
def WithinMask (mask v : Word) : Prop := v &&& mask = v

/-- What holds of an RC channel: reserved bits of CONF and CTRL are 0 (R28, R30), and a word in flight
was started with a legal length and direction (42_regctl R182). -/
structure Channel.Sound (x : Channel) : Prop where
  conf : WithinMask confMask x.conf
  ctrl : WithinMask ctrlMask x.ctrl
  word : x.busy = true → 3 ≤ x.shCfg.wl.toNat ∧ x.shCfg.trm ≠ 3#2

/-- What holds of a bus record: a live session was claimed on a bus that is set up, with an index below
the unit's limit (40_contract R122), and its name has been used up (log 13). -/
def BusRec.Sound (u : BusUnit) (nchan : Nat) (b : BusRec) : Prop :=
  ∀ S, b.cur = some S → b.cfgOk = true ∧ S.cs.toNat < claimLimit u nchan b.profile ∧ S.id < b.nextSid

/-- The RC controller: every channel is sound, and at most one is forced or shifting (10_state R45,
42_regctl R187). -/
structure RcBus.Sound (r : RcBus) : Prop where
  chan : ∀ c, c < r.nchan → (r.chan c).Sound
  one : ∀ a b, a < r.nchan → b < r.nchan → (r.chan a).active = true →
    (r.chan b).active = true → a = b

/-- The MF peer: at most one select asserted (R45, 43_mmfifo R223), the receive queue within its capacity
(10_state R38), the reserved bits of MODE 0 (43_mmfifo R225). -/
structure MfBus.Sound (fifo : Nat) (x : MfBus) : Prop where
  select : x.cs0 = true ∨ x.cs1 = true
  queue : x.rxq.length ≤ fifo
  mode : WithinMask modeMask x.mode

/-- The invariant of the whole machine. -/
structure Inv (s : State) : Prop where
  mem : Memory.wf s.mem = true
  rc : s.rc.Sound
  mf : s.mf.Sound s.params.fifoBytes
  bbBus : s.bb.bus.Sound .bb s.rc.nchan
  rcBus : s.rc.bus.Sound .rc s.rc.nchan
  mfBus : s.mf.bus.Sound .mf s.rc.nchan

/-! ## Which instruction of a unit -/

/-- SETUP of a unit's bus. -/
def setupInstr : BusUnit → Instr
  | .bb => .bbSetup
  | .rc => .rcSetup
  | .mf => .mfSetup

/-- CLAIM on a unit's bus. -/
def claimInstr : BusUnit → BitVec 8 → Instr
  | .bb => .bbClaim
  | .rc => .rcClaim
  | .mf => .mfClaim

/-- RELEASE of a unit's session. -/
def releaseInstr : BusUnit → Nat → Instr
  | .bb => .bbRelease
  | .rc => .rcRelease
  | .mf => .mfRelease

/-- SET_SPEED of a unit's session. -/
def setSpeedInstr : BusUnit → Nat → Word → Instr
  | .bb => .bbSetSpeed
  | .rc => .rcSetSpeed
  | .mf => .mfSetSpeed

/-- SET_MODE of a unit's session. -/
def setModeInstr : BusUnit → Nat → Mode → Instr
  | .bb => .bbSetMode
  | .rc => .rcSetMode
  | .mf => .mfSetMode

/-- SET_WORDLEN of a unit's session. -/
def setWordlenInstr : BusUnit → Nat → BitVec 8 → Instr
  | .bb => .bbSetWordlen
  | .rc => .rcSetWordlen
  | .mf => .mfSetWordlen

/-- TRANSFER of a unit's session. -/
def transferInstr : BusUnit → Nat → Desc → Instr
  | .bb => .bbTransfer
  | .rc => .rcTransfer
  | .mf => .mfTransfer

/-- The unit whose operation or register an instruction is; none for the loader (30_encoding R92, R98, R99). -/
def instrUnit : Instr → Option BusUnit
  | .bbSetup => some .bb
  | .bbClaim _ => some .bb
  | .bbRelease _ => some .bb
  | .bbSetSpeed _ _ => some .bb
  | .bbSetMode _ _ => some .bb
  | .bbSetWordlen _ _ => some .bb
  | .bbTransfer _ _ => some .bb
  | .rcSetup => some .rc
  | .rcClaim _ => some .rc
  | .rcRelease _ => some .rc
  | .rcSetSpeed _ _ => some .rc
  | .rcSetMode _ _ => some .rc
  | .rcSetWordlen _ _ => some .rc
  | .rcTransfer _ _ => some .rc
  | .mfSetup => some .mf
  | .mfClaim _ => some .mf
  | .mfRelease _ => some .mf
  | .mfSetSpeed _ _ => some .mf
  | .mfSetMode _ _ => some .mf
  | .mfSetWordlen _ _ => some .mf
  | .mfTransfer _ _ => some .mf
  | .ldErase _ _ _ => none
  | .ldRead _ _ _ _ => none
  | .ldWrite _ _ _ _ => none
  | .ldSync _ => none
  | .ldLock _ _ _ => none
  | .ldUnlock _ _ _ => none
  | .rcChconfR _ => some .rc
  | .rcChconfW _ _ => some .rc
  | .rcChstatR _ => some .rc
  | .rcChstatW _ _ => some .rc
  | .rcChctrlR _ => some .rc
  | .rcChctrlW _ _ => some .rc
  | .rcTxR _ => some .rc
  | .rcTxW _ _ => some .rc
  | .rcRxR _ => some .rc
  | .rcRxW _ _ => some .rc
  | .rcSharedR _ => some .rc
  | .rcSharedW _ _ => some .rc
  | .mfTxfifoW _ _ => some .mf
  | .mfBusctlW _ => some .mf
  | .mfCs0W _ => some .mf
  | .mfCs1W _ => some .mf
  | .mfSpeedW _ => some .mf
  | .mfModeW _ => some .mf
  | .mfWrbyteW _ => some .mf
  | .mfRdbyteR => some .mf
  | .mfReadW _ => some .mf
  | .mfRxfifoR _ => some .mf

/-- The handle a loader operation names (30_encoding R92). -/
def instrHandle : Instr → Option Nat
  | .ldErase _ _ h => some h
  | .ldRead _ _ _ h => some h
  | .ldWrite _ _ _ h => some h
  | .ldSync h => some h
  | .ldLock _ _ h => some h
  | .ldUnlock _ _ h => some h
  | .bbSetup | .bbClaim _ | .bbRelease _ | .bbSetSpeed _ _ | .bbSetMode _ _ | .bbSetWordlen _ _
  | .bbTransfer _ _ | .rcSetup | .rcClaim _ | .rcRelease _ | .rcSetSpeed _ _ | .rcSetMode _ _
  | .rcSetWordlen _ _ | .rcTransfer _ _ | .mfSetup | .mfClaim _ | .mfRelease _ | .mfSetSpeed _ _
  | .mfSetMode _ _ | .mfSetWordlen _ _ | .mfTransfer _ _ | .rcChconfR _ | .rcChconfW _ _ | .rcChstatR _
  | .rcChstatW _ _ | .rcChctrlR _ | .rcChctrlW _ _ | .rcTxR _ | .rcTxW _ _ | .rcRxR _ | .rcRxW _ _
  | .rcSharedR _ | .rcSharedW _ _ | .mfTxfifoW _ _ | .mfBusctlW _ | .mfCs0W _ | .mfCs1W _ | .mfSpeedW _
  | .mfModeW _ | .mfWrbyteW _ | .mfRdbyteR | .mfReadW _ | .mfRxfifoR _ => none

/-! ## When operations run -/

/-- `S` is the live session of the unit's bus, and `sid` names it (40_contract R120). -/
def Live (u : BusUnit) (sid : Nat) (S : Session) (s : State) : Prop :=
  (s.bus u).cur = some S ∧ S.id = sid

/-- The output and input buffer of a descriptor, of `l` bytes, are identical or apart (20_memory R81). -/
def Apart (d : Desc) (l : Nat) : Prop :=
  ∀ a b, d.out = some a → d.inp = some b → a = b ∨ a + l ≤ b ∨ b + l ≤ a

/-- A transfer that none of the tests of 40_contract R127 stops. -/
structure Legal (u : BusUnit) (S : Session) (d : Desc) : Prop where
  wordlen : 4 ≤ S.wordlen.toNat ∧ S.wordlen.toNat ≤ 32
  lsb : d.flags.lsb = true → S.wordlen = 8#8
  lsbIn : u = .rc → d.flags.lsb = true → d.inp = none
  words : d.n.toNat % S.wordlen.toNat = 0
  bytes : u = .mf → d.n.toNat % 8 = 0
  buffers : Apart d (byteLen d.n.toNat)

/-- No channel but `c` is enabled, forced or shifting. -/
def OthersQuiet (c : Nat) (r : RcBus) : Prop :=
  ∀ k, k < r.nchan → k ≠ c → (r.chan k).active = false ∧ (r.chan k).en = false

/-- Where a transfer of RC finds channel `c`: nothing in flight, disabled as every exchange leaves it
(42_regctl R204), the other channels quiet (R187). Its select may be held. -/
structure RcQuiet (c : Nat) (r : RcBus) : Prop where
  others : OthersQuiet c r
  busy : (r.chan c).busy = false
  en : (r.chan c).en = false

/-- Of the controller's registers only those of channel `c` may differ. -/
structure ChanOnly (c : Nat) (r r' : RcBus) : Prop where
  nchan : r'.nchan = r.nchan
  shared : r'.shared = r.shared
  chan : ∀ k, k ≠ c → r'.chan k = r.chan k

/-- Where a transfer of MF finds the peer: the queue empty, as every transfer leaves it (43_mmfifo R238), and
the other slot not asserted (R223). -/
structure MfQuiet (cs : BitVec 8) (x : MfBus) : Prop where
  queue : x.rxq = []
  slot : cs.toNat < Config.mfNcs
  other : if cs = 0#8 then x.cs1 = true else x.cs0 = true

/-! ## Traces -/

/-- The pin events of a trace, in order (00_scope R12). -/
def pinTrace (l : List Obs) : List PinEvent :=
  l.filterMap (fun o => match o with | .pin e => some e | .reg _ => none)

/-- The register accesses of a trace, in order (00_scope R8). -/
def regTrace (l : List Obs) : List RegAccess :=
  l.filterMap (fun o => match o with | .pin _ => none | .reg a => some a)

/-- Pin events as entries of the trace. -/
def pins (l : List PinEvent) : List Obs := l.map .pin

/-- The event of a secondary select driven by a bus, when it has one (40_contract R137). -/
def cs2Events (u : BusUnit) (p : BusProfile) (a : Bool) : List PinEvent :=
  if p.hasCs2 then [.cs2 u a] else []

/-- `Gap(S)` (41_bitbang R156): no event when the delay is 0. -/
def gapEvents (S : Session) : List PinEvent := if S.delay = 0#32 then [] else [.delay (.cycles S.delay)]

/-- The sample of a cell, where it takes one. -/
def sampleEvents : Option Bool → List PinEvent
  | some b => [.din .bb b]
  | none => []

/-- The events of one bit cell (41_bitbang R157 to R159): phase 0 sets up, then a leading edge, the sample, a
trailing edge; phase 1 a leading edge, set-up, a trailing edge, the sample. -/
def cellEvents (S : Session) (o : Bool) (i : Option Bool) : List PinEvent :=
  if S.cpha then
    gapEvents S ++ [.clk .bb (!S.cpol), .dout .bb o] ++ gapEvents S ++ gapEvents S ++ [.clk .bb S.cpol] ++
      sampleEvents i ++ gapEvents S
  else
    [.dout .bb o] ++ gapEvents S ++ [.clk .bb (!S.cpol)] ++ sampleEvents i ++ gapEvents S ++ gapEvents S ++
      [.clk .bb S.cpol] ++ gapEvents S

/-- The events of stream bits `k .. k + n - 1`. -/
def cellsEvents (S : Session) (o : Nat → Bool) (i : Nat → Option Bool) : Nat → Nat → List PinEvent
  | 0, _ => []
  | n + 1, k => cellEvents S (o k) (i k) ++ cellsEvents S o i n (k + 1)

/-- A part of a trace that is there only on a condition. -/
def whenSet {α : Type} (b : Bool) (l : List α) : List α := if b then l else []

/-- The begin phase of BB: clock to idle, secondary, primary (40_contract R128). -/
def bbBeginEvents (S : Session) (p : BusProfile) : List PinEvent :=
  [.clk .bb S.cpol] ++ cs2Events .bb p true ++ [.cs .bb S.cs.toNat true]

/-- The end phase of BB: primary, secondary, clock to idle (40_contract R133). -/
def bbEndEvents (S : Session) (p : BusProfile) : List PinEvent :=
  [.cs .bb S.cs.toNat false] ++ cs2Events .bb p false ++ [.clk .bb S.cpol]

/-- The level a select pin has after the events of `l`, from `b` before them. Each `CS[c]` event of RC is a change
(42_regctl R185), or, where `rep` says so, may repeat the level the pin has (40_contract R128, R133); `none` where one
is neither. -/
def selectAfter (rep : Bool) (c : Nat) : Bool → List Obs → Option Bool
  | b, [] => some b
  | b, .pin (.cs .rc i a) :: l =>
    if i = c then (if a = b ∧ rep = false then none else selectAfter rep c a l) else selectAfter rep c b l
  | b, _ :: l => selectAfter rep c b l

/-- The instructions whose begin and end phases perform a select event also where the pin does not change (40_contract
R128, R133, 93 U34): the transfer of RC, and through it a load. -/
def repeatsSelect : Instr → Bool
  | .rcTransfer _ _ => true
  | .ldWrite _ _ _ _ => true
  | .bbSetup | .bbClaim _ | .bbRelease _ | .bbSetSpeed _ _ | .bbSetMode _ _ | .bbSetWordlen _ _
  | .bbTransfer _ _ | .rcSetup | .rcClaim _ | .rcRelease _ | .rcSetSpeed _ _ | .rcSetMode _ _
  | .rcSetWordlen _ _ | .mfSetup | .mfClaim _ | .mfRelease _ | .mfSetSpeed _ _
  | .mfSetMode _ _ | .mfSetWordlen _ _ | .mfTransfer _ _ | .ldErase _ _ _ | .ldRead _ _ _ _ | .ldSync _
  | .ldLock _ _ _ | .ldUnlock _ _ _ | .rcChconfR _ | .rcChconfW _ _ | .rcChstatR _
  | .rcChstatW _ _ | .rcChctrlR _ | .rcChctrlW _ _ | .rcTxR _ | .rcTxW _ _ | .rcRxR _ | .rcRxW _ _
  | .rcSharedR _ | .rcSharedW _ _ | .mfTxfifoW _ _ | .mfBusctlW _ | .mfCs0W _ | .mfCs1W _ | .mfSpeedW _
  | .mfModeW _ | .mfWrbyteW _ | .mfRdbyteR | .mfReadW _ | .mfRxfifoR _ => false

/-- Whether a select is asserted after a transfer that found it so or not: BEGIN asserts, END de-asserts
(40_contract R128, R133). -/
def selectLeft (f : Flags) (old : Bool) : Bool :=
  if f.ends then false else if f.begins then true else old

/-- The physical level a BB select has after a transfer that found it at `old` (41_bitbang R156): the level of the last
select event, with the session's polarity. -/
def levelLeft (f : Flags) (csHigh old : Bool) : Bool :=
  if f.ends then !csHigh else if f.begins then csHigh else old

/-- The same for the secondary select of a bus, when it has one. -/
def cs2Left (f : Flags) (b : BusRec) : Bool :=
  if b.profile.hasCs2 then selectLeft f b.cs2Asserted else b.cs2Asserted

/-! ## RC traces -/

/-- A write of an RC register in the trace. -/
def rcW (g : RcReg) (v : Word) : Obs :=
  .reg { reg := .rc g, write := true, width := 32, value := v }

/-- A read of an RC register in the trace, with the value read. -/
def rcR (g : RcReg) (v : Word) : Obs :=
  .reg { reg := .rc g, write := false, width := 32, value := v }

/-- The entry is a read of STAT of channel `c`: a round of a poll (42_regctl R196). -/
def Obs.isPoll (c : Nat) : Obs → Bool
  | .reg a => a.reg == .rc (.stat c) && !a.write
  | .pin _ => false

/-- A trace without the rounds of polls, of which a transfer makes any number (R184, R196). -/
def withoutPolls (c : Nat) (l : List Obs) : List Obs := l.filter (fun o => !o.isPoll c)

/-- The fields of CONF a session programs (30_encoding R97, 42_regctl R197), with a direction and FORCE. -/
def sessionConf (S : Session) (trm : BitVec 2) (force : Bool) : ConfFields :=
  { pha := S.cpha, pol := S.cpol, clkd := S.clkd, epol := !S.csHigh, wl := (S.wordlen - 1#8).setWidth 5,
    trm := trm, force := force }

/-- The direction of an exchange (30_encoding R97): both buffers 0, input only 1, output only 2. -/
def direction (d : Desc) : BitVec 2 :=
  if d.out.isSome then (if d.inp.isSome then 0#2 else 2#2) else 1#2

/-- The events of one word of channel `c`: the automatic select around it unless FORCE holds it (R182,
R183). -/
def wordTrace (c : Nat) (force : Bool) (w : Nat) (pol pha : Bool) (out : Word) (inp : Option Word) :
    List Obs :=
  (if force then [] else [.pin (.cs .rc c true)]) ++ [.pin (.word c w pol pha out inp)] ++
    (if force then [] else [.pin (.cs .rc c false)])

/-- The accesses of a read-modify-write of CONF (42_regctl R197), and in a begin or end phase its select event
(40_contract R128, R133). -/
def confTrace (c : Nat) (phase : Option Bool) (old new : Word) : List Obs :=
  [rcR (.conf c) old, rcW (.conf c) new] ++
    (match phase with
      | some a => [.pin (.cs .rc c a)]
      | none => [])

/-- What one element of a transfer does, but for its polls (R200): the word is written, shifted and read, the
channel disabled before the last read. -/
def elemTrace (c : Nat) (K : ConfFields) (w : Nat) (out inp : Word) (last : Bool) : List Obs :=
  (if K.trm = 1#2 then [] else [rcW (.tx c) out]) ++
    wordTrace c K.force w K.pol K.pha (if K.trm = 1#2 then 0#32 else out)
      (if K.trm = 2#2 then none else some inp) ++
    (if K.trm = 2#2 then [] else (if last then [rcW (.ctrl c) 0#32] else []) ++ [rcR (.rx c) inp])

/-- The elements `0 .. k - 1` of the `m` of a transfer. -/
def elemsTrace (c : Nat) (K : ConfFields) (w m : Nat) (out inp : Nat → Word) : Nat → List Obs
  | 0 => []
  | k + 1 => elemsTrace c K w m out inp k ++ elemTrace c K w (out k) (inp k) (k + 1 == m)

/-- The trace of a whole exchange of RC that meets no timeout, but for its polls (R200): `old` is CONF before,
`p` the profile of the bus. -/
def exchangeTrace (c : Nat) (S : Session) (d : Desc) (p : BusProfile) (old : Word) (out inp : Nat → Word) :
    List Obs :=
  let w := S.wordlen.toNat
  let m := d.n.toNat / w
  let K := sessionConf S (direction d) (d.flags.begins || old.getLsbD 20)
  whenSet d.flags.begins (pins (cs2Events .rc p true)) ++ [rcW (.ctrl c) 1#32] ++
    confTrace c (if d.flags.begins then some true else none) old (confWord K) ++ elemsTrace c K w m out inp m ++
    whenSet (K.trm == 2#2) [rcW (.ctrl c) 0#32] ++
    whenSet d.flags.ends (confTrace c (some false) (confWord K) (confWord (sessionConf S K.trm false)) ++
      pins (cs2Events .rc p false))

/-! ## MF traces -/

/-- A write of an MF register. -/
def mfW (g : MfReg) (v : Word) : RegAccess :=
  { reg := .mf g, write := true, width := mfWidth g, value := v }

/-- A read of an MF register, with the value read. -/
def mfR (g : MfReg) (v : Word) : RegAccess :=
  { reg := .mf g, write := false, width := mfWidth g, value := v }

/-- The slot of a chip-select (43_mmfifo R238). -/
def slotReg (cs : BitVec 8) : MfReg := if cs = 0#8 then .cs0 else .cs1

/-- Byte `k` of a buffer as MF exchanges it (43_mmfifo R238 `F`; without an output buffer 0, R228). -/
def mfOutByte (d : Desc) (m : Memory) (k : Nat) : Byte :=
  match d.out with
  | some a => flipByte d.flags.lsb (readByte m (a + k))
  | none => 0#8

/-- The accesses of one burst of `b` bytes, sent `o` and received `i` (43_mmfifo R238): pairs through the windows,
an odd last byte through the single-byte registers; without an output buffer one READ. -/
def burstAccesses (out : Bool) (b : Nat) (o i : Nat → Byte) : List RegAccess :=
  (if out then
    (List.range (b / 2)).map (fun q => mfW (.txfifo (2 * q)) (pairWord (o (2 * q)) (o (2 * q + 1)))) ++
      whenSet (b % 2 == 1) [mfW .wrbyte ((o (b - 1)).setWidth 32)]
  else [mfW .read (BitVec.ofNat 32 b)]) ++
  (List.range (b / 2)).map (fun q => mfR (.rxfifo (2 * q)) (pairWord (i (2 * q)) (i (2 * q + 1)))) ++
  whenSet (b % 2 == 1) [mfR .rdbyte ((i (b - 1)).setWidth 32)]

/-- The accesses of an exchange of `l` bytes in bursts of at most `f`. -/
def burstsAccesses (out : Bool) (l f : Nat) (o i : Nat → Byte) : List RegAccess :=
  (List.range (burstCount l f)).flatMap (fun p =>
    burstAccesses out (min (l - p * f) f) (fun k => o (p * f + k)) (fun k => i (p * f + k)))

/-! ## Draws -/

/-- Answer number `k` still to come: the script's, or past its end the free value of its number. -/
def Draws.answer {α : Type} (free : Nat → α) (d : Draws α) (k : Nat) : α :=
  match d.script[k]? with
  | some a => a
  | none => free (d.taken + k)

/-- The answers once `k` more have been taken. -/
def Draws.drop {α : Type} (d : Draws α) (k : Nat) : Draws α :=
  { script := d.script.drop k, taken := d.taken + k }

/-- Every gap finds the shifter willing: a schedule that offers channel `c` at least twice lets a word start and
complete before the next poll reads its status, for `n` gaps. It is enough for `Responsive`. -/
def Willing (c n : Nat) (e : Env) : Prop :=
  ∀ k, k < n → 2 ≤ (e.sched.answer Config.freeSchedule k).count c

/-- 42_regctl R184, the premise `Responsive`, of an exchange of RC from `s`: when a timer reading ends a poll of the
exchange, every `Start` and `Complete` of its channel that was enabled has been taken, so that none is enabled then. -/
def Responsive (S : Session) (d : Desc) (s : State) : Prop :=
  ∀ u, rcShift S S.cs.toNat d s = .ok (false, u) → (u.rc.chan S.cs.toNat).movable = false

/-- The shifter of channel `c` takes no step in the next `n` gaps (the stuck status of 42_regctl R184). -/
def Stuck (c n : Nat) (e : Env) : Prop :=
  ∀ k, k < n → (e.sched.answer Config.freeSchedule k).count c = 0

/-! ## Buffers -/

/-- Memory after `n` input bits `i` were stored at `b` (20_memory R61 to R66): stream bit `8 * j + p` is bit
`bitPos lsb p` of byte `j`, the bits past the last one are 0, and no other byte differs. -/
def InputStored (lsb : Bool) (b n : Nat) (i : Nat → Bool) (m m' : Memory) : Prop :=
  (∀ j p, j < byteLen n → p < 8 →
    (readByte m' (b + j)).getLsbD (bitPos lsb p) = (decide (8 * j + p < n) && i (8 * j + p))) ∧
  (∀ a, (∀ j, j < byteLen n → a ≠ b + j) → readByte m' a = readByte m a)

/-- The same for a buffer that may be absent: without one, memory is as it was. -/
def InputStoredAt (inp : Option Nat) (lsb : Bool) (n : Nat) (i : Nat → Bool) (m m' : Memory) : Prop :=
  match inp with
  | some b => InputStored lsb b n i m m'
  | none => m' = m

/-! ## The loader -/

/-- The bits of MOSI a trace drives on BB, in order. -/
def doutTrace (l : List PinEvent) : List Bool :=
  l.filterMap (fun e => match e with | .dout .bb b => some b | _ => none)

/-- The bytes a trace sends on MF, in order. -/
def byteOutTrace (l : List PinEvent) : List Byte :=
  l.filterMap (fun e => match e with | .byte o _ => some o | _ => none)

/-- The words a trace sends on RC, in order. -/
def wordOutTrace (l : List PinEvent) : List Word :=
  l.filterMap (fun e => match e with | .word _ _ _ _ o _ => some o | _ => none)

/-- The event is one of the loader's: of a handshake line, or a delay in microseconds. -/
def PinEvent.isLoader : PinEvent → Bool
  | .ncfg _ _ => true
  | .status _ _ => true
  | .done _ _ => true
  | .crc _ _ => true
  | .delay (.micros _) => true
  | _ => false

/-- The loader's events of a trace, in order. -/
def loaderTrace (l : List Obs) : List PinEvent := (pinTrace l).filter PinEvent.isLoader

/-- The events of the reset pulse (44_loader R252). -/
def pulseEvents (h : Nat) : List PinEvent :=
  [.ncfg h false, .delay (.micros Config.tCfgPulseUs), .ncfg h true]

/-- `n` status samples that read 0, each with the delay that follows it (44_loader R253). -/
def lowSamples (h : Nat) : Nat → List PinEvent
  | 0 => []
  | n + 1 => .status h false :: .delay (.micros Config.tStatusStepUs) :: lowSamples h n

/-- The diagnostic sample of handle `h`, when the line is wired (44_loader R260). -/
def diagEvents (h : Nat) (x : Handle) (e : Env) : List PinEvent :=
  if x.hasCrc then [.crc h (e.crc.answer Config.freeCrc 0)] else []

/-- The bus of handle `h` has no shifter with an enabled step: it is not RC's, or RC is quiet. -/
def LoaderQuiet (h : Nat) (s : State) : Prop := (s.handle h).bus = .rc → anyMovable s.rc = false

/-- Handle `h` is there and its bus ready for a load: set up, not claimed, its selects not asserted and, for RC and MF,
the unit as its own operations leave it (70_reset_and_hazards R313, R314). -/
structure LoadReady (h : Nat) (s : State) : Prop where
  handle : h < s.ld.length
  setUp : (s.bus (s.handle h).bus).cfgOk = true
  free : (s.bus (s.handle h).bus).cur = none
  index : (s.handle h).cs.toNat < claimLimit (s.handle h).bus s.rc.nchan (s.bus (s.handle h).bus).profile
  bb : (s.handle h).bus = .bb → s.bb.csAsserted.getLsbD (s.handle h).cs.toNat = false
  rc : (s.handle h).bus = .rc → RcQuiet (s.handle h).cs.toNat s.rc ∧
    (s.rc.chan (s.handle h).cs.toNat).force = false
  mf : (s.handle h).bus = .mf → s.mf.rxq = [] ∧ s.mf.cs0 = true ∧ s.mf.cs1 = true

/-- Of the handles only number `h` may differ, and of that one what a load changes. -/
structure HandleOnly (h : Nat) (s t : State) : Prop where
  length : t.ld.length = s.ld.length
  others : ∀ k, k ≠ h → t.handle k = s.handle k
  own : t.handle h = { s.handle h with
    state := (t.handle h).state, lastError := (t.handle h).lastError, crcDiag := (t.handle h).crcDiag,
    ncfg := (t.handle h).ncfg }

end Sys2Proof.Machine
end

