-- ==== Sys2Proof/Certificates/Slice0/Obligations.lean ====
section
/-! DEFINITION. The statements for the provers, in the order of `OBLIGATIONS.json`. Each docstring says which rule
of the spec it states, or which choice of the model it rests on. -/

open Sys2Proof Sys2Proof.Machine

/-! ## Encoding (30_encoding) -/

/-- R106: the worked encodings, and that the decoder's tables read them so. -/
def Obligations.WorkedEncodings : Prop :=
  headerOf (.contract .rc .transfer) = 0x0106 ∧ headerOf (.contract .bb .claim) = 0x0001 ∧
  headerOf (.contract .mf .setMode) = 0x0204 ∧ headerOf (.loader .write) = 0x0312 ∧
  opOfHeader 0x0106 = some (.contract .rc .transfer) ∧ opOfHeader 0x0001 = some (.contract .bb .claim) ∧
  opOfHeader 0x0204 = some (.contract .mf .setMode) ∧ opOfHeader 0x0312 = some (.loader .write) ∧
  flagsByte { begins := true, ends := true, lsb := false } = 0x03 ∧
  flagsByte { begins := true, ends := false, lsb := true } = 0x05 ∧
  modeByte { cpha := true, cpol := true, csHigh := false } = 0x03 ∧
  keyOf true (rcOff Config.rcMap (.conf 1)) = 0x1040 ∧ keyOf false (rcOff Config.rcMap (.stat 0)) = 0x0030 ∧
  keyOf false (rcOff Config.rcMap (.rx 3)) = 0x0078 ∧
  rcOfKey Config.layout 0x1040 = some (true, .conf 1) ∧ rcOfKey Config.layout 0x0030 = some (false, .stat 0) ∧
  rcOfKey Config.layout 0x0078 = some (false, .rx 3)

/-- R91, R92, R98, R99: words of every family, written out, decode to the instructions they stand for. The layout of
the operands after the header is the model's (log 2). -/
def Obligations.WordsDecode : Prop :=
  decodeIssue Config.layout { port := .op, bytes := [0x03#8, 0x00#8, 0x07#8, 0x00#8, 0x00#8, 0x00#8, 0x40#8, 0x42#8, 0x0F#8, 0x00#8] }
    = .ok (.bbSetSpeed 7 1000000#32) ∧
  decodeIssue Config.layout { port := .op, bytes := [0x01#8, 0x01#8, 0x00#8, 0x03#8] } = .ok (.rcClaim 3#8) ∧
  decodeIssue Config.layout { port := .op, bytes := [0x04#8, 0x02#8, 0x05#8, 0x00#8, 0x00#8, 0x00#8, 0x03#8] }
    = .ok (.mfSetMode 5 { cpha := true, cpol := true, csHigh := false }) ∧
  decodeIssue Config.layout { port := .op, bytes := [0x13#8, 0x03#8, 0x02#8] } = .ok (.ldSync 2) ∧
  decodeIssue Config.layout { port := .rcWindow 32, bytes := [0x40#8, 0x10#8, 0xC0#8, 0x03#8, 0x10#8, 0x00#8] }
    = .ok (.rcChconfW 1 0x001003C0#32) ∧
  decodeIssue Config.layout { port := .rcWindow 32, bytes := [0x28#8, 0x00#8] } = .ok (.rcSharedR 10) ∧
  decodeIssue Config.layout { port := .mfWindow 16, bytes := [0x02#8, 0x10#8, 0x12#8, 0x34#8] } = .ok (.mfTxfifoW 2 0x3412#16) ∧
  decodeIssue Config.layout { port := .mfWindow 32, bytes := [0x18#8, 0x01#8] } = .ok .mfRdbyteR

/-- Decoding an encoded well-formed instruction gives it back, with every operand (R90 to R99): under every layout whose
registers have places of their own, whatever its channel count and its register maps (R100), and the layout of
`opcode_table.json` is one. -/
def Obligations.DecodeEncode : Prop :=
  legalLayout Config.layout = true ∧
  ∀ (L : Config.Layout) (i : Instr), legalLayout L = true → i.wellFormed L = true →
    decodeIssue L (encode L i) = .ok i

/-- Each word has one meaning, under every such layout: what decodes is a well-formed instruction, and the bytes taken
are its encoding. -/
def Obligations.EncodeDecode : Prop :=
  ∀ (L : Config.Layout) (p : Port) (bs rest : List Byte) (i : Instr), legalLayout L = true →
    decode L p bs = .ok (i, rest) →
    i.wellFormed L = true ∧ p = (encode L i).port ∧ bs = (encode L i).bytes ++ rest

/-- R102: a header that names no operation, `flags` and `mode` with reserved bits, and a bus that the unit does not
have spell no operation. That each unit has one bus, number 0, is the model's (logs 1, 2). -/
def Obligations.ReservedOperationsRefused : Prop :=
  (∀ (L : Config.Layout) (h : Nat) (bs : List Byte), h < 0x10000 →
    ¬ (h / 0x100 < 3 ∧ h % 0x100 < 7) → ¬ (h / 0x100 = 3 ∧ 0x10 ≤ h % 0x100 ∧ h % 0x100 < 0x16) →
    decode L .op (leBytes 2 h ++ bs) = .error .unknownOperation) ∧
  (∀ (L : Config.Layout) (u : BusUnit) (s : Nat) (n : Word) (out inp : Option Nat) (b : Byte) (bs : List Byte),
    8 ≤ b.toNat →
    decode L .op (leBytes 2 (headerOf (.contract u .transfer)) ++ leBytes 4 s ++ leBytes 4 n.toNat ++
      bufBytes out ++ bufBytes inp ++ b :: bs) = .error .reservedFlags) ∧
  (∀ (L : Config.Layout) (u : BusUnit) (s : Nat) (b : Byte) (bs : List Byte), 8 ≤ b.toNat →
    decode L .op (leBytes 2 (headerOf (.contract u .setMode)) ++ leBytes 4 s ++ b :: bs) = .error .reservedMode) ∧
  (∀ (L : Config.Layout) (u : BusUnit) (o : ContractOp) (b : Byte) (bs : List Byte), o = .setup ∨ o = .claim →
    b ≠ 0#8 →
    decode L .op (leBytes 2 (headerOf (.contract u o)) ++ b :: bs) = .error .busUnitMismatch)

/-- R98, R99, 20_memory R69, 43_mmfifo R231: which accesses the windows of `opcode_table.json` have, by width, direction
and offset, and that every other access is unmapped. The key as two little-endian bytes and the width as a property of
the port are the model's (logs 2, 27). -/
def Obligations.UnmappedAccesses : Prop :=
  (∀ (w off : Nat) (wr : Bool) (bs : List Byte), off < 0x1000 →
    (w ≠ 32 ∨ off % 4 ≠ 0 ∨ 0x7C ≤ off) →
    decode Config.layout (.rcWindow w) (leBytes 2 (keyOf wr off) ++ bs) = .error .unmappedAccess) ∧
  (∀ (off : Nat) (wr : Bool) (v : Word) (bs : List Byte), off % 4 = 0 → off < 0x7C →
    ∃ i rest, decode Config.layout (.rcWindow 32) (leBytes 2 (keyOf wr off) ++ leBytes 4 v.toNat ++ bs) =
      .ok (i, rest)) ∧
  (∀ (w off : Nat) (wr : Bool) (bs : List Byte), off < 0x1000 →
    ¬ (wr = true ∧ w = 16 ∧ off < 0x100 ∧ off % 2 = 0) →
    ¬ (wr = true ∧ w = 32 ∧ off % 4 = 0 ∧ 0x100 ≤ off ∧ off < 0x120 ∧ off ≠ 0x118) →
    ¬ (wr = false ∧ w = 32 ∧ off = 0x118) →
    ¬ (wr = false ∧ w = 16 ∧ 0x200 ≤ off ∧ off < 0x300 ∧ off % 2 = 0) →
    decode Config.layout (.mfWindow w) (leBytes 2 (keyOf wr off) ++ bs) = .error .unmappedAccess) ∧
  (∀ (off : Nat) (v : BitVec 16) (bs : List Byte), off < 0x100 → off % 2 = 0 →
    decode Config.layout (.mfWindow 16) (leBytes 2 (keyOf true off) ++ leBytes 2 v.toNat ++ bs) =
      .ok (.mfTxfifoW off v, bs)) ∧
  (∀ (off : Nat) (v : Word) (bs : List Byte), off % 4 = 0 → 0x100 ≤ off → off < 0x120 → off ≠ 0x118 →
    ∃ i, decode Config.layout (.mfWindow 32) (leBytes 2 (keyOf true off) ++ leBytes 4 v.toNat ++ bs) =
      .ok (i, bs)) ∧
  (∀ bs : List Byte,
    decode Config.layout (.mfWindow 32) (leBytes 2 (keyOf false 0x118) ++ bs) = .ok (.mfRdbyteR, bs)) ∧
  (∀ (off : Nat) (bs : List Byte), 0x200 ≤ off → off < 0x300 → off % 2 = 0 →
    decode Config.layout (.mfWindow 16) (leBytes 2 (keyOf false off) ++ bs) =
      .ok (.mfRxfifoR (off - 0x200), bs))

/-! ## The step (00_scope R7, R14) -/

/-- One step: the shifters take what steps they take in the gap before the host's next step; the word it issues is run
as the instruction it spells; an access no row matches is the fault `UnmappedAccess` (20_memory R69), any other word
that spells nothing is refused (30_encoding R102); bytes the host stores are in memory and nothing else has changed. A
table word placed by `withFetchWord` is the next to run. How a program comes to run is the model's (log 4), as are the
gap at the head of a step (log 6) and the host's stores between operations (log 31). -/
def Obligations.StepRunsDecoded : Prop :=
  (∀ (s m : State) (x : Issue) (rest : List HostAct), s.faultMark = [] → s.queue = .issue x :: rest →
    shifterGap s = .ok m →
    (∀ i, decodeIssue s.layout x = .ok i → step s = exec i { m with queue := rest }) ∧
    (decodeIssue s.layout x = .error .unmappedAccess → step s = .fault .unmappedAccess) ∧
    (∀ e, decodeIssue s.layout x = .error e → e ≠ .unmappedAccess → step s = .refused (.noOperation e))) ∧
  (∀ (s m : State) (a : Nat) (bytes : List Byte) (rest : List HostAct), s.faultMark = [] →
    s.queue = .store a bytes :: rest → shifterGap s = .ok m → Memory.wf s.mem = true →
    ∃ t, step s = .next t ∧ t = { m with queue := rest, mem := t.mem } ∧ Memory.wf t.mem = true ∧
      (∀ k b, bytes[k]? = some b → readByte t.mem (a + k) = b) ∧
      ∀ b, (∀ k, k < bytes.length → b ≠ a + k) → readByte t.mem b = readByte s.mem b) ∧
  (∀ (s : State) (f : Fault), s.faultMark = [] → shifterGap s = .error f → step s = .fault f) ∧
  (∀ s : State, (∀ c, c < s.rc.nchan → (s.rc.chan c).busy = false ∧ (s.rc.chan c).en = false) →
    shifterGap s = .ok s) ∧
  (∀ (s : State) (nbits w : Nat) (i : Instr), s.faultMark = [] →
    (∀ c, c < s.rc.nchan → (s.rc.chan c).busy = false ∧ (s.rc.chan c).en = false) →
    decodeIssue s.layout (issueOfTableWord s.layout nbits w) = .ok i →
    step (s.withFetchWord nbits w) = exec i s) ∧
  (∀ (s : State) (nbits w : Nat) (i : Instr), s.faultMark = [] →
    (∀ c, c < s.rc.nchan → (s.rc.chan c).busy = false ∧ (s.rc.chan c).en = false) →
    s.layout = Config.layout → decodeTableWord nbits w = some i → step (s.withFetchWord nbits w) = exec i s)

/-- 70_reset_and_hazards R310: after reset the machine waits for the host's first operation; that it waits whenever the
host's queue is empty is log 4. 60_exceptions R287: a state with a fault mark is never final; that a step from one is
the fault at its head, whatever is issued, is log 12. -/
def Obligations.WaitsAndNeverFinal : Prop :=
  step State.reset = .next State.reset ∧
  (∀ s : State, s.faultMark = [] → s.queue = [] →
    (∀ c, c < s.rc.nchan → (s.rc.chan c).busy = false ∧ (s.rc.chan c).en = false) → step s = .next s) ∧
  (∀ (s : State) (f : Fault) (l : List Fault), s.faultMark = f :: l → step s = .fault f)

/-! ## The whole machine -/

/-- The invariant of the machine holds after reset. -/
def Obligations.ResetInv : Prop := Inv State.reset

/-- Every step keeps the invariant: the canonical form of memory, reserved register bits 0 and a legal word in flight
(10_state R28, R30, 42_regctl R182), at most one RC channel forced or shifting (R187), at most one MF select asserted
and the queue within its capacity (43_mmfifo R223, 10_state R38), sessions only as CLAIM makes them (40_contract
R122). -/
def Obligations.StepKeepsInv : Prop :=
  ∀ s t : State, Inv s → step s = .next t → Inv t

/-- 10_state R43, R46: no step changes an input: the parameters, the register maps, the channel count, the profiles, the
loader's targets; 60_exceptions R295: the timer does not go back; R287: the fault mark stays; 00_scope R14: a step
takes the host's next step and no other; R12: the trace only grows. -/
def Obligations.StepKeepsInputs : Prop :=
  ∀ s t : State, step s = .next t →
    t.params = s.params ∧ t.rc.nchan = s.rc.nchan ∧ (∀ u, (t.bus u).profile = (s.bus u).profile) ∧
    t.ld.length = s.ld.length ∧
    (∀ h, (t.handle h).bus = (s.handle h).bus ∧ (t.handle h).cs = (s.handle h).cs ∧
      (t.handle h).size = (s.handle h).size ∧ (t.handle h).hasCrc = (s.handle h).hasCrc) ∧
    s.now ≤ t.now ∧ t.faultMark = s.faultMark ∧ t.queue = s.queue.tail ∧ ∃ l, t.trace = s.trace ++ l

/-- 42_regctl R185: the select of a channel is asserted exactly when FORCE is set or a word is in flight, whatever EN
is; its level when asserted is low exactly when EPOL is 1. The `CS[c]` events of every instruction but a transfer of RC
and a load are exactly the changes of that function; in these two, whose begin and end phases perform an event also
where the pin does not change (40_contract R128, R133; log 36), and so in every step, an event is a change or names the
level the pin has. -/
def Obligations.SelectFollowsActive : Prop :=
  (∀ x : Channel, (x.active = true ↔ x.conf.getLsbD 20 = true ∨ x.busy = true) ∧
    (x.active = true → x.csLevel = !x.conf.getLsbD 6)) ∧
  (∀ (i : Instr) (s t : State) (c : Nat), c < s.rc.nchan → exec i s = .next t →
    ∃ l, t.trace = s.trace ++ l ∧
      selectAfter (repeatsSelect i) c (s.rc.chan c).active l = some (t.rc.chan c).active) ∧
  ∀ (s t : State) (c : Nat), c < s.rc.nchan → step s = .next t →
    ∃ l, t.trace = s.trace ++ l ∧ selectAfter true c (s.rc.chan c).active l = some (t.rc.chan c).active

/-- 00_scope R14: an operation or access of one unit leaves the other units and the loader as they are; a loader's
operation leaves every other target's handle as it is; `ld.write` works on the bus of its handle only, and the loader's
other operations on no unit. -/
def Obligations.OtherUnitsUntouched : Prop :=
  ∀ (i : Instr) (s t : State), exec i s = .next t →
    (∀ u, instrUnit i = some u → t.ld = s.ld ∧ (u ≠ .bb → t.bb = s.bb) ∧ (u ≠ .rc → t.rc = s.rc) ∧
      (u ≠ .mf → t.mf = s.mf)) ∧
    (∀ h, instrHandle i = some h → (∀ k, k ≠ h → t.handle k = s.handle k) ∧
      ((s.handle h).bus ≠ .bb → t.bb = s.bb) ∧ ((s.handle h).bus ≠ .rc → t.rc = s.rc) ∧
      ((s.handle h).bus ≠ .mf → t.mf = s.mf)) ∧
    (instrUnit i = none → (∀ h o src len, i ≠ .ldWrite o src len h) →
      t.bb = s.bb ∧ t.rc = s.rc ∧ t.mf = s.mf ∧ t.ld = s.ld)

/-- 60_exceptions R294: ownership of a bus changes only by CLAIM and RELEASE, and SETUP alone changes whether it is
set up (10_state R21, R25). -/
def Obligations.OwnershipOnlyByClaimAndRelease : Prop :=
  ∀ (i : Instr) (s t : State) (u : BusUnit), exec i s = .next t →
    ((∀ cs, i ≠ claimInstr u cs) → (∀ sid, i ≠ releaseInstr u sid) →
      (t.bus u).claimed = (s.bus u).claimed) ∧
    (i ≠ setupInstr u → (t.bus u).cfgOk = (s.bus u).cfgOk)

/-- 20_memory R61: a byte written reads back, no other byte changes, and the canonical form is kept; memories in that
form that read the same everywhere are equal. -/
def Obligations.MemoryLaws : Prop :=
  (∀ (m : Memory) (a : Nat) (v : Byte), Memory.wf m = true →
    Memory.wf (writeByte m a v) = true ∧ readByte (writeByte m a v) a = v ∧
    ∀ b, b ≠ a → readByte (writeByte m a v) b = readByte m b) ∧
  (∀ m m' : Memory, Memory.wf m = true → Memory.wf m' = true → (∀ a, readByte m a = readByte m' a) → m = m')

/-- 70_reset_and_hazards R311, 10_state R44: every reset value the spec gives. -/
def Obligations.ResetValues : Prop :=
  (∀ u, (State.reset.bus u).cfgOk = false ∧ (State.reset.bus u).claimed = false ∧
    (State.reset.bus u).cur = none ∧ (State.reset.bus u).cs2Asserted = false) ∧
  (∀ i, i < 256 → State.reset.bb.csAsserted.getLsbD i = false) ∧ State.reset.bb.nbound = 0#8 ∧
  (∀ j, j < 11 → State.reset.rc.sharedWord j = 0#32) ∧
  (∀ c, c < State.reset.rc.nchan → (State.reset.rc.chan c).conf = 0#32 ∧ (State.reset.rc.chan c).ctrl = 0#32 ∧
    (State.reset.rc.chan c).tx = 0#32 ∧ (State.reset.rc.chan c).rx = 0#32 ∧
    (State.reset.rc.chan c).txFull = false ∧ (State.reset.rc.chan c).rxFull = false ∧
    (State.reset.rc.chan c).rxReq = false ∧ (State.reset.rc.chan c).busy = false ∧
    (State.reset.rc.chan c).stat = 0x00000002#32 ∧ (State.reset.rc.chan c).active = false) ∧
  State.reset.mf.claimed = false ∧ State.reset.mf.cs0 = true ∧ State.reset.mf.cs1 = true ∧
  State.reset.mf.speed = 0#32 ∧ State.reset.mf.mode = 0#32 ∧ State.reset.mf.rxq = [] ∧
  (∀ h, h < State.reset.ld.length → (State.reset.handle h).state = .idle ∧
    (State.reset.handle h).lastError = none ∧ (State.reset.handle h).crcDiag = none) ∧
  State.reset.faultMark = []

/-! ## SETUP, CLAIM, RELEASE (40_contract R121 to R123) -/

/-- 41_bitbang R150, R121: `bb.setup` of an unclaimed bus binds the lines, latches `nbound`, drives every select to
not asserted and sets `cfg_ok`; when a line or the secondary select cannot be obtained or the counts differ, it fails
with `ResourceUnavailable`, drives nothing and clears `cfg_ok` (60_exceptions R285). Whether a SETUP that fails past the
lines keeps the count it has latched is a free value: R150's pseudocode says that it does, R285 that it does not (log
17). The level a select is left at is that of its slave's profile (log 19); what decides whether a line can be obtained
is log 32. -/
def Obligations.BbSetup : Prop :=
  ∀ s : State, s.bb.bus.cur = none →
    (s.bb.bus.profile.linesOk = true → (s.bb.bus.profile.hasCs2 = true → s.bb.bus.profile.cs2Ok = true) →
      s.bb.bus.profile.nbound = s.bb.bus.profile.ncs →
      ∃ t, exec .bbSetup s = .next t ∧
        t = { s with
          bb := t.bb,
          result := some .ok,
          trace := s.trace ++ pins ((List.range s.bb.bus.profile.ncs.toNat).map (fun i => .cs .bb i false) ++
            cs2Events .bb s.bb.bus.profile false) } ∧
        t.bb = { s.bb with
          csAsserted := t.bb.csAsserted,
          csLevel := t.bb.csLevel,
          nbound := s.bb.bus.profile.nbound,
          bus := { s.bb.bus with
            cfgOk := true,
            cs2Asserted := if s.bb.bus.profile.hasCs2 then false else s.bb.bus.cs2Asserted } } ∧
        ∀ i, i < 256 →
          t.bb.csAsserted.getLsbD i = (decide (s.bb.bus.profile.ncs.toNat ≤ i) && s.bb.csAsserted.getLsbD i) ∧
          t.bb.csLevel.getLsbD i = (if i < s.bb.bus.profile.ncs.toNat then !(s.bb.bus.profile.slave i).csHigh
            else s.bb.csLevel.getLsbD i)) ∧
    (s.bb.bus.profile.linesOk = false →
      exec .bbSetup s = .next { s with
        bb := { s.bb with bus := { s.bb.bus with cfgOk := false } },
        result := some (.error .resourceUnavailable) }) ∧
    (s.bb.bus.profile.linesOk = true →
      (s.bb.bus.profile.hasCs2 = true ∧ s.bb.bus.profile.cs2Ok = false) ∨
        s.bb.bus.profile.nbound ≠ s.bb.bus.profile.ncs →
      exec .bbSetup s = .next { s with
        bb := { s.bb with
          nbound := if Config.failedBindStands then s.bb.bus.profile.nbound else s.bb.nbound,
          bus := { s.bb.bus with cfgOk := false } },
        result := some (.error .resourceUnavailable) })

/-- 42_regctl R190, 43_mmfifo R232, R121: `rc.setup` and `mf.setup` of an unclaimed bus obtain the window and the
secondary select, drive that one to not asserted and make no register access; otherwise they fail with
`ResourceUnavailable`, drive nothing (log 17) and clear `cfg_ok`. What decides whether the
secondary select can be obtained is log 32. -/
def Obligations.WindowSetup : Prop :=
  ∀ (u : BusUnit) (s : State), u ≠ .bb → (s.bus u).cur = none →
    ((s.bus u).profile.windowOk = true → ((s.bus u).profile.hasCs2 = true → (s.bus u).profile.cs2Ok = true) →
      exec (setupInstr u) s = .next { s.setBus u { s.bus u with
          cfgOk := true,
          cs2Asserted := if (s.bus u).profile.hasCs2 then false else (s.bus u).cs2Asserted } with
        trace := s.trace ++ pins (cs2Events u (s.bus u).profile false),
        result := some .ok }) ∧
    ((s.bus u).profile.windowOk = false ∨
        (s.bus u).profile.hasCs2 = true ∧ (s.bus u).profile.cs2Ok = false →
      exec (setupInstr u) s = .next { s.setBus u { s.bus u with cfgOk := false } with
        result := some (.error .resourceUnavailable) })

/-- 40_contract R122 on BB and RC (41_bitbang R151, 42_regctl R191): CLAIM of a bus that is set up and free, with an
index below the limit, opens a session with the profile's mode, word length 8 and the profile's speed; no line moves
and no register is accessed. The session's name is the model's (log 13), as are its unit's unused attributes (log 14). -/
def Obligations.ClaimBbRc : Prop :=
  ∀ (u : BusUnit) (s : State) (cs : BitVec 8), u ≠ .mf → (s.bus u).cur = none → (s.bus u).cfgOk = true →
    cs.toNat < (if u = .bb then (s.bus u).profile.ncs.toNat else min (s.bus u).profile.ncs.toNat s.rc.nchan) →
    exec (claimInstr u cs) s = .next { s.setBus u { s.bus u with
        cur := some {
          id := (s.bus u).nextSid,
          cs := cs,
          cpol := ((s.bus u).profile.slave cs.toNat).cpol,
          cpha := ((s.bus u).profile.slave cs.toNat).cpha,
          csHigh := ((s.bus u).profile.slave cs.toNat).csHigh,
          wordlen := 8#8,
          clkd := if u = .rc then selectDiv s.params.refHz ((s.bus u).profile.slave cs.toNat).maxHz else 0#4,
          delay := if u = .bb then delayOf s.params.delayMax ((s.bus u).profile.slave cs.toNat).maxHz else 0#32,
          hz := 0#32 },
        nextSid := (s.bus u).nextSid + 1 } with
      result := some (.session (s.bus u).nextSid) }

/-- 43_mmfifo R233: CLAIM on MF makes three accesses in this order: BUSCTL 1, SPEED with the profile's frequency, MODE
with the profile's mode bits. The session's name is the model's (log 13), as are its unused attributes (log 14). -/
def Obligations.ClaimMf : Prop :=
  ∀ (s : State) (cs : BitVec 8) (p : SlaveProfile), p = s.mf.bus.profile.slave cs.toNat → s.mf.bus.cur = none →
    s.mf.bus.cfgOk = true → cs.toNat < min s.mf.bus.profile.ncs.toNat 2 →
    ∀ m : Word, m = BitVec.ofNat 32 (p.cpha.toNat + 2 * p.cpol.toNat + 4 * p.csHigh.toNat) →
    exec (.mfClaim cs) s = .next { s with
      mf := { s.mf with
        claimed := true,
        speed := p.maxHz,
        mode := m,
        bus := { s.mf.bus with
          cur := some {
            id := s.mf.bus.nextSid,
            cs := cs,
            cpol := p.cpol,
            cpha := p.cpha,
            csHigh := p.csHigh,
            wordlen := 8#8,
            clkd := 0#4,
            delay := 0#32,
            hz := p.maxHz },
          nextSid := s.mf.bus.nextSid + 1 } },
      trace := s.trace ++ [.reg (mfW .busctl 1#32), .reg (mfW .speed p.maxHz), .reg (mfW .mode m)],
      result := some (.session s.mf.bus.nextSid) }

/-- 40_contract R121, R122, 60_exceptions R281, R285, R289: CLAIM and SETUP on a claimed bus are faults; an index at or
past the limit is `NoSuchChipSelect`, tested first; a bus not set up is `ResourceUnavailable`; a failed claim changes
nothing. -/
def Obligations.ClaimErrors : Prop :=
  ∀ (u : BusUnit) (s : State) (cs : BitVec 8) (limit : Nat),
    limit = (match u with
      | .bb => (s.bus u).profile.ncs.toNat
      | .rc => min (s.bus u).profile.ncs.toNat s.rc.nchan
      | .mf => min (s.bus u).profile.ncs.toNat 2) →
    ((s.bus u).cur ≠ none → exec (claimInstr u cs) s = .fault .reentrantClaim ∧
      exec (setupInstr u) s = .fault .setupWhileClaimed) ∧
    ((s.bus u).cur = none → limit ≤ cs.toNat →
      exec (claimInstr u cs) s = .next { s with result := some (.error .noSuchChipSelect) }) ∧
    ((s.bus u).cur = none → cs.toNat < limit → (s.bus u).cfgOk = false →
      exec (claimInstr u cs) s = .next { s with result := some (.error .resourceUnavailable) })

/-- 40_contract R123, 41_bitbang R152, 42_regctl R192, 43_mmfifo R234: RELEASE ends the session, drives no line and
accesses no RC register; MF writes BUSCTL 0; with the primary select asserted it is the fault
`ReleaseWhileSelected`. -/
def Obligations.Release : Prop :=
  (∀ (u : BusUnit) (s : State) (sid : Nat) (S : Session), u ≠ .mf → Live u sid S s →
    (if u = .bb then s.bb.csAsserted.getLsbD S.cs.toNat else (s.rc.chan S.cs.toNat).conf.getLsbD 20) = false →
    exec (releaseInstr u sid) s = .next { s.setBus u { s.bus u with cur := none } with
      result := some .nothing }) ∧
  (∀ (s : State) (sid : Nat) (S : Session), Live .mf sid S s → (S.cs = 0#8 → s.mf.cs0 = true) →
    (S.cs = 1#8 → s.mf.cs1 = true) →
    exec (.mfRelease sid) s = .next { s with
      mf := { s.mf with claimed := false, bus := { s.mf.bus with cur := none } },
      trace := s.trace ++ [.reg (mfW .busctl 0#32)],
      result := some .nothing }) ∧
  (∀ (s : State) (sid : Nat) (S : Session),
    (Live .bb sid S s → s.bb.csAsserted.getLsbD S.cs.toNat = true →
      exec (.bbRelease sid) s = .fault .releaseWhileSelected) ∧
    (Live .rc sid S s → (s.rc.chan S.cs.toNat).conf.getLsbD 20 = true →
      exec (.rcRelease sid) s = .fault .releaseWhileSelected) ∧
    (Live .mf sid S s → (S.cs = 0#8 ∧ s.mf.cs0 = false) ∨ (S.cs = 1#8 ∧ s.mf.cs1 = false) →
      exec (.mfRelease sid) s = .fault .releaseWhileSelected))

/-- 40_contract R120: every operation that takes a session faults with `NotClaimed` unless the session is the live
session of its bus. -/
def Obligations.NotClaimed : Prop :=
  ∀ (u : BusUnit) (s : State) (sid : Nat), (∀ S, ¬ Live u sid S s) →
    exec (releaseInstr u sid) s = .fault .notClaimed ∧
    (∀ hz, exec (setSpeedInstr u sid hz) s = .fault .notClaimed) ∧
    (∀ m, exec (setModeInstr u sid m) s = .fault .notClaimed) ∧
    (∀ w, exec (setWordlenInstr u sid w) s = .fault .notClaimed) ∧
    (∀ d, exec (transferInstr u sid d) s = .fault .notClaimed)

/-! ## The setters (40_contract R124 to R126) -/

/-- 41_bitbang R153: `bb.set_speed` stores `DelayOf(hz)`, which is at most DELAY_MAX, and DELAY_MAX for 0; it never
errs. -/
def Obligations.BbSetSpeed : Prop :=
  (∀ (s : State) (sid : Nat) (S : Session) (hz : Word), Live .bb sid S s →
    exec (.bbSetSpeed sid hz) s = .next { s with
      bb := { s.bb with bus := { s.bb.bus with cur := some { S with delay := delayOf s.params.delayMax hz } } },
      result := some .nothing }) ∧
  (∀ dm hz : Word, (delayOf dm hz).toNat ≤ dm.toNat) ∧ (∀ dm : Word, delayOf dm 0#32 = dm)

/-- 42_regctl R193: `rc.set_speed` stores the least index whose divided clock does not exceed the request, or 15; it
accesses no register and never errs. That this is so also for a request of 0 under a reference clock below 2^14 Hz is
the model's reading (log 34). -/
def Obligations.RcSetSpeed : Prop :=
  (∀ (s : State) (sid : Nat) (S : Session) (hz : Word), Live .rc sid S s →
    exec (.rcSetSpeed sid hz) s = .next { s with
      rc := { s.rc with bus := { s.rc.bus with cur := some { S with clkd := selectDiv s.params.refHz hz } } },
      result := some .nothing }) ∧
  (∀ (ref : Nat) (hz : Word) (k : Nat), k ≤ 15 → ref / 2 ^ k ≤ hz.toNat → (∀ j, j < k → hz.toNat < ref / 2 ^ j) →
    (selectDiv ref hz).toNat = k) ∧
  (∀ (ref : Nat) (hz : Word), (∀ k, k ≤ 15 → hz.toNat < ref / 2 ^ k) → selectDiv ref hz = 15#4) ∧
  selectDiv 48000000 48000000#32 = 0#4 ∧ selectDiv 48000000 47999999#32 = 1#4 ∧
  selectDiv 48000000 1000000#32 = 6#4 ∧ selectDiv 48000000 1464#32 = 15#4 ∧
  selectDiv 48000000 1463#32 = 15#4 ∧ selectDiv 48000000 0#32 = 15#4

/-- 43_mmfifo R235: `mf.set_speed` stores the request and passes it on in one SPEED write; it never errs. -/
def Obligations.MfSetSpeed : Prop :=
  ∀ (s : State) (sid : Nat) (S : Session) (hz : Word), Live .mf sid S s →
    exec (.mfSetSpeed sid hz) s = .next { s with
      mf := { s.mf with speed := hz, bus := { s.mf.bus with cur := some { S with hz := hz } } },
      trace := s.trace ++ [.reg (mfW .speed hz)],
      result := some .nothing }

/-- 40_contract R125, 41_bitbang R154, 42_regctl R194, 43_mmfifo R236: SET_MODE stores the three bits and moves no line;
MF writes them to MODE at once. -/
def Obligations.SetMode : Prop :=
  (∀ (u : BusUnit) (s : State) (sid : Nat) (S : Session) (m : Mode), u ≠ .mf → Live u sid S s →
    exec (setModeInstr u sid m) s = .next { s.setBus u { s.bus u with
        cur := some { S with cpol := m.cpol, cpha := m.cpha, csHigh := m.csHigh } } with
      result := some .nothing }) ∧
  (∀ (s : State) (sid : Nat) (S : Session) (m : Mode) (v : Word), Live .mf sid S s →
    v = BitVec.ofNat 32 (m.cpha.toNat + 2 * m.cpol.toNat + 4 * m.csHigh.toNat) →
    exec (.mfSetMode sid m) s = .next { s with
      mf := { s.mf with mode := v, bus := { s.mf.bus with
        cur := some { S with cpol := m.cpol, cpha := m.cpha, csHigh := m.csHigh } } },
      trace := s.trace ++ [.reg (mfW .mode v)],
      result := some .nothing })

/-- 40_contract R126: SET_WORDLEN stores any value without error; while the value is outside 4 to 32 every TRANSFER
fails with `BitLengthNotWordAligned` and changes nothing. -/
def Obligations.SetWordlen : Prop :=
  ∀ (u : BusUnit) (s : State) (sid : Nat) (S : Session) (bits : BitVec 8), Live u sid S s →
    exec (setWordlenInstr u sid bits) s = .next { s.setBus u { s.bus u with
        cur := some { S with wordlen := bits } } with result := some .nothing } ∧
    (S.wordlen.toNat < 4 ∨ 32 < S.wordlen.toNat →
      ∀ d, exec (transferInstr u sid d) s =
        .next { s with result := some (.error .bitLengthNotWordAligned) })

/-! ## TRANSFER: the checks (40_contract R127) -/

/-- 40_contract R127: the seven tests in their order; an error changes nothing (R136), the last test is a fault. -/
def Obligations.TransferChecks : Prop :=
  ∀ (u : BusUnit) (s : State) (sid : Nat) (d : Desc),
    ((∀ S, ¬ Live u sid S s) → exec (transferInstr u sid d) s = .fault .notClaimed) ∧
    ∀ S, Live u sid S s →
      (S.wordlen.toNat < 4 ∨ 32 < S.wordlen.toNat → exec (transferInstr u sid d) s =
        .next { s with result := some (.error .bitLengthNotWordAligned) }) ∧
      (4 ≤ S.wordlen.toNat → S.wordlen.toNat ≤ 32 →
        (d.flags.lsb = true → S.wordlen ≠ 8#8 → exec (transferInstr u sid d) s =
          .next { s with result := some (.error .unsupportedBitOrder) }) ∧
        (u = .rc → d.flags.lsb = true → d.inp ≠ none → exec (transferInstr u sid d) s =
          .next { s with result := some (.error .unsupportedBitOrder) }) ∧
        ((d.flags.lsb = true → S.wordlen = 8#8) → (u = .rc → d.flags.lsb = true → d.inp = none) →
          (d.n ≠ 0#32 → d.n.toNat % S.wordlen.toNat ≠ 0 → exec (transferInstr u sid d) s =
            .next { s with result := some (.error .bitLengthNotWordAligned) }) ∧
          (u = .mf → d.n.toNat % 8 ≠ 0 → exec (transferInstr u sid d) s =
            .next { s with result := some (.error .bitLengthNotWordAligned) }) ∧
          (d.n.toNat % S.wordlen.toNat = 0 → (u = .mf → d.n.toNat % 8 = 0) →
            ¬ Apart d (byteLen d.n.toNat) → exec (transferInstr u sid d) s = .fault .bufferOverlap)))

/-! ## TRANSFER on BB (41_bitbang) -/

/-- 40_contract R134 on BB: a descriptor of length 0 or without buffers changes only the selects and the clock's idle
level. A select's pin is left at the level of its last event, with the session's polarity (41_bitbang R156; log 19). The
idle level is that of the session's `cpol` as it stands, also at the END of a select held since before (log 35). -/
def Obligations.BbSelectOnly : Prop :=
  ∀ (s : State) (sid : Nat) (S : Session) (d : Desc), Live .bb sid S s → Legal .bb S d →
    (d.n = 0#32 ∨ (d.out = none ∧ d.inp = none)) →
    ∃ lines levels, exec (.bbTransfer sid d) s = .next { s with
        bb := { s.bb with
          sclk := if d.flags.begins || d.flags.ends then S.cpol else s.bb.sclk,
          csAsserted := lines,
          csLevel := levels,
          bus := { s.bb.bus with cs2Asserted := cs2Left d.flags s.bb.bus } },
        trace := s.trace ++ pins (whenSet d.flags.begins (bbBeginEvents S s.bb.bus.profile) ++
          whenSet d.flags.ends (bbEndEvents S s.bb.bus.profile)),
        result := some (.count 0#32) } ∧
      ∀ i, i < 256 →
        lines.getLsbD i = (if i = S.cs.toNat then selectLeft d.flags (s.bb.csAsserted.getLsbD i)
          else s.bb.csAsserted.getLsbD i) ∧
        levels.getLsbD i = (if i = S.cs.toNat then levelLeft d.flags S.csHigh (s.bb.csLevel.getLsbD i)
          else s.bb.csLevel.getLsbD i)

/-- 40_contract R128 to R135, 41_bitbang R157 to R160: an exchange of BB completes, whatever the slave answers: its
result, its whole trace, its input buffer, and that nothing else changes. The transmit-only path skips the samples in
phase 0 and may in phase 1 (R159). The select's pin is left at the level of its last event (R156; log 19). The clock's
levels are those of the session's `cpol` as it stands, also without BEGIN (log 35). -/
def Obligations.BbTransfer : Prop :=
  ∀ (s : State) (sid : Nat) (S : Session) (d : Desc), Live .bb sid S s → Legal .bb S d → d.n ≠ 0#32 →
    (d.out ≠ none ∨ d.inp ≠ none) → Memory.wf s.mem = true →
    ∃ fast t, exec (.bbTransfer sid d) s = .next t ∧
      (d.out = none ∨ d.inp ≠ none → fast = false) ∧
      (d.out ≠ none → d.inp = none → S.cpha = false → fast = true) ∧
      t.result = some (.count d.n) ∧
      t.trace = s.trace ++ pins (whenSet d.flags.begins (bbBeginEvents S s.bb.bus.profile) ++
        cellsEvents S (outBit d.out d.flags.lsb s.mem)
          (fun k => if fast then none else some (s.env.miso.answer Config.freeMiso k)) d.n.toNat 0 ++
        whenSet d.flags.ends (bbEndEvents S s.bb.bus.profile)) ∧
      InputStoredAt d.inp d.flags.lsb d.n.toNat (s.env.miso.answer Config.freeMiso) s.mem t.mem ∧
      Memory.wf t.mem = true ∧
      t.bb = { s.bb with
        sclk := S.cpol,
        mosi := outBit d.out d.flags.lsb s.mem (d.n.toNat - 1),
        csAsserted := t.bb.csAsserted,
        csLevel := t.bb.csLevel,
        bus := { s.bb.bus with cs2Asserted := cs2Left d.flags s.bb.bus } } ∧
      (∀ i, i < 256 →
        t.bb.csAsserted.getLsbD i = (if i = S.cs.toNat then selectLeft d.flags (s.bb.csAsserted.getLsbD i)
          else s.bb.csAsserted.getLsbD i) ∧
        t.bb.csLevel.getLsbD i = (if i = S.cs.toNat then levelLeft d.flags S.csHigh (s.bb.csLevel.getLsbD i)
          else s.bb.csLevel.getLsbD i)) ∧
      t = { s with
        bb := t.bb,
        mem := t.mem,
        trace := t.trace,
        result := t.result,
        env := { s.env with miso := s.env.miso.drop (if fast then 0 else d.n.toNat), fast := t.env.fast } }

/-- 20_memory R63: sending bytes LSB-first drives every line as sending the bit-reversed bytes MSB-first does. -/
def Obligations.BbLsbFirstReversed : Prop :=
  ∀ (s : State) (sid : Nat) (S : Session) (d : Desc) (a : Nat) (m : Memory), Live .bb sid S s → Legal .bb S d →
    d.flags.lsb = true → d.out = some a → Memory.wf s.mem = true → Memory.wf m = true →
    (∀ j, j < byteLen d.n.toNat → readByte m (a + j) = rev8 (readByte s.mem (a + j))) →
    ∃ t t', exec (.bbTransfer sid d) s = .next t ∧
      exec (.bbTransfer sid { d with flags := { d.flags with lsb := false } }) { s with mem := m } = .next t' ∧
      t'.trace = t.trace ∧ t'.result = t.result

/-- 41_bitbang R163: when every sample answers the level MOSI was just driven to, a duplex transfer of either phase
and bit order leaves in the input buffer exactly the output stream. -/
def Obligations.BbLoopback : Prop :=
  ∀ (s : State) (sid : Nat) (S : Session) (d : Desc) (a b : Nat), Live .bb sid S s → Legal .bb S d →
    d.n ≠ 0#32 → d.out = some a → d.inp = some b → Memory.wf s.mem = true →
    (∀ k, k < d.n.toNat → s.env.miso.answer Config.freeMiso k = outBit d.out d.flags.lsb s.mem k) →
    ∃ t, exec (.bbTransfer sid d) s = .next t ∧ t.result = some (.count d.n) ∧
      (∀ k, k < d.n.toNat → outBit d.inp d.flags.lsb t.mem k = outBit d.out d.flags.lsb s.mem k) ∧
      (d.n.toNat % 8 = 0 → ∀ j, j < d.n.toNat / 8 → readByte t.mem (b + j) = readByte s.mem (a + j))

/-! ## The RC controller (42_regctl, Part A) -/

/-- 42_regctl R172, R173, R176, R178, R181: reads without side effect. In every state the invariant allows, the
reserved bits of CONF and CTRL read 0. -/
def Obligations.RcPlainReads : Prop :=
  (∀ (s : State) (c : Nat), c < s.rc.nchan →
    exec (.rcChconfR c) s = .next { s with
      trace := s.trace ++ [rcR (.conf c) (s.rc.chan c).conf],
      result := some (.value (s.rc.chan c).conf) } ∧
    exec (.rcChctrlR c) s = .next { s with
      trace := s.trace ++ [rcR (.ctrl c) (s.rc.chan c).ctrl],
      result := some (.value (s.rc.chan c).ctrl) } ∧
    exec (.rcTxR c) s = .next { s with
      trace := s.trace ++ [rcR (.tx c) (s.rc.chan c).tx],
      result := some (.value (s.rc.chan c).tx) } ∧
    (∃ v : Word, exec (.rcChstatR c) s = .next { s with
        trace := s.trace ++ [rcR (.stat c) v],
        result := some (.value v) } ∧
      v.getLsbD 0 = (s.rc.chan c).rxFull ∧
      v.getLsbD 1 = (!(s.rc.chan c).txFull && !(s.rc.chan c).busy) ∧ ∀ i, 2 ≤ i → v.getLsbD i = false) ∧
    (Inv s → (∀ i, 14 ≤ i → i ≠ 20 → (s.rc.chan c).conf.getLsbD i = false) ∧
      ∀ i, 1 ≤ i → (s.rc.chan c).ctrl.getLsbD i = false)) ∧
  (∀ (s : State) (j : Nat), j < 11 → exec (.rcSharedR j) s = .next { s with
      trace := s.trace ++ [rcR (.shared j) (s.rc.sharedWord j)],
      result := some (.value (s.rc.sharedWord j)) })

/-- 42_regctl R174, R180, R181: writes of STAT and RX are ignored; a write of SHARED is stored, and no other word of
the block changes. -/
def Obligations.RcPlainWrites : Prop :=
  (∀ (s : State) (c : Nat) (v : Word), c < s.rc.nchan →
    exec (.rcChstatW c v) s = .next { s with
      trace := s.trace ++ [rcW (.stat c) v], result := some .nothing } ∧
    exec (.rcRxW c v) s = .next { s with
      trace := s.trace ++ [rcW (.rx c) v], result := some .nothing }) ∧
  (∀ (s : State) (j : Nat) (v : Word), j < 11 → ∃ t, exec (.rcSharedW j v) s = .next t ∧
    t = { s with
      rc := { s.rc with shared := t.rc.shared },
      trace := s.trace ++ [rcW (.shared j) v],
      result := some .nothing } ∧
    t.rc.sharedWord j = v ∧ ∀ k, k < 11 → k ≠ j → t.rc.sharedWord k = s.rc.sharedWord k)

/-- 42_regctl R171: a write of CONF. -/
def Obligations.RcConfWrite : Prop :=
  ∀ (s : State) (c : Nat) (v : Word) (x : Channel), c < s.rc.nchan → x = s.rc.chan c →
    (v.getLsbD 20 = true → (∃ k, k < s.rc.nchan ∧ k ≠ c ∧ ((s.rc.chan k).conf.getLsbD 20 = true ∨ (s.rc.chan k).busy = true)) →
      exec (.rcChconfW c v) s = .fault .multiChannelActive) ∧
    (v.getLsbD 20 = false ∨
        (∀ k, k < s.rc.nchan → k ≠ c → (s.rc.chan k).conf.getLsbD 20 = false ∧ (s.rc.chan k).busy = false) →
      exec (.rcChconfW c v) s = .next { setChan c { x with
            conf := v &&& 0x00103FFF#32,
            rxReq := if v.extractLsb' 12 2 = 1#2 ∧ x.ctrl.getLsbD 0 = true then true else x.rxReq } s with
        trace := s.trace ++ [rcW (.conf c) v] ++
          (if x.busy = true ∨ x.conf.getLsbD 20 = v.getLsbD 20 then []
           else [.pin (.cs .rc c (v.getLsbD 20))]),
        result := some .nothing })

/-- 42_regctl R175: a write of CTRL: enabling flushes, disabling cancels what has not finished and keeps the received
word, any other write changes nothing but the register. -/
def Obligations.RcCtrlWrite : Prop :=
  ∀ (s : State) (c : Nat) (v : Word) (x : Channel), c < s.rc.nchan → x = s.rc.chan c →
    (x.ctrl.getLsbD 0 = false → v.getLsbD 0 = true →
      exec (.rcChctrlW c v) s = .next { setChan c { x with
          ctrl := v &&& 0x00000001#32, txFull := false, rxFull := false, rxReq := false } s with
        trace := s.trace ++ [rcW (.ctrl c) v], result := some .nothing }) ∧
    (x.ctrl.getLsbD 0 = true → v.getLsbD 0 = false →
      exec (.rcChctrlW c v) s = .next { setChan c { x with
          ctrl := v &&& 0x00000001#32, txFull := false, rxReq := false, busy := false } s with
        trace := s.trace ++ [rcW (.ctrl c) v] ++ (if x.busy = true then
          .pin (.abort c) :: (if x.conf.getLsbD 20 = true then [] else [.pin (.cs .rc c false)]) else []),
        result := some .nothing }) ∧
    (x.ctrl.getLsbD 0 = v.getLsbD 0 →
      exec (.rcChctrlW c v) s = .next { setChan c { x with ctrl := v &&& 0x00000001#32 } s with
        trace := s.trace ++ [rcW (.ctrl c) v], result := some .nothing })

/-- 42_regctl R177, R179: TX is written only to an empty transmitter, RX read only when it holds a word; a read of RX
takes the word and, enabled and receive-only, asks for the next. -/
def Obligations.RcTxWriteRxRead : Prop :=
  ∀ (s : State) (c : Nat) (v : Word) (x : Channel), c < s.rc.nchan → x = s.rc.chan c →
    (x.txFull = true ∨ x.busy = true → exec (.rcTxW c v) s = .fault .txOverrun) ∧
    (x.txFull = false → x.busy = false →
      exec (.rcTxW c v) s = .next { setChan c { x with tx := v, txFull := true } s with
        trace := s.trace ++ [rcW (.tx c) v], result := some .nothing }) ∧
    (x.rxFull = false → exec (.rcRxR c) s = .fault .rxUnderrun) ∧
    (x.rxFull = true →
      exec (.rcRxR c) s = .next { setChan c { x with
          rxFull := false,
          rxReq := if x.ctrl.getLsbD 0 = true ∧ x.conf.extractLsb' 12 2 = 1#2 then true else x.rxReq } s with
        trace := s.trace ++ [rcR (.rx c) x.rx], result := some (.value x.rx) })

/-- 42_regctl R182: when `Start(c)` is enabled, and what it does. Under the reserved TRM 3, for which R182 gives no
direction, a start is enabled when a word waits in either direction and is the fault of 30_encoding R101 (log 25). -/
def Obligations.ShifterStart : Prop :=
  ∀ (s : State) (c w : Nat) (x : Channel) (trm : BitVec 2) (sends receives : Prop), c < s.rc.nchan →
    x = s.rc.chan c → w = (x.conf.extractLsb' 7 5).toNat + 1 → trm = x.conf.extractLsb' 12 2 → x.busy = false →
    (sends ↔ x.txFull = true) → (receives ↔ x.rxReq = true ∧ x.rxFull = false) →
    (¬ (x.ctrl.getLsbD 0 = true ∧
        ((trm = 0#2 ∨ trm = 2#2) ∧ sends ∨ trm = 1#2 ∧ receives ∨ trm = 3#2 ∧ (sends ∨ receives))) →
      shifterStep c s = .ok s) ∧
    (x.ctrl.getLsbD 0 = true → trm = 3#2 → sends ∨ receives → shifterStep c s = .error .reservedConfig) ∧
    (x.ctrl.getLsbD 0 = true → (trm = 0#2 ∨ trm = 2#2) ∧ sends ∨ trm = 1#2 ∧ receives →
      ((x.conf.extractLsb' 7 5).toNat < 3 → shifterStep c s = .error .reservedConfig) ∧
      (3 ≤ (x.conf.extractLsb' 7 5).toNat →
        ((∃ k, k < s.rc.nchan ∧ k ≠ c ∧ ((s.rc.chan k).conf.getLsbD 20 = true ∨ (s.rc.chan k).busy = true)) →
          shifterStep c s = .error .multiChannelActive) ∧
        ((∀ k, k < s.rc.nchan → k ≠ c → (s.rc.chan k).conf.getLsbD 20 = false ∧ (s.rc.chan k).busy = false) →
          ∃ y : Channel, shifterStep c s = .ok { setChan c y s with
              trace := s.trace ++ (if x.conf.getLsbD 20 = true then [] else [.pin (.cs .rc c true)]) } ∧
            y = { x with busy := true, shOut := y.shOut, txFull := y.txFull, rxReq := y.rxReq, shCfg := {
              wl := x.conf.extractLsb' 7 5, pol := x.conf.getLsbD 1, pha := x.conf.getLsbD 0, trm := trm } } ∧
            (trm ≠ 1#2 → y.txFull = false ∧ y.rxReq = x.rxReq ∧
              ∀ i, y.shOut.getLsbD i = (decide (i < w) && x.tx.getLsbD i)) ∧
            (trm = 1#2 → y.txFull = x.txFull ∧ y.rxReq = false ∧ y.shOut = 0#32))))

/-- 42_regctl R183: `Complete(c)` is enabled exactly when a word is in flight: with none, a step of the shifter shifts no
word and delivers none; with one, what it does. When no word waits STAT then shows TXS, and RXS where one was
received. -/
def Obligations.ShifterComplete : Prop :=
  ∀ (s : State) (c w : Nat) (x : Channel) (r : Word), c < s.rc.nchan → x = s.rc.chan c →
    w = x.shCfg.wl.toNat + 1 → r = lowBits w (s.env.word.answer Config.freeWord 0) →
    (x.busy = false → ∀ t, shifterStep c s = .ok t → ∃ l, t.trace = s.trace ++ l ∧
      (∀ k w pol pha o i, .pin (.word k w pol pha o i) ∉ l) ∧ t.env = s.env ∧
      (t.rc.chan c).rx = x.rx ∧ (t.rc.chan c).rxFull = x.rxFull) ∧
    (x.busy = true →
      (x.shCfg.trm = 2#2 → shifterStep c s = .ok { setChan c { x with busy := false } s with
        trace := s.trace ++ [.pin (.word c w x.shCfg.pol x.shCfg.pha (lowBits w x.shOut) none)] ++
          (if x.conf.getLsbD 20 = true then [] else [.pin (.cs .rc c false)]) }) ∧
      (x.shCfg.trm = 0#2 ∨ x.shCfg.trm = 1#2 → x.rxFull = true → shifterStep c s = .error .rxOverrun) ∧
      (x.shCfg.trm = 0#2 ∨ x.shCfg.trm = 1#2 → x.rxFull = false →
        shifterStep c s = .ok { setChan c { x with busy := false, rx := r, rxFull := true } s with
          env := { s.env with word := s.env.word.drop 1 },
          trace := s.trace ++ [.pin (.word c w x.shCfg.pol x.shCfg.pha (lowBits w x.shOut) (some r))] ++
            (if x.conf.getLsbD 20 = true then [] else [.pin (.cs .rc c false)]) }) ∧
      ∀ t, shifterStep c s = .ok t → (x.txFull = false → (t.rc.chan c).stat.getLsbD 1 = true) ∧
        (x.shCfg.trm = 0#2 ∨ x.shCfg.trm = 1#2 → (t.rc.chan c).stat.getLsbD 0 = true)) ∧
    ∀ i, r.getLsbD i = (decide (i < w) && (s.env.word.answer Config.freeWord 0).getLsbD i)

/-- 42_regctl R186: a word expands into bit cells, the most significant bit first, and they are BB's at zero delay; a
transmit-only word has no samples. 43_mmfifo R230: a byte of MF is a word of 8 bits under the clock mode in `mf_mode`.
R223: the physical level of an MF select follows `mf_mode` bit 2, at once (log 19). -/
def Obligations.WordExpansion : Prop :=
  (∀ (u : BusUnit) (pol pha : Bool) (out : Word) (inp : Option Word) (w : Nat),
    expandWord u pol pha out inp w = (List.range w).flatMap (fun j =>
      let di : List PinEvent := match inp with
        | some i => [.din u (i.getLsbD (w - 1 - j))]
        | none => []
      if pha then [.clk u (!pol), .dout u (out.getLsbD (w - 1 - j)), .clk u pol] ++ di
      else [.dout u (out.getLsbD (w - 1 - j)), .clk u (!pol)] ++ di ++ [.clk u pol])) ∧
  (∀ (S : Session) (out inp : Word) (w : Nat), S.delay = 0#32 →
    expandWord .bb S.cpol S.cpha out (some inp) w =
      cellsEvents S (fun j => out.getLsbD (w - 1 - j)) (fun j => some (inp.getLsbD (w - 1 - j))) w 0 ∧
    expandWord .bb S.cpol S.cpha out none w =
      cellsEvents S (fun j => out.getLsbD (w - 1 - j)) (fun _ => none) w 0) ∧
  (∀ (mode : Word) (c w : Nat) (pol pha : Bool) (out : Word) (inp : Option Word),
    lineEvents mode (.word c w pol pha out inp) = expandWord .rc pol pha out inp w ∧
    ∀ u b, .din u b ∉ lineEvents mode (.word c w pol pha out none)) ∧
  (∀ (mode : Word) (o i : Byte), lineEvents mode (.byte o i) = (List.range 8).flatMap (fun j =>
    if mode.getLsbD 0 then [.clk .mf (!mode.getLsbD 1), .dout .mf (o.getLsbD (7 - j)), .clk .mf (mode.getLsbD 1),
      .din .mf (i.getLsbD (7 - j))]
    else [.dout .mf (o.getLsbD (7 - j)), .clk .mf (!mode.getLsbD 1), .din .mf (i.getLsbD (7 - j)),
      .clk .mf (mode.getLsbD 1)])) ∧
  (∀ x : MfBus, x.csLevel 0 = (if x.mode.getLsbD 2 then !x.cs0 else x.cs0) ∧
    x.csLevel 1 = (if x.mode.getLsbD 2 then !x.cs1 else x.cs1))

/-- 20_memory R62, R63, R65: stream bits of a buffer, and the element made of them; of 8 bits LSB-first it is the byte
reversed (42_regctl R202). -/
def Obligations.StreamBits : Prop :=
  (∀ (a : Nat) (m : Memory) (k : Nat),
    outBit (some a) false m k = (readByte m (a + k / 8)).getLsbD (7 - k % 8) ∧
    outBit (some a) true m k = (readByte m (a + k / 8)).getLsbD (k % 8) ∧ ∀ l, outBit none l m k = false) ∧
  (∀ (out : Option Nat) (l : Bool) (m : Memory) (w i : Nat), w ≤ 32 →
    (∀ j, j < w → (outElem out l m w i).getLsbD (w - 1 - j) = outBit out l m (i * w + j)) ∧
    ∀ q, w ≤ q → (outElem out l m w i).getLsbD q = false) ∧
  (∀ (a : Nat) (m : Memory) (i : Nat),
    outElem (some a) true m 8 i = (rev8 (readByte m (a + i))).setWidth 32 ∧
    outElem (some a) false m 8 i = (readByte m (a + i)).setWidth 32)

/-! ## RC's sequencer (42_regctl, Part B) -/

/-- 42_regctl R196: a poll that ends has read the status at least once; its last access is a read of STAT, which shows
the bit exactly when the poll says so; it expires only past the deadline. That it ends is log 7. -/
def Obligations.PollEnds : Prop :=
  ∀ (s t : State) (c b : Nat) (seen : Bool), c < s.rc.nchan → poll c b s = .ok (seen, t) →
    ∃ l v, t.trace = s.trace ++ l ++ [rcR (.stat c) v] ∧ v = (t.rc.chan c).stat ∧ v.getLsbD b = seen ∧
      (seen = false → s.params.tPoll < t.now - (s.now + s.env.tick.answer Config.freeTick 0))

/-- 42_regctl R199: a select-only descriptor programs CONF and the secondary select, and nothing else. Each phase has its
`CS[c]` event, a BEGIN on a held select and an END on one that is not too (40_contract R128, R133; log 36). -/
def Obligations.RcSelectOnly : Prop :=
  ∀ (s : State) (sid c : Nat) (S : Session) (d : Desc) (x : Channel), Live .rc sid S s → Legal .rc S d →
    (d.n = 0#32 ∨ (d.out = none ∧ d.inp = none)) → c = S.cs.toNat → c < s.rc.nchan → x = s.rc.chan c →
    RcQuiet c s.rc →
    ∀ held freed : Word, held = confWord (sessionConf S (x.conf.extractLsb' 12 2) true) →
      freed = confWord (sessionConf S (x.conf.extractLsb' 12 2) false) →
    ∃ t, exec (.rcTransfer sid d) s = .next t ∧
      t = { s with
        rc := t.rc,
        trace := s.trace ++
          whenSet d.flags.begins (pins (cs2Events .rc s.rc.bus.profile true) ++
            confTrace c (some true) x.conf held) ++
          whenSet d.flags.ends (confTrace c (some false) (if d.flags.begins then held else x.conf) freed ++
            pins (cs2Events .rc s.rc.bus.profile false)),
        result := some (.count 0#32) } ∧
      ChanOnly c s.rc t.rc ∧
      t.rc.chan c = { x with conf := if d.flags.ends then freed else if d.flags.begins then held else x.conf } ∧
      t.rc.bus = { s.rc.bus with cs2Asserted := cs2Left d.flags s.rc.bus }

/-- 42_regctl R200, R201, R204, 60_exceptions R291: an exchange of RC ends without a fault, whatever the shifter, the
timer and the slave do: with every element exchanged, or with `Timeout` and the channel in the safe state. In both the
channel is left disabled and idle, and nothing but it, memory's input buffer, the draws and the trace differs. That a
poll ends whatever the timer does is log 7; that each phase has its `CS[c]` event, whether the pin changes or not, is
log 36. -/
def Obligations.RcTransferEnds : Prop :=
  ∀ (s : State) (sid c w : Nat) (S : Session) (d : Desc), Live .rc sid S s → Legal .rc S d → d.n ≠ 0#32 →
    (d.out ≠ none ∨ d.inp ≠ none) → c = S.cs.toNat → c < s.rc.nchan → w = S.wordlen.toNat → RcQuiet c s.rc →
    Memory.wf s.mem = true →
    ∃ t, exec (.rcTransfer sid d) s = .next t ∧ RcQuiet c t.rc ∧ ChanOnly c s.rc t.rc ∧ Memory.wf t.mem = true ∧
      t.rc.bus = { s.rc.bus with cs2Asserted := t.rc.bus.cs2Asserted } ∧
      t = { s with
        rc := t.rc,
        mem := t.mem,
        now := t.now,
        trace := t.trace,
        result := t.result,
        env := { s.env with
          word := t.env.word, tick := t.env.tick, rounds := t.env.rounds, sched := t.env.sched } } ∧
      (t.rc.chan c).txFull = false ∧ (t.rc.chan c).rxReq = false ∧
      ((t.result = some (.count d.n) ∧
          withoutPolls c t.trace = withoutPolls c s.trace ++ exchangeTrace c S d s.rc.bus.profile
            (s.rc.chan c).conf (outElem d.out d.flags.lsb s.mem w)
            (fun k => lowBits w (s.env.word.answer Config.freeWord k)) ∧
          InputStoredAt d.inp false d.n.toNat
            (fun k => (s.env.word.answer Config.freeWord (k / w)).getLsbD (w - 1 - k % w)) s.mem t.mem ∧
          t.env.word = s.env.word.drop (if d.inp = none then 0 else d.n.toNat / w) ∧
          (t.rc.chan c).conf = confWord (sessionConf S (direction d)
            (selectLeft d.flags ((s.rc.chan c).conf.getLsbD 20))) ∧
          (t.rc.chan c).rxFull = false ∧
          t.rc.bus.cs2Asserted = cs2Left d.flags s.rc.bus) ∨
        (t.result = some (.error .timeout) ∧
          (t.rc.chan c).conf = confWord (sessionConf S (direction d) false) ∧
          t.rc.bus.cs2Asserted = (if s.rc.bus.profile.hasCs2 then false else s.rc.bus.cs2Asserted) ∧
          ∀ a, (∀ b j, d.inp = some b → j < byteLen d.n.toNat → a ≠ b + j) →
            readByte t.mem a = readByte s.mem a))

/-- 42_regctl R184: under the premise `Responsive` (no timer reading ends a poll of the exchange while a `Start` or
`Complete` of its channel is still to be taken) an exchange of RC exchanges all its elements: the timeout path is not
reached. A shifter that takes two steps in every gap is enough. When a shifter can act is log 6, how many readings a
poll makes log 7. -/
def Obligations.RcTransferResponsive : Prop :=
  ∀ (s : State) (sid c w : Nat) (S : Session) (d : Desc), Live .rc sid S s → Legal .rc S d → d.n ≠ 0#32 →
    (d.out ≠ none ∨ d.inp ≠ none) → c = S.cs.toNat → c < s.rc.nchan → w = S.wordlen.toNat → RcQuiet c s.rc →
    Memory.wf s.mem = true →
    ∃ t, exec (.rcTransfer sid d) s = .next t ∧
      (Responsive S d s → t.result = some (.count d.n)) ∧
      (Willing c (d.n.toNat / w) s.env → t.result = some (.count d.n))

/-- 42_regctl R201, R184 (a stuck status): when the shifter never moves, an exchange of RC ends in `Timeout` and no word
reaches the pins. How many gaps that takes is the wait's drawn number of rounds (log 7). -/
def Obligations.RcTransferStuck : Prop :=
  ∀ (s : State) (sid c : Nat) (S : Session) (d : Desc), Live .rc sid S s → Legal .rc S d → d.n ≠ 0#32 →
    (d.out ≠ none ∨ d.inp ≠ none) → c = S.cs.toNat → c < s.rc.nchan → RcQuiet c s.rc → Memory.wf s.mem = true →
    Stuck c (s.env.rounds.answer Config.freeRounds (if d.out = none then 0 else 1) + 2) s.env →
    ∃ t l, exec (.rcTransfer sid d) s = .next t ∧ t.result = some (.error .timeout) ∧ t.mem = s.mem ∧
      t.trace = s.trace ++ l ∧ ∀ w pol pha o i, .pin (.word c w pol pha o i) ∉ l

/-- 42_regctl R204: a transfer accesses only the registers of its session's channel, never SHARED, and an exchange never
leaves the channel enabled. -/
def Obligations.RcNeverElsewhere : Prop :=
  ∀ (s t : State) (sid : Nat) (S : Session) (d : Desc), Live .rc sid S s → exec (.rcTransfer sid d) s = .next t →
    (∃ l, regTrace t.trace = regTrace s.trace ++ l ∧ ∀ a, a ∈ l →
      ∃ g, (g = .conf S.cs.toNat ∨ g = .stat S.cs.toNat ∨ g = .ctrl S.cs.toNat ∨ g = .tx S.cs.toNat ∨
        g = .rx S.cs.toNat) ∧ a.reg = .rc g) ∧
    t.rc.shared = s.rc.shared ∧
    (d.n ≠ 0#32 → d.out ≠ none ∨ d.inp ≠ none →
      t.result = some (.count d.n) ∨ t.result = some (.error .timeout) →
      (t.rc.chan S.cs.toNat).ctrl.getLsbD 0 = false)

/-! ## The MF peer (43_mmfifo, Part A) -/

/-- 43_mmfifo R222 to R225: writes of BUSCTL, CS0, CS1, SPEED, MODE. -/
def Obligations.MfCommandWrites : Prop :=
  ∀ (s : State) (v : Word),
    (v = 1#32 ∨ v = 0#32 → exec (.mfBusctlW v) s = .next { s with
      mf := { s.mf with claimed := v == 1#32 },
      trace := s.trace ++ [.reg (mfW .busctl v)],
      result := some .nothing }) ∧
    (v ≠ 1#32 → v ≠ 0#32 → exec (.mfBusctlW v) s = .fault .reservedConfig) ∧
    (v.getLsbD 0 = false → s.mf.cs1 = false → exec (.mfCs0W v) s = .fault .multiChannelActive) ∧
    (v.getLsbD 0 = true ∨ s.mf.cs1 = true → exec (.mfCs0W v) s = .next { s with
      mf := { s.mf with cs0 := v.getLsbD 0 },
      trace := s.trace ++ [.reg (mfW .cs0 v), .pin (.cs .mf 0 (!v.getLsbD 0))],
      result := some .nothing }) ∧
    (v.getLsbD 0 = false → s.mf.cs0 = false → exec (.mfCs1W v) s = .fault .multiChannelActive) ∧
    (v.getLsbD 0 = true ∨ s.mf.cs0 = true → exec (.mfCs1W v) s = .next { s with
      mf := { s.mf with cs1 := v.getLsbD 0 },
      trace := s.trace ++ [.reg (mfW .cs1 v), .pin (.cs .mf 1 (!v.getLsbD 0))],
      result := some .nothing }) ∧
    exec (.mfSpeedW v) s = .next { s with
      mf := { s.mf with speed := v },
      trace := s.trace ++ [.reg (mfW .speed v)],
      result := some .nothing } ∧
    exec (.mfModeW v) s = .next { s with
      mf := { s.mf with mode := v &&& 0x00000007#32 },
      trace := s.trace ++ [.reg (mfW .mode v)],
      result := some .nothing }

/-- 43_mmfifo R221, R226, R228, R230: the writes that exchange bytes: each byte is exchanged and the received one queued,
whether or not the caller wants it; an exchange that finds the queue full is the fault `RxOverrun`. A window offset at
or past FIFO_BYTES is unmapped (log 16). -/
def Obligations.MfExchanges : Prop :=
  ∀ (s : State) (i : Nat → Byte), i = s.env.byte.answer Config.freeByte →
    (∀ (o : Nat) (v : BitVec 16), o % 2 = 0 → o < s.params.fifoBytes →
      (s.mf.rxq.length + 2 ≤ s.params.fifoBytes → exec (.mfTxfifoW o v) s = .next { s with
        mf := { s.mf with rxq := s.mf.rxq ++ [i 0, i 1] },
        env := { s.env with byte := s.env.byte.drop 2 },
        trace := s.trace ++ [.reg (mfW (.txfifo o) (v.setWidth 32)), .pin (.byte (v.extractLsb' 0 8) (i 0)),
          .pin (.byte (v.extractLsb' 8 8) (i 1))],
        result := some .nothing }) ∧
      (s.params.fifoBytes < s.mf.rxq.length + 2 → exec (.mfTxfifoW o v) s = .fault .rxOverrun)) ∧
    (∀ (o : Nat) (v : BitVec 16), ¬ (o % 2 = 0 ∧ o < s.params.fifoBytes) →
      exec (.mfTxfifoW o v) s = .fault .unmappedAccess) ∧
    (∀ v : Word, s.mf.rxq.length < s.params.fifoBytes → exec (.mfWrbyteW v) s = .next { s with
      mf := { s.mf with rxq := s.mf.rxq ++ [i 0] },
      env := { s.env with byte := s.env.byte.drop 1 },
      trace := s.trace ++ [.reg (mfW .wrbyte v), .pin (.byte (v.extractLsb' 0 8) (i 0))],
      result := some .nothing }) ∧
    (∀ v : Word, s.params.fifoBytes ≤ s.mf.rxq.length → exec (.mfWrbyteW v) s = .fault .rxOverrun) ∧
    (∀ v : Word, s.mf.rxq.length + v.toNat ≤ s.params.fifoBytes → exec (.mfReadW v) s = .next { s with
      mf := { s.mf with rxq := s.mf.rxq ++ (List.range v.toNat).map i },
      env := { s.env with byte := s.env.byte.drop v.toNat },
      trace := s.trace ++ .reg (mfW .read v) :: (List.range v.toNat).map (fun k => .pin (.byte 0#8 (i k))),
      result := some .nothing }) ∧
    (∀ v : Word, s.mf.rxq.length ≤ s.params.fifoBytes → s.params.fifoBytes < s.mf.rxq.length + v.toNat →
      exec (.mfReadW v) s = .fault .rxOverrun)

/-- 43_mmfifo R227, R229, 20_memory R67: the reads of the queue: the oldest byte, or the two oldest with the first in the
low half; with too few bytes queued the fault `RxUnderrun`. A window offset at or past FIFO_BYTES is unmapped (log
16). -/
def Obligations.MfQueueReads : Prop :=
  ∀ s : State,
    (s.mf.rxq = [] → exec .mfRdbyteR s = .fault .rxUnderrun) ∧
    (∀ (b : Byte) (q : List Byte), s.mf.rxq = b :: q → exec .mfRdbyteR s = .next { s with
      mf := { s.mf with rxq := q },
      trace := s.trace ++ [.reg (mfR .rdbyte (b.setWidth 32))],
      result := some (.value (b.setWidth 32)) }) ∧
    (∀ o, o % 2 = 0 → o < s.params.fifoBytes →
      (s.mf.rxq.length < 2 → exec (.mfRxfifoR o) s = .fault .rxUnderrun) ∧
      (∀ (b0 b1 : Byte) (q : List Byte) (v : Word), s.mf.rxq = b0 :: b1 :: q →
        v = BitVec.ofNat 32 (b0.toNat + 0x100 * b1.toNat) → exec (.mfRxfifoR o) s = .next { s with
          mf := { s.mf with rxq := q },
          trace := s.trace ++ [.reg (mfR (.rxfifo o) v)],
          result := some (.value v) })) ∧
    (∀ o, ¬ (o % 2 = 0 ∧ o < s.params.fifoBytes) → exec (.mfRxfifoR o) s = .fault .unmappedAccess)

/-! ## MF's sequencer (43_mmfifo, Part B) -/

/-- 43_mmfifo R238: a transfer of MF completes, whatever the slave answers: its result, its pin events, its register
accesses in bursts, its input buffer, the queue empty again, and that nothing else changes. A select-only descriptor
(40_contract R134) is the case of no byte. -/
def Obligations.MfTransfer : Prop :=
  ∀ (s : State) (sid l : Nat) (S : Session) (d : Desc) (i : Nat → Byte), Live .mf sid S s → Legal .mf S d →
    MfQuiet S.cs s.mf → Memory.wf s.mem = true → i = s.env.byte.answer Config.freeByte →
    l = (if d.out = none ∧ d.inp = none then 0 else d.n.toNat / 8) →
    ∃ t, exec (.mfTransfer sid d) s = .next t ∧
      t.result = some (.count (if d.out = none ∧ d.inp = none then 0#32 else d.n)) ∧
      pinTrace t.trace = pinTrace s.trace ++
        whenSet d.flags.begins (cs2Events .mf s.mf.bus.profile true ++ [.cs .mf S.cs.toNat true]) ++
        (List.range l).map (fun k => .byte (mfOutByte d s.mem k) (i k)) ++
        whenSet d.flags.ends (.cs .mf S.cs.toNat false :: cs2Events .mf s.mf.bus.profile false) ∧
      regTrace t.trace = regTrace s.trace ++ whenSet d.flags.begins [mfW (slotReg S.cs) 0#32] ++
        burstsAccesses d.out.isSome l s.params.fifoBytes (mfOutByte d s.mem) i ++
        whenSet d.flags.ends [mfW (slotReg S.cs) 1#32] ∧
      (∀ b, d.inp = some b → (∀ k, k < l → readByte t.mem (b + k) = flipByte d.flags.lsb (i k)) ∧
        ∀ a, (∀ k, k < l → a ≠ b + k) → readByte t.mem a = readByte s.mem a) ∧
      (d.inp = none → t.mem = s.mem) ∧ Memory.wf t.mem = true ∧
      t = { s with
        mf := { s.mf with
          cs0 := if S.cs = 0#8 then !selectLeft d.flags (!s.mf.cs0) else s.mf.cs0,
          cs1 := if S.cs = 1#8 then !selectLeft d.flags (!s.mf.cs1) else s.mf.cs1,
          bus := { s.mf.bus with cs2Asserted := cs2Left d.flags s.mf.bus } },
        mem := t.mem,
        trace := t.trace,
        result := t.result,
        env := { s.env with byte := s.env.byte.drop l } }

/-! ## The loader (44_loader) -/

/-- 44_loader R261, R263, R264, R265: the no-operations succeed and change nothing. A number that is no handle of the
machine spells no operation (log 1). -/
def Obligations.LdNoOps : Prop :=
  ∀ (s : State) (h : Nat) (offset len : Word),
    (h < s.ld.length →
      exec (.ldErase offset len h) s = .next { s with result := some .ok } ∧
      exec (.ldSync h) s = .next { s with result := some .ok } ∧
      exec (.ldLock offset len h) s = .next { s with result := some .ok } ∧
      exec (.ldUnlock offset len h) s = .next { s with result := some .ok }) ∧
    (s.ld.length ≤ h → ∀ i, instrHandle i = some h → exec i s = .refused (.noOperation .noSuchHandle))

/-- 44_loader R262: `ld.read` stores the fill value at every byte of the destination, and nothing else. -/
def Obligations.LdRead : Prop :=
  ∀ (s : State) (h : Nat) (offset len : Word) (dst : Nat), h < s.ld.length → Memory.wf s.mem = true →
    ∃ t, exec (.ldRead offset len dst h) s = .next t ∧ t = { s with mem := t.mem, result := some .ok } ∧
      Memory.wf t.mem = true ∧ (∀ q, q < len.toNat → readByte t.mem (dst + q) = s.params.fill) ∧
      ∀ a, (∀ q, q < len.toNat → a ≠ dst + q) → readByte t.mem a = readByte s.mem a

/-- 44_loader R251, R259, R260: a load whose claim errs ends in `Failed` with that error and one diagnostic sample when
the line is wired; nothing else moves. On a claimed bus it is the fault `ReentrantClaim`. On a bus of RC the sample
comes after the gap in which its shifters act (log 6). -/
def Obligations.LdClaimFails : Prop :=
  ∀ (s failed : State) (h : Nat) (offset len : Word) (src : Nat) (x : Handle) (e : Err), h < s.ld.length →
    x = s.handle h →
    failed = { s with ld := s.ld.set h { x with state := .failed, lastError := some e, crcDiag := none } } →
    ((s.bus x.bus).cur ≠ none → exec (.ldWrite offset src len h) s = .fault .reentrantClaim) ∧
    ((s.bus x.bus).cur = none →
      (claimLimit x.bus s.rc.nchan (s.bus x.bus).profile ≤ x.cs.toNat ∧ e = .noSuchChipSelect) ∨
        (x.cs.toNat < claimLimit x.bus s.rc.nchan (s.bus x.bus).profile ∧ (s.bus x.bus).cfgOk = false ∧
          e = .resourceUnavailable) →
      (x.hasCrc = false →
        exec (.ldWrite offset src len h) s = .next { failed with result := some (.error e) }) ∧
      (∀ m, x.hasCrc = true → (x.bus = .rc → shifterGap failed = .ok m) → (x.bus ≠ .rc → m = failed) →
        exec (.ldWrite offset src len h) s = .next { m with
          ld := s.ld.set h { x with
            state := .failed,
            lastError := some e,
            crcDiag := some (s.env.crc.answer Config.freeCrc 0) },
          env := { m.env with crc := s.env.crc.drop 1 },
          trace := m.trace ++ [.pin (.crc h (s.env.crc.answer Config.freeCrc 0))],
          result := some (.error e) }) ∧
      (∀ f, x.hasCrc = true → x.bus = .rc → shifterGap failed = .error f →
        exec (.ldWrite offset src len h) s = .fault f))

/-- 44_loader R258: the settle wait is rounds of a status sample and, when it reads 1, a done sample; it ends configured
at the first round with both 1, rejected at the first status 0, and in `Timeout` only past the settle window, after at
least one round. It ends whatever the timer does (log 7). On a bus of RC a shifter with an enabled step may act before
a sample (log 6). -/
def Obligations.SettleWait : Prop :=
  (∀ (s t : State) (h : Nat) (x : Settled), doneWait h s = .ok (x, t) →
    ∃ (n : Nat) (l : List PinEvent),
      (x = .configured ∨ x = .stopped .configurationRejected ∨ x = .stopped .timeout) ∧
      l = (List.replicate n [PinEvent.status h true, .done h false]).flatten ++
        (if x = .configured then [.status h true, .done h true]
         else if x = .stopped .configurationRejected then [.status h false] else []) ∧
      loaderTrace t.trace = loaderTrace s.trace ++ l ∧
      (LoaderQuiet h s → t.trace = s.trace ++ pins l) ∧
      (x = .stopped .timeout → 0 < n ∧
        s.params.tSettle < t.now - (s.now + s.env.tick.answer Config.freeTick 0))) ∧
  (∀ (s : State) (h : Nat), LoaderQuiet h s → ∃ x t, doneWait h s = .ok (x, t))

/-- 44_loader R250, R259, R266, 60_exceptions R286, R292: a load from a ready bus ends, whatever the target, the timer,
the shifter and the slave do: `Ready` with the requested length, or `Failed` with `Timeout` or
`ConfigurationRejected`; it leaves the bus free and ready for another load, memory as it was and every other handle as
it was. That its waits end whatever the timer does is log 7. -/
def Obligations.LdWriteCompletes : Prop :=
  ∀ (s : State) (h : Nat) (offset len : Word) (src : Nat), LoadReady h s → Memory.wf s.mem = true →
    ∃ t, exec (.ldWrite offset src len h) s = .next t ∧ LoadReady h t ∧ t.mem = s.mem ∧
      HandleOnly h s t ∧ (t.handle h).ncfg = true ∧
      (((t.handle h).state = .ready ∧ (t.handle h).lastError = none ∧ t.result = some (.count len)) ∨
        ∃ e, (e = .timeout ∨ e = .configurationRejected) ∧ (t.handle h).state = .failed ∧
          (t.handle h).lastError = some e ∧ t.result = some (.error e))

/-- 44_loader R252, R253, R268(b): when 200 status samples read 0, the load fails with `Timeout` after the reset pulse and
those samples; no SPI line has moved and the bus is free. -/
def Obligations.LdStatusNeverRises : Prop :=
  ∀ (s : State) (h : Nat) (offset len : Word) (src : Nat), LoadReady h s →
    (∀ k, k < 200 → s.env.status.answer Config.freeStatus k = false) →
    ∃ t, exec (.ldWrite offset src len h) s = .next t ∧ t.result = some (.error .timeout) ∧
      (t.handle h).state = .failed ∧ (t.handle h).lastError = some .timeout ∧ (t.handle h).ncfg = true ∧
      LoadReady h t ∧ t.mem = s.mem ∧ HandleOnly h s t ∧
      pinTrace t.trace = pinTrace s.trace ++ pulseEvents h ++ lowSamples h 200 ++ diagEvents h (s.handle h) s.env

/-- 44_loader R254, R255, R257, R258, R266, R268(a): when the status reads 1 at every sample and done reads 1, the load
succeeds and returns the requested length; the bytes from `src` and one more are sent, each bit 0 first: on BB bit by
bit, on MF and RC as the bytes reversed. The byte past the buffer is a draw (20_memory R71; log 33). On RC the shifter
is to take two steps in every gap, which meets the premise `Responsive` (42_regctl R184; log 6). -/
def Obligations.LdWriteSucceeds : Prop :=
  ∀ (s : State) (h : Nat) (offset len : Word) (src : Nat) (m : Memory), LoadReady h s → Memory.wf s.mem = true →
    m = writeByte s.mem (src + len.toNat) (s.env.pad.answer Config.freePad 0) →
    (∀ k, k < chunkCount len.toNat s.params.chunkBytes + 3 → s.env.status.answer Config.freeStatus k = true) →
    s.env.done.answer Config.freeDone 0 = true →
    ((s.handle h).bus = .rc → Willing (s.handle h).cs.toNat (len.toNat + 1) s.env) →
    ∃ t, exec (.ldWrite offset src len h) s = .next t ∧ t.result = some (.count len) ∧
      (t.handle h).state = .ready ∧ (t.handle h).lastError = none ∧
      (t.handle h).crcDiag = (if (s.handle h).hasCrc then some (s.env.crc.answer Config.freeCrc 0) else none) ∧
      ((s.handle h).bus = .bb → doutTrace (pinTrace t.trace) = doutTrace (pinTrace s.trace) ++
        (List.range (8 * (len.toNat + 1))).map (outBit (some src) true m)) ∧
      ((s.handle h).bus = .rc → wordOutTrace (pinTrace t.trace) = wordOutTrace (pinTrace s.trace) ++
        (List.range (len.toNat + 1)).map (fun k => (rev8 (readByte m (src + k))).setWidth 32)) ∧
      ((s.handle h).bus = .mf → byteOutTrace (pinTrace t.trace) = byteOutTrace (pinTrace s.trace) ++
        (List.range (len.toNat + 1)).map (fun k => rev8 (readByte m (src + k))))

/-- 44_loader R254, R256, R268(c), 60_exceptions R286: when the status has risen and reads 0 before transfer `i` of the
stream, the load fails with `ConfigurationRejected`; only the chunks before it were sent, on any bus, never the padded
tail; the select is not asserted and the bus free. On RC under a shifter that takes two steps in every gap (42_regctl
R184; log 6). -/
def Obligations.LdWriteRejected : Prop :=
  ∀ (s : State) (h : Nat) (offset len : Word) (src i : Nat), LoadReady h s → Memory.wf s.mem = true →
    i ≤ chunkCount len.toNat s.params.chunkBytes →
    (∀ k, k ≤ i → s.env.status.answer Config.freeStatus k = true) →
    s.env.status.answer Config.freeStatus (i + 1) = false →
    ((s.handle h).bus = .rc → Willing (s.handle h).cs.toNat (i * s.params.chunkBytes) s.env) →
    ∃ t, exec (.ldWrite offset src len h) s = .next t ∧ t.result = some (.error .configurationRejected) ∧
      (t.handle h).state = .failed ∧ (t.handle h).lastError = some .configurationRejected ∧ LoadReady h t ∧
      ((s.handle h).bus = .bb → doutTrace (pinTrace t.trace) = doutTrace (pinTrace s.trace) ++
        (List.range (8 * (i * s.params.chunkBytes))).map (outBit (some src) true s.mem)) ∧
      ((s.handle h).bus = .rc → wordOutTrace (pinTrace t.trace) = wordOutTrace (pinTrace s.trace) ++
        (List.range (i * s.params.chunkBytes)).map (fun k => (rev8 (readByte s.mem (src + k))).setWidth 32)) ∧
      ((s.handle h).bus = .mf → byteOutTrace (pinTrace t.trace) = byteOutTrace (pinTrace s.trace) ++
        (List.range (i * s.params.chunkBytes)).map (fun k => rev8 (readByte s.mem (src + k))))
end

