-- ==== Sys2Proof/Laws/State.lean ====
section
/-! SUPPORT. What each shared update leaves of each field of State: one lemma for each field and update,
so that no later proof unfolds a record update. -/

namespace Sys2Proof.Machine

@[simp] theorem emit_bb (o : Obs) (s : State) : (emit o s).bb = s.bb := rfl
@[simp] theorem emit_rc (o : Obs) (s : State) : (emit o s).rc = s.rc := rfl
@[simp] theorem emit_mf (o : Obs) (s : State) : (emit o s).mf = s.mf := rfl
@[simp] theorem emit_ld (o : Obs) (s : State) : (emit o s).ld = s.ld := rfl
@[simp] theorem emit_mem (o : Obs) (s : State) : (emit o s).mem = s.mem := rfl
@[simp] theorem emit_now (o : Obs) (s : State) : (emit o s).now = s.now := rfl
@[simp] theorem emit_faultMark (o : Obs) (s : State) : (emit o s).faultMark = s.faultMark := rfl
@[simp] theorem emit_params (o : Obs) (s : State) : (emit o s).params = s.params := rfl
@[simp] theorem emit_env (o : Obs) (s : State) : (emit o s).env = s.env := rfl
@[simp] theorem emit_queue (o : Obs) (s : State) : (emit o s).queue = s.queue := rfl
@[simp] theorem emit_result (o : Obs) (s : State) : (emit o s).result = s.result := rfl

@[simp] theorem emitPin_bb (e : PinEvent) (s : State) : (emitPin e s).bb = s.bb := rfl
@[simp] theorem emitPin_rc (e : PinEvent) (s : State) : (emitPin e s).rc = s.rc := rfl
@[simp] theorem emitPin_mf (e : PinEvent) (s : State) : (emitPin e s).mf = s.mf := rfl
@[simp] theorem emitPin_ld (e : PinEvent) (s : State) : (emitPin e s).ld = s.ld := rfl
@[simp] theorem emitPin_mem (e : PinEvent) (s : State) : (emitPin e s).mem = s.mem := rfl
@[simp] theorem emitPin_now (e : PinEvent) (s : State) : (emitPin e s).now = s.now := rfl
@[simp] theorem emitPin_faultMark (e : PinEvent) (s : State) : (emitPin e s).faultMark = s.faultMark := rfl
@[simp] theorem emitPin_params (e : PinEvent) (s : State) : (emitPin e s).params = s.params := rfl
@[simp] theorem emitPin_env (e : PinEvent) (s : State) : (emitPin e s).env = s.env := rfl
@[simp] theorem emitPin_queue (e : PinEvent) (s : State) : (emitPin e s).queue = s.queue := rfl
@[simp] theorem emitPin_result (e : PinEvent) (s : State) : (emitPin e s).result = s.result := rfl

@[simp] theorem storeByte_bb (a : Nat) (v : Byte) (s : State) : (storeByte a v s).bb = s.bb := rfl
@[simp] theorem storeByte_rc (a : Nat) (v : Byte) (s : State) : (storeByte a v s).rc = s.rc := rfl
@[simp] theorem storeByte_mf (a : Nat) (v : Byte) (s : State) : (storeByte a v s).mf = s.mf := rfl
@[simp] theorem storeByte_ld (a : Nat) (v : Byte) (s : State) : (storeByte a v s).ld = s.ld := rfl
@[simp] theorem storeByte_now (a : Nat) (v : Byte) (s : State) : (storeByte a v s).now = s.now := rfl
@[simp] theorem storeByte_faultMark (a : Nat) (v : Byte) (s : State) : (storeByte a v s).faultMark = s.faultMark := rfl
@[simp] theorem storeByte_params (a : Nat) (v : Byte) (s : State) : (storeByte a v s).params = s.params := rfl
@[simp] theorem storeByte_env (a : Nat) (v : Byte) (s : State) : (storeByte a v s).env = s.env := rfl
@[simp] theorem storeByte_queue (a : Nat) (v : Byte) (s : State) : (storeByte a v s).queue = s.queue := rfl
@[simp] theorem storeByte_trace (a : Nat) (v : Byte) (s : State) : (storeByte a v s).trace = s.trace := rfl
@[simp] theorem storeByte_result (a : Nat) (v : Byte) (s : State) : (storeByte a v s).result = s.result := rfl

@[simp] theorem readNow_bb (s : State) : ((readNow s).2).bb = s.bb := rfl
@[simp] theorem readNow_rc (s : State) : ((readNow s).2).rc = s.rc := rfl
@[simp] theorem readNow_mf (s : State) : ((readNow s).2).mf = s.mf := rfl
@[simp] theorem readNow_ld (s : State) : ((readNow s).2).ld = s.ld := rfl
@[simp] theorem readNow_mem (s : State) : ((readNow s).2).mem = s.mem := rfl
@[simp] theorem readNow_faultMark (s : State) : ((readNow s).2).faultMark = s.faultMark := rfl
@[simp] theorem readNow_params (s : State) : ((readNow s).2).params = s.params := rfl
@[simp] theorem readNow_queue (s : State) : ((readNow s).2).queue = s.queue := rfl
@[simp] theorem readNow_trace (s : State) : ((readNow s).2).trace = s.trace := rfl
@[simp] theorem readNow_result (s : State) : ((readNow s).2).result = s.result := rfl

@[simp] theorem readNowFrom_bb (t : Nat) (s : State) : (readNowFrom t s).bb = s.bb := rfl
@[simp] theorem readNowFrom_rc (t : Nat) (s : State) : (readNowFrom t s).rc = s.rc := rfl
@[simp] theorem readNowFrom_mf (t : Nat) (s : State) : (readNowFrom t s).mf = s.mf := rfl
@[simp] theorem readNowFrom_ld (t : Nat) (s : State) : (readNowFrom t s).ld = s.ld := rfl
@[simp] theorem readNowFrom_mem (t : Nat) (s : State) : (readNowFrom t s).mem = s.mem := rfl
@[simp] theorem readNowFrom_faultMark (t : Nat) (s : State) : (readNowFrom t s).faultMark = s.faultMark := rfl
@[simp] theorem readNowFrom_params (t : Nat) (s : State) : (readNowFrom t s).params = s.params := rfl
@[simp] theorem readNowFrom_queue (t : Nat) (s : State) : (readNowFrom t s).queue = s.queue := rfl
@[simp] theorem readNowFrom_trace (t : Nat) (s : State) : (readNowFrom t s).trace = s.trace := rfl
@[simp] theorem readNowFrom_result (t : Nat) (s : State) : (readNowFrom t s).result = s.result := rfl

@[simp] theorem drawRounds_bb (s : State) : ((drawRounds s).2).bb = s.bb := rfl
@[simp] theorem drawRounds_rc (s : State) : ((drawRounds s).2).rc = s.rc := rfl
@[simp] theorem drawRounds_mf (s : State) : ((drawRounds s).2).mf = s.mf := rfl
@[simp] theorem drawRounds_ld (s : State) : ((drawRounds s).2).ld = s.ld := rfl
@[simp] theorem drawRounds_mem (s : State) : ((drawRounds s).2).mem = s.mem := rfl
@[simp] theorem drawRounds_now (s : State) : ((drawRounds s).2).now = s.now := rfl
@[simp] theorem drawRounds_faultMark (s : State) : ((drawRounds s).2).faultMark = s.faultMark := rfl
@[simp] theorem drawRounds_params (s : State) : ((drawRounds s).2).params = s.params := rfl
@[simp] theorem drawRounds_queue (s : State) : ((drawRounds s).2).queue = s.queue := rfl
@[simp] theorem drawRounds_trace (s : State) : ((drawRounds s).2).trace = s.trace := rfl
@[simp] theorem drawRounds_result (s : State) : ((drawRounds s).2).result = s.result := rfl

@[simp] theorem setChan_bb (c : Nat) (x : Channel) (s : State) : (setChan c x s).bb = s.bb := rfl
@[simp] theorem setChan_mf (c : Nat) (x : Channel) (s : State) : (setChan c x s).mf = s.mf := rfl
@[simp] theorem setChan_ld (c : Nat) (x : Channel) (s : State) : (setChan c x s).ld = s.ld := rfl
@[simp] theorem setChan_mem (c : Nat) (x : Channel) (s : State) : (setChan c x s).mem = s.mem := rfl
@[simp] theorem setChan_now (c : Nat) (x : Channel) (s : State) : (setChan c x s).now = s.now := rfl
@[simp] theorem setChan_faultMark (c : Nat) (x : Channel) (s : State) : (setChan c x s).faultMark = s.faultMark := rfl
@[simp] theorem setChan_params (c : Nat) (x : Channel) (s : State) : (setChan c x s).params = s.params := rfl
@[simp] theorem setChan_env (c : Nat) (x : Channel) (s : State) : (setChan c x s).env = s.env := rfl
@[simp] theorem setChan_queue (c : Nat) (x : Channel) (s : State) : (setChan c x s).queue = s.queue := rfl
@[simp] theorem setChan_trace (c : Nat) (x : Channel) (s : State) : (setChan c x s).trace = s.trace := rfl
@[simp] theorem setChan_result (c : Nat) (x : Channel) (s : State) : (setChan c x s).result = s.result := rfl

@[simp] theorem rcLog_bb (b : Bool) (g : RcReg) (v : Word) (s : State) : (rcLog b g v s).bb = s.bb := rfl
@[simp] theorem rcLog_rc (b : Bool) (g : RcReg) (v : Word) (s : State) : (rcLog b g v s).rc = s.rc := rfl
@[simp] theorem rcLog_mf (b : Bool) (g : RcReg) (v : Word) (s : State) : (rcLog b g v s).mf = s.mf := rfl
@[simp] theorem rcLog_ld (b : Bool) (g : RcReg) (v : Word) (s : State) : (rcLog b g v s).ld = s.ld := rfl
@[simp] theorem rcLog_mem (b : Bool) (g : RcReg) (v : Word) (s : State) : (rcLog b g v s).mem = s.mem := rfl
@[simp] theorem rcLog_now (b : Bool) (g : RcReg) (v : Word) (s : State) : (rcLog b g v s).now = s.now := rfl
@[simp] theorem rcLog_faultMark (b : Bool) (g : RcReg) (v : Word) (s : State) : (rcLog b g v s).faultMark = s.faultMark := rfl
@[simp] theorem rcLog_params (b : Bool) (g : RcReg) (v : Word) (s : State) : (rcLog b g v s).params = s.params := rfl
@[simp] theorem rcLog_env (b : Bool) (g : RcReg) (v : Word) (s : State) : (rcLog b g v s).env = s.env := rfl
@[simp] theorem rcLog_queue (b : Bool) (g : RcReg) (v : Word) (s : State) : (rcLog b g v s).queue = s.queue := rfl
@[simp] theorem rcLog_result (b : Bool) (g : RcReg) (v : Word) (s : State) : (rcLog b g v s).result = s.result := rfl

@[simp] theorem mfLog_bb (b : Bool) (g : MfReg) (v : Word) (s : State) : (mfLog b g v s).bb = s.bb := rfl
@[simp] theorem mfLog_rc (b : Bool) (g : MfReg) (v : Word) (s : State) : (mfLog b g v s).rc = s.rc := rfl
@[simp] theorem mfLog_mf (b : Bool) (g : MfReg) (v : Word) (s : State) : (mfLog b g v s).mf = s.mf := rfl
@[simp] theorem mfLog_ld (b : Bool) (g : MfReg) (v : Word) (s : State) : (mfLog b g v s).ld = s.ld := rfl
@[simp] theorem mfLog_mem (b : Bool) (g : MfReg) (v : Word) (s : State) : (mfLog b g v s).mem = s.mem := rfl
@[simp] theorem mfLog_now (b : Bool) (g : MfReg) (v : Word) (s : State) : (mfLog b g v s).now = s.now := rfl
@[simp] theorem mfLog_faultMark (b : Bool) (g : MfReg) (v : Word) (s : State) : (mfLog b g v s).faultMark = s.faultMark := rfl
@[simp] theorem mfLog_params (b : Bool) (g : MfReg) (v : Word) (s : State) : (mfLog b g v s).params = s.params := rfl
@[simp] theorem mfLog_env (b : Bool) (g : MfReg) (v : Word) (s : State) : (mfLog b g v s).env = s.env := rfl
@[simp] theorem mfLog_queue (b : Bool) (g : MfReg) (v : Word) (s : State) : (mfLog b g v s).queue = s.queue := rfl
@[simp] theorem mfLog_result (b : Bool) (g : MfReg) (v : Word) (s : State) : (mfLog b g v s).result = s.result := rfl

@[simp] theorem driveClk_rc (b : Bool) (s : State) : (driveClk b s).rc = s.rc := rfl
@[simp] theorem driveClk_mf (b : Bool) (s : State) : (driveClk b s).mf = s.mf := rfl
@[simp] theorem driveClk_ld (b : Bool) (s : State) : (driveClk b s).ld = s.ld := rfl
@[simp] theorem driveClk_mem (b : Bool) (s : State) : (driveClk b s).mem = s.mem := rfl
@[simp] theorem driveClk_now (b : Bool) (s : State) : (driveClk b s).now = s.now := rfl
@[simp] theorem driveClk_faultMark (b : Bool) (s : State) : (driveClk b s).faultMark = s.faultMark := rfl
@[simp] theorem driveClk_params (b : Bool) (s : State) : (driveClk b s).params = s.params := rfl
@[simp] theorem driveClk_env (b : Bool) (s : State) : (driveClk b s).env = s.env := rfl
@[simp] theorem driveClk_queue (b : Bool) (s : State) : (driveClk b s).queue = s.queue := rfl
@[simp] theorem driveClk_result (b : Bool) (s : State) : (driveClk b s).result = s.result := rfl

@[simp] theorem driveMosi_rc (b : Bool) (s : State) : (driveMosi b s).rc = s.rc := rfl
@[simp] theorem driveMosi_mf (b : Bool) (s : State) : (driveMosi b s).mf = s.mf := rfl
@[simp] theorem driveMosi_ld (b : Bool) (s : State) : (driveMosi b s).ld = s.ld := rfl
@[simp] theorem driveMosi_mem (b : Bool) (s : State) : (driveMosi b s).mem = s.mem := rfl
@[simp] theorem driveMosi_now (b : Bool) (s : State) : (driveMosi b s).now = s.now := rfl
@[simp] theorem driveMosi_faultMark (b : Bool) (s : State) : (driveMosi b s).faultMark = s.faultMark := rfl
@[simp] theorem driveMosi_params (b : Bool) (s : State) : (driveMosi b s).params = s.params := rfl
@[simp] theorem driveMosi_env (b : Bool) (s : State) : (driveMosi b s).env = s.env := rfl
@[simp] theorem driveMosi_queue (b : Bool) (s : State) : (driveMosi b s).queue = s.queue := rfl
@[simp] theorem driveMosi_result (b : Bool) (s : State) : (driveMosi b s).result = s.result := rfl

@[simp] theorem sampleMiso_bb (s : State) : ((sampleMiso s).2).bb = s.bb := rfl
@[simp] theorem sampleMiso_rc (s : State) : ((sampleMiso s).2).rc = s.rc := rfl
@[simp] theorem sampleMiso_mf (s : State) : ((sampleMiso s).2).mf = s.mf := rfl
@[simp] theorem sampleMiso_ld (s : State) : ((sampleMiso s).2).ld = s.ld := rfl
@[simp] theorem sampleMiso_mem (s : State) : ((sampleMiso s).2).mem = s.mem := rfl
@[simp] theorem sampleMiso_now (s : State) : ((sampleMiso s).2).now = s.now := rfl
@[simp] theorem sampleMiso_faultMark (s : State) : ((sampleMiso s).2).faultMark = s.faultMark := rfl
@[simp] theorem sampleMiso_params (s : State) : ((sampleMiso s).2).params = s.params := rfl
@[simp] theorem sampleMiso_queue (s : State) : ((sampleMiso s).2).queue = s.queue := rfl
@[simp] theorem sampleMiso_result (s : State) : ((sampleMiso s).2).result = s.result := rfl

@[simp] theorem bbCsPrimary_rc (S : Session) (a : Bool) (s : State) : (bbCsPrimary S a s).rc = s.rc := rfl
@[simp] theorem bbCsPrimary_mf (S : Session) (a : Bool) (s : State) : (bbCsPrimary S a s).mf = s.mf := rfl
@[simp] theorem bbCsPrimary_ld (S : Session) (a : Bool) (s : State) : (bbCsPrimary S a s).ld = s.ld := rfl
@[simp] theorem bbCsPrimary_mem (S : Session) (a : Bool) (s : State) : (bbCsPrimary S a s).mem = s.mem := rfl
@[simp] theorem bbCsPrimary_now (S : Session) (a : Bool) (s : State) : (bbCsPrimary S a s).now = s.now := rfl
@[simp] theorem bbCsPrimary_faultMark (S : Session) (a : Bool) (s : State) : (bbCsPrimary S a s).faultMark = s.faultMark := rfl
@[simp] theorem bbCsPrimary_params (S : Session) (a : Bool) (s : State) : (bbCsPrimary S a s).params = s.params := rfl
@[simp] theorem bbCsPrimary_env (S : Session) (a : Bool) (s : State) : (bbCsPrimary S a s).env = s.env := rfl
@[simp] theorem bbCsPrimary_queue (S : Session) (a : Bool) (s : State) : (bbCsPrimary S a s).queue = s.queue := rfl
@[simp] theorem bbCsPrimary_result (S : Session) (a : Bool) (s : State) : (bbCsPrimary S a s).result = s.result := rfl

@[simp] theorem setHandle_bb (h : Nat) (x : Handle) (s : State) : (setHandle h x s).bb = s.bb := rfl
@[simp] theorem setHandle_rc (h : Nat) (x : Handle) (s : State) : (setHandle h x s).rc = s.rc := rfl
@[simp] theorem setHandle_mf (h : Nat) (x : Handle) (s : State) : (setHandle h x s).mf = s.mf := rfl
@[simp] theorem setHandle_mem (h : Nat) (x : Handle) (s : State) : (setHandle h x s).mem = s.mem := rfl
@[simp] theorem setHandle_now (h : Nat) (x : Handle) (s : State) : (setHandle h x s).now = s.now := rfl
@[simp] theorem setHandle_faultMark (h : Nat) (x : Handle) (s : State) : (setHandle h x s).faultMark = s.faultMark := rfl
@[simp] theorem setHandle_params (h : Nat) (x : Handle) (s : State) : (setHandle h x s).params = s.params := rfl
@[simp] theorem setHandle_env (h : Nat) (x : Handle) (s : State) : (setHandle h x s).env = s.env := rfl
@[simp] theorem setHandle_queue (h : Nat) (x : Handle) (s : State) : (setHandle h x s).queue = s.queue := rfl
@[simp] theorem setHandle_trace (h : Nat) (x : Handle) (s : State) : (setHandle h x s).trace = s.trace := rfl
@[simp] theorem setHandle_result (h : Nat) (x : Handle) (s : State) : (setHandle h x s).result = s.result := rfl

@[simp] theorem ncfgEvent_bb (h : Nat) (b : Bool) (s : State) : (ncfgEvent h b s).bb = s.bb := rfl
@[simp] theorem ncfgEvent_rc (h : Nat) (b : Bool) (s : State) : (ncfgEvent h b s).rc = s.rc := rfl
@[simp] theorem ncfgEvent_mf (h : Nat) (b : Bool) (s : State) : (ncfgEvent h b s).mf = s.mf := rfl
@[simp] theorem ncfgEvent_mem (h : Nat) (b : Bool) (s : State) : (ncfgEvent h b s).mem = s.mem := rfl
@[simp] theorem ncfgEvent_now (h : Nat) (b : Bool) (s : State) : (ncfgEvent h b s).now = s.now := rfl
@[simp] theorem ncfgEvent_faultMark (h : Nat) (b : Bool) (s : State) : (ncfgEvent h b s).faultMark = s.faultMark := rfl
@[simp] theorem ncfgEvent_params (h : Nat) (b : Bool) (s : State) : (ncfgEvent h b s).params = s.params := rfl
@[simp] theorem ncfgEvent_env (h : Nat) (b : Bool) (s : State) : (ncfgEvent h b s).env = s.env := rfl
@[simp] theorem ncfgEvent_queue (h : Nat) (b : Bool) (s : State) : (ncfgEvent h b s).queue = s.queue := rfl
@[simp] theorem ncfgEvent_result (h : Nat) (b : Bool) (s : State) : (ncfgEvent h b s).result = s.result := rfl

@[simp] theorem statusEvent_bb (h : Nat) (s : State) : ((statusEvent h s).2).bb = s.bb := rfl
@[simp] theorem statusEvent_rc (h : Nat) (s : State) : ((statusEvent h s).2).rc = s.rc := rfl
@[simp] theorem statusEvent_mf (h : Nat) (s : State) : ((statusEvent h s).2).mf = s.mf := rfl
@[simp] theorem statusEvent_ld (h : Nat) (s : State) : ((statusEvent h s).2).ld = s.ld := rfl
@[simp] theorem statusEvent_mem (h : Nat) (s : State) : ((statusEvent h s).2).mem = s.mem := rfl
@[simp] theorem statusEvent_now (h : Nat) (s : State) : ((statusEvent h s).2).now = s.now := rfl
@[simp] theorem statusEvent_faultMark (h : Nat) (s : State) : ((statusEvent h s).2).faultMark = s.faultMark := rfl
@[simp] theorem statusEvent_params (h : Nat) (s : State) : ((statusEvent h s).2).params = s.params := rfl
@[simp] theorem statusEvent_queue (h : Nat) (s : State) : ((statusEvent h s).2).queue = s.queue := rfl
@[simp] theorem statusEvent_result (h : Nat) (s : State) : ((statusEvent h s).2).result = s.result := rfl

@[simp] theorem doneEvent_bb (h : Nat) (s : State) : ((doneEvent h s).2).bb = s.bb := rfl
@[simp] theorem doneEvent_rc (h : Nat) (s : State) : ((doneEvent h s).2).rc = s.rc := rfl
@[simp] theorem doneEvent_mf (h : Nat) (s : State) : ((doneEvent h s).2).mf = s.mf := rfl
@[simp] theorem doneEvent_ld (h : Nat) (s : State) : ((doneEvent h s).2).ld = s.ld := rfl
@[simp] theorem doneEvent_mem (h : Nat) (s : State) : ((doneEvent h s).2).mem = s.mem := rfl
@[simp] theorem doneEvent_now (h : Nat) (s : State) : ((doneEvent h s).2).now = s.now := rfl
@[simp] theorem doneEvent_faultMark (h : Nat) (s : State) : ((doneEvent h s).2).faultMark = s.faultMark := rfl
@[simp] theorem doneEvent_params (h : Nat) (s : State) : ((doneEvent h s).2).params = s.params := rfl
@[simp] theorem doneEvent_queue (h : Nat) (s : State) : ((doneEvent h s).2).queue = s.queue := rfl
@[simp] theorem doneEvent_result (h : Nat) (s : State) : ((doneEvent h s).2).result = s.result := rfl

@[simp] theorem crcEvent_bb (h : Nat) (s : State) : ((crcEvent h s).2).bb = s.bb := rfl
@[simp] theorem crcEvent_rc (h : Nat) (s : State) : ((crcEvent h s).2).rc = s.rc := rfl
@[simp] theorem crcEvent_mf (h : Nat) (s : State) : ((crcEvent h s).2).mf = s.mf := rfl
@[simp] theorem crcEvent_ld (h : Nat) (s : State) : ((crcEvent h s).2).ld = s.ld := rfl
@[simp] theorem crcEvent_mem (h : Nat) (s : State) : ((crcEvent h s).2).mem = s.mem := rfl
@[simp] theorem crcEvent_now (h : Nat) (s : State) : ((crcEvent h s).2).now = s.now := rfl
@[simp] theorem crcEvent_faultMark (h : Nat) (s : State) : ((crcEvent h s).2).faultMark = s.faultMark := rfl
@[simp] theorem crcEvent_params (h : Nat) (s : State) : ((crcEvent h s).2).params = s.params := rfl
@[simp] theorem crcEvent_queue (h : Nat) (s : State) : ((crcEvent h s).2).queue = s.queue := rfl
@[simp] theorem crcEvent_result (h : Nat) (s : State) : ((crcEvent h s).2).result = s.result := rfl

@[simp] theorem setLdState_bb (h : Nat) (x : LdState) (s : State) : (setLdState h x s).bb = s.bb := rfl
@[simp] theorem setLdState_rc (h : Nat) (x : LdState) (s : State) : (setLdState h x s).rc = s.rc := rfl
@[simp] theorem setLdState_mf (h : Nat) (x : LdState) (s : State) : (setLdState h x s).mf = s.mf := rfl
@[simp] theorem setLdState_mem (h : Nat) (x : LdState) (s : State) : (setLdState h x s).mem = s.mem := rfl
@[simp] theorem setLdState_now (h : Nat) (x : LdState) (s : State) : (setLdState h x s).now = s.now := rfl
@[simp] theorem setLdState_faultMark (h : Nat) (x : LdState) (s : State) : (setLdState h x s).faultMark = s.faultMark := rfl
@[simp] theorem setLdState_params (h : Nat) (x : LdState) (s : State) : (setLdState h x s).params = s.params := rfl
@[simp] theorem setLdState_env (h : Nat) (x : LdState) (s : State) : (setLdState h x s).env = s.env := rfl
@[simp] theorem setLdState_queue (h : Nat) (x : LdState) (s : State) : (setLdState h x s).queue = s.queue := rfl
@[simp] theorem setLdState_trace (h : Nat) (x : LdState) (s : State) : (setLdState h x s).trace = s.trace := rfl
@[simp] theorem setLdState_result (h : Nat) (x : LdState) (s : State) : (setLdState h x s).result = s.result := rfl

@[simp] theorem enterIdle_bb (h : Nat) (s : State) : (enterIdle h s).bb = s.bb := rfl
@[simp] theorem enterIdle_rc (h : Nat) (s : State) : (enterIdle h s).rc = s.rc := rfl
@[simp] theorem enterIdle_mf (h : Nat) (s : State) : (enterIdle h s).mf = s.mf := rfl
@[simp] theorem enterIdle_mem (h : Nat) (s : State) : (enterIdle h s).mem = s.mem := rfl
@[simp] theorem enterIdle_now (h : Nat) (s : State) : (enterIdle h s).now = s.now := rfl
@[simp] theorem enterIdle_faultMark (h : Nat) (s : State) : (enterIdle h s).faultMark = s.faultMark := rfl
@[simp] theorem enterIdle_params (h : Nat) (s : State) : (enterIdle h s).params = s.params := rfl
@[simp] theorem enterIdle_env (h : Nat) (s : State) : (enterIdle h s).env = s.env := rfl
@[simp] theorem enterIdle_queue (h : Nat) (s : State) : (enterIdle h s).queue = s.queue := rfl
@[simp] theorem enterIdle_trace (h : Nat) (s : State) : (enterIdle h s).trace = s.trace := rfl
@[simp] theorem enterIdle_result (h : Nat) (s : State) : (enterIdle h s).result = s.result := rfl

@[simp] theorem setBus_ld (u : BusUnit) (b : BusRec) (s : State) : (s.setBus u b).ld = s.ld := by cases u <;> rfl
@[simp] theorem setBus_mem (u : BusUnit) (b : BusRec) (s : State) : (s.setBus u b).mem = s.mem := by cases u <;> rfl
@[simp] theorem setBus_now (u : BusUnit) (b : BusRec) (s : State) : (s.setBus u b).now = s.now := by cases u <;> rfl
@[simp] theorem setBus_faultMark (u : BusUnit) (b : BusRec) (s : State) : (s.setBus u b).faultMark = s.faultMark := by cases u <;> rfl
@[simp] theorem setBus_params (u : BusUnit) (b : BusRec) (s : State) : (s.setBus u b).params = s.params := by cases u <;> rfl
@[simp] theorem setBus_env (u : BusUnit) (b : BusRec) (s : State) : (s.setBus u b).env = s.env := by cases u <;> rfl
@[simp] theorem setBus_queue (u : BusUnit) (b : BusRec) (s : State) : (s.setBus u b).queue = s.queue := by cases u <;> rfl
@[simp] theorem setBus_trace (u : BusUnit) (b : BusRec) (s : State) : (s.setBus u b).trace = s.trace := by cases u <;> rfl
@[simp] theorem setBus_result (u : BusUnit) (b : BusRec) (s : State) : (s.setBus u b).result = s.result := by cases u <;> rfl

@[simp] theorem putSession_ld (u : BusUnit) (S : Session) (s : State) : (putSession u S s).ld = s.ld := by cases u <;> rfl
@[simp] theorem putSession_mem (u : BusUnit) (S : Session) (s : State) : (putSession u S s).mem = s.mem := by cases u <;> rfl
@[simp] theorem putSession_now (u : BusUnit) (S : Session) (s : State) : (putSession u S s).now = s.now := by cases u <;> rfl
@[simp] theorem putSession_faultMark (u : BusUnit) (S : Session) (s : State) : (putSession u S s).faultMark = s.faultMark := by cases u <;> rfl
@[simp] theorem putSession_params (u : BusUnit) (S : Session) (s : State) : (putSession u S s).params = s.params := by cases u <;> rfl
@[simp] theorem putSession_env (u : BusUnit) (S : Session) (s : State) : (putSession u S s).env = s.env := by cases u <;> rfl
@[simp] theorem putSession_queue (u : BusUnit) (S : Session) (s : State) : (putSession u S s).queue = s.queue := by cases u <;> rfl
@[simp] theorem putSession_trace (u : BusUnit) (S : Session) (s : State) : (putSession u S s).trace = s.trace := by cases u <;> rfl
@[simp] theorem putSession_result (u : BusUnit) (S : Session) (s : State) : (putSession u S s).result = s.result := by cases u <;> rfl

@[simp] theorem driveCs2_ld (u : BusUnit) (a : Bool) (s : State) : (driveCs2 u a s).ld = s.ld := by cases u <;> rfl
@[simp] theorem driveCs2_mem (u : BusUnit) (a : Bool) (s : State) : (driveCs2 u a s).mem = s.mem := by cases u <;> rfl
@[simp] theorem driveCs2_now (u : BusUnit) (a : Bool) (s : State) : (driveCs2 u a s).now = s.now := by cases u <;> rfl
@[simp] theorem driveCs2_faultMark (u : BusUnit) (a : Bool) (s : State) : (driveCs2 u a s).faultMark = s.faultMark := by cases u <;> rfl
@[simp] theorem driveCs2_params (u : BusUnit) (a : Bool) (s : State) : (driveCs2 u a s).params = s.params := by cases u <;> rfl
@[simp] theorem driveCs2_env (u : BusUnit) (a : Bool) (s : State) : (driveCs2 u a s).env = s.env := by cases u <;> rfl
@[simp] theorem driveCs2_queue (u : BusUnit) (a : Bool) (s : State) : (driveCs2 u a s).queue = s.queue := by cases u <;> rfl
@[simp] theorem driveCs2_result (u : BusUnit) (a : Bool) (s : State) : (driveCs2 u a s).result = s.result := by cases u <;> rfl

@[simp] theorem cs2_ld (u : BusUnit) (a : Bool) (s : State) : (cs2 u a s).ld = s.ld := by unfold cs2; split <;> simp
@[simp] theorem cs2_mem (u : BusUnit) (a : Bool) (s : State) : (cs2 u a s).mem = s.mem := by unfold cs2; split <;> simp
@[simp] theorem cs2_now (u : BusUnit) (a : Bool) (s : State) : (cs2 u a s).now = s.now := by unfold cs2; split <;> simp
@[simp] theorem cs2_faultMark (u : BusUnit) (a : Bool) (s : State) : (cs2 u a s).faultMark = s.faultMark := by unfold cs2; split <;> simp
@[simp] theorem cs2_params (u : BusUnit) (a : Bool) (s : State) : (cs2 u a s).params = s.params := by unfold cs2; split <;> simp
@[simp] theorem cs2_env (u : BusUnit) (a : Bool) (s : State) : (cs2 u a s).env = s.env := by unfold cs2; split <;> simp
@[simp] theorem cs2_queue (u : BusUnit) (a : Bool) (s : State) : (cs2 u a s).queue = s.queue := by unfold cs2; split <;> simp
@[simp] theorem cs2_result (u : BusUnit) (a : Bool) (s : State) : (cs2 u a s).result = s.result := by unfold cs2; split <;> simp

@[simp] theorem gap_bb (S : Session) (s : State) : (gap S s).bb = s.bb := by unfold gap; split <;> simp
@[simp] theorem gap_rc (S : Session) (s : State) : (gap S s).rc = s.rc := by unfold gap; split <;> simp
@[simp] theorem gap_mf (S : Session) (s : State) : (gap S s).mf = s.mf := by unfold gap; split <;> simp
@[simp] theorem gap_ld (S : Session) (s : State) : (gap S s).ld = s.ld := by unfold gap; split <;> simp
@[simp] theorem gap_mem (S : Session) (s : State) : (gap S s).mem = s.mem := by unfold gap; split <;> simp
@[simp] theorem gap_now (S : Session) (s : State) : (gap S s).now = s.now := by unfold gap; split <;> simp
@[simp] theorem gap_faultMark (S : Session) (s : State) : (gap S s).faultMark = s.faultMark := by unfold gap; split <;> simp
@[simp] theorem gap_params (S : Session) (s : State) : (gap S s).params = s.params := by unfold gap; split <;> simp
@[simp] theorem gap_env (S : Session) (s : State) : (gap S s).env = s.env := by unfold gap; split <;> simp
@[simp] theorem gap_queue (S : Session) (s : State) : (gap S s).queue = s.queue := by unfold gap; split <;> simp
@[simp] theorem gap_result (S : Session) (s : State) : (gap S s).result = s.result := by unfold gap; split <;> simp

@[simp] theorem emit_trace (o : Obs) (s : State) : (emit o s).trace = s.trace ++ [o] := rfl
@[simp] theorem emitPin_trace (e : PinEvent) (s : State) : (emitPin e s).trace = s.trace ++ [.pin e] := rfl
@[simp] theorem storeByte_mem (a : Nat) (v : Byte) (s : State) :
    (storeByte a v s).mem = writeByte s.mem a v := rfl
@[simp] theorem readNow_fst (s : State) : (readNow s).1 = s.now + s.env.tick.next Config.freeTick := rfl
@[simp] theorem readNow_now (s : State) : (readNow s).2.now = s.now + s.env.tick.next Config.freeTick := rfl
@[simp] theorem readNowFrom_now (t : Nat) (s : State) :
    (readNowFrom t s).now = max (s.now + s.env.tick.next Config.freeTick) t := rfl
@[simp] theorem setChan_rc_bus (c : Nat) (x : Channel) (s : State) : (setChan c x s).rc.bus = s.rc.bus := rfl
@[simp] theorem setChan_rc_shared (c : Nat) (x : Channel) (s : State) :
    (setChan c x s).rc.shared = s.rc.shared := rfl
@[simp] theorem driveClk_bb (b : Bool) (s : State) : (driveClk b s).bb = { s.bb with sclk := b } := rfl
@[simp] theorem driveMosi_bb (b : Bool) (s : State) : (driveMosi b s).bb = { s.bb with mosi := b } := rfl
@[simp] theorem driveClk_trace (b : Bool) (s : State) :
    (driveClk b s).trace = s.trace ++ [.pin (.clk .bb b)] := rfl
@[simp] theorem driveMosi_trace (b : Bool) (s : State) :
    (driveMosi b s).trace = s.trace ++ [.pin (.dout .bb b)] := rfl

/-! ## Bus records -/

@[simp] theorem emit_bus (o : Obs) (s : State) (u : BusUnit) : (emit o s).bus u = s.bus u := by cases u <;> rfl
@[simp] theorem emitPin_bus (e : PinEvent) (s : State) (u : BusUnit) : (emitPin e s).bus u = s.bus u := by
  cases u <;> rfl
@[simp] theorem setBus_bus_same (u : BusUnit) (b : BusRec) (s : State) : (s.setBus u b).bus u = b := by
  cases u <;> rfl
theorem setBus_bus_other {u v : BusUnit} (h : v ≠ u) (b : BusRec) (s : State) :
    (s.setBus u b).bus v = s.bus v := by
  cases u <;> cases v <;> first | rfl | exact absurd rfl h
@[simp] theorem setBus_setBus (u : BusUnit) (a b : BusRec) (s : State) :
    (s.setBus u a).setBus u b = s.setBus u b := by cases u <;> rfl
@[simp] theorem setBus_bus_self (u : BusUnit) (s : State) : s.setBus u (s.bus u) = s := by cases u <;> rfl

/-! ## Handles -/

@[simp] theorem emit_handle (o : Obs) (s : State) (h : Nat) : (emit o s).handle h = s.handle h := rfl
@[simp] theorem emitPin_handle (e : PinEvent) (s : State) (h : Nat) : (emitPin e s).handle h = s.handle h := rfl
@[simp] theorem setHandle_length (h : Nat) (x : Handle) (s : State) : (setHandle h x s).ld.length = s.ld.length := by
  simp [setHandle]
@[simp] theorem setHandle_bus (h : Nat) (x : Handle) (s : State) (u : BusUnit) :
    (setHandle h x s).bus u = s.bus u := by cases u <;> rfl
@[simp] theorem handle_setHandle_same {h : Nat} {s : State} (hh : h < s.ld.length) (x : Handle) :
    (setHandle h x s).handle h = x := by
  simp [State.handle, setHandle, hh]
theorem handle_setHandle_other {h k : Nat} (hk : k ≠ h) (x : Handle) (s : State) :
    (setHandle h x s).handle k = s.handle k := by
  simp [State.handle, setHandle, List.getElem?_set_ne (Ne.symm hk)]
/-- One law for every number: a write reaches a handle the machine has. -/
theorem handle_setHandle (h k : Nat) (x : Handle) (s : State) :
    (setHandle h x s).handle k = if k = h ∧ h < s.ld.length then x else s.handle k := by
  split
  · rename_i e; obtain ⟨rfl, e⟩ := e; simp [e]
  · rename_i e
    by_cases hk : k = h
    · subst hk
      have hn : s.ld.length ≤ k := Nat.le_of_not_lt fun hl => e ⟨rfl, hl⟩
      simp [State.handle, setHandle, hn]
    · exact handle_setHandle_other hk x s
/-- The handles depend on the list of handles only. -/
theorem handle_congr {s t : State} (h : t.ld = s.ld) (k : Nat) : t.handle k = s.handle k := by
  unfold State.handle; rw [h]

/-! ## Channels -/

@[simp] theorem setChan_nchan (c : Nat) (x : Channel) (s : State) : (setChan c x s).rc.nchan = s.rc.nchan := by
  simp [RcBus.nchan, setChan]

@[simp] theorem setBus_nchan (u : BusUnit) (b : BusRec) (s : State) : (s.setBus u b).rc.nchan = s.rc.nchan := by
  cases u <;> rfl

@[simp] theorem chan_setChan_same {c : Nat} {s : State} (h : c < s.rc.nchan) (x : Channel) :
    (setChan c x s).rc.chan c = x := by
  have h' : c < s.rc.ch.length := h
  simp [RcBus.chan, setChan, h']

theorem chan_setChan_other {c k : Nat} (h : k ≠ c) (x : Channel) (s : State) :
    (setChan c x s).rc.chan k = s.rc.chan k := by
  simp [RcBus.chan, setChan, List.getElem?_set_ne (Ne.symm h)]

/-- One law for every index: a write reaches a channel the controller has. -/
theorem chan_setChan (c k : Nat) (x : Channel) (s : State) :
    (setChan c x s).rc.chan k = if k = c ∧ c < s.rc.nchan then x else s.rc.chan k := by
  split
  · rename_i h; obtain ⟨rfl, h⟩ := h; simp [h]
  · rename_i h
    by_cases hk : k = c
    · subst hk
      have hn : s.rc.ch.length ≤ k := Nat.le_of_not_lt fun hl => h ⟨rfl, hl⟩
      simp [RcBus.chan, setChan, hn]
    · exact chan_setChan_other hk x s

theorem chan_of_not_channel {r : RcBus} {c : Nat} (h : ¬ c < r.nchan) : r.chan c = Channel.reset c := by
  have hn : r.ch.length ≤ c := Nat.le_of_not_lt h
  simp [RcBus.chan, hn]

end Sys2Proof.Machine
end

