-- ==== Sys2Proof/Laws/Memory.lean ====
section
/-! SUPPORT. The laws of host memory: what a read gives after a write, and that every operation keeps the
canonical form. -/

namespace Sys2Proof.Machine

theorem wf_cons {k : Nat} {v : Byte} {m : Memory} :
    Memory.wf ((k, v) :: m) = true ↔
      v ≠ Config.memDefault ∧ belowFirst k m = true ∧ Memory.wf m = true := by
  simp [Memory.wf, and_assoc]

/-- An address below every entry reads as the default. -/
theorem readByte_of_belowFirst {a : Nat} {m : Memory} (h : belowFirst a m = true) :
    readByte m a = Config.memDefault := by
  cases m with
  | nil => rfl
  | cons x m => simp [readByte, of_decide_eq_true h]

/-- A read after a write to the same address gives the value written. -/
theorem readByte_writeByte_same {m : Memory} (hw : Memory.wf m = true) (a : Nat) (v : Byte) :
    readByte (writeByte m a v) a = v := by
  induction m with
  | nil => by_cases h : v = Config.memDefault <;> simp [writeByte, readByte, h]
  | cons x m ih =>
    obtain ⟨k, w⟩ := x
    obtain ⟨-, hb, hm⟩ := wf_cons.1 hw
    simp only [writeByte]
    by_cases h1 : a < k
    · by_cases h : v = Config.memDefault <;> simp [readByte, h1, h]
    · by_cases h2 : a = k
      · subst h2
        by_cases h : v = Config.memDefault
        · simp [h, readByte_of_belowFirst hb]
        · simp [readByte, h]
      · simp [readByte, h1, h2, ih hm]

/-- A write leaves every other address alone. -/
theorem readByte_writeByte_other {m : Memory} (hw : Memory.wf m = true) {a b : Nat} (hne : b ≠ a)
    (v : Byte) : readByte (writeByte m a v) b = readByte m b := by
  induction m with
  | nil =>
    by_cases h : v = Config.memDefault
    · simp [writeByte, h]
    · simp only [writeByte, h, if_false, readByte]
      split
      · rfl
      · simp
  | cons x m ih =>
    obtain ⟨k, w⟩ := x
    obtain ⟨-, hb, hm⟩ := wf_cons.1 hw
    simp only [writeByte]
    by_cases h1 : a < k
    · by_cases h : v = Config.memDefault
      · simp [h1, h]
      · simp only [h1, if_true, h, if_false, readByte]
        by_cases h3 : b < a
        · simp [h3, Nat.lt_trans h3 h1]
        · simp [h3, hne]
    · by_cases h2 : a = k
      · subst h2
        by_cases h : v = Config.memDefault
        · simp only [lt_irrefl, if_false, if_true, h, readByte, hne]
          split
          · rename_i hlt
            refine readByte_of_belowFirst ?_
            cases m with
            | nil => rfl
            | cons y m => exact decide_eq_true (Nat.lt_trans hlt (of_decide_eq_true hb))
          · rfl
        · simp [readByte, h, hne]
      · simp only [h1, h2, if_false, readByte, ih hm]

theorem belowFirst_trans {k j : Nat} (h : k < j) {m : Memory} (hb : belowFirst j m = true) :
    belowFirst k m = true := by
  cases m with
  | nil => rfl
  | cons x m => exact decide_eq_true (Nat.lt_trans h (of_decide_eq_true hb))

theorem belowFirst_writeByte {m : Memory} {k a : Nat} {v : Byte} (hw : Memory.wf m = true) (hk : k < a)
    (hb : belowFirst k m = true) : belowFirst k (writeByte m a v) = true := by
  cases m with
  | nil => by_cases h : v = Config.memDefault <;> simp [writeByte, belowFirst, h, hk]
  | cons x m =>
    obtain ⟨j, w⟩ := x
    obtain ⟨-, hj', -⟩ := wf_cons.1 hw
    have hj : k < j := of_decide_eq_true hb
    simp only [writeByte]
    by_cases h1 : a < j
    · by_cases h : v = Config.memDefault <;> simp [belowFirst, h1, h, hk, hj]
    · by_cases h2 : a = j
      · subst h2
        by_cases h : v = Config.memDefault
        · simpa only [lt_irrefl, if_false, if_true, h] using belowFirst_trans hj hj'
        · simp [belowFirst, h, hk]
      · simp [belowFirst, h1, h2, hj]

/-- A write keeps the canonical form. -/
theorem writeByte_wf {m : Memory} (hw : Memory.wf m = true) (a : Nat) (v : Byte) :
    Memory.wf (writeByte m a v) = true := by
  induction m with
  | nil => by_cases h : v = Config.memDefault <;> simp [writeByte, Memory.wf, belowFirst, h]
  | cons x m ih =>
    obtain ⟨k, w⟩ := x
    obtain ⟨hd, hb, hm⟩ := wf_cons.1 hw
    simp only [writeByte]
    by_cases h1 : a < k
    · by_cases h : v = Config.memDefault
      · simpa only [h1, if_true, h] using hw
      · simp only [h1, if_true, h, if_false]
        exact wf_cons.2 ⟨h, decide_eq_true h1, hw⟩
    · by_cases h2 : a = k
      · subst h2
        by_cases h : v = Config.memDefault
        · simpa only [lt_irrefl, if_false, if_true, h] using hm
        · simp only [lt_irrefl, if_false, if_true, h]
          exact wf_cons.2 ⟨h, hb, hm⟩
      · simp only [h1, h2, if_false]
        have hk : k < a := by omega
        exact wf_cons.2 ⟨hd, belowFirst_writeByte hm hk hb, ih hm⟩

/-- Reading any address after a write. -/
theorem readByte_writeByte {m : Memory} (hw : Memory.wf m = true) (a b : Nat) (v : Byte) :
    readByte (writeByte m a v) b = if b = a then v else readByte m b := by
  split
  · rename_i h; rw [h]; exact readByte_writeByte_same hw a v
  · rename_i h; exact readByte_writeByte_other hw h v

/-! ## Several bytes -/

@[simp] theorem storeBytes_nil (a : Nat) (s : State) : storeBytes a [] s = s := rfl

theorem storeBytes_cons (a : Nat) (v : Byte) (vs : List Byte) (s : State) :
    storeBytes a (v :: vs) s = storeBytes (a + 1) vs (storeByte a v s) := rfl

/-- Storing bytes changes memory only. -/
theorem storeBytes_eq (a : Nat) (vs : List Byte) (s : State) :
    storeBytes a vs s = { s with mem := (storeBytes a vs s).mem } := by
  induction vs generalizing a s with
  | nil => rfl
  | cons v vs ih => rw [storeBytes_cons, ih]; rfl

theorem storeBytes_wf (a : Nat) (vs : List Byte) {s : State} (hw : Memory.wf s.mem = true) :
    Memory.wf (storeBytes a vs s).mem = true := by
  induction vs generalizing a s with
  | nil => exact hw
  | cons v vs ih => exact ih (a + 1) (writeByte_wf hw a v)

/-- Outside the bytes stored, memory reads as before. -/
theorem readByte_storeBytes_outside {a : Nat} {vs : List Byte} {s : State} (hw : Memory.wf s.mem = true)
    {b : Nat} (h : b < a ∨ a + vs.length ≤ b) : readByte (storeBytes a vs s).mem b = readByte s.mem b := by
  induction vs generalizing a s with
  | nil => rfl
  | cons v vs ih =>
    simp only [List.length_cons] at h
    rw [storeBytes_cons, ih (by exact writeByte_wf hw a v) (by omega)]
    exact readByte_writeByte_other hw (by omega) v

/-- Byte `j` of the bytes stored reads as stored. -/
theorem readByte_storeBytes_inside {a : Nat} {vs : List Byte} {s : State} (hw : Memory.wf s.mem = true)
    {j : Nat} (h : j < vs.length) : readByte (storeBytes a vs s).mem (a + j) = vs[j] := by
  induction vs generalizing a s j with
  | nil => exact absurd h (Nat.not_lt_zero _)
  | cons v vs ih =>
    have hw' : Memory.wf (storeByte a v s).mem = true := writeByte_wf hw a v
    rw [storeBytes_cons]
    cases j with
    | zero =>
      rw [readByte_storeBytes_outside hw' (by omega)]
      exact readByte_writeByte_same hw a v
    | succ j =>
      have := ih hw' (a := a + 1) (j := j) (by simpa using h)
      rw [show a + (j + 1) = a + 1 + j by omega, this]
      rfl

theorem loadBytes_length (m : Memory) (a n : Nat) : (loadBytes m a n).length = n := by
  induction n generalizing a with
  | zero => rfl
  | succ n ih => simp [loadBytes, ih]

theorem loadBytes_getElem (m : Memory) (a n j : Nat) (h : j < (loadBytes m a n).length) :
    (loadBytes m a n)[j] = readByte m (a + j) := by
  induction n generalizing a j with
  | zero => exact absurd h (Nat.not_lt_zero _)
  | succ n ih =>
    cases j with
    | zero => rfl
    | succ j =>
      have h' : j < (loadBytes m (a + 1) n).length := by
        rw [loadBytes_length] at h ⊢; omega
      simpa [loadBytes, Nat.add_assoc, Nat.add_comm 1 j] using ih (a + 1) j h'

end Sys2Proof.Machine
end

