-- ==== Sys2Proof/Laws/Basic.lean ====
section
/-! SUPPORT. Small laws used everywhere: taking a monadic computation apart, how an operation ends, the
live session, and the draws. -/

namespace Sys2Proof.Machine

/-! ## Except -/

@[simp] theorem ok_bind {ε α β : Type} (a : α) (f : α → Except ε β) : (Except.ok a >>= f) = f a := rfl
@[simp] theorem error_bind {ε α β : Type} (e : ε) (f : α → Except ε β) :
    (Except.error e >>= f) = Except.error e := rfl
@[simp] theorem pure_eq_ok {ε α : Type} (a : α) : (pure a : Except ε α) = Except.ok a := rfl
@[simp] theorem throw_eq_error {ε α : Type} (e : ε) : (throw e : Except ε α) = Except.error e := rfl

/-- A sequence that succeeds is two successes. -/
theorem bind_eq_ok {ε α β : Type} {x : Except ε α} {f : α → Except ε β} {r : β} :
    (x >>= f) = .ok r ↔ ∃ a, x = .ok a ∧ f a = .ok r := by
  cases x <;> simp

/-! ## How an operation ends -/

/-- An operation answers a next state when it ends with a result, which it records. -/
theorem finish_eq_next {x : Except Fault (OpResult × State)} {t : State} :
    finish x = .next t ↔ ∃ r s, x = .ok (r, s) ∧ t = { s with result := some r } := by
  cases x with
  | error f => simp [finish]
  | ok p => obtain ⟨r, s⟩ := p; simp [finish, eq_comm]

theorem finish_ne_refused (x : Except Fault (OpResult × State)) (r : Refusal) : finish x ≠ .refused r := by
  cases x with
  | error f => simp [finish]
  | ok p => simp [finish]

@[simp] theorem finish_ok (r : OpResult) (s : State) :
    finish (.ok (r, s)) = .next { s with result := some r } := rfl
@[simp] theorem finish_error (f : Fault) : finish (.error f) = .fault f := rfl

/-! ## The live session -/

/-- R120: a session operand is accepted exactly when it names the live session. -/
theorem liveSession_eq_ok {u : BusUnit} {sid : Nat} {s : State} {S : Session} :
    liveSession u sid s = .ok S ↔ (s.bus u).cur = some S ∧ S.id = sid := by
  unfold liveSession
  cases h : (s.bus u).cur with
  | none => simp
  | some T =>
    by_cases hid : T.id = sid
    · simp only [hid, if_true, Except.ok.injEq, Option.some.injEq]
      exact ⟨fun e => ⟨e, e ▸ hid⟩, fun e => e.1⟩
    · simp only [hid, if_false, Option.some.injEq]
      exact ⟨fun e => by simp at e, fun e => absurd (e.1 ▸ e.2) hid⟩

theorem liveSession_of {u : BusUnit} {sid : Nat} {s : State} {S : Session}
    (hc : (s.bus u).cur = some S) (hid : S.id = sid) : liveSession u sid s = .ok S :=
  liveSession_eq_ok.2 ⟨hc, hid⟩

/-- R120: any other session operand is the fault `NotClaimed`. -/
theorem liveSession_error {u : BusUnit} {sid : Nat} {s : State}
    (h : ∀ S, (s.bus u).cur = some S → S.id ≠ sid) : liveSession u sid s = .error .notClaimed := by
  unfold liveSession
  cases hc : (s.bus u).cur with
  | none => rfl
  | some T => simp [h T hc]

/-! ## Draws -/

theorem next_eq_answer {α : Type} (free : Nat → α) (d : Draws α) : d.next free = d.answer free 0 := by
  unfold Draws.next Draws.answer
  cases d.script <;> simp

theorem answer_rest {α : Type} (free : Nat → α) (d : Draws α) (k : Nat) :
    d.rest.answer free k = d.answer free (k + 1) := by
  unfold Draws.rest Draws.answer
  cases d.script <;> simp [Nat.add_assoc, Nat.add_comm 1 k]

theorem rest_eq_drop {α : Type} (d : Draws α) : d.rest = d.drop 1 := by
  simp [Draws.rest, Draws.drop]

@[simp] theorem drop_zero {α : Type} (d : Draws α) : d.drop 0 = d := by simp [Draws.drop]

@[simp] theorem drop_drop {α : Type} (d : Draws α) (j k : Nat) : (d.drop j).drop k = d.drop (j + k) := by
  simp [Draws.drop, Nat.add_assoc]

theorem answer_drop {α : Type} (free : Nat → α) (d : Draws α) (j k : Nat) :
    (d.drop j).answer free k = d.answer free (j + k) := by
  unfold Draws.drop Draws.answer
  simp [List.getElem?_drop, Nat.add_assoc]

end Sys2Proof.Machine
end

