-- ==== Sys2Proof/Laws/Evolves.lean ====
section
/-! SUPPORT. What every operation can do, said once: `Evolves rep s t` holds of each shared operation, and
through it of every meaning. The inputs stay, the timer does not go back, the trace only grows, the queue
and the fault mark stay, and the invariant is kept. `rep` says whether a select event of RC may repeat the level its
pin has. -/

namespace Sys2Proof.Machine

variable {rep : Bool}

/-! ## Select events (42_regctl R185) -/

/-- An entry of the trace that is no event of an RC select. -/
def NoSelect (o : Obs) : Prop := ∀ c a, o ≠ .pin (.cs .rc c a)

theorem selectAfter_cs_cons (c k : Nat) (a b : Bool) (l : List Obs) :
    selectAfter rep k b (.pin (.cs .rc c a) :: l) =
      if c = k then (if a = b ∧ rep = false then none else selectAfter rep k a l) else selectAfter rep k b l := rfl

theorem selectAfter_other {o : Obs} (h : NoSelect o) (c : Nat) (b : Bool) (l : List Obs) :
    selectAfter rep c b (o :: l) = selectAfter rep c b l := by
  cases o with
  | reg a => rfl
  | pin e =>
    cases e with
    | cs u i a =>
      cases u with
      | rc => exact absurd rfl (h i a)
      | bb => rfl
      | mf => rfl
    | _ => rfl

theorem select_or_other (o : Obs) : (∃ c a, o = .pin (.cs .rc c a)) ∨ NoSelect o := by
  by_cases h : ∃ c a, o = .pin (.cs .rc c a)
  · exact .inl h
  · exact .inr fun c a e => h ⟨c, a, e⟩

theorem selectAfter_append (c : Nat) (b : Bool) (l m : List Obs) :
    selectAfter rep c b (l ++ m) = (selectAfter rep c b l).bind (fun x => selectAfter rep c x m) := by
  induction l generalizing b with
  | nil => rfl
  | cons o l ih =>
    rw [List.cons_append]
    rcases select_or_other o with ⟨i, a, rfl⟩ | h
    · rw [selectAfter_cs_cons, selectAfter_cs_cons]
      split
      · split
        · rfl
        · exact ih a
      · exact ih b
    · rw [selectAfter_other h, selectAfter_other h]; exact ih b

theorem selectAfter_noSelect {l : List Obs} (h : ∀ o, o ∈ l → NoSelect o) (c : Nat) (b : Bool) :
    selectAfter rep c b l = some b := by
  induction l with
  | nil => rfl
  | cons o l ih =>
    rw [selectAfter_other (h o List.mem_cons_self)]
    exact ih fun o ho => h o (List.mem_cons_of_mem _ ho)

/-- A trace that repeats no select event is one that may repeat them. -/
theorem selectAfter_weaken {c : Nat} {b x : Bool} {l : List Obs} (h : selectAfter false c b l = some x) :
    selectAfter rep c b l = some x := by
  induction l generalizing b with
  | nil => exact h
  | cons o l ih =>
    rcases select_or_other o with ⟨i, a, rfl⟩ | hn
    · rw [selectAfter_cs_cons] at h ⊢
      split
      · rename_i hi
        simp only [hi, if_true, and_true] at h
        by_cases hab : a = b
        · simp [hab] at h
        · simp only [hab, if_false, false_and] at h ⊢
          exact ih h
      · rename_i hi
        rw [if_neg hi] at h
        exact ih h
    · rw [selectAfter_other hn] at h ⊢; exact ih h

/-- The controller keeps its channels, and the trace grows by entries whose RC select events are the changes of
the selects, with the repetitions `rep` allows. -/
structure Traced (rep : Bool) (s t : State) : Prop where
  nchan : t.rc.nchan = s.rc.nchan
  selects : ∃ l, t.trace = s.trace ++ l ∧
    ∀ c, c < s.rc.nchan → selectAfter rep c (s.rc.chan c).active l = some (t.rc.chan c).active

theorem Traced.trans {s t r : State} (a : Traced rep s t) (b : Traced rep t r) : Traced rep s r := by
  obtain ⟨l, hl, hs⟩ := a.selects
  obtain ⟨m, hm, ht⟩ := b.selects
  refine ⟨b.nchan.trans a.nchan, l ++ m, by rw [hm, hl, List.append_assoc], fun c hc => ?_⟩
  rw [selectAfter_append, hs c hc]
  exact ht c (a.nchan.symm ▸ hc)

/-- The channels as they were, and no select event. -/
theorem Traced.same {s t : State} (hr : t.rc.ch = s.rc.ch)
    (h : ∃ l, t.trace = s.trace ++ l ∧ ∀ o, o ∈ l → NoSelect o) : Traced rep s t := by
  obtain ⟨l, hl, hn⟩ := h
  refine ⟨by simp [RcBus.nchan, hr], l, hl, fun c _ => ?_⟩
  rw [selectAfter_noSelect hn]
  simp [RcBus.chan, hr]

/-- What the profile says of a handle is as it was. -/
def Handle.SameTarget (x y : Handle) : Prop := y.bus = x.bus ∧ y.cs = x.cs ∧ y.size = x.size ∧ y.hasCrc = x.hasCrc

theorem Handle.SameTarget.refl (x : Handle) : x.SameTarget x := ⟨rfl, rfl, rfl, rfl⟩

theorem Handle.SameTarget.trans {x y z : Handle} (a : x.SameTarget y) (b : y.SameTarget z) : x.SameTarget z :=
  ⟨b.1.trans a.1, b.2.1.trans a.2.1, b.2.2.1.trans a.2.2.1, b.2.2.2.trans a.2.2.2⟩

/-- The handles are as many as they were, and each has its target (10_state R39). -/
structure SameTargets (s t : State) : Prop where
  length : t.ld.length = s.ld.length
  each : ∀ h, (s.handle h).SameTarget (t.handle h)

theorem SameTargets.of_eq {s t : State} (h : t.ld = s.ld) : SameTargets s t :=
  ⟨by rw [h], fun k => by rw [handle_congr h k]; exact .refl _⟩

theorem SameTargets.trans {s t r : State} (a : SameTargets s t) (b : SameTargets t r) : SameTargets s r :=
  ⟨b.length.trans a.length, fun h => (a.each h).trans (b.each h)⟩

/-- What every operation keeps (10_state R43, R46; 60_exceptions R287, R295). -/
structure Evolves (rep : Bool) (s t : State) : Prop where
  params : t.params = s.params
  profile : ∀ u, (t.bus u).profile = (s.bus u).profile
  targets : SameTargets s t
  now : s.now ≤ t.now
  traced : Traced rep s t
  queue : t.queue = s.queue
  mark : t.faultMark = s.faultMark
  inv : Inv s → Inv t

theorem Evolves.refl (s : State) : Evolves rep s s :=
  ⟨rfl, fun _ => rfl, .of_eq rfl, Nat.le_refl _, .same rfl ⟨[], by simp⟩, rfl, rfl, id⟩

theorem Evolves.trace {s t : State} (h : Evolves rep s t) : ∃ l, t.trace = s.trace ++ l :=
  h.traced.selects.imp fun _ h => h.1

theorem Evolves.nchan {s t : State} (h : Evolves rep s t) : t.rc.nchan = s.rc.nchan := h.traced.nchan

theorem Evolves.trans {s t r : State} (a : Evolves rep s t) (b : Evolves rep t r) : Evolves rep s r where
  params := b.params.trans a.params
  profile u := (b.profile u).trans (a.profile u)
  targets := a.targets.trans b.targets
  now := Nat.le_trans a.now b.now
  traced := a.traced.trans b.traced
  queue := b.queue.trans a.queue
  mark := b.mark.trans a.mark
  inv h := b.inv (a.inv h)

/-- An operation that repeats no select event is one that may repeat them. -/
theorem Evolves.weaken {s t : State} (h : Evolves false s t) : Evolves rep s t :=
  ⟨h.params, h.profile, h.targets, h.now,
    ⟨h.nchan, h.traced.selects.imp fun _ e => ⟨e.1, fun c hc => selectAfter_weaken (e.2 c hc)⟩⟩,
    h.queue, h.mark, h.inv⟩

/-- Whatever an operation repeats, it is one that may repeat select events. -/
theorem Evolves.repeating {s t : State} (h : Evolves rep s t) : Evolves true s t := by
  cases rep
  · exact h.weaken
  · exact h

/-! ## Updates that touch no part of the invariant -/

/-- The invariant reads memory, the RC controller, the MF peer, the parameters and the bus records. -/
theorem Inv.congr {s t : State} (hm : t.mem = s.mem) (hr : t.rc = s.rc) (hf : t.mf = s.mf)
    (hp : t.params = s.params) (hb : t.bb.bus = s.bb.bus) (h : Inv s) : Inv t where
  mem := hm ▸ h.mem
  rc := hr ▸ h.rc
  mf := hf ▸ hp ▸ h.mf
  bbBus := hb ▸ hr ▸ h.bbBus
  rcBus := hr ▸ h.rcBus
  mfBus := hf ▸ hr ▸ h.mfBus

theorem bus_congr {s t : State} (hr : t.rc = s.rc) (hf : t.mf = s.mf) (hb : t.bb.bus = s.bb.bus)
    (u : BusUnit) : t.bus u = s.bus u := by
  cases u <;> simp [State.bus, hr, hf, hb]

/-- An update of the trace, the environment, the timer, the BB latches or the handle's own state. -/
theorem Evolves.of_light {s t : State} (hm : t.mem = s.mem) (hr : t.rc = s.rc) (hf : t.mf = s.mf)
    (hp : t.params = s.params) (hb : t.bb.bus = s.bb.bus)
    (hh : SameTargets s t)
    (hn : s.now ≤ t.now) (ht : ∃ l, t.trace = s.trace ++ l ∧ ∀ o, o ∈ l → NoSelect o) (hq : t.queue = s.queue)
    (hk : t.faultMark = s.faultMark) : Evolves rep s t :=
  ⟨hp, fun u => by rw [bus_congr hr hf hb u], hh, hn, .same (by rw [hr]) ht, hq, hk, Inv.congr hm hr hf hp hb⟩

theorem emit_evolves (o : Obs) (s : State) (h : NoSelect o := by intro c a; simp) : Evolves rep s (emit o s) :=
  .of_light rfl rfl rfl rfl rfl (.of_eq rfl) (Nat.le_refl _)
    ⟨[o], rfl, fun x hx => by rw [List.mem_singleton.1 hx]; exact h⟩ rfl rfl

theorem emitPin_evolves (e : PinEvent) (s : State) (h : NoSelect (.pin e) := by intro c a; simp) :
    Evolves rep s (emitPin e s) := emit_evolves _ s h

/-- Any change of the environment's answers. -/
theorem env_evolves (e : Env) (s : State) : Evolves rep s { s with env := e } :=
  .of_light rfl rfl rfl rfl rfl (.of_eq rfl) (Nat.le_refl _) ⟨[], by simp⟩ rfl rfl

theorem result_evolves (r : Option OpResult) (s : State) : Evolves rep s { s with result := r } :=
  .of_light rfl rfl rfl rfl rfl (.of_eq rfl) (Nat.le_refl _) ⟨[], by simp⟩ rfl rfl

theorem readNow_evolves (s : State) : Evolves rep s (readNow s).2 :=
  .of_light rfl rfl rfl rfl rfl (.of_eq rfl) (Nat.le_add_right _ _) ⟨[], by simp⟩ rfl rfl

theorem readNowFrom_evolves (n : Nat) (s : State) : Evolves rep s (readNowFrom n s) :=
  .of_light rfl rfl rfl rfl rfl (.of_eq rfl)
    (Nat.le_trans (Nat.le_add_right _ _) (Nat.le_max_left _ _)) ⟨[], by simp⟩ rfl rfl

theorem drawRounds_evolves (s : State) : Evolves rep s (drawRounds s).2 := env_evolves _ s

/-- A change of the BB latches. -/
theorem bb_evolves {b : BbBus} {s : State} (h : b.bus = s.bb.bus) : Evolves rep s { s with bb := b } :=
  .of_light rfl rfl rfl rfl h (.of_eq rfl) (Nat.le_refl _) ⟨[], by simp⟩ rfl rfl

/-- A change of a handle's own state. -/
theorem setHandle_evolves {h : Nat} {x : Handle} {s : State} (hx : (s.handle h).SameTarget x) :
    Evolves rep s (setHandle h x s) :=
  .of_light rfl rfl rfl rfl rfl ⟨by simp, fun k => by
    rw [handle_setHandle]; split
    · rename_i e; rw [e.1]; exact hx
    · exact .refl _⟩ (Nat.le_refl _) ⟨[], by simp⟩ rfl rfl

/-! ## Memory -/

theorem storeByte_evolves (a : Nat) (v : Byte) (s : State) : Evolves rep s (storeByte a v s) :=
  ⟨rfl, fun _ => rfl, .of_eq rfl, Nat.le_refl _, .same rfl ⟨[], by simp⟩, rfl, rfl,
    fun h => ⟨writeByte_wf h.mem a v, h.rc, h.mf, h.bbBus, h.rcBus, h.mfBus⟩⟩

theorem storeBytes_evolves (a : Nat) (vs : List Byte) (s : State) : Evolves rep s (storeBytes a vs s) := by
  induction vs generalizing a s with
  | nil => exact .refl s
  | cons v vs ih => exact (storeByte_evolves a v s).trans (ih (a + 1) _)

/-! ## Bus records -/

/-- A bus record of the same profile, sound if the old one was. -/
theorem setBus_evolves {u : BusUnit} {b : BusRec} {s : State} (hp : b.profile = (s.bus u).profile)
    (hs : (s.bus u).Sound u s.rc.nchan → b.Sound u s.rc.nchan) : Evolves rep s (s.setBus u b) := by
  refine ⟨by cases u <;> rfl, fun v => ?_, by cases u <;> exact .of_eq rfl,
    by cases u <;> exact Nat.le_refl _, .same (by cases u <;> rfl) ⟨[], by cases u <;> simp [State.setBus]⟩, by cases u <;> rfl, by cases u <;> rfl, fun h => ?_⟩
  · by_cases hv : v = u
    · subst hv; simp [hp]
    · rw [setBus_bus_other hv]
  · cases u
    · exact ⟨h.mem, h.rc, h.mf, hs h.bbBus, h.rcBus, h.mfBus⟩
    · exact ⟨h.mem, ⟨fun c => h.rc.chan c, fun a b => h.rc.one a b⟩, h.mf, h.bbBus, hs h.rcBus, h.mfBus⟩
    · exact ⟨h.mem, h.rc, ⟨h.mf.select, h.mf.queue, h.mf.mode⟩, h.bbBus, h.rcBus, hs h.mfBus⟩

theorem driveCs2_evolves (u : BusUnit) (a : Bool) (s : State) : Evolves rep s (driveCs2 u a s) :=
  Evolves.trans (t := s.setBus u { s.bus u with cs2Asserted := a }) (setBus_evolves rfl id)
    (emitPin_evolves _ _)

theorem cs2_evolves (u : BusUnit) (a : Bool) (s : State) : Evolves rep s (cs2 u a s) := by
  unfold cs2; split
  · exact driveCs2_evolves u a s
  · exact .refl s

/-- New attributes of the live session, its name and index kept. -/
theorem putSession_evolves {u : BusUnit} {S T : Session} {s : State} (hc : (s.bus u).cur = some S)
    (hid : T.id = S.id) (hcs : T.cs = S.cs) : Evolves rep s (putSession u T s) := by
  refine setBus_evolves rfl fun h R hR => ?_
  obtain rfl : T = R := by simpa using hR
  have := h S hc
  exact ⟨this.1, by rw [hcs]; exact this.2.1, by rw [hid]; exact this.2.2⟩

/-! ## The RC controller -/

/-- `s` with entries added to its trace. -/
def emits (l : List Obs) (s : State) : State := { s with trace := s.trace ++ l }

@[simp] theorem emits_nil (s : State) : emits [] s = s := by simp [emits]

/-- A change of one channel that keeps it sound, makes it active only where no other channel is, and goes with
the events of its select. -/
theorem chan_evolves {c : Nat} {x : Channel} {s : State} {l : List Obs} (hs : (s.rc.chan c).Sound → x.Sound)
    (ha : x.active = true → (s.rc.chan c).active = true ∨ otherActive s.rc c = false)
    (hl : selectAfter rep c (s.rc.chan c).active l = some x.active)
    (ho : ∀ k, k ≠ c → ∀ b, selectAfter rep k b l = some b) :
    Evolves rep s (emits l (setChan c x s)) := by
  refine ⟨rfl, fun v => by cases v <;> rfl, .of_eq rfl, Nat.le_refl _, ⟨by simp [emits], l, rfl, fun k hk => ?_⟩, rfl, rfl,
    fun h => ?_⟩
  · show selectAfter rep k _ l = some ((setChan c x s).rc.chan k).active
    rw [chan_setChan]
    split
    · rename_i e; obtain ⟨rfl, _⟩ := e; exact hl
    · rename_i e; exact ho k (fun hkc => e ⟨hkc, hkc ▸ hk⟩) _
  have ht : ∀ k, (emits l (setChan c x s)).rc.chan k = (setChan c x s).rc.chan k := fun _ => rfl
  have hn : (emits l (setChan c x s)).rc.nchan = s.rc.nchan := setChan_nchan c x s
  refine ⟨h.mem, ⟨fun k hk => ?_, fun a b hak hbk haa hba => ?_⟩, h.mf, hn ▸ h.bbBus, hn ▸ h.rcBus, hn ▸ h.mfBus⟩
  all_goals rw [hn] at *
  · rw [ht, chan_setChan]; split
    · rename_i e; exact hs (e.1 ▸ h.rc.chan k hk)
    · exact h.rc.chan k hk
  · rw [ht, chan_setChan] at haa hba
    have key : ∀ k, k < s.rc.nchan → (s.rc.chan k).active = true → x.active = true → k = c := by
      intro k hk hka hx
      rcases ha hx with h1 | h1
      · by_cases hc : c < s.rc.nchan
        · exact h.rc.one k c hk hc hka h1
        · rw [chan_of_not_channel hc] at h1
          exact absurd h1 (by simp [Channel.active, Channel.force, Channel.reset])
      · by_contra hne
        have : otherActive s.rc c = true := by
          unfold otherActive
          exact List.any_eq_true.2 ⟨k, List.mem_range.2 hk, by simp [hne, hka]⟩
        rw [h1] at this; exact absurd this (by decide)
    split at haa <;> split at hba
    · rename_i e1 e2; exact e1.1.trans e2.1.symm
    · rename_i e1 e2; exact e1.1.trans (key b hbk hba haa).symm
    · rename_i e1 e2; exact (key a hak haa hba).trans e2.1.symm
    · exact h.rc.one a b hak hbk haa hba

/-- The same without a select event: the channel stays active or inactive. -/
theorem setChan_evolves {c : Nat} {x : Channel} {s : State} (hs : (s.rc.chan c).Sound → x.Sound)
    (ha : x.active = (s.rc.chan c).active) : Evolves rep s (setChan c x s) := by
  have := chan_evolves (rep := rep) (l := []) hs (fun h => .inl (ha ▸ h)) (by rw [ha]; rfl) (fun _ _ _ => rfl)
  rwa [emits_nil] at this

/-- The select event of a channel. -/
theorem selectAfter_cs {c k : Nat} {a b : Bool} :
    selectAfter rep k b [.pin (.cs .rc c a)] =
      if c = k then (if a = b ∧ rep = false then none else some a) else some b := rfl

theorem rcLog_evolves (w : Bool) (g : RcReg) (v : Word) (s : State) : Evolves rep s (rcLog w g v s) :=
  emit_evolves _ s

/-- The events of a write of CONF, as a list. -/
def confEvents (c : Nat) (old new : Channel) : List Obs :=
  if old.busy || old.force == new.force then [] else [.pin (.cs .rc c new.force)]

theorem selectAfter_conf (c : Nat) (busy f g : Bool) : selectAfter rep c (f || busy)
    (if busy || f == g then [] else [.pin (.cs .rc c g)]) = some (g || busy) := by
  cases busy <;> cases f <;> cases g <;> simp [selectAfter_cs, selectAfter]

theorem confSelectEvent_eq (c : Nat) (old new : Channel) (s : State) :
    confSelectEvent c old new s = emits (confEvents c old new) s := by
  unfold confSelectEvent confEvents emits
  cases old.busy <;> cases old.force <;> cases new.force <;> simp [emitPin, emit]

theorem withinMask_and (mask v : Word) : WithinMask mask (v &&& mask) := by
  unfold WithinMask; rw [BitVec.and_assoc, BitVec.and_self]

theorem confWrite_evolves {c : Nat} {v : Word} {s t : State} (h : confWrite c v s = .ok t) :
    Evolves rep s t := by
  unfold confWrite at h
  simp only at h
  split at h
  · cases h
  · rename_i hn
    cases h
    rw [confSelectEvent_eq]
    refine chan_evolves ?_ ?_ ?_ ?_
    · exact fun hs => ⟨withinMask_and _ _, hs.ctrl, hs.word⟩
    · intro hx
      cases ho : otherActive s.rc c with
      | false => exact .inr rfl
      | true =>
        left
        simp only [ho, Bool.and_true, Bool.not_eq_true] at hn
        simp only [Channel.active, Channel.force] at hx hn ⊢
        simp only [hn, Bool.false_or] at hx
        simp [hx]
    · exact selectAfter_conf c _ _ _
    · intro k hk b
      unfold confEvents
      split
      · rfl
      · rw [selectAfter_cs, if_neg (Ne.symm hk)]

/-- The events of disabling, as a list. -/
def abortList (c : Nat) (old : Channel) : List Obs :=
  if old.busy then .pin (.abort c) :: (if old.force then [] else [.pin (.cs .rc c false)]) else []

theorem abortEvents_eq (c : Nat) (old : Channel) (s : State) :
    abortEvents c old s = emits (abortList c old) s := by
  unfold abortEvents abortList emits
  cases old.busy <;> cases old.force <;> simp [emitPin, emit]

theorem selectAfter_abort (c k : Nat) (b : Bool) (l : List Obs) :
    selectAfter rep k b (.pin (.abort c) :: l) = selectAfter rep k b l := rfl

theorem selectAfter_disable (c : Nat) (busy f : Bool) : selectAfter rep c (f || busy)
    (if busy then .pin (.abort c) :: (if f then [] else [.pin (.cs .rc c false)]) else []) = some (f || false) := by
  cases busy <;> cases f <;> simp [selectAfter_abort, selectAfter]

theorem ctrlWrite_evolves (c : Nat) (v : Word) (s : State) : Evolves rep s (ctrlWrite c v s) := by
  unfold ctrlWrite
  simp only
  split
  · exact setChan_evolves (fun hs => ⟨hs.conf, withinMask_and _ _, hs.word⟩) rfl
  · split
    · rw [abortEvents_eq]
      refine chan_evolves (fun hs => ⟨hs.conf, withinMask_and _ _, ?_⟩) (fun hx => .inl ?_) ?_ ?_
      · intro hb; simp [Channel.disabled] at hb
      · have : (s.rc.chan c).conf.getLsbD 20 = true := by
          simpa [Channel.active, Channel.force, Channel.disabled] using hx
        simp [Channel.active, Channel.force, this]
      · exact selectAfter_disable c _ _
      · intro k hk b
        unfold abortList
        split
        · rw [selectAfter_abort]
          split
          · rfl
          · rw [selectAfter_cs, if_neg (Ne.symm hk)]
        · rfl
    · exact setChan_evolves (fun hs => ⟨hs.conf, withinMask_and _ _, hs.word⟩) rfl

theorem txWrite_evolves {c : Nat} {v : Word} {s t : State} (h : txWrite c v s = .ok t) : Evolves rep s t := by
  unfold txWrite at h
  simp only at h
  split at h
  · cases h
  · cases h
    exact setChan_evolves (fun hs => ⟨hs.conf, hs.ctrl, hs.word⟩) rfl

/-- Whatever an RC register write does. -/
theorem rcWrite_evolves {g : RcReg} {v : Word} {s t : State} (h : rcWrite g v s = .ok t) :
    Evolves rep s t := by
  unfold rcWrite at h
  split at h
  · refine (rcLog_evolves true g v s).trans ?_
    cases g with
    | shared j =>
      cases h
      refine ⟨rfl, fun u => by cases u <;> rfl, .of_eq rfl, Nat.le_refl _, .same rfl ⟨[], by simp⟩, rfl, rfl,
        fun h => ⟨h.mem, ⟨fun c => h.rc.chan c, fun a b => h.rc.one a b⟩, h.mf, h.bbBus, h.rcBus, h.mfBus⟩⟩
    | conf c => exact confWrite_evolves h
    | stat c => cases h; exact .refl _
    | ctrl c => cases h; exact ctrlWrite_evolves c v _
    | tx c => exact txWrite_evolves h
    | rx c => cases h; exact .refl _
  · cases h

/-- Whatever an RC register read does. -/
theorem rcRead_evolves {g : RcReg} {v : Word} {s t : State} (h : rcRead g s = .ok (v, t)) :
    Evolves rep s t := by
  unfold rcRead at h
  split at h
  · cases g with
    | shared j => cases h; exact rcLog_evolves _ _ _ s
    | conf c => cases h; exact rcLog_evolves _ _ _ s
    | stat c => cases h; exact rcLog_evolves _ _ _ s
    | ctrl c => cases h; exact rcLog_evolves _ _ _ s
    | tx c => cases h; exact rcLog_evolves _ _ _ s
    | rx c =>
      simp only at h
      split at h
      · cases h
        refine Evolves.trans ?_ (rcLog_evolves _ _ _ _)
        exact setChan_evolves (fun hs => ⟨hs.conf, hs.ctrl, hs.word⟩) rfl
      · cases h
  · cases h

/-- A select event performed again (40_contract R128, R133). -/
theorem repeatSelect_evolves (c : Nat) (a : Bool) (old : Channel) (s : State) :
    Evolves true s (repeatSelect c a old s) := by
  unfold repeatSelect
  split
  · rename_i h
    have ha : (s.rc.chan c).active = a := by simp at h; exact h.2
    refine ⟨rfl, fun _ => rfl, .of_eq rfl, Nat.le_refl _,
      ⟨rfl, [.pin (.cs .rc c a)], rfl, fun k _ => ?_⟩, rfl, rfl, Inv.congr rfl rfl rfl rfl rfl⟩
    rw [selectAfter_cs]
    split
    · rename_i e; subst e; simp [emitPin, emit, ha]
    · rfl
  · exact .refl s

/-! ## The shifter -/

theorem shifterStart_evolves {c : Nat} {s t : State} (hb : (s.rc.chan c).busy = false)
    (h : shifterStart c s = .ok t) : Evolves rep s t := by
  unfold shifterStart at h
  simp only at h
  split at h
  · cases h
  · rename_i hr
    split at h
    · cases h
    · rename_i ho
      have e : ∀ l, selectAfter rep c (s.rc.chan c).active l = some (s.rc.chan c).started.active →
          (∀ k, k ≠ c → ∀ b, selectAfter rep k b l = some b) →
          Evolves rep s (emits l (setChan c (s.rc.chan c).started s)) := by
        intro l
        refine chan_evolves (fun hs => ⟨hs.conf, hs.ctrl, fun _ => ?_⟩) fun _ => .inr (by simpa using ho)
        simp only [Bool.or_eq_true, decide_eq_true_eq, beq_iff_eq, not_or, Nat.not_lt] at hr
        exact ⟨hr.1, hr.2⟩
      cases h
      split
      · rename_i hf
        have := e [] (by simp [Channel.active, selectAfter, Channel.started, Channel.force] at hf ⊢; simp [hf])
          (fun _ _ _ => rfl)
        rwa [emits_nil] at this
      · rename_i hf
        refine e [.pin (.cs .rc c true)] ?_ fun k hk b => by rw [selectAfter_cs, if_neg (Ne.symm hk)]
        simp [selectAfter_cs, Channel.active, hb, hf, Channel.started]

theorem drawWord_evolves (k : ShiftCfg) (s : State) : Evolves rep s (drawWord k s).2 := by
  unfold drawWord; split
  · exact .refl s
  · exact env_evolves _ s

theorem drawWord_rc (k : ShiftCfg) (s : State) : (drawWord k s).2.rc = s.rc := by
  unfold drawWord; split <;> rfl

theorem completed_eq (x : Channel) (i : Option Word) :
    (x.completed i).conf = x.conf ∧ (x.completed i).ctrl = x.ctrl ∧ (x.completed i).busy = false := by
  unfold Channel.completed
  split
  · split <;> exact ⟨rfl, rfl, rfl⟩
  · exact ⟨rfl, rfl, rfl⟩

theorem shifterComplete_evolves {c : Nat} {s t : State} (hb : (s.rc.chan c).busy = true)
    (h : shifterComplete c s = .ok t) : Evolves rep s t := by
  unfold shifterComplete at h
  simp only at h
  split at h
  · cases h
  · obtain ⟨h1, h2, h3⟩ := completed_eq (s.rc.chan c) (drawWord (s.rc.chan c).shCfg s).1
    have hf : ((s.rc.chan c).completed (drawWord (s.rc.chan c).shCfg s).1).force = (s.rc.chan c).force := by
      simp [Channel.force, h1]
    have e : ∀ ev l, NoSelect (.pin ev) →
        selectAfter rep c (s.rc.chan c).active l = some (s.rc.chan c).force →
        (∀ k, k ≠ c → ∀ b, selectAfter rep k b l = some b) →
        Evolves rep s (emits l (setChan c ((s.rc.chan c).completed (drawWord (s.rc.chan c).shCfg s).1)
          (emitPin ev (drawWord (s.rc.chan c).shCfg s).2))) := by
      intro ev l hn hl ho
      refine ((drawWord_evolves _ _).trans (emitPin_evolves ev _ hn)).trans (chan_evolves ?_ ?_ ?_ ho)
      · rw [emitPin_rc, drawWord_rc]
        exact fun hs => ⟨h1 ▸ hs.conf, h2 ▸ hs.ctrl, fun hb => by rw [h3] at hb; cases hb⟩
      · rw [emitPin_rc, drawWord_rc]
        intro _
        simp [Channel.active, hb]
      · rw [emitPin_rc, drawWord_rc, hl]
        simp [Channel.active, h3, hf]
    cases h
    split
    · rename_i hfo
      have := e (.word c (s.rc.chan c).shCfg.bits (s.rc.chan c).shCfg.pol (s.rc.chan c).shCfg.pha
        (lowBits (s.rc.chan c).shCfg.bits (s.rc.chan c).shOut) (drawWord (s.rc.chan c).shCfg s).1) []
        (by intro c a; simp) (by simp [Channel.active, hb, hfo, selectAfter]) (fun _ _ _ => rfl)
      rwa [emits_nil] at this
    · rename_i hfo
      refine e _ [.pin (.cs .rc c false)] (by intro c a; simp) ?_ fun k hk b => by rw [selectAfter_cs, if_neg (Ne.symm hk)]
      simp [selectAfter_cs, Channel.active, hb, hfo]

theorem shifterStep_evolves {c : Nat} {s t : State} (h : shifterStep c s = .ok t) : Evolves rep s t := by
  unfold shifterStep at h
  simp only at h
  split at h
  · split at h
    · rename_i hb; exact shifterComplete_evolves hb h
    · rename_i hb
      split at h
      · exact shifterStart_evolves (by simpa using hb) h
      · cases h; exact .refl _
  · cases h; exact .refl _

theorem shifterRun_evolves {cs : List Nat} {s t : State} (h : shifterRun cs s = .ok t) : Evolves rep s t := by
  induction cs generalizing s with
  | nil => cases h; exact .refl _
  | cons c cs ih =>
    obtain ⟨m, h1, h2⟩ := bind_eq_ok.1 h
    exact (shifterStep_evolves h1).trans (ih h2)

/-- Whatever happens in a gap. -/
theorem shifterGap_evolves {s t : State} (h : shifterGap s = .ok t) : Evolves rep s t := by
  unfold shifterGap at h
  split at h
  · exact (env_evolves _ s).trans (shifterRun_evolves h)
  · cases h; exact .refl _

/-! ## The MF peer -/

theorem mfLog_evolves (w : Bool) (g : MfReg) (v : Word) (s : State) : Evolves rep s (mfLog w g v s) :=
  emit_evolves _ s

/-- A change of the peer that keeps its bus record and its soundness. -/
theorem mf_evolves {x : MfBus} {s : State} (hb : x.bus = s.mf.bus)
    (hs : s.mf.Sound s.params.fifoBytes → x.Sound s.params.fifoBytes) : Evolves rep s { s with mf := x } :=
  ⟨rfl, fun u => by cases u <;> first | rfl | exact congrArg BusRec.profile hb, .of_eq rfl,
    Nat.le_refl _, .same rfl ⟨[], by simp⟩, rfl, rfl,
    fun h => ⟨h.mem, h.rc, hs h.mf, h.bbBus, h.rcBus, by
      have := h.mfBus; rw [← hb] at this; exact this⟩⟩

theorem mfExch_evolves {o : Byte} {s t : State} (h : mfExch o s = .ok t) : Evolves rep s t := by
  unfold mfExch at h
  simp only at h
  split at h
  · rename_i hl
    cases h
    refine ((env_evolves _ s).trans (emitPin_evolves _ _)).trans (mf_evolves rfl fun hs => ?_)
    exact ⟨hs.select, by simpa using hl, hs.mode⟩
  · cases h

theorem mfExchZeros_evolves {n : Nat} {s t : State} (h : mfExchZeros n s = .ok t) : Evolves rep s t := by
  induction n generalizing s with
  | zero => cases h; exact .refl _
  | succ n ih =>
    obtain ⟨m, h1, h2⟩ := bind_eq_ok.1 h
    exact (mfExch_evolves h1).trans (ih h2)

theorem mfSelectWrite_evolves {i : Nat} {v : Word} {s t : State} (h : mfSelectWrite i v s = .ok t) :
    Evolves rep s t := by
  unfold mfSelectWrite at h
  by_cases hi : i = 0
  · simp only [hi, if_true] at h
    split at h
    · cases h
    · rename_i hn
      cases h
      refine Evolves.trans ?_ (emitPin_evolves _ _)
      refine mf_evolves rfl fun hs => ⟨?_, hs.queue, hs.mode⟩
      cases h1 : v.getLsbD 0 <;> cases h2 : s.mf.cs1 <;> simp_all
  · simp only [hi, if_false] at h
    split at h
    · cases h
    · rename_i hn
      cases h
      refine Evolves.trans ?_ (emitPin_evolves _ _)
      refine mf_evolves rfl fun hs => ⟨?_, hs.queue, hs.mode⟩
      cases h1 : v.getLsbD 0 <;> cases h2 : s.mf.cs0 <;> simp_all

theorem mfBusctl_evolves {v : Word} {s t : State} (h : mfBusctl v s = .ok t) : Evolves rep s t := by
  unfold mfBusctl at h
  split at h
  · cases h; exact mf_evolves rfl fun hs => ⟨hs.select, hs.queue, hs.mode⟩
  · split at h
    · cases h; exact mf_evolves rfl fun hs => ⟨hs.select, hs.queue, hs.mode⟩
    · cases h

/-- Whatever an MF register write does. -/
theorem mfWrite_evolves {g : MfReg} {v : Word} {s t : State} (h : mfWrite g v s = .ok t) :
    Evolves rep s t := by
  have l := mfLog_evolves (rep := rep) true g v s
  unfold mfWrite at h
  cases g with
  | txfifo o =>
    simp only at h
    split at h
    · obtain ⟨m, h1, h2⟩ := bind_eq_ok.1 h
      exact l.trans ((mfExch_evolves h1).trans (mfExch_evolves h2))
    · cases h
  | busctl => exact l.trans (mfBusctl_evolves h)
  | cs0 => exact l.trans (mfSelectWrite_evolves h)
  | cs1 => exact l.trans (mfSelectWrite_evolves h)
  | speed => cases h; exact l.trans (mf_evolves rfl fun hs => ⟨hs.select, hs.queue, hs.mode⟩)
  | mode => cases h; exact l.trans (mf_evolves rfl fun hs => ⟨hs.select, hs.queue, withinMask_and _ _⟩)
  | wrbyte => exact l.trans (mfExch_evolves h)
  | read => exact l.trans (mfExchZeros_evolves h)
  | rdbyte => cases h
  | rxfifo o => cases h

/-- Whatever an MF register read does. -/
theorem mfRead_evolves {g : MfReg} {v : Word} {s t : State} (h : mfRead g s = .ok (v, t)) :
    Evolves rep s t := by
  unfold mfRead at h
  cases g with
  | rdbyte =>
    simp only at h
    split at h
    · rename_i b q hq
      cases h
      refine Evolves.trans ?_ (mfLog_evolves _ _ _ _)
      refine mf_evolves rfl fun hs => ?_
      have := hs.queue
      rw [hq] at this
      exact ⟨hs.select, Nat.le_trans (by simp) this, hs.mode⟩
    · cases h
  | rxfifo o =>
    simp only at h
    split at h
    · split at h
      · rename_i b0 b1 q hq
        cases h
        refine Evolves.trans ?_ (mfLog_evolves _ _ _ _)
        refine mf_evolves rfl fun hs => ?_
        have := hs.queue
        rw [hq] at this
        exact ⟨hs.select, Nat.le_trans (by simp; omega) this, hs.mode⟩
      · cases h
    · cases h
  | _ => cases h

theorem mfSlotWrite_evolves {cs : BitVec 8} {v : Word} {s t : State} (h : mfSlotWrite cs v s = .ok t) :
    Evolves rep s t := by
  unfold mfSlotWrite at h
  split at h
  · exact mfWrite_evolves h
  · cases h

end Sys2Proof.Machine
end

