-- ==== Sys2Proof/Laws/Frames.lean ====
section
/-! SUPPORT. Which unit an operation works in (spec 00_scope R14): `BbOnly`, `RcOnly` and `MfOnly` hold of
the operations of a unit that leave the other units, the loader and the sessions as they are. -/

namespace Sys2Proof.Machine

variable {rep : Bool}

/-- Only BB's latches, its secondary select, memory, the inputs and the trace may differ. -/
structure BbOnly (s t : State) : Prop where
  rc : t.rc = s.rc
  mf : t.mf = s.mf
  ld : t.ld = s.ld
  bus : t.bb.bus = { s.bb.bus with cs2Asserted := t.bb.bus.cs2Asserted }

/-- Only the RC controller, RC's secondary select, memory, the inputs and the trace may differ. -/
structure RcOnly (s t : State) : Prop where
  bb : t.bb = s.bb
  mf : t.mf = s.mf
  ld : t.ld = s.ld
  bus : t.rc.bus = { s.rc.bus with cs2Asserted := t.rc.bus.cs2Asserted }

/-- Only the MF peer, MF's secondary select, memory, the inputs and the trace may differ. -/
structure MfOnly (s t : State) : Prop where
  bb : t.bb = s.bb
  rc : t.rc = s.rc
  ld : t.ld = s.ld
  bus : t.mf.bus = { s.mf.bus with cs2Asserted := t.mf.bus.cs2Asserted }

theorem BbOnly.refl (s : State) : BbOnly s s := ⟨rfl, rfl, rfl, rfl⟩
theorem RcOnly.refl (s : State) : RcOnly s s := ⟨rfl, rfl, rfl, rfl⟩
theorem MfOnly.refl (s : State) : MfOnly s s := ⟨rfl, rfl, rfl, rfl⟩

theorem BbOnly.trans {s t r : State} (a : BbOnly s t) (b : BbOnly t r) : BbOnly s r :=
  ⟨b.rc.trans a.rc, b.mf.trans a.mf, b.ld.trans a.ld, by rw [b.bus, a.bus]⟩
theorem RcOnly.trans {s t r : State} (a : RcOnly s t) (b : RcOnly t r) : RcOnly s r :=
  ⟨b.bb.trans a.bb, b.mf.trans a.mf, b.ld.trans a.ld, by rw [b.bus, a.bus]⟩
theorem MfOnly.trans {s t r : State} (a : MfOnly s t) (b : MfOnly t r) : MfOnly s r :=
  ⟨b.bb.trans a.bb, b.rc.trans a.rc, b.ld.trans a.ld, by rw [b.bus, a.bus]⟩

/-- The sessions of every bus are as before. -/
def SameSessions (s t : State) : Prop :=
  ∀ u, t.bus u = { s.bus u with cs2Asserted := (t.bus u).cs2Asserted }

theorem SameSessions.refl (s : State) : SameSessions s s := fun _ => rfl
theorem SameSessions.trans {s t r : State} (a : SameSessions s t) (b : SameSessions t r) :
    SameSessions s r := fun u => by rw [b u, a u]

theorem SameSessions.cur {s t : State} (h : SameSessions s t) (u : BusUnit) :
    (t.bus u).cur = (s.bus u).cur := by rw [h u]
theorem SameSessions.profile {s t : State} (h : SameSessions s t) (u : BusUnit) :
    (t.bus u).profile = (s.bus u).profile := by rw [h u]

theorem BbOnly.same {s t : State} (h : BbOnly s t) : SameSessions s t := by
  intro u
  cases u
  · exact h.bus
  · simp [State.bus, h.rc]
  · simp [State.bus, h.mf]
theorem RcOnly.same {s t : State} (h : RcOnly s t) : SameSessions s t := by
  intro u
  cases u
  · simp [State.bus, h.bb]
  · exact h.bus
  · simp [State.bus, h.mf]
theorem MfOnly.same {s t : State} (h : MfOnly s t) : SameSessions s t := by
  intro u
  cases u
  · simp [State.bus, h.bb]
  · simp [State.bus, h.rc]
  · exact h.bus

/-! ## What is common to the units -/

theorem emit_bbOnly (o : Obs) (s : State) : BbOnly s (emit o s) := ⟨rfl, rfl, rfl, rfl⟩
theorem emit_rcOnly (o : Obs) (s : State) : RcOnly s (emit o s) := ⟨rfl, rfl, rfl, rfl⟩
theorem emit_mfOnly (o : Obs) (s : State) : MfOnly s (emit o s) := ⟨rfl, rfl, rfl, rfl⟩
theorem storeByte_bbOnly (a : Nat) (v : Byte) (s : State) : BbOnly s (storeByte a v s) := ⟨rfl, rfl, rfl, rfl⟩
theorem storeByte_rcOnly (a : Nat) (v : Byte) (s : State) : RcOnly s (storeByte a v s) := ⟨rfl, rfl, rfl, rfl⟩
theorem storeByte_mfOnly (a : Nat) (v : Byte) (s : State) : MfOnly s (storeByte a v s) := ⟨rfl, rfl, rfl, rfl⟩

theorem cs2_bbOnly (a : Bool) (s : State) : BbOnly s (cs2 .bb a s) := by
  unfold cs2; split <;> exact ⟨rfl, rfl, rfl, rfl⟩
theorem cs2_rcOnly (a : Bool) (s : State) : RcOnly s (cs2 .rc a s) := by
  unfold cs2; split <;> exact ⟨rfl, rfl, rfl, rfl⟩
theorem cs2_mfOnly (a : Bool) (s : State) : MfOnly s (cs2 .mf a s) := by
  unfold cs2; split <;> exact ⟨rfl, rfl, rfl, rfl⟩

/-- Storing an input bit touches memory only. -/
theorem putInBit_eq (inp : Option Nat) (lsb last : Bool) (k : Nat) (b : Bool) (acc : Byte) (s : State) :
    (putInBit inp lsb last k b acc s).2 = s ∨
      ∃ a v, (putInBit inp lsb last k b acc s).2 = storeByte a v s := by
  unfold putInBit
  simp only
  split
  · cases inp with
    | none => exact .inl rfl
    | some a => exact .inr ⟨_, _, rfl⟩
  · exact .inl rfl

theorem putInBit_evolves (inp : Option Nat) (lsb last : Bool) (k : Nat) (b : Bool) (acc : Byte)
    (s : State) : Evolves rep s (putInBit inp lsb last k b acc s).2 := by
  rcases putInBit_eq inp lsb last k b acc s with h | ⟨a, v, h⟩ <;> rw [h]
  · exact .refl s
  · exact storeByte_evolves a v s

theorem putInElem_evolves (inp : Option Nat) (n : Nat) (r : Word) (j k : Nat) (acc : Byte) (s : State) :
    Evolves rep s (putInElem inp n r j k acc s).2 := by
  induction j generalizing k acc s with
  | zero => exact .refl s
  | succ j ih => exact (putInBit_evolves inp false (k + 1 == n) k (r.getLsbD j) acc s).trans (ih _ _ _)

/-- Storing the bits of an element touches memory only. -/
theorem putInElem_eq (inp : Option Nat) (n : Nat) (r : Word) (j k : Nat) (acc : Byte) (s : State) :
    (putInElem inp n r j k acc s).2 = { s with mem := (putInElem inp n r j k acc s).2.mem } := by
  induction j generalizing k acc s with
  | zero => rfl
  | succ j ih =>
    have h := ih (k + 1) (putInBit inp false (k + 1 == n) k (r.getLsbD j) acc s).1
      (putInBit inp false (k + 1 == n) k (r.getLsbD j) acc s).2
    have e : (putInBit inp false (k + 1 == n) k (r.getLsbD j) acc s).2 =
        { s with mem := (putInBit inp false (k + 1 == n) k (r.getLsbD j) acc s).2.mem } := by
      rcases putInBit_eq inp false (k + 1 == n) k (r.getLsbD j) acc s with e | ⟨a, v, e⟩ <;> simp only [e, storeByte]
    have u : putInElem inp n r (j + 1) k acc s =
        putInElem inp n r j (k + 1) (putInBit inp false (k + 1 == n) k (r.getLsbD j) acc s).1
          (putInBit inp false (k + 1 == n) k (r.getLsbD j) acc s).2 := rfl
    rw [u, h]
    generalize (putInElem inp n r j (k + 1) _ _).2.mem = m
    rw [e]

theorem putInElem_rcOnly (inp : Option Nat) (n : Nat) (r : Word) (j k : Nat) (acc : Byte) (s : State) :
    RcOnly s (putInElem inp n r j k acc s).2 := by
  rw [putInElem_eq]; exact ⟨rfl, rfl, rfl, rfl⟩

/-! ## The RC controller and its sequencer -/

theorem confSelectEvent_rcOnly (c : Nat) (old new : Channel) (s : State) :
    RcOnly s (confSelectEvent c old new s) := by
  unfold confSelectEvent
  repeat' split
  all_goals exact ⟨rfl, rfl, rfl, rfl⟩

theorem setChan_rcOnly (c : Nat) (x : Channel) (s : State) : RcOnly s (setChan c x s) :=
  ⟨rfl, rfl, rfl, rfl⟩

theorem abortEvents_rcOnly (c : Nat) (old : Channel) (s : State) : RcOnly s (abortEvents c old s) := by
  unfold abortEvents
  simp only
  repeat' split
  all_goals exact ⟨rfl, rfl, rfl, rfl⟩

theorem rcWrite_rcOnly {g : RcReg} {v : Word} {s t : State} (h : rcWrite g v s = .ok t) : RcOnly s t := by
  unfold rcWrite at h
  split at h
  · refine RcOnly.trans (t := rcLog true g v s) ⟨rfl, rfl, rfl, rfl⟩ ?_
    cases g with
    | shared j => cases h; exact ⟨rfl, rfl, rfl, rfl⟩
    | conf c =>
      simp only [confWrite] at h
      split at h
      · cases h
      · cases h; exact (setChan_rcOnly _ _ _).trans (confSelectEvent_rcOnly _ _ _ _)
    | stat c => cases h; exact .refl _
    | ctrl c =>
      simp only [ctrlWrite] at h
      split at h
      · cases h; exact setChan_rcOnly _ _ _
      · split at h
        · cases h; exact (setChan_rcOnly _ _ _).trans (abortEvents_rcOnly _ _ _)
        · cases h; exact setChan_rcOnly _ _ _
    | tx c =>
      simp only [txWrite] at h
      split at h
      · cases h
      · cases h; exact setChan_rcOnly _ _ _
    | rx c => cases h; exact .refl _
  · cases h

theorem rcRead_rcOnly {g : RcReg} {v : Word} {s t : State} (h : rcRead g s = .ok (v, t)) : RcOnly s t := by
  unfold rcRead at h
  split at h
  · cases g with
    | rx c =>
      simp only at h
      split at h
      · cases h; exact (setChan_rcOnly _ _ _).trans (emit_rcOnly _ _)
      · cases h
    | _ => cases h; exact emit_rcOnly _ _
  · cases h

theorem shifterStep_rcOnly {c : Nat} {s t : State} (h : shifterStep c s = .ok t) : RcOnly s t := by
  unfold shifterStep at h
  simp only at h
  split at h
  · split at h
    · unfold shifterComplete at h
      simp only at h
      split at h
      · cases h
      · have e : RcOnly s (drawWord (s.rc.chan c).shCfg s).2 := by
          unfold drawWord; split <;> exact ⟨rfl, rfl, rfl, rfl⟩
        cases h
        refine e.trans ?_
        split <;> exact ⟨rfl, rfl, rfl, rfl⟩
    · split at h
      · unfold shifterStart at h
        simp only at h
        split at h
        · cases h
        · split at h
          · cases h
          · cases h; split <;> exact ⟨rfl, rfl, rfl, rfl⟩
      · cases h; exact .refl _
  · cases h; exact .refl _

theorem shifterRun_rcOnly {cs : List Nat} {s t : State} (h : shifterRun cs s = .ok t) : RcOnly s t := by
  induction cs generalizing s with
  | nil => cases h; exact .refl _
  | cons c cs ih =>
    obtain ⟨m, h1, h2⟩ := bind_eq_ok.1 h
    exact (shifterStep_rcOnly h1).trans (ih h2)

theorem shifterGap_rcOnly {s t : State} (h : shifterGap s = .ok t) : RcOnly s t := by
  unfold shifterGap at h
  split at h
  · exact RcOnly.trans (t := { s with env := { s.env with sched := s.env.sched.rest } })
      ⟨rfl, rfl, rfl, rfl⟩ (shifterRun_rcOnly h)
  · cases h; exact .refl _

/-- What every piece of RC's sequencer does. -/
structure RcWorks (rep : Bool) (s t : State) : Prop where
  evolves : Evolves rep s t
  only : RcOnly s t

theorem RcWorks.refl (s : State) : RcWorks rep s s := ⟨.refl s, .refl s⟩
theorem RcWorks.trans {s t r : State} (a : RcWorks rep s t) (b : RcWorks rep t r) : RcWorks rep s r :=
  ⟨a.evolves.trans b.evolves, a.only.trans b.only⟩

theorem cs2_rcWorks (a : Bool) (s : State) : RcWorks rep s (cs2 .rc a s) := ⟨cs2_evolves .rc a s, cs2_rcOnly a s⟩

theorem seqWrite_works {g : RcReg} {v : Word} {s t : State} (h : seqWrite g v s = .ok t) : RcWorks rep s t := by
  obtain ⟨m, h1, h2⟩ := bind_eq_ok.1 h
  exact ⟨(shifterGap_evolves h1).trans (rcWrite_evolves h2), (shifterGap_rcOnly h1).trans (rcWrite_rcOnly h2)⟩

theorem seqRead_works {g : RcReg} {v : Word} {s t : State} (h : seqRead g s = .ok (v, t)) :
    RcWorks rep s t := by
  obtain ⟨m, h1, h2⟩ := bind_eq_ok.1 h
  exact ⟨(shifterGap_evolves h1).trans (rcRead_evolves h2), (shifterGap_rcOnly h1).trans (rcRead_rcOnly h2)⟩

theorem pollRounds_works {c b t0 k : Nat} {s t : State} {r : Bool}
    (h : pollRounds c b t0 k s = .ok (r, t)) : RcWorks rep s t := by
  induction k generalizing s with
  | zero =>
    obtain ⟨⟨v, m⟩, h1, h2⟩ := bind_eq_ok.1 h
    refine (seqRead_works h1).trans ?_
    simp only at h2
    split at h2
    · cases h2; exact .refl _
    · cases h2; exact ⟨readNowFrom_evolves _ _, ⟨rfl, rfl, rfl, rfl⟩⟩
  | succ k ih =>
    obtain ⟨⟨v, m⟩, h1, h2⟩ := bind_eq_ok.1 h
    refine (seqRead_works h1).trans ?_
    simp only at h2
    split at h2
    · cases h2; exact .refl _
    · have e : RcWorks rep m (readNow m).2 := ⟨readNow_evolves m, ⟨rfl, rfl, rfl, rfl⟩⟩
      split at h2
      · cases h2; exact e
      · exact e.trans (ih h2)

theorem poll_works {c b : Nat} {s t : State} {r : Bool} (h : poll c b s = .ok (r, t)) : RcWorks rep s t := by
  have e : RcWorks rep s (drawRounds (readNow s).2).2 :=
    ⟨(readNow_evolves s).trans (drawRounds_evolves _), ⟨rfl, rfl, rfl, rfl⟩⟩
  exact e.trans (pollRounds_works h)

theorem rcConf_works {S : Session} {c : Nat} {trm : Option (BitVec 2)} {f : Option Bool} {s t : State}
    (h : rcConf S c trm f s = .ok t) : RcWorks rep s t := by
  obtain ⟨⟨v, m⟩, h1, h2⟩ := bind_eq_ok.1 h
  exact (seqRead_works h1).trans (seqWrite_works h2)

/-- A begin or end phase: the accesses of CONF, and its select event, performed again where the pin was there. -/
theorem rcPhase_works {S : Session} {c : Nat} {trm : Option (BitVec 2)} {a : Bool} {s t : State}
    (h : rcPhase S c trm a s = .ok t) : RcWorks true s t := by
  obtain ⟨⟨v, m⟩, h1, h⟩ := bind_eq_ok.1 h
  obtain ⟨m2, h2, h⟩ := bind_eq_ok.1 h
  obtain ⟨m3, h3, h⟩ := bind_eq_ok.1 h
  cases h
  refine ((seqRead_works h1).trans (seqWrite_works (bind_eq_ok.2 ⟨m2, h2, h3⟩))).trans
    ⟨repeatSelect_evolves _ _ _ _, ?_⟩
  unfold repeatSelect
  split
  · exact ⟨rfl, rfl, rfl, rfl⟩
  · exact .refl _

theorem rcReceive_works {d : Desc} {c w i : Nat} {last : Bool} {acc : Byte} {s t : State}
    {r : Bool} {acc' : Byte} (h : rcReceive d c w i last acc s = .ok (r, acc', t)) : RcWorks rep s t := by
  obtain ⟨⟨seen, m⟩, h1, h2⟩ := bind_eq_ok.1 h
  refine (poll_works h1).trans ?_
  simp only at h2
  split at h2
  · obtain ⟨m2, h3, h4⟩ := bind_eq_ok.1 h2
    have e3 : RcWorks rep m m2 := by
      unfold rcDisableLast at h3
      split at h3
      · exact seqWrite_works h3
      · cases h3; exact .refl _
    obtain ⟨⟨v, m3⟩, h5, h6⟩ := bind_eq_ok.1 h4
    refine (e3.trans (seqRead_works h5)).trans ?_
    cases h6
    exact ⟨putInElem_evolves _ _ _ _ _ _ _, putInElem_rcOnly _ _ _ _ _ _ _⟩
  · cases h2; exact .refl _

theorem rcSend_works {d : Desc} {c w i : Nat} {s t : State} {r : Bool}
    (h : rcSend d c w i s = .ok (r, t)) : RcWorks rep s t := by
  unfold rcSend at h
  split at h
  · cases h; exact .refl _
  · obtain ⟨⟨seen, m⟩, h1, h2⟩ := bind_eq_ok.1 h
    refine (poll_works h1).trans ?_
    simp only at h2
    split at h2
    · obtain ⟨m2, h3, h4⟩ := bind_eq_ok.1 h2
      cases h4; exact seqWrite_works h3
    · cases h2; exact .refl _

theorem rcElement_works {d : Desc} {c w i : Nat} {last : Bool} {acc : Byte} {s t : State}
    {r : Bool} {acc' : Byte} (h : rcElement d c w i last acc s = .ok (r, acc', t)) : RcWorks rep s t := by
  obtain ⟨⟨sent, m⟩, h1, h2⟩ := bind_eq_ok.1 h
  refine (rcSend_works h1).trans ?_
  simp only at h2
  split at h2
  · split at h2
    · cases h2; exact .refl _
    · exact rcReceive_works h2
  · cases h2; exact .refl _

theorem rcElements_works {d : Desc} {c w k i : Nat} {acc : Byte} {s t : State} {r : Bool}
    (h : rcElements d c w k i acc s = .ok (r, t)) : RcWorks rep s t := by
  induction k generalizing i acc s with
  | zero => cases h; exact .refl _
  | succ k ih =>
    obtain ⟨⟨fine, acc', m⟩, h1, h2⟩ := bind_eq_ok.1 h
    refine (rcElement_works h1).trans ?_
    simp only at h2
    split at h2
    · exact ih h2
    · cases h2; exact .refl _

theorem rcDrain_works {d : Desc} {c : Nat} {s t : State} {r : Bool}
    (h : rcDrain d c s = .ok (r, t)) : RcWorks rep s t := by
  unfold rcDrain at h
  split at h
  · obtain ⟨⟨seen, m⟩, h1, h2⟩ := bind_eq_ok.1 h
    refine (poll_works h1).trans ?_
    simp only at h2
    split at h2
    · obtain ⟨m2, h3, h4⟩ := bind_eq_ok.1 h2
      cases h4; exact seqWrite_works h3
    · cases h2; exact .refl _
  · cases h; exact .refl _

theorem seqCs2_works {a : Bool} {s t : State} (h : seqCs2 a s = .ok t) : RcWorks rep s t := by
  obtain ⟨m, h1, h2⟩ := bind_eq_ok.1 h
  cases h2
  exact RcWorks.trans ⟨shifterGap_evolves h1, shifterGap_rcOnly h1⟩ (cs2_rcWorks _ _)

theorem rcTimeout_works {S : Session} {c : Nat} {s t : State} {r : OpResult}
    (h : rcTimeout S c s = .ok (r, t)) : RcWorks rep s t := by
  obtain ⟨m, h1, h⟩ := bind_eq_ok.1 h
  obtain ⟨m2, h2, h⟩ := bind_eq_ok.1 h
  obtain ⟨m3, h3, h⟩ := bind_eq_ok.1 h
  cases h
  exact ((seqWrite_works h1).trans (rcConf_works h2)).trans (seqCs2_works h3)

theorem rcBeginCs2_works {d : Desc} {s t : State} (h : rcBeginCs2 d s = .ok t) : RcWorks rep s t := by
  unfold rcBeginCs2 at h; split at h
  · exact seqCs2_works h
  · cases h; exact .refl s

theorem rcEnd_works {S : Session} {c : Nat} {d : Desc} {s t : State} (h : rcEnd S c d s = .ok t) :
    RcWorks true s t := by
  unfold rcEnd at h
  split at h
  · obtain ⟨m, h1, h2⟩ := bind_eq_ok.1 h
    exact (rcPhase_works h1).trans (seqCs2_works h2)
  · cases h; exact .refl _

theorem rcSelectOnly_works {S : Session} {c : Nat} {d : Desc} {s t : State} {r : OpResult}
    (h : rcSelectOnly S c d s = .ok (r, t)) : RcWorks true s t := by
  obtain ⟨m, h1, h2⟩ := bind_eq_ok.1 h
  obtain ⟨m2, h3, h4⟩ := bind_eq_ok.1 h2
  cases h4
  refine RcWorks.trans ?_ (rcEnd_works h3)
  obtain ⟨m0, h5, h6⟩ := bind_eq_ok.1 h1
  refine (rcBeginCs2_works h5).trans ?_
  split at h6
  · exact rcPhase_works h6
  · cases h6; exact .refl _

theorem rcProgram_works {S : Session} {c : Nat} {d : Desc} {s t : State} (h : rcProgram S c d s = .ok t) :
    RcWorks true s t := by
  unfold rcProgram at h
  split at h
  · exact rcPhase_works h
  · exact rcConf_works h

theorem rcShift_works {S : Session} {c : Nat} {d : Desc} {s t : State} {r : Bool}
    (h : rcShift S c d s = .ok (r, t)) : RcWorks true s t := by
  obtain ⟨m0, h0, h⟩ := bind_eq_ok.1 h
  obtain ⟨m1, h1, h⟩ := bind_eq_ok.1 h
  obtain ⟨m2, h2, h⟩ := bind_eq_ok.1 h
  obtain ⟨⟨fine, m3⟩, h3, h⟩ := bind_eq_ok.1 h
  refine ((((rcBeginCs2_works h0).trans (seqWrite_works h1)).trans (rcProgram_works h2)).trans
    (rcElements_works h3)).trans ?_
  simp only at h
  split at h
  · exact rcDrain_works h
  · cases h; exact .refl _

theorem rcExchange_works {S : Session} {c : Nat} {d : Desc} {s t : State} {r : OpResult}
    (h : rcExchange S c d s = .ok (r, t)) : RcWorks true s t := by
  obtain ⟨⟨fine, m⟩, h1, h⟩ := bind_eq_ok.1 h
  refine (rcShift_works h1).trans ?_
  simp only at h
  split at h
  · obtain ⟨m2, h2, h⟩ := bind_eq_ok.1 h
    cases h; exact rcEnd_works h2
  · exact rcTimeout_works h

theorem rcTransferBody_works {d : Desc} {S : Session} {s t : State} {r : OpResult}
    (h : rcTransferBody d S s = .ok (r, t)) : RcWorks true s t := by
  unfold rcTransferBody at h
  split at h
  · exact rcExchange_works h
  · exact rcSelectOnly_works h

/-- A transfer that ends is refused at its entry with nothing changed, or is its unit's body. -/
theorem checkedTransfer_cases {u : BusUnit} {sid : Nat} {d : Desc}
    {body : Session → State → Except Fault (OpResult × State)} {s t : State} {r : OpResult}
    (h : checkedTransfer u sid d body s = .ok (r, t)) :
    ∃ S, (s.bus u).cur = some S ∧ S.id = sid ∧
      ((∃ e, entryError u S d = some e ∧ r = .error e ∧ t = s) ∨
        (entryError u S d = none ∧ overlapping d.out d.inp (byteLen d.n.toNat) = false ∧
          body S s = .ok (r, t))) := by
  obtain ⟨S, h1, h⟩ := bind_eq_ok.1 h
  obtain ⟨hc, hid⟩ := liveSession_eq_ok.1 h1
  refine ⟨S, hc, hid, ?_⟩
  split at h
  · rename_i e he
    cases h
    exact .inl ⟨e, he, rfl, rfl⟩
  · rename_i he
    split at h
    · cases h
    · rename_i ho
      exact .inr ⟨he, by simpa using ho, h⟩

/-- The same, as an equation: a transfer of the live session that passes its checks is its body. -/
theorem checkedTransfer_eq {u : BusUnit} {sid : Nat} {d : Desc} {S : Session}
    {body : Session → State → Except Fault (OpResult × State)} {s : State}
    (hc : (s.bus u).cur = some S) (hid : S.id = sid) (he : entryError u S d = none)
    (ho : overlapping d.out d.inp (byteLen d.n.toNat) = false) :
    checkedTransfer u sid d body s = body S s := by
  simp [checkedTransfer, liveSession_of hc hid, he, ho]

theorem rcTransferOp_works {sid : Nat} {d : Desc} {s t : State} {r : OpResult}
    (h : rcTransferOp sid d s = .ok (r, t)) : RcWorks true s t := by
  obtain ⟨S, -, -, ⟨e, -, -, rfl⟩ | ⟨-, -, hb⟩⟩ := checkedTransfer_cases h
  · exact .refl _
  · exact rcTransferBody_works hb

/-! ## BB -/

/-- What every piece of a BB transfer does. -/
structure BbWorks (rep : Bool) (s t : State) : Prop where
  evolves : Evolves rep s t
  only : BbOnly s t

theorem BbWorks.refl (s : State) : BbWorks rep s s := ⟨.refl s, .refl s⟩
theorem BbWorks.trans {s t r : State} (a : BbWorks rep s t) (b : BbWorks rep t r) : BbWorks rep s r :=
  ⟨a.evolves.trans b.evolves, a.only.trans b.only⟩

theorem driveClk_works (b : Bool) (s : State) : BbWorks rep s (driveClk b s) :=
  ⟨Evolves.trans (t := { s with bb := { s.bb with sclk := b } }) (bb_evolves rfl) (emitPin_evolves _ _),
    ⟨rfl, rfl, rfl, rfl⟩⟩
theorem driveMosi_works (b : Bool) (s : State) : BbWorks rep s (driveMosi b s) :=
  ⟨Evolves.trans (t := { s with bb := { s.bb with mosi := b } }) (bb_evolves rfl) (emitPin_evolves _ _),
    ⟨rfl, rfl, rfl, rfl⟩⟩
theorem sampleMiso_works (s : State) : BbWorks rep s (sampleMiso s).2 :=
  ⟨(env_evolves _ s).trans (emitPin_evolves _ _), ⟨rfl, rfl, rfl, rfl⟩⟩
theorem gap_works (S : Session) (s : State) : BbWorks rep s (gap S s) := by
  unfold gap; split
  · exact .refl s
  · exact ⟨emitPin_evolves _ s, ⟨rfl, rfl, rfl, rfl⟩⟩
theorem driveLine_works (i : Nat) (csHigh a : Bool) (s : State) : BbWorks rep s (driveLine i csHigh a s) := by
  refine ⟨?_, ⟨rfl, rfl, rfl, rfl⟩⟩
  unfold driveLine
  refine Evolves.trans ?_ (emitPin_evolves _ _)
  exact bb_evolves rfl
theorem bbCsPrimary_works (S : Session) (a : Bool) (s : State) : BbWorks rep s (bbCsPrimary S a s) :=
  driveLine_works _ _ _ s
theorem cs2_bbWorks (a : Bool) (s : State) : BbWorks rep s (cs2 .bb a s) := ⟨cs2_evolves .bb a s, cs2_bbOnly a s⟩
theorem cellSample_works (b : Bool) (s : State) : BbWorks rep s (cellSample b s).2 := by
  unfold cellSample; split
  · exact sampleMiso_works s
  · exact .refl s

theorem cell_works (S : Session) (sample o : Bool) (s : State) : BbWorks rep s (cell S sample o s).2 := by
  unfold cell
  split
  · exact ((((((gap_works S s).trans (driveClk_works _ _)).trans (driveMosi_works _ _)).trans
      (gap_works S _)).trans (gap_works S _)).trans (driveClk_works _ _)).trans
      ((cellSample_works sample _).trans (gap_works S _))
  · exact ((((((driveMosi_works o s).trans (gap_works S _)).trans (driveClk_works _ _)).trans
      (cellSample_works sample _)).trans (gap_works S _)).trans (gap_works S _)).trans
      ((driveClk_works _ _).trans (gap_works S _))

theorem putInBit_bbWorks (inp : Option Nat) (lsb last : Bool) (k : Nat) (b : Bool) (acc : Byte)
    (s : State) : BbWorks rep s (putInBit inp lsb last k b acc s).2 := by
  refine ⟨putInBit_evolves inp lsb last k b acc s, ?_⟩
  rcases putInBit_eq inp lsb last k b acc s with h | ⟨a, v, h⟩ <;> rw [h]
  · exact .refl s
  · exact storeByte_bbOnly a v s

theorem bbBits_works (S : Session) (d : Desc) (fast : Bool) (rem k : Nat) (acc : Byte) (s : State) :
    BbWorks rep s (bbBits S d fast rem k acc s) := by
  induction rem generalizing k acc s with
  | zero => exact .refl s
  | succ rem ih =>
    unfold bbBits
    simp only
    split
    · exact (cell_works S _ _ s).trans (ih _ _ _)
    · exact ((cell_works S _ _ s).trans (putInBit_bbWorks _ _ _ _ _ _ _)).trans (ih _ _ _)

theorem bbExchange_works (S : Session) (d : Desc) (s : State) : BbWorks rep s (bbExchange S d s) := by
  unfold bbExchange
  have e : BbWorks rep s (chooseFast S d s).2 := by
    unfold chooseFast
    split
    · split
      · exact ⟨env_evolves _ s, ⟨rfl, rfl, rfl, rfl⟩⟩
      · exact .refl s
    · exact .refl s
  exact e.trans (bbBits_works _ _ _ _ _ _ _)

theorem bbTransferBody_works {d : Desc} {S : Session} {s t : State} {r : OpResult}
    (h : bbTransferBody d S s = .ok (r, t)) : BbWorks rep s t := by
  unfold bbTransferBody at h
  cases h
  have b : BbWorks rep s (if d.flags.begins then bbBegin S s else s) := by
    split
    · exact ((driveClk_works _ s).trans (cs2_bbWorks _ _)).trans (bbCsPrimary_works S _ _)
    · exact .refl s
  refine b.trans ?_
  generalize (if d.flags.begins then bbBegin S s else s) = s1
  have x : BbWorks rep s1 (if exchanges d then bbExchange S d s1 else s1) := by
    split
    · exact bbExchange_works S d s1
    · exact .refl s1
  refine x.trans ?_
  generalize (if exchanges d then bbExchange S d s1 else s1) = s2
  split
  · exact ((bbCsPrimary_works S _ s2).trans (cs2_bbWorks _ _)).trans (driveClk_works _ _)
  · exact .refl s2

theorem bbTransferOp_works {sid : Nat} {d : Desc} {s t : State} {r : OpResult}
    (h : bbTransferOp sid d s = .ok (r, t)) : BbWorks rep s t := by
  obtain ⟨S, -, -, ⟨e, -, -, rfl⟩ | ⟨-, -, hb⟩⟩ := checkedTransfer_cases h
  · exact .refl _
  · exact bbTransferBody_works hb

/-! ## MF -/

/-- What every piece of MF's sequencer does. -/
structure MfWorks (rep : Bool) (s t : State) : Prop where
  evolves : Evolves rep s t
  only : MfOnly s t

theorem MfWorks.refl (s : State) : MfWorks rep s s := ⟨.refl s, .refl s⟩
theorem MfWorks.trans {s t r : State} (a : MfWorks rep s t) (b : MfWorks rep t r) : MfWorks rep s r :=
  ⟨a.evolves.trans b.evolves, a.only.trans b.only⟩

theorem mfExch_only {o : Byte} {s t : State} (h : mfExch o s = .ok t) : MfOnly s t := by
  unfold mfExch at h
  simp only at h
  split at h
  · cases h; exact ⟨rfl, rfl, rfl, rfl⟩
  · cases h

theorem mfExchZeros_only {n : Nat} {s t : State} (h : mfExchZeros n s = .ok t) : MfOnly s t := by
  induction n generalizing s with
  | zero => cases h; exact .refl _
  | succ n ih =>
    obtain ⟨m, h1, h2⟩ := bind_eq_ok.1 h
    exact (mfExch_only h1).trans (ih h2)

theorem mfSelectWrite_only {i : Nat} {v : Word} {s t : State} (h : mfSelectWrite i v s = .ok t) :
    MfOnly s t := by
  unfold mfSelectWrite at h
  by_cases hi : i = 0
  · simp only [hi, if_true] at h
    split at h
    · cases h
    · cases h; exact ⟨rfl, rfl, rfl, rfl⟩
  · simp only [hi, if_false] at h
    split at h
    · cases h
    · cases h; exact ⟨rfl, rfl, rfl, rfl⟩

theorem mfWrite_works {g : MfReg} {v : Word} {s t : State} (h : mfWrite g v s = .ok t) : MfWorks rep s t := by
  refine ⟨mfWrite_evolves h, ?_⟩
  refine (emit_mfOnly (.reg { reg := .mf g, write := true, width := mfWidth g, value := v })
    s).trans ?_
  unfold mfWrite at h
  cases g with
  | txfifo o =>
    simp only at h
    split at h
    · obtain ⟨m, h1, h2⟩ := bind_eq_ok.1 h
      exact (mfExch_only h1).trans (mfExch_only h2)
    · cases h
  | busctl =>
    simp only [mfBusctl] at h
    split at h
    · cases h; exact ⟨rfl, rfl, rfl, rfl⟩
    · split at h
      · cases h; exact ⟨rfl, rfl, rfl, rfl⟩
      · cases h
  | cs0 => exact mfSelectWrite_only h
  | cs1 => exact mfSelectWrite_only h
  | speed => cases h; exact ⟨rfl, rfl, rfl, rfl⟩
  | mode => cases h; exact ⟨rfl, rfl, rfl, rfl⟩
  | wrbyte => exact mfExch_only h
  | read => exact mfExchZeros_only h
  | rdbyte => cases h
  | rxfifo o => cases h

theorem mfRead_works {g : MfReg} {v : Word} {s t : State} (h : mfRead g s = .ok (v, t)) :
    MfWorks rep s t := by
  refine ⟨mfRead_evolves h, ?_⟩
  unfold mfRead at h
  cases g with
  | rdbyte =>
    simp only at h
    split at h
    · cases h; exact ⟨rfl, rfl, rfl, rfl⟩
    · cases h
  | rxfifo o =>
    simp only at h
    split at h
    · split at h
      · cases h; exact ⟨rfl, rfl, rfl, rfl⟩
      · cases h
    · cases h
  | _ => cases h

theorem mfSlotWrite_works {cs : BitVec 8} {v : Word} {s t : State} (h : mfSlotWrite cs v s = .ok t) :
    MfWorks rep s t := by
  unfold mfSlotWrite at h
  split at h
  · exact mfWrite_works h
  · cases h

theorem cs2_mfWorks (a : Bool) (s : State) : MfWorks rep s (cs2 .mf a s) := ⟨cs2_evolves .mf a s, cs2_mfOnly a s⟩

theorem mfFeed_works {bs : List Byte} {q : Nat} {s t : State} (h : mfFeed bs q s = .ok t) :
    MfWorks rep s t := by
  induction bs, q, s using mfFeed.induct generalizing t with
  | case1 q s => cases h; exact .refl _
  | case2 b q s => exact mfWrite_works h
  | case3 lo hi bs q s ih =>
    obtain ⟨m, h1, h2⟩ := bind_eq_ok.1 h
    exact (mfWrite_works h1).trans (ih m h2)

theorem mfStore_works (inp : Option Nat) (lsb : Bool) (pos : Nat) (b : Byte) (s : State) :
    MfWorks rep s (mfStore inp lsb pos b s) := by
  unfold mfStore
  cases inp with
  | none => exact .refl s
  | some a => exact ⟨storeByte_evolves _ _ s, storeByte_mfOnly _ _ s⟩

theorem mfDrain_works {inp : Option Nat} {lsb : Bool} {pos n q : Nat} {s t : State}
    (h : mfDrain inp lsb pos n q s = .ok t) : MfWorks rep s t := by
  induction n using Nat.strong_induction_on generalizing q s with
  | _ n ih =>
    match n with
    | 0 => cases h; exact .refl _
    | 1 =>
      obtain ⟨⟨v, m⟩, h1, h2⟩ := bind_eq_ok.1 h
      cases h2
      exact (mfRead_works h1).trans (mfStore_works _ _ _ _ _)
    | n + 2 =>
      obtain ⟨⟨v, m⟩, h1, h2⟩ := bind_eq_ok.1 h
      exact (((mfRead_works h1).trans (mfStore_works _ _ _ _ _)).trans (mfStore_works _ _ _ _ _)).trans
        (ih n (by omega) h2)

theorem mfBurst_works {d : Desc} {pos b : Nat} {s t : State} (h : mfBurst d pos b s = .ok t) :
    MfWorks rep s t := by
  obtain ⟨m, h1, h2⟩ := bind_eq_ok.1 h
  refine MfWorks.trans ?_ (mfDrain_works h2)
  unfold mfSendBurst at h1
  split at h1
  · exact mfFeed_works h1
  · exact mfWrite_works h1

theorem mfBursts_works {d : Desc} {l k pos : Nat} {s t : State} (h : mfBursts d l k pos s = .ok t) :
    MfWorks rep s t := by
  induction k generalizing pos s with
  | zero => cases h; exact .refl _
  | succ k ih =>
    obtain ⟨m, h1, h2⟩ := bind_eq_ok.1 h
    exact (mfBurst_works h1).trans (ih h2)

theorem mfTransferBody_works {d : Desc} {S : Session} {s t : State} {r : OpResult}
    (h : mfTransferBody d S s = .ok (r, t)) : MfWorks rep s t := by
  obtain ⟨m1, h1, h⟩ := bind_eq_ok.1 h
  obtain ⟨m2, h2, h⟩ := bind_eq_ok.1 h
  obtain ⟨m3, h3, h⟩ := bind_eq_ok.1 h
  cases h
  have e1 : MfWorks rep s m1 := by
    unfold mfBegin at h1
    split at h1
    · exact (cs2_mfWorks _ _).trans (mfSlotWrite_works h1)
    · cases h1; exact .refl _
  have e2 : MfWorks rep m1 m2 := by
    unfold mfExchange at h2
    split at h2
    · exact mfBursts_works h2
    · cases h2; exact .refl _
  refine (e1.trans e2).trans ?_
  unfold mfEnd at h3
  split at h3
  · obtain ⟨m, h4, h5⟩ := bind_eq_ok.1 h3
    cases h5
    exact (mfSlotWrite_works h4).trans (cs2_mfWorks _ _)
  · cases h3; exact .refl _

theorem mfTransferOp_works {sid : Nat} {d : Desc} {s t : State} {r : OpResult}
    (h : mfTransferOp sid d s = .ok (r, t)) : MfWorks rep s t := by
  obtain ⟨S, -, -, ⟨e, -, -, rfl⟩ | ⟨-, -, hb⟩⟩ := checkedTransfer_cases h
  · exact .refl _
  · exact mfTransferBody_works hb

/-! ## A transfer on any bus -/

theorem transferOp_evolves {u : BusUnit} {sid : Nat} {d : Desc} {s t : State} {r : OpResult}
    (h : transferOp u sid d s = .ok (r, t)) : Evolves true s t := by
  cases u
  · exact (bbTransferOp_works h).evolves
  · exact (rcTransferOp_works h).evolves
  · exact (mfTransferOp_works h).evolves

theorem transferOp_same {u : BusUnit} {sid : Nat} {d : Desc} {s t : State} {r : OpResult}
    (h : transferOp u sid d s = .ok (r, t)) : SameSessions s t := by
  cases u
  · exact (bbTransferOp_works (rep := true) h).only.same
  · exact (rcTransferOp_works h).only.same
  · exact (mfTransferOp_works (rep := true) h).only.same

theorem transferOp_ld {u : BusUnit} {sid : Nat} {d : Desc} {s t : State} {r : OpResult}
    (h : transferOp u sid d s = .ok (r, t)) : t.ld = s.ld := by
  cases u
  · exact (bbTransferOp_works (rep := true) h).only.ld
  · exact (rcTransferOp_works h).only.ld
  · exact (mfTransferOp_works (rep := true) h).only.ld

end Sys2Proof.Machine
end

