-- ==== Sys2Proof/Laws/Operations.lean ====
section
/-! SUPPORT. What the operations of the contract and of the loader can do: `Evolves` for each, and what they
leave of the sessions. -/

namespace Sys2Proof.Machine

variable {rep : Bool}

/-! ## SETUP -/

theorem deassertLines_works (n i : Nat) (s : State) : BbWorks rep s (deassertLines n i s) := by
  induction n generalizing i s with
  | zero => exact .refl s
  | succ n ih =>
    exact BbWorks.trans (driveLine_works _ _ _ s) (ih (i + 1) _)

theorem latchBound_works (b : Bool) (s : State) : BbWorks rep s (latchBound b s) :=
  ⟨bb_evolves rfl, ⟨rfl, rfl, rfl, rfl⟩⟩

@[simp] theorem latchBound_true (s : State) :
    latchBound true s = { s with bb := { s.bb with nbound := s.bb.bus.profile.nbound } } := rfl

/-- R150, everything obtained and the counts equal. -/
theorem bbBind_binds {s : State} (h1 : s.bb.bus.profile.linesOk = true)
    (h2 : s.bb.bus.profile.hasCs2 = true → s.bb.bus.profile.cs2Ok = true)
    (h3 : s.bb.bus.profile.nbound = s.bb.bus.profile.ncs) :
    bbBind s = (true, cs2 .bb false (deassertLines s.bb.bus.profile.ncs.toNat 0 (latchBound true s))) := by
  cases hc : s.bb.bus.profile.hasCs2
  · simp [bbBind, h1, h3, hc]
  · simp [bbBind, h1, h2 hc, h3]

/-- R150, a line that cannot be obtained. -/
theorem bbBind_lines {s : State} (h : s.bb.bus.profile.linesOk = false) : bbBind s = (false, s) := by
  simp [bbBind, h]

/-- R150, the lines obtained, the secondary select not, or the counts unequal (log 17). -/
theorem bbBind_fails {s : State} (h1 : s.bb.bus.profile.linesOk = true)
    (h2 : (s.bb.bus.profile.hasCs2 = true ∧ s.bb.bus.profile.cs2Ok = false) ∨
      s.bb.bus.profile.nbound ≠ s.bb.bus.profile.ncs) :
    bbBind s = (false, latchBound Config.failedBindStands s) := by
  rcases h2 with ⟨a, b⟩ | h2
  · simp [bbBind, h1, a, b]
  · simp [bbBind, h1, h2]

theorem bbBind_works (s : State) : BbWorks rep s (bbBind s).2 := by
  unfold bbBind
  simp only
  split
  · exact .refl s
  · split
    · exact latchBound_works _ s
    · split
      · exact latchBound_works _ s
      · exact ((latchBound_works _ s).trans (deassertLines_works _ _ _)).trans (cs2_bbWorks _ _)

theorem windowBind_evolves (u : BusUnit) (s : State) : Evolves rep s (windowBind u s).2 := by
  unfold windowBind
  simp only
  split
  · exact .refl s
  · split
    · exact .refl s
    · exact cs2_evolves _ _ _

theorem cs2_same (u : BusUnit) (a : Bool) (s : State) : SameSessions s (cs2 u a s) := by
  cases u
  · exact (cs2_bbOnly a s).same
  · exact (cs2_rcOnly a s).same
  · exact (cs2_mfOnly a s).same

theorem windowBind_same (u : BusUnit) (s : State) : SameSessions s (windowBind u s).2 := by
  unfold windowBind
  simp only
  split
  · exact .refl s
  · split
    · exact .refl s
    · exact cs2_same _ _ _

theorem unitBind_evolves (u : BusUnit) (s : State) : Evolves rep s (unitBind u s).2 := by
  cases u
  · exact (bbBind_works s).evolves
  · exact windowBind_evolves .rc s
  · exact windowBind_evolves .mf s

theorem unitBind_same (u : BusUnit) (s : State) : SameSessions s (unitBind u s).2 := by
  cases u
  · exact (bbBind_works (rep := true) s).only.same
  · exact windowBind_same .rc s
  · exact windowBind_same .mf s

theorem setupOp_evolves {u : BusUnit} {s t : State} {r : OpResult} (h : setupOp u s = .ok (r, t)) :
    Evolves rep s t := by
  unfold setupOp at h
  split at h
  · cases h
  · rename_i hn
    cases h
    simp only [BusRec.claimed, Bool.not_eq_true, Option.isSome_eq_false_iff, Option.isNone_iff_eq_none]
      at hn
    exact (unitBind_evolves u s).trans (setBus_evolves rfl fun _ S hS => by
      exact absurd ((((unitBind_same u s).cur u).trans hn).symm.trans hS) (by simp))

/-- R121: a SETUP on a bus that is not claimed is its bind, and the flag that says whether it bound. -/
theorem setupOp_eq {u : BusUnit} {s : State} {ok : Bool} (hc : (s.bus u).cur = none) (h : (unitBind u s).1 = ok) :
    setupOp u s = .ok (if ok then .ok else .error .resourceUnavailable,
      (unitBind u s).2.setBus u { (unitBind u s).2.bus u with cfgOk := ok }) := by
  simp [setupOp, BusRec.claimed, hc, h]

/-! ## Setters -/

theorem unitSetSpeed_evolves {u : BusUnit} {S R : Session} {hz : Word} {s t : State}
    (hc : (s.bus u).cur = some R) (hid : S.id = R.id) (hcs : S.cs = R.cs)
    (h : unitSetSpeed u S hz s = .ok t) : Evolves rep s t := by
  cases u
  · cases h; exact putSession_evolves hc hid hcs
  · cases h; exact putSession_evolves hc hid hcs
  · exact (putSession_evolves (T := { S with hz := hz }) hc hid hcs).trans
      (mfWrite_evolves (g := .speed) (v := hz) h)

theorem unitSetMode_evolves {u : BusUnit} {S : Session} {s t : State} (h : unitSetMode u S s = .ok t) :
    Evolves rep s t := by
  cases u
  · cases h; exact .refl _
  · cases h; exact .refl _
  · exact mfWrite_evolves (g := .mode) (v := modeWord S.cpol S.cpha S.csHigh) h

theorem setSpeedOp_evolves {u : BusUnit} {sid : Nat} {hz : Word} {s t : State} {r : OpResult}
    (h : setSpeedOp u sid hz s = .ok (r, t)) : Evolves rep s t := by
  obtain ⟨S, h1, h⟩ := bind_eq_ok.1 h
  obtain ⟨m, h2, h⟩ := bind_eq_ok.1 h
  cases h
  exact unitSetSpeed_evolves (liveSession_eq_ok.1 h1).1 rfl rfl h2

theorem setModeOp_evolves {u : BusUnit} {sid : Nat} {m : Mode} {s t : State} {r : OpResult}
    (h : setModeOp u sid m s = .ok (r, t)) : Evolves rep s t := by
  obtain ⟨S, h1, h⟩ := bind_eq_ok.1 h
  obtain ⟨m', h2, h⟩ := bind_eq_ok.1 h
  cases h
  exact (putSession_evolves (T := { S with cpol := m.cpol, cpha := m.cpha, csHigh := m.csHigh })
    (liveSession_eq_ok.1 h1).1 rfl rfl).trans (unitSetMode_evolves h2)

theorem setWordlenOp_evolves {u : BusUnit} {sid : Nat} {w : BitVec 8} {s t : State} {r : OpResult}
    (h : setWordlenOp u sid w s = .ok (r, t)) : Evolves rep s t := by
  obtain ⟨S, h1, h⟩ := bind_eq_ok.1 h
  cases h
  exact putSession_evolves (liveSession_eq_ok.1 h1).1 rfl rfl

/-! ## CLAIM and RELEASE -/

theorem unitClaim_same {u : BusUnit} {s t : State} (h : unitClaim u s = .ok t) : SameSessions s t := by
  cases u
  · cases h; exact .refl _
  · cases h; exact .refl _
  · exact (mfWrite_works (rep := true) (g := .busctl) (v := 1#32) h).only.same

theorem unitClaim_evolves {u : BusUnit} {s t : State} (h : unitClaim u s = .ok t) : Evolves rep s t := by
  cases u
  · cases h; exact .refl _
  · cases h; exact .refl _
  · exact mfWrite_evolves (g := .busctl) (v := 1#32) h

theorem unitRelease_evolves {u : BusUnit} {s t : State} (h : unitRelease u s = .ok t) : Evolves rep s t := by
  cases u
  · cases h; exact .refl _
  · cases h; exact .refl _
  · exact mfWrite_evolves (g := .busctl) (v := 0#32) h

theorem openSession_evolves {u : BusUnit} {cs : BitVec 8} {s t : State} {r : OpResult}
    (hk : (s.bus u).cfgOk = true) (hl : cs.toNat < claimLimit u s.rc.nchan (s.bus u).profile)
    (h : openSession u cs s = .ok (r, t)) : Evolves rep s t := by
  obtain ⟨m1, h1, h⟩ := bind_eq_ok.1 h
  obtain ⟨m2, h2, h⟩ := bind_eq_ok.1 h
  obtain ⟨m3, h3, h⟩ := bind_eq_ok.1 h
  cases h
  have hc : (m1.bus u).cur = some (newSession (s.bus u).nextSid cs ((s.bus u).profile.slave cs.toNat)) := by
    rw [(unitClaim_same h1).cur]; simp
  have e0 : Evolves rep s _ := setBus_evolves (u := u) (s := s)
    (b := { s.bus u with cur := some (newSession (s.bus u).nextSid cs ((s.bus u).profile.slave cs.toNat)),
                         nextSid := (s.bus u).nextSid + 1 }) rfl (fun _ S hS => by
      cases hS
      exact ⟨hk, hl, Nat.lt_succ_self _⟩)
  exact ((e0.trans (unitClaim_evolves h1)).trans (unitSetSpeed_evolves hc rfl rfl h2)).trans
    (unitSetMode_evolves h3)

theorem claimOp_evolves {u : BusUnit} {cs : BitVec 8} {s t : State} {r : OpResult}
    (h : claimOp u cs s = .ok (r, t)) : Evolves rep s t := by
  unfold claimOp at h
  simp only at h
  split at h
  · cases h
  · split at h
    · cases h; exact .refl _
    · rename_i hl
      split at h
      · cases h; exact .refl _
      · rename_i hk
        exact openSession_evolves (by simpa using hk) (by omega) h

theorem releaseOp_evolves {u : BusUnit} {sid : Nat} {s t : State} {r : OpResult}
    (h : releaseOp u sid s = .ok (r, t)) : Evolves rep s t := by
  obtain ⟨S, h1, h⟩ := bind_eq_ok.1 h
  split at h
  · cases h
  · obtain ⟨m, h2, h⟩ := bind_eq_ok.1 h
    cases h
    exact (unitRelease_evolves h2).trans (setBus_evolves rfl fun _ S hS => by cases hS)

/-! ## LD -/

theorem ldGap_evolves {h : Nat} {s t : State} (e : ldGap h s = .ok t) : Evolves rep s t := by
  unfold ldGap at e; split at e
  · exact shifterGap_evolves e
  · cases e; exact .refl s

/-- An event of the loader evolves when it does so by itself. -/
theorem afterGap_evolves {α : Type} {h : Nat} {event : State → α} {next : α → State} {s : State} {x : α}
    (hx : ∀ s, Evolves rep s (next (event s))) (e : afterGap h event s = .ok x) : Evolves rep s (next x) := by
  obtain ⟨m, h1, h2⟩ := bind_eq_ok.1 e
  cases h2
  exact (ldGap_evolves h1).trans (hx m)

theorem driveNcfg_evolves {h : Nat} {b : Bool} {s t : State} (e : driveNcfg h b s = .ok t) : Evolves rep s t :=
  afterGap_evolves (next := id) (fun s => Evolves.trans (t := setHandle h { s.handle h with ncfg := b } s)
    (setHandle_evolves ⟨rfl, rfl, rfl, rfl⟩) (emitPin_evolves _ _)) e

theorem sampleStatus_evolves {h : Nat} {b : Bool} {s t : State} (e : sampleStatus h s = .ok (b, t)) :
    Evolves rep s t :=
  afterGap_evolves (next := Prod.snd) (fun s => (env_evolves _ s).trans (emitPin_evolves _ _)) e

theorem sampleDone_evolves {h : Nat} {b : Bool} {s t : State} (e : sampleDone h s = .ok (b, t)) :
    Evolves rep s t :=
  afterGap_evolves (next := Prod.snd) (fun s => (env_evolves _ s).trans (emitPin_evolves _ _)) e

theorem sampleCrc_evolves {h : Nat} {b : Bool} {s t : State} (e : sampleCrc h s = .ok (b, t)) : Evolves rep s t :=
  afterGap_evolves (next := Prod.snd) (fun s => (env_evolves _ s).trans (emitPin_evolves _ _)) e

theorem delayMicros_evolves {h n : Nat} {s t : State} (e : delayMicros h n s = .ok t) : Evolves rep s t :=
  afterGap_evolves (next := id) (fun s => emitPin_evolves _ s) e

theorem setLdState_evolves (h : Nat) (x : LdState) (s : State) : Evolves rep s (setLdState h x s) :=
  setHandle_evolves ⟨rfl, rfl, rfl, rfl⟩

theorem diag_evolves {h : Nat} {s t : State} (e : diag h s = .ok t) : Evolves rep s t := by
  unfold diag at e
  split at e
  · obtain ⟨⟨b, m⟩, h1, h2⟩ := bind_eq_ok.1 e
    cases h2
    exact (sampleCrc_evolves h1).trans (setHandle_evolves ⟨rfl, rfl, rfl, rfl⟩)
  · cases e; exact .refl s

theorem fail_evolves {h : Nat} {x : Err} {s t : State} {r : OpResult} (e : fail h x s = .ok (r, t)) :
    Evolves rep s t := by
  obtain ⟨m, h1, h2⟩ := bind_eq_ok.1 e
  cases h2
  exact Evolves.trans (t := setHandle h { s.handle h with state := .failed, lastError := some x } s)
    (setHandle_evolves ⟨rfl, rfl, rfl, rfl⟩) (diag_evolves h1)

theorem releaseAndFail_evolves {h sid : Nat} {e : Err} {s t : State} {r : OpResult}
    (hx : releaseAndFail h sid e s = .ok (r, t)) : Evolves rep s t := by
  obtain ⟨⟨x, m⟩, h1, h2⟩ := bind_eq_ok.1 hx
  exact (releaseOp_evolves h1).trans (fail_evolves h2)

theorem abort_evolves {h sid pos : Nat} {e : Err} {s t : State} {r : OpResult}
    (hx : abort h sid pos e s = .ok (r, t)) : Evolves true s t := by
  unfold abort at hx
  split at hx
  · obtain ⟨⟨x, m⟩, h1, h2⟩ := bind_eq_ok.1 hx
    exact (transferOp_evolves h1).trans (releaseAndFail_evolves h2)
  · exact releaseAndFail_evolves hx

theorem stopStream_eq_ok {x : Except Fault (OpResult × State)} {y : Streamed} {t : State} :
    stopStream x = .ok (y, t) ↔ ∃ r, x = .ok (r, t) ∧ y = .stopped r := by
  unfold stopStream
  rw [bind_eq_ok]
  constructor
  · rintro ⟨⟨r, m⟩, h, h2⟩; cases h2; exact ⟨r, h, rfl⟩
  · rintro ⟨r, h, rfl⟩; exact ⟨(r, t), h, rfl⟩

theorem resetPulse_evolves {h : Nat} {s t : State} (e : resetPulse h s = .ok t) : Evolves rep s t := by
  obtain ⟨m1, h1, e⟩ := bind_eq_ok.1 e
  obtain ⟨m2, h2, e⟩ := bind_eq_ok.1 e
  exact ((driveNcfg_evolves h1).trans (delayMicros_evolves h2)).trans (driveNcfg_evolves e)

theorem statusWait_evolves {h n : Nat} {b : Bool} {s t : State} (e : statusWait h n s = .ok (b, t)) :
    Evolves rep s t := by
  induction n generalizing s with
  | zero => cases e; exact .refl _
  | succ n ih =>
    obtain ⟨⟨st, m⟩, h1, e⟩ := bind_eq_ok.1 e
    refine (sampleStatus_evolves h1).trans ?_
    simp only at e
    split at e
    · cases e; exact setLdState_evolves _ _ _
    · obtain ⟨m2, h2, e⟩ := bind_eq_ok.1 e
      exact (delayMicros_evolves h2).trans (ih e)

/-- What holds of a run over other bytes of memory, put back after it. -/
theorem Evolves.overlay {s t : State} {m : Memory} (hm : Memory.wf s.mem = true → Memory.wf m = true)
    (h : Evolves rep { s with mem := m } t) : Evolves rep s { t with mem := s.mem } where
  params := h.params
  profile u := by have := h.profile u; cases u <;> exact this
  targets := ⟨h.targets.length, h.targets.each⟩
  now := h.now
  traced := ⟨h.traced.nchan, h.traced.selects⟩
  queue := h.queue
  mark := h.mark
  inv i := by
    have := h.inv ⟨hm i.mem, i.rc, i.mf, i.bbBus, i.rcBus, i.mfBus⟩
    exact ⟨i.mem, this.rc, this.mf, this.bbBus, this.rcBus, this.mfBus⟩

theorem drawPad_evolves (s : State) : Evolves rep s (drawPad s).2 := env_evolves _ s

theorem transferWith_evolves {a : Nat} {v : Byte} {u : BusUnit} {sid : Nat} {d : Desc} {s t : State}
    {r : OpResult} (h : transferWith a v u sid d s = .ok (r, t)) : Evolves true s t := by
  obtain ⟨⟨x, m⟩, h1, h2⟩ := bind_eq_ok.1 h
  cases h2
  exact (transferOp_evolves h1).overlay fun hw => writeByte_wf hw a v

theorem lastTransfer_evolves {h sid src len pos : Nat} {s t : State} {x : Streamed}
    (e : lastTransfer h sid src len pos s = .ok (x, t)) : Evolves true s t := by
  obtain ⟨⟨r, m⟩, h1, e⟩ := bind_eq_ok.1 e
  refine (drawPad_evolves s).trans ((transferWith_evolves h1).trans ?_)
  simp only at e
  split at e
  · obtain ⟨r', h2, -⟩ := stopStream_eq_ok.1 e
    exact abort_evolves h2
  · cases e; exact .refl _

theorem stream_evolves {h sid src len k pos : Nat} {s t : State} {x : Streamed}
    (e : stream h sid src len k pos s = .ok (x, t)) : Evolves true s t := by
  induction k generalizing pos s with
  | zero =>
    obtain ⟨⟨st, m⟩, h0, e⟩ := bind_eq_ok.1 e
    refine (sampleStatus_evolves h0).trans ?_
    simp only at e
    split at e
    · exact lastTransfer_evolves e
    · obtain ⟨r', h2, -⟩ := stopStream_eq_ok.1 e
      exact abort_evolves h2
  | succ k ih =>
    obtain ⟨⟨st, m⟩, h0, e⟩ := bind_eq_ok.1 e
    refine (sampleStatus_evolves h0).trans ?_
    simp only at e
    split at e
    · obtain ⟨⟨r, m⟩, h1, e⟩ := bind_eq_ok.1 e
      refine (transferOp_evolves h1).trans ?_
      simp only at e
      split at e
      · obtain ⟨r', h2, -⟩ := stopStream_eq_ok.1 e
        exact abort_evolves h2
      · exact ih e
    · obtain ⟨r', h2, -⟩ := stopStream_eq_ok.1 e
      exact abort_evolves h2

theorem settleSamples_evolves {h : Nat} {x : Option Settled} {s t : State}
    (e : settleSamples h s = .ok (x, t)) : Evolves rep s t := by
  obtain ⟨⟨st, m⟩, h0, e⟩ := bind_eq_ok.1 e
  refine (sampleStatus_evolves h0).trans ?_
  simp only at e
  split at e
  · obtain ⟨⟨dn, m2⟩, h1, e⟩ := bind_eq_ok.1 e
    cases e; exact sampleDone_evolves h1
  · cases e; exact .refl _

theorem settleRounds_evolves {h t0 k : Nat} {x : Settled} {s t : State}
    (e : settleRounds h t0 k s = .ok (x, t)) : Evolves rep s t := by
  induction k generalizing s with
  | zero =>
    obtain ⟨⟨y, m⟩, h0, e⟩ := bind_eq_ok.1 e
    refine (settleSamples_evolves h0).trans ?_
    simp only at e
    split at e
    · cases e; exact .refl _
    · cases e; exact readNowFrom_evolves _ _
  | succ k ih =>
    obtain ⟨⟨y, m⟩, h0, e⟩ := bind_eq_ok.1 e
    refine (settleSamples_evolves h0).trans ?_
    simp only at e
    split at e
    · cases e; exact .refl _
    · split at e
      · cases e; exact readNow_evolves _
      · exact (readNow_evolves _).trans (ih e)

theorem doneWait_evolves {h : Nat} {x : Settled} {s t : State} (e : doneWait h s = .ok (x, t)) : Evolves rep s t :=
  ((readNow_evolves s).trans (drawRounds_evolves _)).trans (settleRounds_evolves e)

theorem finishLoad_evolves {h sid : Nat} {len : Word} {s t : State} {r : OpResult}
    (e : finishLoad h sid len s = .ok (r, t)) : Evolves true s t := by
  obtain ⟨⟨x, m⟩, h1, e⟩ := bind_eq_ok.1 e
  refine ((releaseOp_evolves h1).trans (setLdState_evolves h .awaitingDone m)).trans ?_
  obtain ⟨⟨y, m2⟩, h2, e⟩ := bind_eq_ok.1 e
  refine (doneWait_evolves h2).trans ?_
  simp only at e
  split at e
  · obtain ⟨m3, h3, e⟩ := bind_eq_ok.1 e
    cases e
    exact (setLdState_evolves _ _ _).trans (diag_evolves h3)
  · exact fail_evolves e

theorem runLoad_evolves {h sid src : Nat} {len : Word} {s t : State} {r : OpResult}
    (e : runLoad h sid src len s = .ok (r, t)) : Evolves true s t := by
  obtain ⟨m0, h0, e⟩ := bind_eq_ok.1 e
  obtain ⟨⟨b, m⟩, h1, e⟩ := bind_eq_ok.1 e
  refine (((setLdState_evolves h .resetting s).trans (resetPulse_evolves h0)).trans
    (statusWait_evolves h1)).trans ?_
  simp only at e
  split at e
  · obtain ⟨⟨x, m⟩, h1, e⟩ := bind_eq_ok.1 e
    refine (stream_evolves h1).trans ?_
    simp only at e
    split at e
    · exact finishLoad_evolves e
    · cases e; exact .refl _
  · exact releaseAndFail_evolves e

theorem enterIdle_evolves (h : Nat) (s : State) : Evolves rep s (enterIdle h s) :=
  setHandle_evolves ⟨rfl, rfl, rfl, rfl⟩

theorem ldWriteOp_evolves {h src : Nat} {len : Word} {s t : State} {r : OpResult}
    (e : ldWriteOp h src len s = .ok (r, t)) : Evolves true s t := by
  refine (enterIdle_evolves h s).trans ?_
  obtain ⟨⟨x, m⟩, h1, e⟩ := bind_eq_ok.1 e
  refine (claimOp_evolves h1).trans ?_
  simp only at e
  split at e
  · exact runLoad_evolves e
  · exact fail_evolves e
  · cases e; exact .refl _

/-! ## Register accesses of the host -/

theorem returnRead_eq_ok {x : Except Fault (Word × State)} {r : OpResult} {t : State} :
    returnRead x = .ok (r, t) ↔ ∃ v, x = .ok (v, t) ∧ r = .value v := by
  cases x with
  | error f => simp [returnRead]
  | ok p => obtain ⟨v, s⟩ := p; simp [returnRead, eq_comm]; tauto

theorem returnWrite_eq_ok {x : Except Fault State} {r : OpResult} {t : State} :
    returnWrite x = .ok (r, t) ↔ x = .ok t ∧ r = .nothing := by
  cases x with
  | error f => simp [returnWrite]
  | ok s => simp [returnWrite, eq_comm]; tauto

/-! ## From an operation to its instruction -/

/-- An operation that evolves is an instruction that does. -/
theorem finish_evolves {x : Except Fault (OpResult × State)} {s t : State}
    (hx : ∀ r m, x = .ok (r, m) → Evolves rep s m) (h : finish x = .next t) : Evolves rep s t := by
  obtain ⟨r, m, h1, rfl⟩ := finish_eq_next.1 h
  exact (hx r m h1).trans (result_evolves _ m)

/-- An operation of the loader answers a next state on a handle the machine has, when it ends with a result. -/
theorem onHandle_eq_next {h : Nat} {x : Except Fault (OpResult × State)} {s t : State} :
    onHandle h s x = .next t ↔ h < s.ld.length ∧ finish x = .next t := by
  unfold onHandle; split <;> simp [*]

theorem onHandle_of {h : Nat} {s : State} (hh : h < s.ld.length) (x : Except Fault (OpResult × State)) :
    onHandle h s x = finish x := by simp [onHandle, hh]

end Sys2Proof.Machine
end

