-- ==== Sys2Proof/Laws/Buffers.lean ====
section
/-! SUPPORT. The laws of buffers as bit streams (spec 20_memory R61 to R66): how an input buffer fills bit by
bit, and that filling it leaves the output stream still to come as it was. -/

namespace Sys2Proof.Machine

theorem bitPos_lt (lsb : Bool) (k : Nat) : bitPos lsb k < 8 := by
  unfold bitPos; split <;> omega

theorem bitPos_mod (lsb : Bool) (k : Nat) : bitPos lsb (k % 8) = bitPos lsb k := by
  unfold bitPos; split <;> omega

theorem bitPos_inj {lsb : Bool} {j k : Nat} (h : bitPos lsb j = bitPos lsb k) : j % 8 = k % 8 := by
  unfold bitPos at h; split at h <;> omega

theorem putBit_getLsbD (b : Byte) {p q : Nat} (hp : p < 8) (hq : q < 8) (v : Bool) :
    (putBit b p v).getLsbD q = if q = p then v else b.getLsbD q := by
  unfold putBit
  by_cases h : q = p
  · subst h; cases v <;> simp [hq]
  · cases v
    · simp [h, hq]
      omega
    · simp [h, hq]
      omega

/-- Two ranges of a transfer do not clash: identical, or apart (20_memory R81). -/
def NoClash (out inp : Option Nat) (l : Nat) : Prop :=
  ∀ a b, out = some a → inp = some b → a = b ∨ a + l ≤ b ∨ b + l ≤ a

theorem noClash_of_overlapping {out inp : Option Nat} {l : Nat} (h : overlapping out inp l = false) :
    NoClash out inp l := by
  rintro a b rfl rfl
  simp only [overlapping, ne_eq, Bool.and_eq_false_imp, decide_eq_true_eq, decide_eq_false_iff_not,
    Bool.and_eq_true, not_lt] at h
  by_cases e : a = b
  · exact .inl e
  · by_cases f : a < b + l
    · exact .inr (.inl (h ⟨e, f⟩))
    · exact .inr (.inr (by omega))

/-- Stream bits `0 .. k - 1` of `n` have been taken into the buffer at `b` and the assembly byte `acc`. -/
structure Filling (lsb : Bool) (b n : Nat) (i : Nat → Bool) (m0 : Memory) (k : Nat) (acc : Byte)
    (m : Memory) : Prop where
  wf : Memory.wf m = true
  stored : ∀ j p, j < byteLen n → (8 * j + 8 ≤ k ∨ k = n) → p < 8 →
    (readByte m (b + j)).getLsbD (bitPos lsb p) = (decide (8 * j + p < n) && i (8 * j + p))
  partly : k < n → ∀ p, p < 8 →
    acc.getLsbD (bitPos lsb p) = (decide (p < k % 8) && i (8 * (k / 8) + p))
  later : k < n → ∀ j, k / 8 ≤ j → readByte m (b + j) = readByte m0 (b + j)
  outside : ∀ a, (∀ j, j < byteLen n → a ≠ b + j) → readByte m a = readByte m0 a

/-- The same for a buffer that may be absent. -/
def FillingAt (inp : Option Nat) (lsb : Bool) (n : Nat) (i : Nat → Bool) (m0 : Memory) (k : Nat)
    (acc : Byte) (m : Memory) : Prop :=
  match inp with
  | some b => Filling lsb b n i m0 k acc m
  | none => m = m0

theorem FillingAt.start {inp : Option Nat} {lsb : Bool} {n : Nat} {i : Nat → Bool} {m : Memory}
    (hw : Memory.wf m = true) : FillingAt inp lsb n i m 0 0#8 m := by
  cases inp with
  | none => rfl
  | some b =>
    refine ⟨hw, fun j p hj hk => ?_, fun _ p _ => by simp, fun _ _ _ => rfl, fun _ _ => rfl⟩
    have : byteLen n ≠ 0 := by omega
    unfold byteLen at this hj
    omega

theorem FillingAt.finish {inp : Option Nat} {lsb : Bool} {n : Nat} {i : Nat → Bool} {m0 m : Memory}
    {acc : Byte} (h : FillingAt inp lsb n i m0 n acc m) : InputStoredAt inp lsb n i m0 m := by
  cases inp with
  | none => exact h
  | some b => exact ⟨fun j p hj hp => h.stored j p hj (.inr rfl) hp, h.outside⟩

/-- Taking the next bit. -/
theorem FillingAt.putInBit {inp : Option Nat} {lsb : Bool} {n : Nat} {i : Nat → Bool} {m0 : Memory}
    {k : Nat} {acc : Byte} {s : State} {last : Bool} (h : FillingAt inp lsb n i m0 k acc s.mem)
    (hk : k < n) (hl : last = (k + 1 == n)) :
    FillingAt inp lsb n i m0 (k + 1) (Machine.putInBit inp lsb last k (i k) acc s).1
      (Machine.putInBit inp lsb last k (i k) acc s).2.mem := by
  cases inp with
  | none =>
    have h' : s.mem = m0 := h
    unfold Machine.putInBit
    simp only
    split <;> exact h'
  | some b =>
    have h : Filling lsb b n i m0 k acc s.mem := h
    -- the bits of the assembly byte with bit `k` put in
    have hacc : ∀ p, p < 8 → (putBit acc (bitPos lsb k) (i k)).getLsbD (bitPos lsb p) =
        (decide (p < k % 8 + 1) && i (8 * (k / 8) + p)) := by
      intro p hp
      rw [putBit_getLsbD _ (bitPos_lt _ _) (bitPos_lt _ _)]
      split
      · rename_i e
        have := bitPos_inj e
        have e2 : 8 * (k / 8) + p = k := by omega
        rw [e2]
        have : p < k % 8 + 1 := by omega
        simp [this]
      · rename_i e
        rw [h.partly hk p hp]
        have : p ≠ k % 8 := fun e2 => e (by rw [e2, bitPos_mod])
        have : (p < k % 8) ↔ (p < k % 8 + 1) := by omega
        simp [this]
    have hkb : k / 8 < byteLen n := by unfold byteLen; omega
    unfold Machine.putInBit
    simp only [hl, beq_iff_eq]
    by_cases hs : k % 8 = 7 ∨ k + 1 = n
    · simp only [hs, if_true]
      show Filling lsb b n i m0 (k + 1) 0#8 (writeByte s.mem (b + k / 8) (putBit acc (bitPos lsb k) (i k)))
      refine ⟨writeByte_wf h.wf _ _, fun j p hj hjk hp => ?_, fun hk1 p hp => ?_, fun hk1 j hj => ?_,
        fun a ha => ?_⟩
      · by_cases hjk8 : j = k / 8
        · subst hjk8
          rw [readByte_writeByte_same h.wf, hacc p hp]
          rcases hs with hs | hs
          · have : 8 * (k / 8) + p < n ↔ p < k % 8 + 1 ∨ 8 * (k / 8) + p < n := by omega
            have h1 : p < k % 8 + 1 := by omega
            have h2 : 8 * (k / 8) + p < n := by omega
            simp [h1, h2]
          · have : (p < k % 8 + 1) ↔ (8 * (k / 8) + p < n) := by omega
            simp [this]
        · rw [readByte_writeByte_other h.wf (by omega)]
          refine h.stored j p hj (.inl ?_) hp
          unfold byteLen at hj
          omega
      · have h7 : k % 8 = 7 := by omega
        have : (k + 1) % 8 = 0 := by omega
        simp [this]
      · have h7 : k % 8 = 7 := by omega
        rw [readByte_writeByte_other h.wf (by omega)]
        exact h.later hk j (by omega)
      · rw [readByte_writeByte_other h.wf (ha _ hkb)]
        exact h.outside a ha
    · simp only [hs, if_false]
      have h7 : ¬ k % 8 = 7 := fun e => hs (.inl e)
      have hn : ¬ k + 1 = n := fun e => hs (.inr e)
      show Filling lsb b n i m0 (k + 1) (putBit acc (bitPos lsb k) (i k)) s.mem
      refine ⟨h.wf, fun j p hj hjk hp => h.stored j p hj (.inl (by omega)) hp, fun _ p hp => ?_,
        fun _ j hj => h.later hk j (by omega), h.outside⟩
      rw [hacc p hp]
      have e1 : (k + 1) % 8 = k % 8 + 1 := by omega
      have e2 : (k + 1) / 8 = k / 8 := by omega
      rw [e1, e2]

/-- The output stream still to come is as it was. -/
theorem FillingAt.outBit {out inp : Option Nat} {lsb : Bool} {n : Nat} {i : Nat → Bool} {m0 m : Memory}
    {k : Nat} {acc : Byte} (h : FillingAt inp lsb n i m0 k acc m) (hc : NoClash out inp (byteLen n))
    {j : Nat} (hkj : k ≤ j) (hj : j < n) (l : Bool) : Machine.outBit out l m j = Machine.outBit out l m0 j := by
  cases out with
  | none => rfl
  | some a =>
    cases inp with
    | none =>
      have h : m = m0 := h
      rw [h]
    | some b =>
      have h : Filling lsb b n i m0 k acc m := h
      have hjb : j / 8 < byteLen n := by unfold byteLen; omega
      have e : readByte m (a + j / 8) = readByte m0 (a + j / 8) := by
        rcases hc a b rfl rfl with e | e | e
        · subst e
          exact h.later (by omega) _ (by omega)
        · exact h.outside _ fun x hx => by omega
        · exact h.outside _ fun x hx => by omega
      simp only [Machine.outBit, e]

/-- A number gathered from bits, bit by bit: bit `w - 1 - j` is bit `k + j` of the stream. -/
theorem gatherBits_getLsbD (f : Nat → Bool) (w k : Nat) (acc : Word) {q : Nat} (hq : q < 32) :
    (gatherBits f w k acc).getLsbD q =
      if q < w then f (k + (w - 1 - q)) else acc.getLsbD (q - w) := by
  induction w generalizing k acc with
  | zero => simp [gatherBits]
  | succ w ih =>
    rw [gatherBits, ih]
    by_cases h1 : q < w
    · have : q < w + 1 := by omega
      have e : k + 1 + (w - 1 - q) = k + (w + 1 - 1 - q) := by omega
      simp [h1, this, e]
    · by_cases h2 : q = w
      · subst h2
        simp
      · have h3 : ¬ q < w + 1 := by omega
        have h4 : q - w ≠ 0 := by omega
        have e : q - w - 1 = q - (w + 1) := by omega
        have h5 : ¬ q - w < 1 := by omega
        have h6 : q - w < 32 := by omega
        have h7 : q - (w + 1) < 32 := by omega
        simp [h1, h3, h4, h5, h6, e, ← BitVec.getLsbD_eq_getElem h7]

end Sys2Proof.Machine
end

