-- ==== Sys2Proof/Laws/Bb.lean ====
section
/-! SUPPORT. The laws of BB's exchange: what one cell does, and what the bits of a transfer do to the trace,
the draws and the input buffer. -/

namespace Sys2Proof.Machine

@[simp] theorem pins_nil : pins [] = [] := rfl
theorem pins_append (a b : List PinEvent) : pins (a ++ b) = pins a ++ pins b := List.map_append

theorem gap_eq (S : Session) (s : State) : gap S s = { s with trace := s.trace ++ pins (gapEvents S) } := by
  unfold gap gapEvents
  split
  · simp
  · rfl

/-- One cell: the clock ends idle, MOSI carries the bit, one sample is drawn if there is one. -/
theorem cell_eq (S : Session) (sample o : Bool) (s : State) :
    cell S sample o s =
      (sample && s.env.miso.answer Config.freeMiso 0,
        { s with
          bb := { s.bb with sclk := S.cpol, mosi := o },
          env := { s.env with miso := s.env.miso.drop (if sample then 1 else 0) },
          trace := s.trace ++ pins (cellEvents S o
            (if sample then some (s.env.miso.answer Config.freeMiso 0) else none)) }) := by
  unfold cell cellEvents
  cases S.cpha <;> cases sample <;>
    simp [cell0, cell1, gap_eq, driveMosi, driveClk, emitPin, emit, cellSample, sampleMiso, pins, sampleEvents,
      next_eq_answer, rest_eq_drop]

theorem cellsEvents_congr {S : Session} {o o' : Nat → Bool} {i i' : Nat → Option Bool} {n k : Nat}
    (ho : ∀ j, k ≤ j → j < k + n → o j = o' j) (hi : ∀ j, k ≤ j → j < k + n → i j = i' j) :
    cellsEvents S o i n k = cellsEvents S o' i' n k := by
  induction n generalizing k with
  | zero => rfl
  | succ n ih =>
    simp only [cellsEvents]
    rw [ho k (Nat.le_refl _) (by omega), hi k (Nat.le_refl _) (by omega),
      ih (fun j h1 h2 => ho j (by omega) (by omega)) (fun j h1 h2 => hi j (by omega) (by omega))]

/-- The latch of SCLK after `n` bits. -/
def sclkAfter (S : Session) (n : Nat) (b : Bool) : Bool := if n = 0 then b else S.cpol

/-- The latch of MOSI after stream bits `0 .. n - 1`. -/
def mosiAfter (o : Nat → Bool) (n : Nat) (b : Bool) : Bool := if n = 0 then b else o (n - 1)

/-- The fast path: the bits go out, nothing is sampled and nothing stored (R159). -/
theorem bbBits_fast (S : Session) (d : Desc) (rem k : Nat) (acc : Byte) (s : State) :
    bbBits S d true rem k acc s =
      { s with
        bb := { s.bb with
          sclk := sclkAfter S rem s.bb.sclk,
          mosi := mosiAfter (fun j => outBit d.out d.flags.lsb s.mem (k + j)) rem s.bb.mosi },
        trace := s.trace ++ pins (cellsEvents S (outBit d.out d.flags.lsb s.mem) (fun _ => none) rem k) } := by
  induction rem generalizing k s with
  | zero => simp [bbBits, cellsEvents, sclkAfter, mosiAfter]
  | succ rem ih =>
    simp only [bbBits, cell_eq, ih, cellsEvents, pins_append, Bool.not_true, if_true, List.append_assoc,
      drop_zero, Bool.false_eq_true, if_false]
    congr 2
    · unfold sclkAfter; split <;> simp
    · unfold mosiAfter
      by_cases h : rem = 0
      · simp [h]
      · have e : k + 1 + (rem - 1) = k + rem := by omega
        simp [h, e]

/-- The duplex loop: the bits go out, one sample a bit is drawn, and the input buffer fills (R160). -/
theorem bbBits_slow {S : Session} {d : Desc} {n : Nat} {i : Nat → Bool} {m0 : Memory}
    (hc : NoClash d.out d.inp (byteLen n)) {rem k : Nat} {acc : Byte} {s : State} (hk : k + rem = n)
    (hf : FillingAt d.inp d.flags.lsb n i m0 k acc s.mem)
    (hi : ∀ j, j < rem → s.env.miso.answer Config.freeMiso j = i (k + j)) :
    ∃ m acc', FillingAt d.inp d.flags.lsb n i m0 n acc' m ∧
      bbBits S d false rem k acc s =
        { s with
          mem := m,
          bb := { s.bb with
            sclk := sclkAfter S rem s.bb.sclk,
            mosi := mosiAfter (fun j => outBit d.out d.flags.lsb m0 (k + j)) rem s.bb.mosi },
          env := { s.env with miso := s.env.miso.drop rem },
          trace := s.trace ++ pins
            (cellsEvents S (outBit d.out d.flags.lsb m0) (fun j => some (i j)) rem k) } := by
  induction rem generalizing k acc s with
  | zero =>
    obtain rfl : k = n := by omega
    exact ⟨s.mem, acc, hf, by simp [bbBits, cellsEvents, sclkAfter, mosiAfter]⟩
  | succ rem ih =>
    have hkn : k < n := by omega
    have hik : s.env.miso.answer Config.freeMiso 0 = i k := by simpa using hi 0 (by omega)
    have hout : outBit d.out d.flags.lsb s.mem k = outBit d.out d.flags.lsb m0 k :=
      hf.outBit hc (Nat.le_refl k) hkn _
    have hlast : (rem == 0) = (k + 1 == n) := by
      rw [Bool.eq_iff_iff]; simp; omega
    simp only [bbBits, cell_eq, Bool.not_false, if_true, Bool.true_and, hik, hout, if_false,
      Bool.false_eq_true]
    generalize hs1 : ({ s with
          bb := { s.bb with sclk := S.cpol, mosi := outBit d.out d.flags.lsb m0 k },
          env := { s.env with miso := s.env.miso.drop 1 },
          trace := s.trace ++ pins (cellEvents S (outBit d.out d.flags.lsb m0 k) (some (i k))) } : State) = s1
    have hf1 : FillingAt d.inp d.flags.lsb n i m0 k acc s1.mem := by rw [← hs1]; exact hf
    have hf' := hf1.putInBit (last := rem == 0) hkn hlast
    obtain ⟨m1, e1⟩ : ∃ m1, (putInBit d.inp d.flags.lsb (rem == 0) k (i k) acc s1).2 =
        { s1 with mem := m1 } := by
      rcases putInBit_eq d.inp d.flags.lsb (rem == 0) k (i k) acc s1 with e | ⟨a, v, e⟩
      · exact ⟨s1.mem, e⟩
      · exact ⟨writeByte s1.mem a v, e⟩
    have hi' : ∀ j, j < rem → (putInBit d.inp d.flags.lsb (rem == 0) k (i k) acc s1).2.env.miso.answer
        Config.freeMiso j = i (k + 1 + j) := by
      intro j hj
      rw [e1, ← hs1]
      show (s.env.miso.drop 1).answer Config.freeMiso j = _
      rw [answer_drop, Nat.add_comm 1 j, hi (j + 1) (by omega)]
      congr 1
      omega
    obtain ⟨m, acc', hm, he⟩ := ih (by omega) hf' hi'
    refine ⟨m, acc', hm, ?_⟩
    rw [he, e1, ← hs1]
    simp only [drop_drop, cellsEvents, pins_append, List.append_assoc, Nat.add_comm 1 rem]
    congr 2
    · unfold sclkAfter; split <;> simp
    · unfold mosiAfter
      by_cases h : rem = 0
      · simp [h]
      · have e : k + 1 + (rem - 1) = k + rem := by omega
        simp [h, e]

/-! ## The exchange as a whole -/

/-- What an exchange leaves: `fast` says whether it skipped the samples (R159, R160). -/
structure BbExchanged (S : Session) (d : Desc) (fast : Bool) (s t : State) : Prop where
  bb : t.bb = { s.bb with
    sclk := sclkAfter S d.n.toNat s.bb.sclk,
    mosi := mosiAfter (outBit d.out d.flags.lsb s.mem) d.n.toNat s.bb.mosi }
  trace : t.trace = s.trace ++ pins (cellsEvents S (outBit d.out d.flags.lsb s.mem)
    (fun j => if fast then none else some (s.env.miso.answer Config.freeMiso j)) d.n.toNat 0)
  mem : InputStoredAt d.inp d.flags.lsb d.n.toNat (s.env.miso.answer Config.freeMiso) s.mem t.mem
  wf : Memory.wf t.mem = true
  miso : t.env.miso = s.env.miso.drop (if fast then 0 else d.n.toNat)
  rest : t = { s with bb := t.bb, mem := t.mem, trace := t.trace,
                      env := { s.env with miso := t.env.miso, fast := t.env.fast } }

/-- What `chooseFast` answers: the fast path only for a transmit-only transfer, and always in phase 0; only
the unit's choice in phase 1 is drawn. -/
theorem chooseFast_spec (S : Session) (d : Desc) (s : State) :
    ((chooseFast S d s).1 = true → d.out.isSome = true ∧ d.inp = none) ∧
    (d.out.isSome = true → d.inp = none → S.cpha = false → (chooseFast S d s).1 = true) ∧
    (chooseFast S d s).2 = { s with env := { s.env with fast := (chooseFast S d s).2.env.fast } } := by
  unfold chooseFast
  cases h1 : d.out.isSome <;> cases h2 : d.inp <;> cases h3 : S.cpha <;> simp [*]

theorem bbExchange_spec {S : Session} {d : Desc} {s : State} (hw : Memory.wf s.mem = true)
    (hc : NoClash d.out d.inp (byteLen d.n.toNat)) :
    BbExchanged S d (chooseFast S d s).1 s (bbExchange S d s) := by
  obtain ⟨h1, -, h3⟩ := chooseFast_spec S d s
  unfold bbExchange
  generalize hcf : chooseFast S d s = p at h1 h3 ⊢
  obtain ⟨fast, s1⟩ := p
  simp only at h1 h3 ⊢
  cases fast with
  | true =>
    have hin := (h1 rfl).2
    rw [bbBits_fast, h3]
    exact ⟨by simp, by simp, by simp [InputStoredAt, hin], hw, by simp, rfl⟩
  | false =>
    obtain ⟨m, acc', hm, he⟩ := bbBits_slow (S := S) (d := d) (i := s.env.miso.answer Config.freeMiso)
      (s := s1) (k := 0) (acc := 0#8) hc (Nat.zero_add _)
      (by rw [h3]; exact FillingAt.start hw) (by rw [h3]; intro j _; simp)
    rw [he, h3]
    refine ⟨by simp, by simp, hm.finish, ?_, by simp, rfl⟩
    cases hd : d.inp with
    | none =>
      rw [hd] at hm
      have hm : m = s.mem := by rw [h3] at hm; exact hm
      simpa [hm] using hw
    | some b =>
      rw [hd] at hm
      have hm : Filling _ _ _ _ _ _ _ _ := hm
      exact hm.wf

end Sys2Proof.Machine
end

