-- ==== Sys2Proof/Laws/Decode.lean ====
section
/-! SUPPORT. The laws of the operand fields: what a field reads from the bytes its encoder writes, whatever
follows; and that headers and keys find their row. -/

namespace Sys2Proof

open Sys2Proof.Machine (bind_eq_ok ok_bind error_bind pure_eq_ok throw_eq_error)

/-! ## Bytes -/

theorem leBytes_length (k v : Nat) : (leBytes k v).length = k := by
  induction k generalizing v with
  | zero => rfl
  | succ k ih => simp [leBytes, ih]

/-- Taking the bytes of a number gives the number back, modulo what the bytes hold. -/
theorem takeLe_leBytes (k v : Nat) (bs : List Byte) :
    takeLe k (leBytes k v ++ bs) = .ok (v % 256 ^ k, bs) := by
  induction k generalizing v with
  | zero => simp [leBytes, takeLe, Nat.mod_one]
  | succ k ih =>
    have hb : (BitVec.ofNat 8 v).toNat = v % 256 := BitVec.toNat_ofNat v 8
    simp only [leBytes, List.cons_append, takeLe, ih]
    rw [hb, Nat.pow_succ', Nat.mod_mul]

theorem takeLe_leBytes_lt {k v : Nat} (h : v < 256 ^ k) (bs : List Byte) :
    takeLe k (leBytes k v ++ bs) = .ok (v, bs) := by
  rw [takeLe_leBytes, Nat.mod_eq_of_lt h]

/-- Whatever is taken fits its bytes. -/
theorem takeLe_lt {k : Nat} {bs rest : List Byte} {v : Nat} (h : takeLe k bs = .ok (v, rest)) :
    v < 256 ^ k := by
  induction k generalizing bs v with
  | zero => cases h; simp
  | succ k ih =>
    cases bs with
    | nil => cases h
    | cons b bs =>
      simp only [takeLe] at h
      cases hr : takeLe k bs with
      | error e => rw [hr] at h; cases h
      | ok p =>
        obtain ⟨w, r⟩ := p
        rw [hr] at h
        cases h
        have := ih hr
        have hb := b.isLt
        rw [Nat.pow_succ']
        omega

/-! ## Operand fields -/

@[simp] theorem takeWord_leBytes (w : Word) (bs : List Byte) :
    takeWord (leBytes 4 w.toNat ++ bs) = .ok (w, bs) := by
  have h : w.toNat < 256 ^ 4 := w.isLt
  simp [takeWord, takeLe_leBytes_lt h]

@[simp] theorem takeByte_leBytes (w : BitVec 8) (bs : List Byte) :
    takeByte (leBytes 1 w.toNat ++ bs) = .ok (w, bs) := by
  have h : w.toNat < 256 ^ 1 := w.isLt
  simp [takeByte, takeLe_leBytes_lt h]

theorem takeByte_leBytes_nat {v : Nat} (h : v < 256) (bs : List Byte) :
    takeByte (leBytes 1 v ++ bs) = .ok (BitVec.ofNat 8 v, bs) := by
  have h : v < 256 ^ 1 := h
  simp [takeByte, takeLe_leBytes_lt h]

theorem takeSid_leBytes {s : Nat} (h : sidOk s = true) (bs : List Byte) :
    takeSid (leBytes 4 s ++ bs) = .ok (s, bs) :=
  takeLe_leBytes_lt (k := 4) (by simpa [sidOk] using h) bs

theorem takeAddr_leBytes {a : Nat} (h : addrOk a = true) (bs : List Byte) :
    takeAddr (leBytes 8 a ++ bs) = .ok (a, bs) :=
  takeLe_leBytes_lt (k := 8) (by simpa [addrOk] using h) bs

@[simp] theorem takeBus_leBytes (bs : List Byte) : takeBus (leBytes 1 0 ++ bs) = .ok bs := by
  simp [takeBus, takeByte_leBytes_nat]

theorem takeHandle_leBytes {h : Nat} (hh : handleOk h = true) (bs : List Byte) :
    takeHandle (leBytes 1 h ++ bs) = .ok (h, bs) :=
  takeLe_leBytes_lt (k := 1) (by simpa [handleOk] using hh) bs

theorem takeBuf_bufBytes {o : Option Nat} (h : bufOk o = true) (bs : List Byte) :
    takeBuf (bufBytes o ++ bs) = .ok (o, bs) := by
  cases o with
  | none => simp [takeBuf, bufBytes, takeByte_leBytes_nat, takeAddr_leBytes (a := 0) rfl]
  | some a => simp [takeBuf, bufBytes, takeByte_leBytes_nat, takeAddr_leBytes h]

theorem flagsByte_lt (f : Flags) : flagsByte f < 8 := by
  obtain ⟨b, e, l⟩ := f
  cases b <;> cases e <;> cases l <;> decide

theorem modeByte_lt (m : Mode) : modeByte m < 8 := by
  obtain ⟨b, e, l⟩ := m
  cases b <;> cases e <;> cases l <;> decide

@[simp] theorem takeFlags_flagsByte (f : Flags) (bs : List Byte) :
    takeFlags (leBytes 1 (flagsByte f) ++ bs) = .ok (f, bs) := by
  have h := flagsByte_lt f
  simp only [takeFlags, takeByte_leBytes_nat (Nat.lt_trans h (by decide)), ok_bind]
  obtain ⟨b, e, l⟩ := f
  cases b <;> cases e <;> cases l <;> rfl

@[simp] theorem takeMode_modeByte (m : Mode) (bs : List Byte) :
    takeMode (leBytes 1 (modeByte m) ++ bs) = .ok (m, bs) := by
  have h := modeByte_lt m
  simp only [takeMode, takeByte_leBytes_nat (Nat.lt_trans h (by decide)), ok_bind]
  obtain ⟨b, e, l⟩ := m
  cases b <;> cases e <;> cases l <;> rfl

theorem takeDesc_descBytes {d : Desc} (ho : bufOk d.out = true) (hi : bufOk d.inp = true)
    (bs : List Byte) : takeDesc (descBytes d ++ bs) = .ok (d, bs) := by
  simp [takeDesc, descBytes, List.append_assoc, takeBuf_bufBytes ho, takeBuf_bufBytes hi]

/-! ## Headers and keys -/

/-- A header names the row it was made from. -/
@[simp] theorem opOfHeader_headerOf (k : OpKind) : opOfHeader (headerOf k) = some k := by
  cases k with
  | contract u o => cases u <;> cases o <;> decide
  | loader o => cases o <;> decide

theorem headerOf_lt (k : OpKind) : headerOf k < 256 ^ 2 := by
  cases k with
  | contract u o => cases u <;> cases o <;> decide
  | loader o => cases o <;> decide

/-- An operation's word is its header's operands. -/
theorem decodeOp_header (k : OpKind) (bs : List Byte) :
    decodeOp (leBytes 2 (headerOf k) ++ bs) =
      match k with
      | .contract u o => decodeContract u o bs
      | .loader o => decodeLoader o bs := by
  cases k <;> simp [decodeOp, takeLe_leBytes_lt (headerOf_lt _)]

/-! ## Rows -/

/-- A mask that leaves the low `w` bits of a key open. -/
theorem and_open_mask {k w : Nat} (hk : k < 0x2000) (hw : w ≤ 13) :
    k &&& (0x2000 - 2 ^ w) = k / 2 ^ w * 2 ^ w := by
  have e : 0x2000 - 2 ^ w = (2 ^ (13 - w) - 1) * 2 ^ w := by
    rw [Nat.sub_mul, ← Nat.pow_add, Nat.sub_add_cancel hw, Nat.one_mul]
  apply Nat.eq_of_testBit_eq
  intro i
  rw [e, Nat.testBit_and, Nat.testBit_mul_two_pow, Nat.testBit_mul_two_pow, Nat.testBit_two_pow_sub_one,
    Nat.testBit_div_two_pow]
  by_cases h1 : w ≤ i
  · by_cases h2 : i < 13
    · simp [h1, show i - w < 13 - w by omega]
    · have : k.testBit i = false :=
        Nat.testBit_lt_two_pow (Nat.lt_of_lt_of_le hk (Nat.pow_le_pow_right (n := 2) (by decide) (Nat.le_of_not_lt h2)))
      simp [h1, this]
  · simp [h1]

theorem keyOf_lt (d : Bool) {off : Nat} (h : off < 0x1000) : keyOf d off < 0x2000 := by
  unfold keyOf; cases d <;> simp <;> omega

/-- Two keys are the same access. -/
theorem keyOf_inj {d d' : Bool} {off off' : Nat} (h : off < 0x1000) (h' : off' < 0x1000) :
    keyOf d off = keyOf d' off' ↔ d = d' ∧ off = off' := by
  unfold keyOf; cases d <;> cases d' <;> simp <;> omega

/-- What the row of one register matches (30_encoding R98). -/
theorem exact_match {d d' : Bool} {off off' : Nat} (h : off < 0x1000) (h' : off' < 0x1000) :
    keyOf d off &&& 0x1FFF = keyOf d' off' ↔ d = d' ∧ off = off' := by
  have e := and_open_mask (w := 0) (keyOf_lt d h) (by decide)
  simp only [Nat.pow_zero, Nat.div_one, Nat.mul_one] at e
  rw [show (0x1FFF : Nat) = 0x2000 - 1 from rfl, e, keyOf_inj h h']

/-- What the row of a window matches (R99). -/
theorem window_match {d d' : Bool} {off base w : Nat} (hw : w ≤ 12) (h : off < 0x1000) (h' : base < 0x1000)
    (hb : base % 2 ^ w = 0) :
    keyOf d off &&& (0x2000 - 2 ^ w) = keyOf d' base ↔ d = d' ∧ off / 2 ^ w = base / 2 ^ w := by
  have hp : 0 < 2 ^ w := Nat.two_pow_pos w
  have hs : 0x1000 = 2 ^ (12 - w) * 2 ^ w := by rw [← Nat.pow_add, Nat.sub_add_cancel hw]
  have e : keyOf d off / 2 ^ w * 2 ^ w = keyOf d (off / 2 ^ w * 2 ^ w) := by
    unfold keyOf
    rw [hs, ← Nat.mul_assoc, Nat.add_comm, Nat.add_mul_div_right _ _ hp, Nat.add_mul, Nat.add_comm]
  have hl : off / 2 ^ w * 2 ^ w < 0x1000 := Nat.lt_of_le_of_lt (Nat.div_mul_le_self _ _) h
  have hbe : base = base / 2 ^ w * 2 ^ w := by
    have := Nat.div_add_mod base (2 ^ w)
    rw [hb, Nat.add_zero, Nat.mul_comm] at this
    exact this.symm
  rw [and_open_mask (keyOf_lt d h) (by omega), e, keyOf_inj hl h']
  refine and_congr_right fun _ => ⟨fun hh => ?_, fun hh => ?_⟩
  · rw [hbe] at hh; exact Nat.eq_of_mul_eq_mul_right hp hh
  · rw [hh]; exact hbe.symm

/-- A key finds the one row it matches. -/
theorem rowOfKey_eq {α : Type} {rows : List (KeyRow α)} {key : Nat} {r : KeyRow α} (hr : r ∈ rows)
    (hm : key &&& r.mask = r.pattern) (hu : ∀ x, x ∈ rows → key &&& x.mask = x.pattern → x = r) :
    rowOfKey rows key = some r := by
  unfold rowOfKey
  cases hf : rows.find? (fun r => key &&& r.mask == r.pattern) with
  | none => exact absurd (List.find?_eq_none.1 hf r hr) (by simp [hm])
  | some x =>
    have h1 := List.find?_some hf
    rw [hu x (List.mem_of_find?_eq_some hf) (by simpa using h1)]

theorem rowOfKey_append {α : Type} {a b : List (KeyRow α)} {key : Nat}
    (h : ∀ x, x ∈ a → key &&& x.mask ≠ x.pattern) : rowOfKey (a ++ b) key = rowOfKey b key := by
  unfold rowOfKey
  rw [List.find?_append, List.find?_eq_none.2 fun x hx => by simpa using h x hx, Option.none_or]

/-! ## The rows of RC -/

theorem mem_rcRegs {n : Nat} {g : RcReg} :
    g ∈ rcRegs n ↔ ∃ c, c < n ∧ (g = .conf c ∨ g = .stat c ∨ g = .ctrl c ∨ g = .tx c ∨ g = .rx c) := by
  simp [rcRegs, rcChannelRegs]

theorem mem_rcRowsChannels {L : Config.Layout} {x : KeyRow RcReg} :
    x ∈ rcRowsChannels L ↔ ∃ g, g ∈ rcRegs L.nchan ∧ ∃ d, x = exactRow d (rcOff L.rc g) g := by
  simp [rcRowsChannels, Bool.exists_bool]

/-- What a legal layout says of the channel registers. -/
structure RcPlaces (L : Config.Layout) : Prop where
  shared : L.rc.shared % 0x20 = 0 ∧ L.rc.shared + 44 ≤ 0x1000
  outside : ∀ g, g ∈ rcRegs L.nchan → rcOff L.rc g < L.rc.shared ∨ L.rc.shared + 44 ≤ rcOff L.rc g
  within : ∀ g, g ∈ rcRegs L.nchan → rcOff L.rc g < 0x1000
  aligned : ∀ g, g ∈ rcRegs L.nchan → rcOff L.rc g % 4 = 0
  apart : ∀ g g', g ∈ rcRegs L.nchan → g' ∈ rcRegs L.nchan → rcOff L.rc g = rcOff L.rc g' → g = g'

theorem legal_rc {L : Config.Layout} (h : legalLayout L = true) : RcPlaces L := by
  simp only [legalLayout, Bool.and_eq_true, List.all_eq_true, decide_eq_true_eq] at h
  obtain ⟨⟨⟨⟨⟨h0, h1⟩, h2⟩, -⟩, -⟩, -⟩ := h
  have hg : ∀ g, g ∈ rcRegs L.nchan →
      ((rcOff L.rc g < L.rc.shared ∨ L.rc.shared + 44 ≤ rcOff L.rc g) ∧ rcOff L.rc g < 0x1000) ∧
        rcOff L.rc g % 4 = 0 := by
    intro g hg
    have := h1 _ (List.mem_map_of_mem hg)
    simp only [Bool.or_eq_true, decide_eq_true_eq, beq_iff_eq] at this
    exact this
  exact ⟨by simpa [Config.nshared] using h0, fun g hm => (hg g hm).1.1, fun g hm => (hg g hm).1.2, fun g hm => (hg g hm).2,
    fun g g' hm hm' he => List.inj_on_of_nodup_map h2 hm hm' he⟩

/-- The key of a channel register finds that register. -/
theorem rcOfKey_channel {L : Config.Layout} (hL : legalLayout L = true) {g : RcReg} (hg : g ∈ rcRegs L.nchan)
    (d : Bool) : rcOfKey L (keyOf d (rcOff L.rc g)) = some (d, g) := by
  have P := legal_rc hL
  have hr : rowOfKey (rcRowsChannels L) (keyOf d (rcOff L.rc g)) = some (exactRow d (rcOff L.rc g) g) := by
    refine rowOfKey_eq (mem_rcRowsChannels.2 ⟨g, hg, d, rfl⟩)
      ((exact_match (P.within g hg) (P.within g hg)).2 ⟨rfl, rfl⟩) fun x hx hm => ?_
    obtain ⟨g', hg', d', rfl⟩ := mem_rcRowsChannels.1 hx
    obtain ⟨rfl, ho⟩ := (exact_match (P.within g hg) (P.within g' hg')).1 hm
    rw [P.apart g g' hg hg' ho]
  have hrow : rowOfKey (rcRows L) (keyOf d (rcOff L.rc g)) = some (exactRow d (rcOff L.rc g) g) := by
    unfold rowOfKey rcRows at *
    rw [List.find?_append, hr, Option.some_or]
  have ha : keyOf d (rcOff L.rc g) % 4 = 0 := by
    have := P.aligned g hg
    unfold keyOf; cases d <;> simp <;> omega
  obtain ⟨c, hc, hcases⟩ := mem_rcRegs.1 hg
  simp only [rcOfKey, hrow, ha, if_true]
  rcases hcases with rfl | rfl | rfl | rfl | rfl <;> rfl

theorem mem_rcRowsShared {M : Config.RcMap} {x : KeyRow RcReg} :
    x ∈ rcRowsShared M ↔ ∃ w f, (w, f) ∈ sharedBlocks ∧ ∃ d, x = blockRow w d (M.shared + 4 * f) (.shared f) := by
  simp [rcRowsShared, sharedBlocks, rcOff]
  constructor
  · rintro (rfl | rfl | rfl | rfl | rfl | rfl)
    all_goals simp
  · rintro ⟨w, f, ⟨rfl, rfl⟩ | ⟨rfl, rfl⟩ | ⟨rfl, rfl⟩, rfl | rfl⟩ <;> simp

/-- Word `j` of the shared block lies in one block, and in no other. -/
theorem shared_block {b j : Nat} (hb : b % 0x20 = 0) (hj : j < 11) :
    ∃ w f, (w, f) ∈ sharedBlocks ∧ (b + 4 * j) / 2 ^ w = (b + 4 * f) / 2 ^ w ∧
      ∀ w' f', (w', f') ∈ sharedBlocks → (b + 4 * j) / 2 ^ w' = (b + 4 * f') / 2 ^ w' → w' = w ∧ f' = f := by
  have hc : j < 8 ∨ (8 ≤ j ∧ j < 10) ∨ j = 10 := by omega
  simp only [sharedBlocks, List.mem_cons, List.not_mem_nil, or_false, Prod.mk.injEq]
  rcases hc with h | h | h
  · refine ⟨5, 0, by simp, by omega, ?_⟩
    rintro w' f' (⟨rfl, rfl⟩ | ⟨rfl, rfl⟩ | ⟨rfl, rfl⟩) he <;> simp at he ⊢ <;> omega
  · refine ⟨3, 8, by simp, by omega, ?_⟩
    rintro w' f' (⟨rfl, rfl⟩ | ⟨rfl, rfl⟩ | ⟨rfl, rfl⟩) he <;> simp at he ⊢ <;> omega
  · refine ⟨2, 10, by simp, by omega, ?_⟩
    rintro w' f' (⟨rfl, rfl⟩ | ⟨rfl, rfl⟩ | ⟨rfl, rfl⟩) he <;> simp at he ⊢ <;> omega

/-- A block of the shared block starts where its mask reaches it. -/
theorem sharedBlocks_place {b w f : Nat} (hb : b % 0x20 = 0) (hl : b + 44 ≤ 0x1000) (h : (w, f) ∈ sharedBlocks) :
    w ≤ 12 ∧ b + 4 * f < 0x1000 ∧ (b + 4 * f) % 2 ^ w = 0 := by
  simp only [sharedBlocks, List.mem_cons, List.not_mem_nil, or_false, Prod.mk.injEq] at h
  rcases h with ⟨rfl, rfl⟩ | ⟨rfl, rfl⟩ | ⟨rfl, rfl⟩ <;> simp <;> omega

theorem rcOfKey_shared {L : Config.Layout} (hL : legalLayout L = true) {j : Nat} (h : sharedOk j = true)
    (d : Bool) : rcOfKey L (keyOf d (rcOff L.rc (.shared j))) = some (d, .shared j) := by
  have P := legal_rc hL
  have h : j < 11 := of_decide_eq_true h
  obtain ⟨hb, hl⟩ := P.shared
  have ho : L.rc.shared + 4 * j < 0x1000 := by omega
  obtain ⟨w, f, hm, he, hu⟩ := shared_block hb h
  obtain ⟨p1, p2, p3⟩ := sharedBlocks_place hb hl hm
  have hrow : rowOfKey (rcRows L) (keyOf d (L.rc.shared + 4 * j)) =
      some (blockRow w d (L.rc.shared + 4 * f) (.shared f)) := by
    refine (rowOfKey_append fun x hx hm => ?_).trans
      (rowOfKey_eq (mem_rcRowsShared.2 ⟨w, f, hm, d, rfl⟩) ((window_match p1 ho p2 p3).2 ⟨rfl, he⟩) fun x hx hx' => ?_)
    · obtain ⟨g', hg', d', rfl⟩ := mem_rcRowsChannels.1 hx
      have := ((exact_match ho (P.within g' hg')).1 hm).2
      have := P.outside g' hg'
      omega
    · obtain ⟨w', f', hm', d', rfl⟩ := mem_rcRowsShared.1 hx
      obtain ⟨q1, q2, q3⟩ := sharedBlocks_place hb hl hm'
      obtain ⟨rfl, he'⟩ := (window_match q1 ho q2 q3).1 hx'
      obtain ⟨rfl, rfl⟩ := hu w' f' hm' he'
      rfl
  have hk : keyOf d (L.rc.shared + 4 * j) % 4 = 0 ∧
      (keyOf d (L.rc.shared + 4 * j) % 0x1000 - L.rc.shared) / 4 = j := by
    unfold keyOf; cases d <;> simp <;> omega
  simp [rcOfKey, rcOff, hrow, hk.1, hk.2]

/-! ## The rows of MF -/

/-- What a legal layout says of the MF window. -/
structure MfPlaces (M : Config.MfMap) : Prop where
  bits : 1 ≤ M.winBits ∧ M.winBits ≤ 12
  tx : M.txfifo % 2 ^ M.winBits = 0 ∧ M.txfifo < 0x1000
  rx : M.rxfifo % 2 ^ M.winBits = 0 ∧ M.rxfifo < 0x1000
  rd : M.rdbyte < 0x1000 ∧ M.rdbyte / 2 ^ M.winBits ≠ M.rxfifo / 2 ^ M.winBits
  within : ∀ g, g ∈ mfCommands → mfOff M g < 0x1000
  outside : ∀ g, g ∈ mfCommands → mfOff M g / 2 ^ M.winBits ≠ M.txfifo / 2 ^ M.winBits
  apart : ∀ g g', g ∈ mfCommands → g' ∈ mfCommands → mfOff M g = mfOff M g' → g = g'

theorem legal_mf {L : Config.Layout} (h : legalLayout L = true) : MfPlaces L.mf := by
  simp only [legalLayout, Bool.and_eq_true, List.all_eq_true, decide_eq_true_eq, bne_iff_ne, ne_eq,
    beq_iff_eq] at h
  obtain ⟨⟨⟨-, h1⟩, h2⟩, ⟨⟨⟨⟨⟨⟨⟨b1, b2⟩, t1⟩, t2⟩, r1⟩, r2⟩, d1⟩, d2⟩⟩ := h
  exact ⟨⟨b1, b2⟩, ⟨t1, t2⟩, ⟨r1, r2⟩, ⟨d1, d2⟩, fun g hm => (h1 _ (List.mem_map_of_mem hm)).1,
    fun g hm => (h1 _ (List.mem_map_of_mem hm)).2, fun g g' hm hm' he => List.inj_on_of_nodup_map h2 hm hm' he⟩

theorem mem_mfRows {M : Config.MfMap} {x : KeyRow MfReg} :
    x ∈ mfRows M ↔ x = windowRow M true M.txfifo (.txfifo 0) ∨
      (∃ g, g ∈ mfCommands ∧ x = exactRow true (mfOff M g) g) ∨
      x = exactRow false M.rdbyte .rdbyte ∨ x = windowRow M false M.rxfifo (.rxfifo 0) := by
  simp [mfRows, mfOff, eq_comm]

/-- The key of a written command register finds that register. -/
theorem mfOfKey_command {L : Config.Layout} (hL : legalLayout L = true) {g : MfReg} (hg : g ∈ mfCommands) :
    mfOfKey L.mf (keyOf true (mfOff L.mf g)) = some (true, g) := by
  have P := legal_mf hL
  have hrow : rowOfKey (mfRows L.mf) (keyOf true (mfOff L.mf g)) = some (exactRow true (mfOff L.mf g) g) := by
    refine rowOfKey_eq (mem_mfRows.2 (.inr (.inl ⟨g, hg, rfl⟩)))
      ((exact_match (P.within g hg) (P.within g hg)).2 ⟨rfl, rfl⟩) fun x hx hm => ?_
    rcases mem_mfRows.1 hx with rfl | ⟨g', hg', rfl⟩ | rfl | rfl
    · exact absurd ((window_match P.bits.2 (P.within g hg) P.tx.2 P.tx.1).1 hm).2 (P.outside g hg)
    · rw [P.apart g g' hg hg' ((exact_match (P.within g hg) (P.within g' hg')).1 hm).2]
    · exact absurd ((exact_match (P.within g hg) P.rd.1).1 hm).1 (by decide)
    · exact absurd ((window_match P.bits.2 (P.within g hg) P.rx.2 P.rx.1).1 hm).1 (by decide)
  simp only [mfOfKey, hrow]
  simp only [mfCommands, List.mem_cons, List.not_mem_nil, or_false] at hg
  rcases hg with rfl | rfl | rfl | rfl | rfl | rfl | rfl <;> rfl

/-- The key of the read command register finds it. -/
theorem mfOfKey_rdbyte {L : Config.Layout} (hL : legalLayout L = true) :
    mfOfKey L.mf (keyOf false (mfOff L.mf .rdbyte)) = some (false, .rdbyte) := by
  have P := legal_mf hL
  have hrow : rowOfKey (mfRows L.mf) (keyOf false L.mf.rdbyte) = some (exactRow false L.mf.rdbyte .rdbyte) := by
    refine rowOfKey_eq (mem_mfRows.2 (.inr (.inr (.inl rfl))))
      ((exact_match P.rd.1 P.rd.1).2 ⟨rfl, rfl⟩) fun x hx hm => ?_
    rcases mem_mfRows.1 hx with rfl | ⟨g', hg', rfl⟩ | rfl | rfl
    · exact absurd ((window_match P.bits.2 P.rd.1 P.tx.2 P.tx.1).1 hm).1 (by decide)
    · exact absurd ((exact_match P.rd.1 (P.within g' hg')).1 hm).1 (by decide)
    · rfl
    · exact absurd ((window_match P.bits.2 P.rd.1 P.rx.2 P.rx.1).1 hm).2 P.rd.2
  simp [mfOfKey, mfOff, hrow, exactRow]

theorem fifoOffOk_iff {L : Config.Layout} {o : Nat} :
    fifoOffOk L o = true ↔ o % 2 = 0 ∧ o < 2 ^ L.mf.winBits := by
  simp [fifoOffOk]

/-- An offset inside an aligned window, as a key. -/
theorem window_key {w base o : Nat} (hw : 1 ≤ w ∧ w ≤ 12) (hb : base % 2 ^ w = 0) (hl : base < 0x1000)
    (ho : o < 2 ^ w) (he : o % 2 = 0) (d : Bool) :
    base + o < 0x1000 ∧ (base + o) / 2 ^ w = base / 2 ^ w ∧ keyOf d (base + o) % 2 ^ w = o ∧
      keyOf d (base + o) % 2 = 0 := by
  have hp : 0 < 2 ^ w := Nat.two_pow_pos w
  have hs : 0x1000 = 2 ^ (12 - w) * 2 ^ w := by rw [← Nat.pow_add, Nat.sub_add_cancel hw.2]
  have h2 : 2 ^ w = 2 ^ (w - 1) * 2 := by rw [← Nat.pow_succ, Nat.succ_eq_add_one, Nat.sub_add_cancel hw.1]
  obtain ⟨q, rfl⟩ : ∃ q, base = q * 2 ^ w := ⟨base / 2 ^ w, by
    have := Nat.div_add_mod base (2 ^ w)
    rw [hb, Nat.add_zero, Nat.mul_comm] at this
    exact this.symm⟩
  have hq : q < 2 ^ (12 - w) := by rw [hs] at hl; exact Nat.lt_of_mul_lt_mul_right hl
  have e1 : (q * 2 ^ w + o) / 2 ^ w = q := by
    rw [Nat.add_comm, Nat.add_mul_div_right _ _ hp, Nat.div_eq_of_lt ho, Nat.zero_add]
  refine ⟨?_, by rw [e1, Nat.mul_div_cancel _ hp], ?_, ?_⟩
  · calc q * 2 ^ w + o < q * 2 ^ w + 2 ^ w := by omega
      _ = (q + 1) * 2 ^ w := by rw [Nat.add_mul, Nat.one_mul]
      _ ≤ 2 ^ (12 - w) * 2 ^ w := Nat.mul_le_mul_right _ hq
      _ = 0x1000 := hs.symm
  · unfold keyOf
    rw [hs, ← Nat.mul_assoc, ← Nat.add_assoc, ← Nat.add_mul, Nat.add_comm, Nat.add_mul_mod_self_right,
      Nat.mod_eq_of_lt ho]
  · unfold keyOf
    rw [h2, ← Nat.mul_assoc]
    cases d <;> simp <;> omega

/-- The key of a FIFO window offset finds that offset, in the window's direction. -/
theorem mfOfKey_window {L : Config.Layout} (hL : legalLayout L = true) {o : Nat} (h : fifoOffOk L o = true) :
    mfOfKey L.mf (keyOf true (mfOff L.mf (.txfifo o))) = some (true, .txfifo o) ∧
    mfOfKey L.mf (keyOf false (mfOff L.mf (.rxfifo o))) = some (false, .rxfifo o) := by
  have P := legal_mf hL
  obtain ⟨he, ho⟩ := fifoOffOk_iff.1 h
  constructor
  · obtain ⟨h1, h2, h3, h4⟩ := window_key P.bits P.tx.1 P.tx.2 ho he true
    have hrow : rowOfKey (mfRows L.mf) (keyOf true (L.mf.txfifo + o)) =
        some (windowRow L.mf true L.mf.txfifo (.txfifo 0)) := by
      refine rowOfKey_eq (mem_mfRows.2 (.inl rfl)) ((window_match P.bits.2 h1 P.tx.2 P.tx.1).2 ⟨rfl, h2⟩)
        fun x hx hm => ?_
      rcases mem_mfRows.1 hx with rfl | ⟨g', hg', rfl⟩ | rfl | rfl
      · rfl
      · have := ((exact_match h1 (P.within g' hg')).1 hm).2
        exact absurd (this ▸ h2) (P.outside g' hg')
      · exact absurd ((exact_match h1 P.rd.1).1 hm).1 (by decide)
      · exact absurd ((window_match P.bits.2 h1 P.rx.2 P.rx.1).1 hm).1 (by decide)
    simp [mfOfKey, mfOff, hrow, windowRow, h3, h4]
  · obtain ⟨h1, h2, h3, h4⟩ := window_key P.bits P.rx.1 P.rx.2 ho he false
    have hrow : rowOfKey (mfRows L.mf) (keyOf false (L.mf.rxfifo + o)) =
        some (windowRow L.mf false L.mf.rxfifo (.rxfifo 0)) := by
      refine rowOfKey_eq (mem_mfRows.2 (.inr (.inr (.inr rfl))))
        ((window_match P.bits.2 h1 P.rx.2 P.rx.1).2 ⟨rfl, h2⟩) fun x hx hm => ?_
      rcases mem_mfRows.1 hx with rfl | ⟨g', hg', rfl⟩ | rfl | rfl
      · exact absurd ((window_match P.bits.2 h1 P.tx.2 P.tx.1).1 hm).1 (by decide)
      · exact absurd ((exact_match h1 (P.within g' hg')).1 hm).1 (by decide)
      · have := ((exact_match h1 P.rd.1).1 hm).2
        exact absurd (this ▸ h2) P.rd.2
      · rfl
    simp [mfOfKey, mfOff, hrow, windowRow, h3, h4]

/-- The word of a contract operation is its operands. -/
theorem decode_opIssue (L : Config.Layout) (u : BusUnit) (o : ContractOp) (bs : List Byte) :
    decode L .op (opIssue u o bs).bytes = decodeContract u o bs := by
  simp only [decode, opIssue, decodeOp_header]

/-- The word of a loader operation is its operands. -/
theorem decode_loaderIssue (L : Config.Layout) (o : LoaderOp) (h : Nat) (bs : List Byte) :
    decode L .op (loaderIssue o h bs).bytes = decodeLoader o (leBytes 1 h ++ bs) := by
  simp only [decode, loaderIssue, List.append_assoc, decodeOp_header]

theorem takeKey_keyOf {w : Bool} {off : Nat} (h : off < 0x1000) (bs : List Byte) :
    takeKey (leBytes 2 (keyOf w off) ++ bs) = .ok (keyOf w off, bs) := by
  have hk : keyOf w off < 0x2000 := keyOf_lt w h
  have : keyOf w off < 256 ^ 2 := Nat.lt_trans hk (by decide)
  simp [takeKey, takeLe_leBytes_lt this, hk]

/-- A read of the RC window. -/
theorem decode_rcReadIssue {L : Config.Layout} {g : RcReg} (ho : rcOff L.rc g < 0x1000)
    (h : rcOfKey L (keyOf false (rcOff L.rc g)) = some (false, g)) :
    decodeIssue L (rcReadIssue L.rc g) = .ok (rcReadInstr g) := by
  have ht := takeKey_keyOf (w := false) ho []
  rw [List.append_nil] at ht
  simp [decodeIssue, rcReadIssue, decode, decodeRc, ht, h]

/-- A write of the RC window. -/
theorem decode_rcWriteIssue {L : Config.Layout} {g : RcReg} (ho : rcOff L.rc g < 0x1000)
    (h : rcOfKey L (keyOf true (rcOff L.rc g)) = some (true, g)) (v : Word) :
    decodeIssue L (rcWriteIssue L.rc g v) = .ok (rcWriteInstr v g) := by
  have hv := takeWord_leBytes v []
  rw [List.append_nil] at hv
  simp [decodeIssue, rcWriteIssue, decode, decodeRc, takeKey_keyOf ho, h, hv]

/-- A read of the MF window. -/
theorem decode_mfReadIssue {L : Config.Layout} {g : MfReg} (ho : mfOff L.mf g < 0x1000)
    (h : mfOfKey L.mf (keyOf false (mfOff L.mf g)) = some (false, g)) {i : Instr} (hi : mfReadInstr g = some i) :
    decodeIssue L (mfReadIssue L.mf g) = .ok i := by
  have ht := takeKey_keyOf (w := false) ho []
  rw [List.append_nil] at ht
  simp [decodeIssue, mfReadIssue, decode, decodeMf, ht, h, hi, orUnmapped]

/-- A write of the MF window. -/
theorem decode_mfWriteIssue {L : Config.Layout} {g : MfReg} (ho : mfOff L.mf g < 0x1000)
    (h : mfOfKey L.mf (keyOf true (mfOff L.mf g)) = some (true, g)) {v : Nat} (hv : v < 256 ^ (mfWidth g / 8))
    {i : Instr} (hi : mfWriteInstr (BitVec.ofNat 32 v) g = some i) :
    decodeIssue L (mfWriteIssue L.mf g v) = .ok i := by
  have ht := takeLe_leBytes_lt hv []
  rw [List.append_nil] at ht
  simp [decodeIssue, mfWriteIssue, decode, decodeMf, takeKey_keyOf ho, h, ht, hi, orUnmapped]

end Sys2Proof
end

