-- ==== Sys2Proof/Laws/DecodeInv.lean ====
section
/-! SUPPORT. What a field the decoder has read says of the bytes it read: they are that field laid out (spec
30_encoding, Part A). -/

namespace Sys2Proof

open Machine

theorem takeLe_ok {k : Nat} : ∀ {bs rest : List Byte} {v : Nat}, takeLe k bs = .ok (v, rest) →
    v < 256 ^ k ∧ bs = leBytes k v ++ rest := by
  induction k with
  | zero => intro bs rest v h; simp [takeLe] at h; obtain ⟨rfl, rfl⟩ := h; simp [leBytes]
  | succ k ih =>
    intro bs rest v h
    cases bs with
    | nil => simp [takeLe] at h
    | cons b bs =>
      simp only [takeLe] at h
      cases hq : takeLe k bs with
      | error e => simp [hq] at h
      | ok p =>
        obtain ⟨x, r⟩ := p
        simp [hq] at h
        obtain ⟨rfl, rfl⟩ := h
        obtain ⟨h1, h2⟩ := ih hq
        subst h2
        have := b.isLt
        refine ⟨by rw [Nat.pow_succ]; omega, ?_⟩
        simp only [leBytes, List.cons_append, List.cons.injEq]
        refine ⟨by apply BitVec.eq_of_toNat_eq; simp; omega, by congr 2; omega⟩

theorem takeWord_ok {bs rest : List Byte} {w : Word} (h : takeWord bs = .ok (w, rest)) :
    bs = leBytes 4 w.toNat ++ rest := by
  simp only [takeWord, bind_eq_ok, pure_eq_ok] at h
  obtain ⟨⟨v, r⟩, h1, h2⟩ := h
  obtain ⟨h3, h4⟩ := takeLe_ok h1
  simp at h2
  obtain ⟨rfl, rfl⟩ := h2
  rw [h4]; simp; congr 1; omega

theorem takeByte_ok {bs rest : List Byte} {w : Byte} (h : takeByte bs = .ok (w, rest)) :
    bs = leBytes 1 w.toNat ++ rest := by
  simp only [takeByte, bind_eq_ok, pure_eq_ok] at h
  obtain ⟨⟨v, r⟩, h1, h2⟩ := h
  obtain ⟨h3, h4⟩ := takeLe_ok h1
  simp at h2
  obtain ⟨rfl, rfl⟩ := h2
  rw [h4]; simp; congr 1; omega

theorem takeSid_ok {bs rest : List Byte} {s : Nat} (h : takeSid bs = .ok (s, rest)) :
    sidOk s = true ∧ bs = leBytes 4 s ++ rest := by
  obtain ⟨h3, h4⟩ := takeLe_ok h
  exact ⟨by simp [sidOk]; omega, h4⟩

theorem takeAddr_ok {bs rest : List Byte} {s : Nat} (h : takeAddr bs = .ok (s, rest)) :
    addrOk s = true ∧ bs = leBytes 8 s ++ rest := by
  obtain ⟨h3, h4⟩ := takeLe_ok h
  exact ⟨by simp [addrOk]; omega, h4⟩

theorem takeBus_ok {bs rest : List Byte} (h : takeBus bs = .ok rest) : bs = leBytes 1 0 ++ rest := by
  simp only [takeBus, bind_eq_ok, pure_eq_ok] at h
  obtain ⟨⟨v, r⟩, h1, h2⟩ := h
  split at h2
  · rename_i hv; simp at hv h2; subst hv h2; exact takeByte_ok h1
  · simp at h2

theorem takeHandle_ok {bs rest : List Byte} {h : Nat} (hx : takeHandle bs = .ok (h, rest)) :
    handleOk h = true ∧ bs = leBytes 1 h ++ rest := by
  obtain ⟨h3, h4⟩ := takeLe_ok hx
  exact ⟨by simp [handleOk]; omega, h4⟩

theorem takeBuf_ok {bs rest : List Byte} {o : Option Nat} (h : takeBuf bs = .ok (o, rest)) :
    bufOk o = true ∧ bs = bufBytes o ++ rest := by
  simp only [takeBuf, bind_eq_ok, pure_eq_ok] at h
  obtain ⟨⟨p, r⟩, h1, ⟨a, r2⟩, h2, h3⟩ := h
  obtain ha := takeByte_ok h1
  obtain ⟨hb, hc⟩ := takeAddr_ok h2
  simp only at h3 hc ha
  split at h3
  · rename_i hp; simp at h3; obtain ⟨rfl, rfl⟩ := h3; subst hp; exact ⟨hb, by rw [ha, hc]; simp [bufBytes]⟩
  · split at h3
    · rename_i hp; simp at h3; obtain ⟨rfl, rfl⟩ := h3; obtain ⟨rfl, rfl⟩ := hp
      exact ⟨rfl, by rw [ha, hc]; simp [bufBytes]⟩
    · simp at h3

theorem byte_of_three_bits (b : Byte) (h : b.toNat < 8) :
    b.toNat = (b.getLsbD 0).toNat + 2 * (b.getLsbD 1).toNat + 4 * (b.getLsbD 2).toNat := by
  revert b; decide

theorem takeFlags_ok {bs rest : List Byte} {f : Flags} (h : takeFlags bs = .ok (f, rest)) :
    bs = leBytes 1 (flagsByte f) ++ rest := by
  simp only [takeFlags, bind_eq_ok, pure_eq_ok] at h
  obtain ⟨⟨v, r⟩, h1, h2⟩ := h
  simp only at h2
  split at h2
  · rename_i hv
    simp only [Except.ok.injEq, Prod.mk.injEq] at h2
    obtain ⟨rfl, rfl⟩ := h2
    rw [takeByte_ok h1, byte_of_three_bits v hv]; rfl
  · simp at h2

theorem takeMode_ok {bs rest : List Byte} {f : Mode} (h : takeMode bs = .ok (f, rest)) :
    bs = leBytes 1 (modeByte f) ++ rest := by
  simp only [takeMode, bind_eq_ok, pure_eq_ok] at h
  obtain ⟨⟨v, r⟩, h1, h2⟩ := h
  simp only at h2
  split at h2
  · rename_i hv
    simp only [Except.ok.injEq, Prod.mk.injEq] at h2
    obtain ⟨rfl, rfl⟩ := h2
    rw [takeByte_ok h1, byte_of_three_bits v hv]; rfl
  · simp at h2

theorem takeDesc_ok {bs rest : List Byte} {d : Desc} (h : takeDesc bs = .ok (d, rest)) :
    bufOk d.out = true ∧ bufOk d.inp = true ∧ bs = descBytes d ++ rest := by
  simp only [takeDesc, bind_eq_ok, pure_eq_ok] at h
  obtain ⟨⟨n, r1⟩, h1, ⟨o, r2⟩, h2, ⟨i, r3⟩, h3, ⟨f, r4⟩, h4, h5⟩ := h
  simp only [Except.ok.injEq, Prod.mk.injEq] at h5
  obtain ⟨rfl, rfl⟩ := h5
  obtain ⟨a1, a2⟩ := takeBuf_ok h2
  obtain ⟨b1, b2⟩ := takeBuf_ok h3
  refine ⟨a1, b1, ?_⟩
  have c1 := takeWord_ok h1
  have c2 := takeFlags_ok h4
  simp only at c1 a2 b2 c2
  rw [c1, a2, b2, c2]; simp [descBytes]

/-! ## Keys -/

/-- A key is its direction and its offset (30_encoding R98). -/
theorem key_split {k : Nat} (hk : k < 0x2000) : k = keyOf (decide (0x1000 ≤ k)) (k % 0x1000) := by
  unfold keyOf; by_cases h : 0x1000 ≤ k <;> simp [h] <;> omega

theorem rowOfKey_ok {α : Type} {rows : List (KeyRow α)} {key : Nat} {r : KeyRow α}
    (h : rowOfKey rows key = some r) : r ∈ rows ∧ key &&& r.mask = r.pattern :=
  ⟨List.mem_of_find?_eq_some h, by simpa using List.find?_some h⟩

/-- The register an RC key names has that key, and is one the window has. -/
theorem rcOfKey_ok {L : Config.Layout} (hL : legalLayout L = true) {key : Nat} (hk : key < 0x2000) {d : Bool}
    {g : RcReg} (h : rcOfKey L key = some (d, g)) : key = keyOf d (rcOff L.rc g) ∧
      match g with
      | .shared j => sharedOk j = true
      | .conf c => chanOk L c = true
      | .stat c => chanOk L c = true
      | .ctrl c => chanOk L c = true
      | .tx c => chanOk L c = true
      | .rx c => chanOk L c = true := by
  have P := legal_rc hL
  unfold rcOfKey at h
  cases hr : rowOfKey (rcRows L) key with
  | none => simp [hr] at h
  | some r =>
    obtain ⟨hm, hp⟩ := rowOfKey_ok hr
    simp only [hr] at h
    split at h
    · rename_i h4
      rcases List.mem_append.1 hm with hc | hs
      · obtain ⟨g', hg', d', rfl⟩ := mem_rcRowsChannels.1 hc
        rw [key_split hk] at hp
        obtain ⟨e1, e2⟩ := (exact_match (by omega) (P.within g' hg')).1 hp
        obtain ⟨c, hc', hcs⟩ := mem_rcRegs.1 hg'
        have hkey : key = keyOf d' (rcOff L.rc g') := by rw [← e1, ← e2]; exact key_split hk
        rcases hcs with rfl | rfl | rfl | rfl | rfl <;>
          simp only [exactRow, Option.some.injEq, Prod.mk.injEq] at h <;> obtain ⟨rfl, rfl⟩ := h <;>
          exact ⟨hkey, by simpa [chanOk] using hc'⟩
      · obtain ⟨hb, hl⟩ := P.shared
        obtain ⟨w, f, hw, d', rfl⟩ := mem_rcRowsShared.1 hs
        obtain ⟨q1, q2, q3⟩ := sharedBlocks_place hb hl hw
        rw [key_split hk] at hp
        obtain ⟨e1, e2⟩ := (window_match q1 (by omega) q2 q3).1 hp
        simp only [Option.some.injEq, Prod.mk.injEq] at h
        obtain ⟨rfl, rfl⟩ := h
        have hj : L.rc.shared ≤ key % 0x1000 ∧ key % 0x1000 < L.rc.shared + 44 := by
          simp only [sharedBlocks, List.mem_cons, List.not_mem_nil, or_false, Prod.mk.injEq] at hw
          rcases hw with ⟨rfl, rfl⟩ | ⟨rfl, rfl⟩ | ⟨rfl, rfl⟩ <;> omega
        have ho : L.rc.shared + 4 * ((key % 0x1000 - L.rc.shared) / 4) = key % 0x1000 := by omega
        exact ⟨by simp only [rcOff, ho]; rw [← e1]; exact key_split hk, decide_eq_true (show _ < 11 by omega)⟩
    · simp at h

/-- A key inside a window is an offset from the window's base. -/
theorem window_off {w base key : Nat} {d : Bool} (hw : w ≤ 12) (hk : key < 0x2000) (hb : base % 2 ^ w = 0)
    (hl : base < 0x1000) (hm : key &&& (0x2000 - 2 ^ w) = keyOf d base) : key = keyOf d (base + key % 2 ^ w) := by
  have hp : 0 < 2 ^ w := Nat.two_pow_pos w
  rw [key_split hk] at hm
  obtain ⟨e1, e2⟩ := (window_match hw (by omega) hl hb).1 hm
  have h1 := Nat.div_add_mod (key % 0x1000) (2 ^ w)
  have h2 := Nat.div_add_mod base (2 ^ w)
  have h3 : key % 0x1000 % 2 ^ w = key % 2 ^ w := by
    have : 2 ^ w ∣ 0x1000 := ⟨2 ^ (12 - w), by rw [← Nat.pow_add, Nat.add_sub_cancel' hw]⟩
    exact Nat.mod_mod_of_dvd _ this
  have h4 : base + key % 2 ^ w = key % 0x1000 := by rw [hb, Nat.add_zero, ← e2] at h2; rw [← h3, ← h2]; exact h1
  rw [h4, ← e1]; exact key_split hk

/-- The register an MF key names has that key, and is accessed in that direction. -/
theorem mfOfKey_ok {L : Config.Layout} (hL : legalLayout L = true) {key : Nat} (hk : key < 0x2000) {d : Bool}
    {g : MfReg} (h : mfOfKey L.mf key = some (d, g)) : key = keyOf d (mfOff L.mf g) ∧
      ((∃ o, fifoOffOk L o = true ∧ (d = true ∧ g = .txfifo o ∨ d = false ∧ g = .rxfifo o)) ∨
        d = true ∧ g ∈ mfCommands ∨ d = false ∧ g = .rdbyte) := by
  have P := legal_mf hL
  have hp : 0 < 2 ^ L.mf.winBits := Nat.two_pow_pos _
  unfold mfOfKey at h
  cases hr : rowOfKey (mfRows L.mf) key with
  | none => simp [hr] at h
  | some r =>
    obtain ⟨hm, hq⟩ := rowOfKey_ok hr
    simp only [hr] at h
    have e2 : key % 2 = 0 → key % 2 ^ L.mf.winBits % 2 = 0 := fun e => by
      obtain ⟨k, hk'⟩ : ∃ k, 2 ^ L.mf.winBits = 2 * k := ⟨2 ^ (L.mf.winBits - 1), by
        rw [← Nat.pow_succ', Nat.succ_eq_add_one, Nat.sub_add_cancel P.bits.1]⟩
      rw [Nat.mod_mod_of_dvd _ (Dvd.intro k hk'.symm)]; exact e
    rcases mem_mfRows.1 hm with rfl | ⟨g', hg', rfl⟩ | rfl | rfl
    · simp only [windowRow] at h hq
      split at h
      · simp only [Option.some.injEq, Prod.mk.injEq] at h
        obtain ⟨rfl, rfl⟩ := h
        exact ⟨window_off P.bits.2 hk P.tx.1 P.tx.2 hq,
          .inl ⟨_, fifoOffOk_iff.2 ⟨e2 (by assumption), Nat.mod_lt _ hp⟩, .inl ⟨rfl, rfl⟩⟩⟩
      · simp at h
    · rw [key_split hk] at hq
      obtain ⟨e1, e3⟩ := (exact_match (by omega) (P.within g' hg')).1 hq
      have hkey : key = keyOf true (mfOff L.mf g') := by rw [← e1, ← e3]; exact key_split hk
      have hg2 := hg'
      simp only [mfCommands, List.mem_cons, List.not_mem_nil, or_false] at hg'
      rcases hg' with rfl | rfl | rfl | rfl | rfl | rfl | rfl <;>
        simp only [exactRow, Option.some.injEq, Prod.mk.injEq] at h <;> obtain ⟨rfl, rfl⟩ := h <;>
          exact ⟨hkey, .inr (.inl ⟨rfl, hg2⟩)⟩
    · rw [key_split hk] at hq
      obtain ⟨e1, e3⟩ := (exact_match (by omega) P.rd.1).1 hq
      have hkey : key = keyOf false (mfOff L.mf .rdbyte) := by
        show key = keyOf false L.mf.rdbyte; rw [← e1, ← e3]; exact key_split hk
      simp only [exactRow, Option.some.injEq, Prod.mk.injEq] at h
      obtain ⟨rfl, rfl⟩ := h; exact ⟨hkey, .inr (.inr ⟨rfl, rfl⟩)⟩
    · simp only [windowRow] at h hq
      split at h
      · simp only [Option.some.injEq, Prod.mk.injEq] at h
        obtain ⟨rfl, rfl⟩ := h
        exact ⟨window_off P.bits.2 hk P.rx.1 P.rx.2 hq,
          .inl ⟨_, fifoOffOk_iff.2 ⟨e2 (by assumption), Nat.mod_lt _ hp⟩, .inr ⟨rfl, rfl⟩⟩⟩
      · simp at h

theorem takeKey_ok {bs rest : List Byte} {k : Nat} (h : takeKey bs = .ok (k, rest)) :
    k < 0x2000 ∧ bs = leBytes 2 k ++ rest := by
  simp only [takeKey, bind_eq_ok, pure_eq_ok] at h
  obtain ⟨⟨v, r⟩, h1, h2⟩ := h
  simp only at h2
  split at h2
  · simp only [Except.ok.injEq, Prod.mk.injEq] at h2
    obtain ⟨rfl, rfl⟩ := h2
    exact ⟨by assumption, (takeLe_ok h1).2⟩
  · simp at h2

end Sys2Proof
end

