-- ==== Sys2Proof/Laws/Registers.lean ====
section
/-! SUPPORT. The laws of the RC registers: the fields of CONF (spec 10_state R28), the status word (R29), the
received and sent words, and what a gap does where no shifter can move. -/

namespace Sys2Proof.Machine

/-! ## CONF -/

theorem confWord_getLsbD (f : ConfFields) {i : Nat} (hi : i < 32) :
    (confWord f).getLsbD i =
      if i = 0 then f.pha else if i = 1 then f.pol else if i < 6 then f.clkd.getLsbD (i - 2)
      else if i = 6 then f.epol else if i < 12 then f.wl.getLsbD (i - 7)
      else if i < 14 then f.trm.getLsbD (i - 12) else if i = 20 then f.force else false := by
  obtain ⟨pha, pol, clkd, epol, wl, trm, force⟩ := f
  unfold confWord
  simp only [BitVec.getLsbD_or, BitVec.getLsbD_shiftLeft, BitVec.getLsbD_setWidth]
  have e : ∀ (b : Bool) (j : Nat), (BitVec.ofBool b).getLsbD j = (decide (j = 0) && b) := by
    intro b j; cases b <;> cases j <;> simp [BitVec.ofBool]
  simp only [e]
  have hc : ∀ j, 4 ≤ j → clkd.getLsbD j = false := fun j h => BitVec.getLsbD_of_ge clkd j h
  have hw : ∀ j, 5 ≤ j → wl.getLsbD j = false := fun j h => BitVec.getLsbD_of_ge wl j h
  have ht : ∀ j, 2 ≤ j → trm.getLsbD j = false := fun j h => BitVec.getLsbD_of_ge trm j h
  interval_cases i <;> simp

/-- The fields of a register value made from fields are those fields. -/
theorem confFields_confWord (f : ConfFields) : confFields (confWord f) = f := by
  have h := fun i hi => confWord_getLsbD f (i := i) hi
  obtain ⟨pha, pol, clkd, epol, wl, trm, force⟩ := f
  unfold confFields
  have hc : (confWord ⟨pha, pol, clkd, epol, wl, trm, force⟩).extractLsb' 2 4 = clkd := by
    apply BitVec.eq_of_getLsbD_eq
    intro i hi
    rw [BitVec.getLsbD_extractLsb', h _ (by omega)]
    have : i < 4 ∧ 2 + i ≠ 0 ∧ 2 + i ≠ 1 ∧ 2 + i < 6 := by omega
    simp [this]
  have hw : (confWord ⟨pha, pol, clkd, epol, wl, trm, force⟩).extractLsb' 7 5 = wl := by
    apply BitVec.eq_of_getLsbD_eq
    intro i hi
    rw [BitVec.getLsbD_extractLsb', h _ (by omega)]
    have : i < 5 ∧ 7 + i ≠ 0 ∧ 7 + i ≠ 1 ∧ ¬ 7 + i < 6 ∧ 7 + i ≠ 6 ∧ 7 + i < 12 := by omega
    simp [this]
  have ht : (confWord ⟨pha, pol, clkd, epol, wl, trm, force⟩).extractLsb' 12 2 = trm := by
    apply BitVec.eq_of_getLsbD_eq
    intro i hi
    rw [BitVec.getLsbD_extractLsb', h _ (by omega)]
    have : i < 2 ∧ 12 + i ≠ 0 ∧ 12 + i ≠ 1 ∧ ¬ 12 + i < 6 ∧ 12 + i ≠ 6 ∧ ¬ 12 + i < 12 ∧ 12 + i < 14 := by
      omega
    simp [this]
  rw [hc, hw, ht, h 0 (by omega), h 1 (by omega), h 6 (by omega), h 20 (by omega)]
  simp

/-- A register value made from fields has no reserved bit set. -/
theorem confWord_masked (f : ConfFields) : confWord f &&& confMask = confWord f := by
  apply BitVec.eq_of_getLsbD_eq
  intro i hi
  rw [BitVec.getLsbD_and, confWord_getLsbD f hi]
  have m : ∀ i, i < 32 → confMask.getLsbD i = (decide (i < 14) || decide (i = 20)) := by decide
  rw [m i hi]
  by_cases h : i < 14
  · simp [h]
  · by_cases h2 : i = 20
    · simp [h2]
    · have : i ≠ 0 ∧ i ≠ 1 ∧ ¬ i < 6 ∧ i ≠ 6 ∧ ¬ i < 12 := by omega
      simp [h, h2, this]

theorem confFields_force (v : Word) : (confFields v).force = v.getLsbD 20 := rfl

/-- What a channel's accessors read of a register value made from fields. -/
theorem channel_confWord {x : Channel} {f : ConfFields} (h : x.conf = confWord f) :
    x.force = f.force ∧ x.trm = f.trm ∧ x.wl = f.wl ∧ x.conf.getLsbD 1 = f.pol ∧
      x.conf.getLsbD 0 = f.pha := by
  have e := confFields_confWord f
  rw [← h] at e
  exact ⟨congrArg ConfFields.force e, congrArg ConfFields.trm e, congrArg ConfFields.wl e,
    congrArg ConfFields.pol e, congrArg ConfFields.pha e⟩

/-- `wordlen - 1` in five bits, for a legal word length (R97). -/
theorem wl_toNat {w : BitVec 8} (h1 : 4 ≤ w.toNat) (h2 : w.toNat ≤ 32) :
    ((w - 1#8).setWidth 5).toNat = w.toNat - 1 := by
  rw [BitVec.toNat_setWidth, BitVec.toNat_sub]
  simp
  omega

/-! ## STAT -/

theorem stat_getLsbD_rxs (x : Channel) : x.stat.getLsbD rxsBit = x.rxs := by
  unfold Channel.stat rxsBit
  cases x.rxs <;> cases x.txs <;> decide

theorem stat_getLsbD_txs (x : Channel) : x.stat.getLsbD txsBit = x.txs := by
  unfold Channel.stat txsBit
  cases x.rxs <;> cases x.txs <;> decide

/-! ## Words -/

theorem lowBits_getLsbD (w : Nat) (v : Word) {i : Nat} (hi : i < 32) :
    (lowBits w v).getLsbD i = (decide (i < w) && v.getLsbD i) := by
  unfold lowBits
  rw [BitVec.getLsbD_and, BitVec.getLsbD_ofNat, Nat.testBit_two_pow_sub_one]
  simp [hi, Bool.and_comm]

theorem lowBits_lowBits (w : Nat) (v : Word) : lowBits w (lowBits w v) = lowBits w v := by
  unfold lowBits
  rw [BitVec.and_assoc, BitVec.and_self]

/-- An element has no bit above its word length (20_memory R65). -/
theorem lowBits_outElem (out : Option Nat) (lsb : Bool) (m : Memory) (w i : Nat) :
    lowBits w (outElem out lsb m w i) = outElem out lsb m w i := by
  apply BitVec.eq_of_getLsbD_eq
  intro q hq
  rw [lowBits_getLsbD w _ hq, outElem, gatherBits_getLsbD _ _ _ _ hq]
  by_cases h : q < w <;> simp [h]

/-- Elements of memories that agree on the output stream. -/
theorem outElem_congr {out : Option Nat} {lsb : Bool} {m m' : Memory} {w i : Nat}
    (h : ∀ j, i * w ≤ j → j < i * w + w → outBit out lsb m j = outBit out lsb m' j) :
    outElem out lsb m w i = outElem out lsb m' w i := by
  apply BitVec.eq_of_getLsbD_eq
  intro q hq
  rw [outElem, outElem, gatherBits_getLsbD _ _ _ _ hq, gatherBits_getLsbD _ _ _ _ hq]
  split
  · exact h _ (by omega) (by omega)
  · rfl

/-! ## Where nothing can move -/

theorem anyMovable_eq_false {r : RcBus} :
    anyMovable r = false ↔ ∀ c, c < r.nchan → (r.chan c).movable = false := by
  unfold anyMovable
  rw [List.any_eq_false]
  simp [List.mem_range]

theorem otherActive_eq_false {r : RcBus} {c : Nat} :
    otherActive r c = false ↔ ∀ k, k < r.nchan → k ≠ c → (r.chan k).active = false := by
  unfold otherActive
  rw [List.any_eq_false]
  constructor
  · intro h k hk hne
    have := h k (List.mem_range.2 hk)
    simpa [hne] using this
  · intro h k hk
    have hk := List.mem_range.1 hk
    by_cases hne : k = c
    · simp [hne]
    · simp [h k hk hne]

/-- Where no shifter can move, a gap does nothing and the sequencer's access is the controller's. -/
theorem shifterGap_still {s : State} (h : anyMovable s.rc = false) : shifterGap s = .ok s := by
  simp [shifterGap, h]

theorem seqWrite_still {s : State} (h : anyMovable s.rc = false) (g : RcReg) (v : Word) :
    seqWrite g v s = rcWrite g v s := by
  simp [seqWrite, shifterGap_still h]

theorem seqRead_still {s : State} (h : anyMovable s.rc = false) (g : RcReg) :
    seqRead g s = rcRead g s := by
  simp [seqRead, shifterGap_still h]

theorem seqCs2_still {s : State} (h : anyMovable s.rc = false) (a : Bool) : seqCs2 a s = .ok (cs2 .rc a s) := by
  simp [seqCs2, shifterGap_still h]

/-! ## What a gap can do -/

/-- What the shifters' steps in a gap can change: channels but for their CTRL, the draws of words and
schedules, and the trace, by pin events only (42_regctl R182 to R184). -/
structure Shifted (s t : State) : Prop where
  shared : t.rc.shared = s.rc.shared
  bus : t.rc.bus = s.rc.bus
  ctrl : ∀ c, (t.rc.chan c).ctrl = (s.rc.chan c).ctrl
  pins : ∃ l, t.trace = s.trace ++ pins l
  rest : t = { s with
    rc := t.rc, trace := t.trace, env := { s.env with word := t.env.word, sched := t.env.sched } }

theorem Shifted.refl (s : State) : Shifted s s := ⟨rfl, rfl, fun _ => rfl, ⟨[], by simp [Machine.pins]⟩, rfl⟩

theorem Shifted.trans {s t u : State} (a : Shifted s t) (b : Shifted t u) : Shifted s u := by
  obtain ⟨l, hl⟩ := a.pins
  obtain ⟨m, hm⟩ := b.pins
  exact ⟨b.shared.trans a.shared, b.bus.trans a.bus, fun c => (b.ctrl c).trans (a.ctrl c),
    ⟨l ++ m, by rw [hm, hl]; simp [Machine.pins]⟩, b.rest.trans (by rw [a.rest])⟩

/-- A channel that keeps its CTRL, and pin events. -/
theorem Shifted.setChan {c : Nat} {x : Channel} {s t : State} {l : List PinEvent}
    (hx : x.ctrl = (s.rc.chan c).ctrl) (h1 : t.rc = (Machine.setChan c x s).rc) (h2 : t.trace = s.trace ++ Machine.pins l)
    (h3 : t = { s with
      rc := t.rc, trace := t.trace, env := { s.env with word := t.env.word, sched := t.env.sched } }) :
    Shifted s t := by
  refine ⟨by rw [h1]; rfl, by rw [h1]; rfl, fun k => ?_, ⟨l, h2⟩, h3⟩
  rw [h1, chan_setChan]
  split
  · rename_i e; rw [hx, e.1]
  · rfl

theorem shifterStep_shifted {c : Nat} {s t : State} (h : shifterStep c s = .ok t) : Shifted s t := by
  unfold shifterStep at h
  simp only at h
  split at h
  · split at h
    · unfold shifterComplete at h
      simp only at h
      split at h
      · cases h
      · have e : (drawWord (s.rc.chan c).shCfg s).2 =
            { s with env := { s.env with word := (drawWord (s.rc.chan c).shCfg s).2.env.word } } := by
          unfold drawWord; split <;> rfl
        generalize drawWord (s.rc.chan c).shCfg s = p at e h
        obtain ⟨inp, m⟩ := p
        simp only at e h
        have hx : ((s.rc.chan c).completed inp).ctrl = (s.rc.chan c).ctrl := by
          unfold Channel.completed
          split
          · split <;> rfl
          · rfl
        cases h
        rw [e]
        split
        · exact .setChan hx (l := [_]) rfl rfl rfl
        · exact .setChan hx (l := [_, _]) rfl
            (by simp [emitPin, emit, Machine.setChan, Machine.pins]; exact ⟨rfl, rfl⟩) rfl
    · split at h
      · unfold shifterStart at h
        simp only at h
        split at h
        · cases h
        · split at h
          · cases h
          · cases h
            split
            · exact .setChan (x := (s.rc.chan c).started) rfl (l := []) rfl (by simp [Machine.setChan, Machine.pins]) rfl
            · exact .setChan (x := (s.rc.chan c).started) rfl (l := [_]) rfl rfl rfl
      · cases h; exact .refl s
  · cases h; exact .refl s

theorem shifterRun_shifted {l : List Nat} {s t : State} (h : shifterRun l s = .ok t) : Shifted s t := by
  induction l generalizing s with
  | nil => cases h; exact .refl _
  | cons k l ih =>
    obtain ⟨m, h1, h2⟩ := bind_eq_ok.1 h
    exact (shifterStep_shifted h1).trans (ih h2)

/-- What a gap can do, whatever it draws. -/
theorem shifterGap_shifted {s t : State} (h : shifterGap s = .ok t) : Shifted s t := by
  unfold shifterGap at h
  split at h
  · exact Shifted.trans (s := s) (t := { s with env := { s.env with sched := s.env.sched.rest } })
      ⟨rfl, rfl, fun _ => rfl, ⟨[], by simp [Machine.pins]⟩, rfl⟩ (shifterRun_shifted h)
  · cases h; exact .refl s

end Sys2Proof.Machine
end

