-- ==== Sys2Proof/Laws/RcWord.lean ====
section
/-! SUPPORT. One word on an RC channel (spec 42_regctl R182, R183, R196): from the moment it is asked for, the
gaps and the polls of the sequencer can only move it on, whatever the schedule, and a poll that sees its bit
finds it done. -/

namespace Sys2Proof.Machine

/-! ## Traces without polls -/

theorem withoutPolls_append (c : Nat) (a b : List Obs) :
    withoutPolls c (a ++ b) = withoutPolls c a ++ withoutPolls c b := List.filter_append ..

@[simp] theorem withoutPolls_nil (c : Nat) : withoutPolls c [] = [] := rfl

@[simp] theorem withoutPolls_pin (c : Nat) (e : PinEvent) (l : List Obs) :
    withoutPolls c (.pin e :: l) = .pin e :: withoutPolls c l := rfl

@[simp] theorem withoutPolls_rcW (c : Nat) (g : RcReg) (v : Word) :
    withoutPolls c [rcW g v] = [rcW g v] := by simp [withoutPolls, rcW, Obs.isPoll]

@[simp] theorem withoutPolls_rcW_cons (c : Nat) (g : RcReg) (v : Word) (l : List Obs) :
    withoutPolls c (rcW g v :: l) = rcW g v :: withoutPolls c l := by simp [withoutPolls, rcW, Obs.isPoll]

@[simp] theorem withoutPolls_stat (c : Nat) (v : Word) : withoutPolls c [rcR (.stat c) v] = [] := by
  simp [withoutPolls, rcR, Obs.isPoll]

theorem withoutPolls_rcR {c : Nat} {g : RcReg} (h : g ≠ .stat c) (v : Word) :
    withoutPolls c [rcR g v] = [rcR g v] := by
  simp [withoutPolls, rcR, Obs.isPoll, h]

@[simp] theorem withoutPolls_rcR_conf (c : Nat) (v : Word) :
    withoutPolls c [rcR (.conf c) v] = [rcR (.conf c) v] :=
  withoutPolls_rcR (by simp) v

@[simp] theorem withoutPolls_rcR_rx (c : Nat) (v : Word) :
    withoutPolls c [rcR (.rx c) v] = [rcR (.rx c) v] :=
  withoutPolls_rcR (by simp) v

/-! ## The other channels are quiet -/

theorem OthersQuiet.other {c : Nat} {r : RcBus} (h : OthersQuiet c r) : otherActive r c = false :=
  otherActive_eq_false.2 fun k hk hne => (h k hk hne).1

theorem movable_of_quiet {x : Channel} (ha : x.active = false) (he : x.en = false) : x.movable = false := by
  simp only [Channel.active, Bool.or_eq_false_iff] at ha
  simp [Channel.movable, Channel.startable, ha.2, he]

theorem OthersQuiet.still {c : Nat} {r : RcBus} (h : OthersQuiet c r)
    (hc : (r.chan c).movable = false) : anyMovable r = false := by
  refine anyMovable_eq_false.2 fun k hk => ?_
  by_cases e : k = c
  · rw [e]; exact hc
  · exact movable_of_quiet (h k hk e).1 (h k hk e).2

theorem ChanOnly.refl (c : Nat) (r : RcBus) : ChanOnly c r r := ⟨rfl, rfl, fun _ _ => rfl⟩

theorem ChanOnly.trans {c : Nat} {r r' r'' : RcBus} (a : ChanOnly c r r') (b : ChanOnly c r' r'') :
    ChanOnly c r r'' :=
  ⟨b.nchan.trans a.nchan, b.shared.trans a.shared, fun k h => (b.chan k h).trans (a.chan k h)⟩

theorem ChanOnly.setChan (c : Nat) (x : Channel) (s : State) :
    ChanOnly c s.rc (Machine.setChan c x s).rc :=
  ⟨setChan_nchan c x s, rfl, fun _ h => chan_setChan_other h x s⟩

theorem ChanOnly.quiet {c : Nat} {r r' : RcBus} (a : ChanOnly c r r') (h : OthersQuiet c r) :
    OthersQuiet c r' := fun k hk hne => by
  rw [a.chan k hne]; exact h k (a.nchan ▸ hk) hne

/-! ## A word asked for -/

/-- The channel has been asked for one word and has not started it: a word waits in TX, or a receive-only
word is requested; nothing received is unread, and the configuration is a legal one. -/
structure Asked (x : Channel) : Prop where
  en : x.en = true
  busy : x.busy = false
  rxFull : x.rxFull = false
  wl : 3 ≤ x.wl.toNat
  word : (x.trm = 1#2 ∧ x.rxReq = true ∧ x.txFull = false) ∨
    ((x.trm = 0#2 ∨ x.trm = 2#2) ∧ x.txFull = true ∧ x.rxReq = false)

/-- How far the word has got. -/
inductive Phase where
  | waiting
  | busy
  | done
  deriving DecidableEq, Repr

/-- The word the slave answers, when the direction receives (R183). -/
def wordIn (x : Channel) (s : State) : Option Word :=
  if x.trm = 2#2 then none
  else some (lowBits (x.wl.toNat + 1) (s.env.word.answer Config.freeWord 0))

/-- The channel in a phase of its word. -/
def chanAt (x : Channel) (s : State) : Phase → Channel
  | .waiting => x
  | .busy => x.started
  | .done => x.started.completed (wordIn x s)

/-- How many words of the slave have been drawn. -/
def drawnAt (x : Channel) : Phase → Nat
  | .waiting => 0
  | .busy => 0
  | .done => if x.trm = 2#2 then 0 else 1

/-- The events so far. -/
def eventsAt (c : Nat) (x : Channel) (s : State) : Phase → List Obs
  | .waiting => []
  | .busy => if x.force then [] else [.pin (.cs .rc c true)]
  | .done => wordTrace c x.force (x.wl.toNat + 1) (x.conf.getLsbD 1) (x.conf.getLsbD 0) x.startWord
      (wordIn x s)

/-- `t` is a state reached from `s`, where the word was asked for, by gaps, polls and readings of the
timer. -/
structure WordAt (c : Nat) (s : State) (ph : Phase) (t : State) : Prop where
  rc : ChanOnly c s.rc t.rc
  bus : t.rc.bus = s.rc.bus
  chan : t.rc.chan c = chanAt (s.rc.chan c) s ph
  word : t.env.word = s.env.word.drop (drawnAt (s.rc.chan c) ph)
  env : t.env = { s.env with word := t.env.word, tick := t.env.tick, rounds := t.env.rounds,
                             sched := t.env.sched }
  trace : withoutPolls c t.trace = withoutPolls c s.trace ++ eventsAt c (s.rc.chan c) s ph
  rest : t = { s with rc := t.rc, env := t.env, trace := t.trace, now := t.now }

theorem WordAt.start (c : Nat) (s : State) : WordAt c s .waiting s :=
  ⟨.refl c s.rc, rfl, rfl, by simp [drawnAt], rfl, by simp [eventsAt], rfl⟩

theorem started_fields (x : Channel) :
    x.started.busy = true ∧ x.started.conf = x.conf ∧ x.started.ctrl = x.ctrl ∧
      x.started.shOut = x.startWord ∧ x.started.rxFull = x.rxFull ∧
      x.started.shCfg = { wl := x.wl, pol := x.conf.getLsbD 1, pha := x.conf.getLsbD 0, trm := x.trm } :=
  ⟨rfl, rfl, rfl, rfl, rfl, rfl⟩

theorem started_idle {x : Channel} (h : Asked x) : x.started.txFull = false ∧ x.started.rxReq = false := by
  rcases h.word with ⟨h1, h2, h3⟩ | ⟨h1, h2, h3⟩
  · simp [Channel.started, h1, h3]
  · rcases h1 with h1 | h1 <;> simp [Channel.started, h1, h3]

theorem completed_conf (x : Channel) (i : Option Word) :
    (x.completed i).conf = x.conf ∧ (x.completed i).ctrl = x.ctrl ∧ (x.completed i).busy = false ∧
      (x.completed i).txFull = x.txFull ∧ (x.completed i).rxReq = x.rxReq ∧ (x.completed i).tx = x.tx := by
  unfold Channel.completed
  split
  · split <;> exact ⟨rfl, rfl, rfl, rfl, rfl, rfl⟩
  · exact ⟨rfl, rfl, rfl, rfl, rfl, rfl⟩

/-- The channel when its word is done. -/
theorem done_fields {x : Channel} (h : Asked x) (s : State) :
    (chanAt x s .done).conf = x.conf ∧ (chanAt x s .done).ctrl = x.ctrl ∧
    (chanAt x s .done).busy = false ∧ (chanAt x s .done).txFull = false ∧
    (chanAt x s .done).rxReq = false ∧
    (chanAt x s .done).rxFull = (wordIn x s).isSome ∧
    (∀ r, wordIn x s = some r → (chanAt x s .done).rx = r) := by
  obtain ⟨h1, h2, h3, h4, h5, h6⟩ := completed_conf x.started (wordIn x s)
  obtain ⟨i1, i2⟩ := started_idle h
  refine ⟨h1, h2, h3, h4.trans i1, h5.trans i2, ?_, ?_⟩
  · show (x.started.completed (wordIn x s)).rxFull = _
    have hrx : x.started.rxFull = false := h.rxFull
    have hcfg := (started_fields x).2.2.2.2.2
    unfold wordIn
    split
    · simp [Channel.completed, hrx]
    · rename_i hne
      have : x.trm = 0#2 ∨ x.trm = 1#2 := by
        rcases h.word with ⟨h1, -⟩ | ⟨h1 | h1, -⟩
        · exact .inr h1
        · exact .inl h1
        · exact absurd h1 hne
      simp only [Channel.completed, hcfg]
      rcases this with e | e <;> simp [e]
  · intro r hr
    show (x.started.completed (wordIn x s)).rx = r
    have hcfg := (started_fields x).2.2.2.2.2
    rw [hr]
    have : x.trm = 0#2 ∨ x.trm = 1#2 := by
      rcases h.word with ⟨h1, -⟩ | ⟨h1 | h1, -⟩
      · exact .inr h1
      · exact .inl h1
      · simp [wordIn, h1] at hr
    simp only [Channel.completed, hcfg]
    rcases this with e | e <;> simp [e]

/-- A channel whose word is done cannot move. -/
theorem done_still {x : Channel} (h : Asked x) (s : State) : (chanAt x s .done).movable = false := by
  obtain ⟨-, -, h3, h4, h5, -⟩ := done_fields h s
  simp [Channel.movable, Channel.startable, Channel.receiveWaits, h3, h4, h5]

/-- The next phase. -/
def Phase.next : Phase → Phase
  | .waiting => .busy
  | .busy => .done
  | .done => .done

theorem asked_startable {x : Channel} (h : Asked x) : x.startable = true := by
  rcases h.word with ⟨h1, h2, h3⟩ | ⟨h1, h2, h3⟩
  · simp [Channel.startable, Channel.receiveWaits, h.en, h.busy, h.rxFull, h1, h2]
  · rcases h1 with h1 | h1 <;> simp [Channel.startable, h.en, h.busy, h1, h2]

/-- A step of the channel's shifter takes its word to the next phase and meets no fault. -/
theorem shifterStep_word {c : Nat} {s t : State} {ph : Phase} (hc : c < s.rc.nchan)
    (ha : Asked (s.rc.chan c)) (hq : OthersQuiet c s.rc) (h : WordAt c s ph t) :
    ∃ t', shifterStep c t = .ok t' ∧ WordAt c s ph.next t' := by
  have ho : otherActive t.rc c = false := (h.rc.quiet hq).other
  have ht : c < t.rc.nchan := h.rc.nchan.symm ▸ hc
  cases ph with
  | waiting =>
    have hx : t.rc.chan c = s.rc.chan c := h.chan
    have hr : ¬ ((s.rc.chan c).wl.toNat < 3 ∨ (s.rc.chan c).trm = 3#2) := by
      rintro (e | e)
      · have := ha.wl; omega
      · rcases ha.word with ⟨h1, -⟩ | ⟨h1 | h1, -⟩ <;> rw [h1] at e <;> cases e
    have hr' : (decide ((s.rc.chan c).wl.toNat < 3) || (s.rc.chan c).trm == 3#2) = false := by
      simpa [not_or] using hr
    refine ⟨_, by simp [shifterStep, ht, hx, ha.busy, asked_startable ha, shifterStart, ho, hr']; rfl, ?_⟩
    have hw : t.env.word = s.env.word := by have := h.word; simpa [drawnAt] using this
    have htr : withoutPolls c t.trace = withoutPolls c s.trace := by
      have := h.trace; simpa [eventsAt] using this
    have key : ∀ t' : State, t'.rc = (setChan c (s.rc.chan c).started t).rc → t'.env = t.env →
        (withoutPolls c t'.trace = withoutPolls c t.trace ++ eventsAt c (s.rc.chan c) s .busy) →
        t' = { t with rc := t'.rc, trace := t'.trace } → WordAt c s .busy t' := by
      intro t' h1 h2 h3 h4
      have hrest := h.rest
      refine ⟨h.rc.trans (by rw [h1]; exact ChanOnly.setChan c _ t), by rw [h1]; exact h.bus, ?_, ?_, ?_,
        by rw [h3, htr], ?_⟩
      · rw [h1, chan_setChan_same ht]; rfl
      · rw [h2, hw]; simp [drawnAt]
      · rw [h2]; exact h.env
      · rw [h4, hrest]
    by_cases hf : (s.rc.chan c).force = true
    · simp only [hf, if_true]
      exact key _ rfl rfl (by simp [eventsAt, hf]) rfl
    · simp only [hf, Bool.false_eq_true, if_false]
      exact key _ rfl rfl (by simp [emitPin, emit, withoutPolls_append, eventsAt, hf]) rfl
  | busy =>
    have hx : t.rc.chan c = (s.rc.chan c).started := h.chan
    have hb : (s.rc.chan c).started.busy = true := rfl
    have hrx : (s.rc.chan c).started.rxFull = false := ha.rxFull
    have hw : t.env.word = s.env.word := by have := h.word; simpa [drawnAt] using this
    obtain ⟨f1, f2, f3, f4, f5, f6⟩ := started_fields (s.rc.chan c)
    have hdraw : drawWord (s.rc.chan c).started.shCfg t =
        (wordIn (s.rc.chan c) s, { t with env := { t.env with
          word := s.env.word.drop (drawnAt (s.rc.chan c) .done) } }) := by
      rw [f6]
      unfold drawWord wordIn drawnAt
      by_cases e : (s.rc.chan c).trm = 2#2
      · simp [e]
        rw [← hw]
      · simp [e, hw, next_eq_answer, rest_eq_drop, ShiftCfg.bits]
    have hout : lowBits (s.rc.chan c).started.shCfg.bits (s.rc.chan c).started.shOut =
        (s.rc.chan c).startWord := by
      rw [f6, f4]
      unfold Channel.startWord ShiftCfg.bits
      split
      · simp [lowBits]
      · exact lowBits_lowBits _ _
    have hfo : (s.rc.chan c).started.force = (s.rc.chan c).force := rfl
    refine ⟨_, by simp [shifterStep, ht, hx, hb, shifterComplete, hdraw, hrx]; rfl, ?_⟩
    have key : ∀ t' : State, t'.rc = (setChan c (chanAt (s.rc.chan c) s .done) t).rc →
        t'.env = { t.env with word := s.env.word.drop (drawnAt (s.rc.chan c) .done) } →
        (withoutPolls c t'.trace = withoutPolls c s.trace ++ eventsAt c (s.rc.chan c) s .done) →
        t' = { t with rc := t'.rc, env := t'.env, trace := t'.trace } → WordAt c s .done t' := by
      intro t' h1 h2 h3 h4
      have hrest := h.rest
      refine ⟨h.rc.trans (by rw [h1]; exact ChanOnly.setChan c _ t), by rw [h1]; exact h.bus, ?_, by rw [h2], ?_,
        h3, ?_⟩
      · rw [h1, chan_setChan_same ht]
      · rw [h2, h.env]
      · rw [h4, hrest]
    have htr := h.trace
    have hbits : (s.rc.chan c).started.shCfg.bits = (s.rc.chan c).wl.toNat + 1 := rfl
    have hpol : (s.rc.chan c).started.shCfg.pol = (s.rc.chan c).conf.getLsbD 1 := rfl
    have hpha : (s.rc.chan c).started.shCfg.pha = (s.rc.chan c).conf.getLsbD 0 := rfl
    rw [hout, hfo, hbits, hpol, hpha]
    by_cases hf : (s.rc.chan c).force = true
    · simp only [hf, if_true]
      refine key _ rfl rfl ?_ rfl
      simp [setChan, emitPin, emit, withoutPolls_append, htr, eventsAt, hf, wordTrace]
    · simp only [hf, Bool.false_eq_true, if_false]
      refine key _ rfl rfl ?_ rfl
      simp [setChan, emitPin, emit, withoutPolls_append, htr, eventsAt, hf, wordTrace]
  | done =>
    have hx : t.rc.chan c = chanAt (s.rc.chan c) s .done := h.chan
    have hm := done_still ha s
    simp only [Channel.movable, Bool.or_eq_false_iff] at hm
    exact ⟨t, by simp [shifterStep, hx, hm.1, hm.2], h⟩

/-- A step of another channel's shifter does nothing. -/
theorem shifterStep_quiet {c k : Nat} {s : State} (hq : OthersQuiet c s.rc) (hk : k ≠ c) :
    shifterStep k s = .ok s := by
  unfold shifterStep
  by_cases h : k < s.rc.nchan
  · have hm := movable_of_quiet (hq k h hk).1 (hq k h hk).2
    simp only [Channel.movable, Bool.or_eq_false_iff] at hm
    simp [h, hm.1, hm.2]
  · simp [h]

theorem shifterStep_sched {k : Nat} {s t : State} (h : shifterStep k s = .ok t) :
    t.env.sched = s.env.sched := by
  unfold shifterStep at h
  simp only at h
  split at h
  · split at h
    · unfold shifterComplete at h
      simp only at h
      split at h
      · cases h
      · have e : (drawWord (s.rc.chan k).shCfg s).2.env.sched = s.env.sched := by
          unfold drawWord; split <;> rfl
        cases h
        split <;> exact e
    · split at h
      · unfold shifterStart at h
        simp only at h
        split at h
        · cases h
        · split at h
          · cases h
          · cases h; split <;> rfl
      · cases h; rfl
  · cases h; rfl

/-- A run of the shifters draws no schedule. -/
theorem shifterRun_sched {l : List Nat} {s t : State} (h : shifterRun l s = .ok t) :
    t.env.sched = s.env.sched := by
  induction l generalizing s with
  | nil => cases h; rfl
  | cons k l ih =>
    obtain ⟨m, h1, h2⟩ := bind_eq_ok.1 h
    exact (ih h2).trans (shifterStep_sched h1)

/-- How many steps a word has to make before it is done. -/
def Phase.left : Phase → Nat
  | .waiting => 2
  | .busy => 1
  | .done => 0

theorem Phase.left_next (p : Phase) : p.next.left = p.left - 1 := by cases p <;> rfl
theorem Phase.left_le (p : Phase) : p.left ≤ 2 := by cases p <;> decide
theorem Phase.left_eq_zero {p : Phase} : p.left = 0 ↔ p = .done := by cases p <;> decide

/-- A schedule takes the word on by as many steps as it offers the channel. -/
theorem shifterRun_word {c : Nat} {s : State} (hc : c < s.rc.nchan) (ha : Asked (s.rc.chan c))
    (hq : OthersQuiet c s.rc) (l : List Nat) {ph : Phase} {t : State} (h : WordAt c s ph t) :
    ∃ t' ph', shifterRun l t = .ok t' ∧ WordAt c s ph' t' ∧ ph'.left = ph.left - l.count c := by
  induction l generalizing ph t with
  | nil => exact ⟨t, ph, rfl, h, by simp⟩
  | cons k l ih =>
    by_cases hk : k = c
    · subst hk
      obtain ⟨t1, h1, hw1⟩ := shifterStep_word hc ha hq h
      obtain ⟨t2, ph2, h2, hw2, hl⟩ := ih hw1
      refine ⟨t2, ph2, by simp [shifterRun, h1, h2], hw2, ?_⟩
      rw [hl, ph.left_next, List.count_cons_self]
      omega
    · obtain ⟨t2, ph2, h2, hw2, hl⟩ := ih h
      exact ⟨t2, ph2, by simp [shifterRun, shifterStep_quiet (h.rc.quiet hq) hk, h2], hw2,
        by rw [hl, List.count_cons_of_ne hk]⟩

/-- A gap takes the word on by as many steps as the schedule offers; it draws a schedule when the word is not done. -/
theorem shifterGap_word {c : Nat} {s : State} (hc : c < s.rc.nchan) (ha : Asked (s.rc.chan c))
    (hq : OthersQuiet c s.rc) {ph : Phase} {t : State} (h : WordAt c s ph t) :
    ∃ t' ph', shifterGap t = .ok t' ∧ WordAt c s ph' t' ∧
      ph'.left = ph.left - (t.env.sched.answer Config.freeSchedule 0).count c ∧
      (ph ≠ .done → t'.env.sched = t.env.sched.drop 1) := by
  by_cases hm : anyMovable t.rc = true
  · have h' : WordAt c s ph { t with env := { t.env with sched := t.env.sched.rest } } :=
      ⟨h.rc, h.bus, h.chan, h.word, by rw [h.env],
        h.trace, by rw [h.rest]⟩
    obtain ⟨t', ph', h1, h2, h3⟩ := shifterRun_word hc ha hq (t.env.sched.next Config.freeSchedule) h'
    have g : shifterGap t = .ok t' := by rw [shifterGap, if_pos hm, h1]
    refine ⟨t', ph', g, h2, by rw [← next_eq_answer]; exact h3, fun _ => ?_⟩
    have : t'.env.sched = ({ t with env := { t.env with sched := t.env.sched.rest } } : State).env.sched :=
      shifterRun_sched h1
    rw [this]; exact rest_eq_drop _
  · have hm : anyMovable t.rc = false := by simpa using hm
    have hph : ph = .done := by
      have hm' := anyMovable_eq_false.1 hm c (h.rc.nchan.symm ▸ hc)
      rw [h.chan] at hm'
      cases ph with
      | waiting => simp [Channel.movable, chanAt, asked_startable ha] at hm'
      | busy => simp [Channel.movable, chanAt, (started_fields _).1] at hm'
      | done => rfl
    subst hph
    exact ⟨t, .done, shifterGap_still hm, h, by simp [Phase.left], fun e => absurd rfl e⟩

/-! ## Polls -/

/-- Reading STAT is a round of a poll: it changes nothing but the trace, where it does not count. -/
theorem rcRead_stat {c : Nat} {t : State} (hc : c < t.rc.nchan) :
    rcRead (.stat c) t = .ok ((t.rc.chan c).stat, emit (rcR (.stat c) (t.rc.chan c).stat) t) := by
  simp [rcRead, rcMapped, hc]
  rfl

theorem WordAt.statRead {c : Nat} {s t : State} {ph : Phase} (h : WordAt c s ph t) (v : Word) :
    WordAt c s ph (emit (rcR (.stat c) v) t) :=
  ⟨h.rc, h.bus, h.chan, h.word, h.env, by simp [emit, withoutPolls_append, h.trace],
    by show { t with trace := t.trace ++ [rcR (.stat c) v] } = _; rw [h.rest]; rfl⟩

theorem WordAt.readNow {c : Nat} {s t : State} {ph : Phase} (h : WordAt c s ph t) :
    WordAt c s ph (Machine.readNow t).2 :=
  ⟨h.rc, h.bus, h.chan, h.word, by
    show { t.env with tick := t.env.tick.rest } = _
    rw [h.env]; rfl, h.trace, by
    show { t with now := t.now + t.env.tick.next Config.freeTick,
                  env := { t.env with tick := t.env.tick.rest } } = _
    rw [h.rest]; rfl⟩

theorem WordAt.readNowFrom {c : Nat} {s t : State} {ph : Phase} (n : Nat) (h : WordAt c s ph t) :
    WordAt c s ph (Machine.readNowFrom n t) :=
  ⟨h.rc, h.bus, h.chan, h.word, by
    show { t.env with tick := t.env.tick.rest } = _
    rw [h.env]; rfl, h.trace, by
    show { t with now := max (t.now + t.env.tick.next Config.freeTick) n,
                  env := { t.env with tick := t.env.tick.rest } } = _
    rw [h.rest]; rfl⟩

theorem WordAt.drawRounds {c : Nat} {s t : State} {ph : Phase} (h : WordAt c s ph t) :
    WordAt c s ph (Machine.drawRounds t).2 :=
  ⟨h.rc, h.bus, h.chan, h.word, by
    show { t.env with rounds := t.env.rounds.rest } = _
    rw [h.env]; rfl, h.trace, by
    show { t with env := { t.env with rounds := t.env.rounds.rest } } = _
    rw [h.rest]; rfl⟩

/-- The status bit a poll waits for is seen only when the word is done. -/
theorem done_of_seen {c : Nat} {s t : State} {ph : Phase} (ha : Asked (s.rc.chan c))
    (h : WordAt c s ph t) {b : Nat} (hb : b = txsBit ∧ (s.rc.chan c).trm ≠ 1#2 ∨ b = rxsBit)
    (hseen : (t.rc.chan c).stat.getLsbD b = true) : ph = .done := by
  rw [h.chan] at hseen
  cases ph with
  | done => rfl
  | waiting =>
    rcases hb with ⟨rfl, hb⟩ | rfl
    · rw [stat_getLsbD_txs] at hseen
      rcases ha.word with ⟨e, -⟩ | ⟨-, e, -⟩
      · exact absurd e hb
      · simp [chanAt, Channel.txs, e] at hseen
    · rw [stat_getLsbD_rxs] at hseen
      simp [chanAt, Channel.rxs, ha.rxFull] at hseen
  | busy =>
    rcases hb with ⟨rfl, -⟩ | rfl
    · rw [stat_getLsbD_txs] at hseen
      simp [chanAt, Channel.txs, (started_fields _).1] at hseen
    · rw [stat_getLsbD_rxs] at hseen
      simp [chanAt, Channel.rxs, (started_fields _).2.2.2.2.1, ha.rxFull] at hseen

/-- A word that is done shows its bit. -/
theorem seen_of_done {c : Nat} {s t : State} (ha : Asked (s.rc.chan c)) (h : WordAt c s .done t) {b : Nat}
    (hb : b = txsBit ∨ b = rxsBit ∧ (s.rc.chan c).trm ≠ 2#2) :
    (t.rc.chan c).stat.getLsbD b = true := by
  rw [h.chan]
  obtain ⟨-, -, h3, h4, -, h6, -⟩ := done_fields ha s
  rcases hb with rfl | ⟨rfl, hb⟩
  · rw [stat_getLsbD_txs]; simp [Channel.txs, h3, h4]
  · rw [stat_getLsbD_rxs]; simp [Channel.rxs, h6, wordIn, hb]

/-- A round that does not see its bit goes on unless the timer is past the deadline (R196). -/
theorem pollRounds_unseen {c b t0 k : Nat} {t t1 : State} {v : Word}
    (h : seqRead (.stat c) t = .ok (v, t1)) (hv : v.getLsbD b = false) :
    pollRounds c b t0 (k + 1) t =
      if t1.params.tPoll < (readNow t1).1 - t0 then .ok (false, (readNow t1).2)
      else pollRounds c b t0 k (readNow t1).2 := by
  rw [pollRounds, h, ok_bind]
  simp only [hv]
  rfl

/-- One round of the poll of a word. -/
theorem round_word {c b : Nat} {s : State} (hc : c < s.rc.nchan) (ha : Asked (s.rc.chan c))
    (hq : OthersQuiet c s.rc)
    (hb : b = txsBit ∧ (s.rc.chan c).trm ≠ 1#2 ∨ b = rxsBit ∧ (s.rc.chan c).trm ≠ 2#2) {ph : Phase}
    {t : State} (h : WordAt c s ph t) :
    ∃ v t' ph', seqRead (.stat c) t = .ok (v, t') ∧ WordAt c s ph' t' ∧ (v.getLsbD b = true ↔ ph' = .done) ∧
      ph'.left = ph.left - (t.env.sched.answer Config.freeSchedule 0).count c ∧
      (ph ≠ .done → t'.env.sched = t.env.sched.drop 1) := by
  have hb1 : b = txsBit ∧ (s.rc.chan c).trm ≠ 1#2 ∨ b = rxsBit := hb.imp id And.left
  have hb2 : b = txsBit ∨ b = rxsBit ∧ (s.rc.chan c).trm ≠ 2#2 := hb.imp And.left id
  obtain ⟨t1, ph1, h1, h2, h3⟩ := shifterGap_word hc ha hq h
  have ht1 : c < t1.rc.nchan := h2.rc.nchan.symm ▸ hc
  refine ⟨_, _, ph1, by rw [seqRead, h1, ok_bind, rcRead_stat ht1], h2.statRead _,
    ⟨fun hs => done_of_seen ha h2 hb1 hs, fun e => ?_⟩, h3⟩
  subst e
  exact seen_of_done ha h2 hb2

/-- A gap that leaves the word unfinished did not offer the channel two steps. -/
theorem unfinished_offers {c : Nat} {sched : List Nat} {ph ph' : Phase} (h : ph'.left = ph.left - sched.count c)
    (hnd : ph' ≠ .done) : sched.count c < 2 := by
  have hl : ph'.left ≠ 0 := fun e => hnd (Phase.left_eq_zero.1 e)
  have := ph.left_le
  omega

/-- The rounds of the poll of a word. -/
theorem pollRounds_word {c b : Nat} {s : State} (hc : c < s.rc.nchan) (ha : Asked (s.rc.chan c))
    (hq : OthersQuiet c s.rc)
    (hb : b = txsBit ∧ (s.rc.chan c).trm ≠ 1#2 ∨ b = rxsBit ∧ (s.rc.chan c).trm ≠ 2#2) (t0 k : Nat) {ph : Phase}
    {t : State} (h : WordAt c s ph t) :
    ∃ r t' ph', pollRounds c b t0 k t = .ok (r, t') ∧ WordAt c s ph' t' ∧ (r = true ↔ ph' = .done) ∧
      (2 ≤ (t.env.sched.answer Config.freeSchedule 0).count c → r = true ∧
        (ph = .waiting → t'.env.sched = t.env.sched.drop 1)) := by
  induction k generalizing ph t with
  | zero =>
    obtain ⟨v, t1, ph1, h1, h2, h3, h4, h5⟩ := round_word hc ha hq hb h
    cases hv : v.getLsbD b with
    | true =>
      exact ⟨true, t1, ph1, by simp [pollRounds, h1, hv], h2, by rw [hv] at h3; exact h3,
        fun _ => ⟨rfl, fun e => h5 (by rw [e]; decide)⟩⟩
    | false =>
      have hn := unfinished_offers h4 fun e => by rw [h3.2 e] at hv; cases hv
      exact ⟨false, _, ph1, by simp [pollRounds, h1, hv]; rfl, h2.readNowFrom _, by rw [← hv]; exact h3,
        fun e => by omega⟩
  | succ k ih =>
    obtain ⟨v, t1, ph1, h1, h2, h3, h4, h5⟩ := round_word hc ha hq hb h
    cases hv : v.getLsbD b with
    | true =>
      exact ⟨true, t1, ph1, by simp [pollRounds, h1, hv], h2, by rw [hv] at h3; exact h3,
        fun _ => ⟨rfl, fun e => h5 (by rw [e]; decide)⟩⟩
    | false =>
      have hn := unfinished_offers h4 fun e => by rw [h3.2 e] at hv; cases hv
      by_cases hx : t1.params.tPoll < (readNow t1).1 - t0
      · exact ⟨false, _, ph1, by rw [pollRounds_unseen h1 hv]; exact if_pos hx, h2.readNow,
          by rw [← hv]; exact h3, fun e => by omega⟩
      · obtain ⟨r, t2, ph2, i1, i2, i3, -⟩ := ih h2.readNow
        exact ⟨r, t2, ph2, by rw [pollRounds_unseen h1 hv]; exact (if_neg hx).trans i1, i2, i3, fun e => by omega⟩

/-- The poll of a word: it ends, and it has seen its bit exactly when the word is done; a schedule that offers the
channel twice in the next gap lets it see the bit. -/
theorem poll_word {c b : Nat} {s : State} (hc : c < s.rc.nchan) (ha : Asked (s.rc.chan c))
    (hq : OthersQuiet c s.rc)
    (hb : b = txsBit ∧ (s.rc.chan c).trm ≠ 1#2 ∨ b = rxsBit ∧ (s.rc.chan c).trm ≠ 2#2) {ph : Phase}
    {t : State} (h : WordAt c s ph t) :
    ∃ r t' ph', poll c b t = .ok (r, t') ∧ WordAt c s ph' t' ∧ (r = true ↔ ph' = .done) ∧
      (2 ≤ (t.env.sched.answer Config.freeSchedule 0).count c → r = true ∧
        (ph = .waiting → t'.env.sched = t.env.sched.drop 1)) :=
  pollRounds_word hc ha hq hb (Machine.readNow t).1 (Machine.drawRounds (Machine.readNow t).2).1
    h.readNow.drawRounds

end Sys2Proof.Machine
end

