-- ==== Sys2Proof/Laws/RcTransfer.lean ====
section
/-! SUPPORT. The laws of an RC exchange (spec 42_regctl R197 to R201): from a quiet controller, whatever the
shifter's schedule and the timer answer, the exchange meets no fault; it ends with every element exchanged, or
with the timeout path's safe state. -/

namespace Sys2Proof.Machine

/-! ## Frames -/

/-- Between the two states only channel `c`, memory, the timer, the trace and the draws of an RC transfer
differ. -/
structure RcFrame (c : Nat) (s t : State) : Prop where
  chan : ChanOnly c s.rc t.rc
  bus : t.rc.bus = s.rc.bus
  rest : t = { s with
    rc := t.rc,
    mem := t.mem,
    now := t.now,
    trace := t.trace,
    env := { s.env with word := t.env.word, tick := t.env.tick, rounds := t.env.rounds, sched := t.env.sched } }

theorem RcFrame.refl (c : Nat) (s : State) : RcFrame c s s := ⟨.refl c _, rfl, rfl⟩

theorem RcFrame.trans {c : Nat} {s t u : State} (a : RcFrame c s t) (b : RcFrame c t u) : RcFrame c s u :=
  ⟨a.chan.trans b.chan, b.bus.trans a.bus, b.rest.trans (by rw [a.rest])⟩

theorem RcFrame.setChan (c : Nat) (x : Channel) (s : State) : RcFrame c s (Machine.setChan c x s) :=
  ⟨ChanOnly.setChan c x s, rfl, rfl⟩

theorem RcFrame.emit (c : Nat) (o : Obs) (s : State) : RcFrame c s (Machine.emit o s) := ⟨.refl c _, rfl, rfl⟩

theorem RcFrame.mem (c : Nat) (m : Memory) (s : State) : RcFrame c s { s with mem := m } := ⟨.refl c _, rfl, rfl⟩

theorem WordAt.frame {c : Nat} {s t : State} {ph : Phase} (h : WordAt c s ph t) : RcFrame c s t :=
  ⟨h.rc, h.bus, h.rest.trans (by rw [h.env, h.rest])⟩

/-! ## Single accesses on a controller that stands still -/

theorem setChan_setChan (c : Nat) (x y : Channel) (s : State) :
    setChan c x (setChan c y s) = setChan c x s := by
  simp [setChan]

/-- The channel is enabled and has nothing to do but what a receive request asks. -/
structure Ready (K : ConfFields) (x : Channel) : Prop where
  conf : x.conf = confWord K
  en : x.en = true
  busy : x.busy = false
  rxFull : x.rxFull = false
  txFull : x.txFull = false
  rxReq : x.rxReq = (K.trm == 1#2)

/-- The channel is disabled and empty. -/
structure Off (K : ConfFields) (x : Channel) : Prop where
  conf : x.conf = confWord K
  ctrl : x.ctrl = 0#32
  busy : x.busy = false
  rxFull : x.rxFull = false
  txFull : x.txFull = false
  rxReq : x.rxReq = false

theorem Ready.still {K : ConfFields} {x : Channel} (h : Ready K x) (ht : K.trm ≠ 1#2) :
    x.movable = false := by
  have hr : x.rxReq = false := by rw [h.rxReq]; simpa using ht
  simp [Channel.movable, Channel.startable, Channel.receiveWaits, h.busy, h.txFull, hr]

theorem Ready.asked {K : ConfFields} {x : Channel} (h : Ready K x) (ht : K.trm = 1#2)
    (hw : 3 ≤ K.wl.toNat) : Asked x := by
  obtain ⟨-, h2, h3, -, -⟩ := channel_confWord h.conf
  exact ⟨h.en, h.busy, h.rxFull, by rw [h3]; exact hw,
    .inl ⟨h2.trans ht, by rw [h.rxReq, ht]; rfl, h.txFull⟩⟩

theorem en_of_ctrl {x : Channel} (h : x.ctrl = 0#32) : x.en = false := by
  simp [Channel.en, h]

theorem still_of_off {x : Channel} (hb : x.busy = false) (he : x.en = false) : x.movable = false := by
  simp [Channel.movable, Channel.startable, hb, he]

/-- CTRL written 1 to a disabled channel: it is enabled, flushed (R175). -/
theorem rcWrite_ctrl_enable {c : Nat} {t : State} (hc : c < t.rc.nchan) (he : (t.rc.chan c).en = false) :
    rcWrite (.ctrl c) 1#32 t = .ok (setChan c
      { t.rc.chan c with ctrl := 1#32, txFull := false, rxFull := false, rxReq := false }
      (emit (rcW (.ctrl c) 1#32) t)) := by
  have e1 : (1#32 &&& ctrlMask) = 1#32 := by decide
  have e2 : ∀ x : Channel, ({ x with ctrl := 1#32 } : Channel).en = true := fun x => by
    simp [Channel.en]
  simp [rcWrite, rcMapped, hc, ctrlWrite, rcLog, he, e1, e2, Channel.enabled]
  rfl

/-- CTRL written 0 to an enabled channel: what has not finished is cancelled (R175). -/
theorem rcWrite_ctrl_disable {c : Nat} {t : State} (hc : c < t.rc.nchan) (he : (t.rc.chan c).en = true) :
    rcWrite (.ctrl c) 0#32 t = .ok (abortEvents c (t.rc.chan c)
      (setChan c { t.rc.chan c with ctrl := 0#32, txFull := false, rxReq := false, busy := false }
        (emit (rcW (.ctrl c) 0#32) t))) := by
  have e1 : (0#32 &&& ctrlMask) = 0#32 := by decide
  have e2 : ∀ x : Channel, ({ x with ctrl := 0#32 } : Channel).en = false := fun x => by
    simp [Channel.en]
  simp [rcWrite, rcMapped, hc, ctrlWrite, rcLog, he, e1, e2, Channel.disabled]
  rfl

theorem abortEvents_idle {c : Nat} {x : Channel} (h : x.busy = false) (s : State) : abortEvents c x s = s := by
  simp [abortEvents, h]

/-- TX written to an empty transmitter (R177). -/
theorem rcWrite_tx {c : Nat} {t : State} (hc : c < t.rc.nchan) (v : Word)
    (h1 : (t.rc.chan c).txFull = false) (h2 : (t.rc.chan c).busy = false) :
    rcWrite (.tx c) v t = .ok (setChan c { t.rc.chan c with tx := v, txFull := true }
      (emit (rcW (.tx c) v) t)) := by
  simp [rcWrite, rcMapped, hc, txWrite, rcLog, h1, h2]
  rfl

/-- RX read while it holds a word (R179). -/
theorem rcRead_rx {c : Nat} {t : State} (hc : c < t.rc.nchan) (h : (t.rc.chan c).rxFull = true) :
    rcRead (.rx c) t = .ok ((t.rc.chan c).rx, emit (rcR (.rx c) (t.rc.chan c).rx)
      (setChan c (t.rc.chan c).rxTaken t)) := by
  simp [rcRead, rcMapped, hc, h]
  rfl

/-- RC_CONF on a controller that stands still, no other channel active (R171, R197). -/
theorem rcConf_still {S : Session} {c : Nat} {trm : Option (BitVec 2)} {force : Option Bool} {t : State}
    (hc : c < t.rc.nchan) (hq : OthersQuiet c t.rc) (hm : (t.rc.chan c).movable = false) :
    ∃ t', rcConf S c trm force t = .ok t' ∧ RcFrame c t t' ∧
      t'.rc.chan c = { t.rc.chan c with
        conf := confWord (programConf S trm force (confFields (t.rc.chan c).conf)),
        rxReq := if (programConf S trm force (confFields (t.rc.chan c).conf)).trm = 1#2 ∧ (t.rc.chan c).en = true
          then true else (t.rc.chan c).rxReq } ∧
      t'.trace = t.trace ++ confTrace c none (t.rc.chan c).conf
        (confWord (programConf S trm force (confFields (t.rc.chan c).conf))) ++
        confEvents c (t.rc.chan c) { t.rc.chan c with
          conf := confWord (programConf S trm force (confFields (t.rc.chan c).conf)) } ∧
      t' = { t with rc := t'.rc, trace := t'.trace } := by
  have hs : anyMovable t.rc = false := hq.still hm
  generalize hK : programConf S trm force (confFields (t.rc.chan c).conf) = K
  have h1 : seqRead (.conf c) t = .ok ((t.rc.chan c).conf, emit (rcR (.conf c) (t.rc.chan c).conf) t) := by
    rw [seqRead_still hs]; simp [rcRead, rcMapped, hc]; rfl
  have hs1 : anyMovable (emit (rcR (.conf c) (t.rc.chan c).conf) t).rc = false := hs
  have hc1 : c < (emit (rcR (.conf c) (t.rc.chan c).conf) t).rc.nchan := hc
  have hnew : ∀ x : Channel, ({ x with conf := confWord K } : Channel).trm = K.trm := fun x =>
    (channel_confWord (x := { x with conf := confWord K }) rfl).2.1
  have hen : ∀ x : Channel, ({ x with conf := confWord K } : Channel).en = x.en := fun _ => rfl
  generalize hy : ({ t.rc.chan c with
        conf := confWord K,
        rxReq := if K.trm = 1#2 ∧ (t.rc.chan c).en = true then true else (t.rc.chan c).rxReq } : Channel) = y
  have hex : rcConf S c trm force t = .ok (confSelectEvent c (t.rc.chan c)
      { t.rc.chan c with conf := confWord K }
      (setChan c y (emit (rcW (.conf c) (confWord K)) (emit (rcR (.conf c) (t.rc.chan c).conf) t)))) := by
    simp only [rcConf, h1, ok_bind, hK, seqWrite_still hs1]
    simp only [rcWrite, rcMapped, hc1, confWrite, rcLog, confWord_masked, ← hy]
    simp [hq.other, hnew, hen]
    rfl
  refine ⟨_, hex, ?_⟩
  rw [confSelectEvent_eq]
  exact ⟨⟨ChanOnly.setChan c y t, rfl, rfl⟩, chan_setChan_same hc y,
    by simp [emits, emit, setChan, confTrace], rfl⟩

/-- A CONF write that keeps FORCE has no event of its own (R171). -/
theorem confEvents_same {c : Nat} {x y : Channel} (h : x.force = y.force) : confEvents c x y = [] := by
  simp [confEvents, h]

/-- A CONF write with no word in flight has the event of its FORCE bit (R171). -/
theorem confEvents_force {c : Nat} {x : Channel} (hb : x.busy = false) (v : Word) :
    confEvents c x { x with conf := v } =
      if x.force = v.getLsbD 20 then [] else [.pin (.cs .rc c (v.getLsbD 20))] := by
  show (if x.busy || x.force == v.getLsbD 20 then [] else [_]) = _
  simp [hb]
  rfl

/-- A begin or end phase on a controller that stands still: the accesses of CONF, and the select event whether the
pin changes or not (40_contract R128, R133). -/
theorem rcPhase_still {S : Session} {c : Nat} {trm : Option (BitVec 2)} {a : Bool} {t : State}
    (hc : c < t.rc.nchan) (hq : OthersQuiet c t.rc) (hm : (t.rc.chan c).movable = false)
    (hb : (t.rc.chan c).busy = false) :
    ∃ t', rcPhase S c trm a t = .ok t' ∧ RcFrame c t t' ∧
      t'.rc.chan c = { t.rc.chan c with
        conf := confWord (programConf S trm (some a) (confFields (t.rc.chan c).conf)),
        rxReq := if (programConf S trm (some a) (confFields (t.rc.chan c).conf)).trm = 1#2 ∧ (t.rc.chan c).en = true
          then true else (t.rc.chan c).rxReq } ∧
      t'.trace = t.trace ++ confTrace c (some a) (t.rc.chan c).conf
        (confWord (programConf S trm (some a) (confFields (t.rc.chan c).conf))) ∧
      t' = { t with rc := t'.rc, trace := t'.trace } := by
  obtain ⟨u, k1, k2, k3, k4, k5⟩ := rcConf_still (S := S) (trm := trm) (force := some a) hc hq hm
  have hs : anyMovable t.rc = false := hq.still hm
  have h1 : seqRead (.conf c) t = .ok ((t.rc.chan c).conf, emit (rcR (.conf c) (t.rc.chan c).conf) t) := by
    rw [seqRead_still hs]; simp [rcRead, rcMapped, hc]; rfl
  have hs1 : anyMovable (emit (rcR (.conf c) (t.rc.chan c).conf) t).rc = false := hs
  have hex : rcPhase S c trm a t = .ok (repeatSelect c a (t.rc.chan c) u) := by
    simp only [rcConf, h1, ok_bind, seqWrite_still hs1] at k1
    simp only [rcPhase, h1, ok_bind, shifterGap_still hs1, k1]
    rfl
  have hK : (confWord (programConf S trm (some a) (confFields (t.rc.chan c).conf))).getLsbD 20 = a :=
    (channel_confWord (x := { t.rc.chan c with
      conf := confWord (programConf S trm (some a) (confFields (t.rc.chan c).conf)) }) rfl).1
  have hu : (u.rc.chan c).active = a := by
    rw [k3]
    show ((confWord (programConf S trm (some a) (confFields (t.rc.chan c).conf))).getLsbD 20 || (t.rc.chan c).busy) = a
    rw [hK, hb, Bool.or_false]
  have ho : (t.rc.chan c).active = (t.rc.chan c).force := by simp [Channel.active, hb]
  rw [confEvents_force hb, hK] at k4
  have hr : (repeatSelect c a (t.rc.chan c) u).rc = u.rc := by unfold repeatSelect; split <;> rfl
  refine ⟨_, hex, ⟨by rw [hr]; exact k2.chan, by rw [hr]; exact k2.bus, ?_⟩, by rw [hr]; exact k3, ?_, ?_⟩
  · unfold repeatSelect
    split
    · rw [k5]; rfl
    · exact k2.rest
  · unfold repeatSelect
    rw [hu, ho]
    by_cases e : (t.rc.chan c).force = a
    · simp [e] at k4; simp [e, emitPin, emit, k4, confTrace]
    · simp [e] at k4; simp [e, k4, confTrace]
  · unfold repeatSelect
    split
    · rw [k5]; rfl
    · exact k5

end Sys2Proof.Machine
end

