-- ==== Sys2Proof/Laws/Transfer.lean ====
section
/-! SUPPORT. The laws of TRANSFER that the units share (spec 40_contract R127, R134, R137), the begin and end phases of
BB (R128, R133) and its lines at SETUP (41_bitbang R150). -/

namespace Sys2Proof.Machine

/-- None of the tests 2 to 6 stops a legal descriptor (40_contract R127). -/
theorem entryError_legal {u : BusUnit} {S : Session} {d : Desc} (h : Legal u S d) : entryError u S d = none := by
  have hw : ¬ (S.wordlen.toNat < Config.wlMin ∨ Config.wlMax < S.wordlen.toNat) := by
    simp [Config.wlMin, Config.wlMax]; exact h.wordlen
  have a1 : ¬ (d.flags.lsb = true ∧ S.wordlen.toNat ≠ 8) := by
    rintro ⟨a, b⟩; exact b (by rw [h.lsb a]; rfl)
  have a2 : ¬ (u = .rc ∧ d.flags.lsb = true ∧ d.inp.isSome = true) := by
    rintro ⟨a, b, c⟩; rw [h.lsbIn a b] at c; exact absurd c (by decide)
  have a3 : ¬ (d.n ≠ 0#32 ∧ d.n.toNat % S.wordlen.toNat ≠ 0) := fun a => a.2 h.words
  have a4 : ¬ (u = .mf ∧ d.n.toNat % 8 ≠ 0) := fun a => a.2 (h.bytes a.1)
  simp only [entryError, if_neg hw, if_neg a1, if_neg a2, if_neg a3, if_neg a4]

/-- Buffers that are identical or apart do not overlap (20_memory R81). -/
theorem overlapping_apart {d : Desc} {l : Nat} (h : Apart d l) : overlapping d.out d.inp l = false := by
  unfold overlapping
  split
  · rename_i a b ha hb
    have := h a b ha hb
    rw [Bool.eq_false_iff]
    simp only [ne_eq, Bool.and_eq_true, decide_eq_true_eq, not_and]
    intro h1 h2
    omega
  · rfl

/-- A legal descriptor of a live session runs the unit's body (R127). -/
theorem checkedTransfer_legal {u : BusUnit} {sid : Nat} {d : Desc} {S : Session} {s : State}
    {body : Session → State → Except Fault (OpResult × State)} (hl : Live u sid S s) (h : Legal u S d) :
    checkedTransfer u sid d body s = body S s := by
  simp [checkedTransfer, liveSession_of hl.1 hl.2, entryError_legal h, overlapping_apart h.buffers]

/-- One line of an array driven. -/
theorem putLine_getLsbD (lines : BitVec 256) (k : Nat) (b : Bool) {i : Nat} (hi : i < 256) :
    (putLine lines k b).getLsbD i = if i = k then b else lines.getLsbD i := by
  unfold putLine
  by_cases h : i = k
  · rw [if_pos h]; subst h; cases b <;> simp [hi]
  · rw [if_neg h]
    cases b <;> simp [hi] <;> intros <;> omega

/-- A line of BB driven (41_bitbang R156). -/
theorem driveLine_eq (i : Nat) (csHigh a : Bool) (s : State) : driveLine i csHigh a s = { s with
    bb := { s.bb with
      csAsserted := putLine s.bb.csAsserted i a,
      csLevel := putLine s.bb.csLevel i (selectLevel csHigh a) },
    trace := s.trace ++ pins [.cs .bb i a] } := rfl

/-- `CS[i]-` for `n` lines from `i` on (41_bitbang R150): each is not asserted, at the level its slave's profile
gives. -/
theorem deassertLines_spec (n i : Nat) (s : State) : ∃ lines levels,
    deassertLines n i s = { s with
      bb := { s.bb with csAsserted := lines, csLevel := levels },
      trace := s.trace ++ pins ((List.range' i n).map (fun j => .cs .bb j false)) } ∧
    ∀ q, q < 256 →
      lines.getLsbD q = (if i ≤ q ∧ q < i + n then false else s.bb.csAsserted.getLsbD q) ∧
      levels.getLsbD q = (if i ≤ q ∧ q < i + n then !(s.bb.bus.profile.slave q).csHigh
        else s.bb.csLevel.getLsbD q) := by
  induction n generalizing i s with
  | zero =>
    refine ⟨s.bb.csAsserted, s.bb.csLevel, by simp [deassertLines, pins], fun q _ => ?_⟩
    rw [if_neg (by omega), if_neg (by omega)]
    exact ⟨rfl, rfl⟩
  | succ n ih =>
    obtain ⟨lines, levels, h1, h2⟩ := ih (i + 1) (driveLine i (s.bb.bus.profile.slave i).csHigh false s)
    refine ⟨lines, levels, ?_, fun q hq => ?_⟩
    · rw [deassertLines, h1, driveLine_eq]; simp [pins, List.range'_succ]
    · obtain ⟨e1, e2⟩ := h2 q hq
      rw [e1, e2, driveLine_eq]
      simp only [putLine_getLsbD _ _ _ hq, selectLevel]
      by_cases h : q = i
      · subst h; simp
      · rw [if_neg h, if_neg h]
        by_cases h3 : i + 1 ≤ q ∧ q < i + 1 + n
        · rw [if_pos h3, if_pos h3, if_pos (by omega), if_pos (by omega)]; exact ⟨rfl, rfl⟩
        · rw [if_neg h3, if_neg h3, if_neg (by omega), if_neg (by omega)]; exact ⟨rfl, rfl⟩

/-- The begin phase of BB (40_contract R128). -/
theorem bbBegin_spec (S : Session) (s : State) :
    bbBegin S s = { s with
      bb := { s.bb with
        sclk := S.cpol,
        csAsserted := putLine s.bb.csAsserted S.cs.toNat true,
        csLevel := putLine s.bb.csLevel S.cs.toNat S.csHigh,
        bus := { s.bb.bus with
          cs2Asserted := if s.bb.bus.profile.hasCs2 then true else s.bb.bus.cs2Asserted } },
      trace := s.trace ++ pins (bbBeginEvents S s.bb.bus.profile) } := by
  unfold bbBegin bbCsPrimary cs2 driveClk bbBeginEvents cs2Events
  cases h : s.bb.bus.profile.hasCs2 <;> cases hh : S.csHigh <;>
    simp [driveLine_eq, selectLevel, State.bus, emitPin, emit, h, driveCs2, State.setBus, pins]

/-- The end phase of BB (40_contract R133). -/
theorem bbEnd_spec (S : Session) (s : State) :
    bbEnd S s = { s with
      bb := { s.bb with
        sclk := S.cpol,
        csAsserted := putLine s.bb.csAsserted S.cs.toNat false,
        csLevel := putLine s.bb.csLevel S.cs.toNat (!S.csHigh),
        bus := { s.bb.bus with
          cs2Asserted := if s.bb.bus.profile.hasCs2 then false else s.bb.bus.cs2Asserted } },
      trace := s.trace ++ pins (bbEndEvents S s.bb.bus.profile) } := by
  unfold bbEnd bbCsPrimary cs2 driveClk bbEndEvents cs2Events
  cases h : s.bb.bus.profile.hasCs2 <;> cases hh : S.csHigh <;>
    simp [driveLine_eq, selectLevel, State.bus, emitPin, emit, h, driveCs2, State.setBus, pins]

/-- An exchange takes place when there is a length and a buffer (R134). -/
theorem exchanges_true {d : Desc} (hn : d.n ≠ 0#32) (hb : d.out ≠ none ∨ d.inp ≠ none) : exchanges d = true := by
  unfold exchanges
  cases h1 : d.out <;> cases h2 : d.inp <;> simp_all

theorem exchanges_false {d : Desc} (h : d.n = 0#32 ∨ (d.out = none ∧ d.inp = none)) : exchanges d = false := by
  unfold exchanges
  rcases h with h | ⟨h, g⟩ <;> simp [*]

/-- The secondary select of RC's and MF's buses (R137). -/
theorem cs2_rc_spec (a : Bool) (s : State) : cs2 .rc a s = { s with
    rc := { s.rc with bus := { s.rc.bus with
      cs2Asserted := if s.rc.bus.profile.hasCs2 then a else s.rc.bus.cs2Asserted } },
    trace := s.trace ++ pins (cs2Events .rc s.rc.bus.profile a) } := by
  unfold cs2 cs2Events
  cases h : s.rc.bus.profile.hasCs2 <;> simp [State.bus, h, driveCs2, State.setBus, emitPin, emit, pins]

theorem cs2_mf_spec (a : Bool) (s : State) : cs2 .mf a s = { s with
    mf := { s.mf with bus := { s.mf.bus with
      cs2Asserted := if s.mf.bus.profile.hasCs2 then a else s.mf.bus.cs2Asserted } },
    trace := s.trace ++ pins (cs2Events .mf s.mf.bus.profile a) } := by
  unfold cs2 cs2Events
  cases h : s.mf.bus.profile.hasCs2 <;> simp [State.bus, h, driveCs2, State.setBus, emitPin, emit, pins]

end Sys2Proof.Machine
end

