-- ==== Sys2Proof/Laws/RcElements.lean ====
section
/-! SUPPORT. The elements of an RC exchange (spec 42_regctl R200, R201): what one element does, what all of them
do, and what the timeout path does, whatever the shifter's schedule and the timer answer. -/

namespace Sys2Proof.Machine

/-! ## Polls of a controller that stands still -/

/-- A poll of a bit that is set, where no shifter can move, sees it in its first round (R196). -/
theorem poll_still {c b : Nat} {t : State} (hc : c < t.rc.nchan) (hs : anyMovable t.rc = false)
    (hb : (t.rc.chan c).stat.getLsbD b = true) :
    ∃ t', poll c b t = .ok (true, t') ∧ t' = { t with
      now := t'.now,
      trace := t.trace ++ [rcR (.stat c) (t.rc.chan c).stat],
      env := { t.env with tick := t.env.tick.drop 1, rounds := t.env.rounds.drop 1 } } := by
  have h1 : seqRead (.stat c) (drawRounds (readNow t).2).2 = .ok ((t.rc.chan c).stat,
      emit (rcR (.stat c) (t.rc.chan c).stat) (drawRounds (readNow t).2).2) := by
    have hs' : anyMovable (drawRounds (readNow t).2).2.rc = false := hs
    have hc' : c < (drawRounds (readNow t).2).2.rc.nchan := hc
    rw [seqRead_still hs', rcRead_stat hc']
    rfl
  refine ⟨emit (rcR (.stat c) (t.rc.chan c).stat) (drawRounds (readNow t).2).2, ?_, ?_⟩
  · show pollRounds c b _ (drawRounds (readNow t).2).1 (drawRounds (readNow t).2).2 = _
    cases (drawRounds (readNow t).2).1 <;> simp only [pollRounds, h1, ok_bind, hb] <;> rfl
  · simp [emit, drawRounds, readNow, rest_eq_drop]

theorem RcFrame.has {c k : Nat} {s t : State} (h : RcFrame c s t) (hk : k < s.rc.nchan) : k < t.rc.nchan :=
  h.chan.nchan.symm ▸ hk

/-! ## Received bits -/

/-- Taking the bits of an element. -/
theorem FillingAt.putInElem {inp : Option Nat} {n : Nat} {i : Nat → Bool} {m0 : Memory} {r : Word} {j k : Nat}
    {acc : Byte} {s : State} (h : FillingAt inp false n i m0 k acc s.mem) (hk : k + j ≤ n)
    (hr : ∀ p, p < j → r.getLsbD (j - 1 - p) = i (k + p)) :
    FillingAt inp false n i m0 (k + j) (Machine.putInElem inp n r j k acc s).1
      (Machine.putInElem inp n r j k acc s).2.mem := by
  induction j generalizing k acc s with
  | zero => exact h
  | succ j ih =>
    have h0 : r.getLsbD j = i k := by simpa using hr 0 (by omega)
    have h' := h.putInBit (last := k + 1 == n) (by omega) rfl
    unfold Machine.putInElem
    rw [h0]
    have e : k + (j + 1) = k + 1 + j := by omega
    rw [e]
    refine ih h' (by omega) fun p hp => ?_
    have := hr (p + 1) (by omega)
    rw [show j + 1 - 1 - (p + 1) = j - 1 - p by omega, show k + (p + 1) = k + 1 + p by omega] at this
    exact this

/-! ## The receive half of an element -/

/-- What an exchange of direction and word length fixes for its elements. -/
structure Link (w : Nat) (K : ConfFields) (d : Desc) : Prop where
  wl : K.wl.toNat + 1 = w
  least : 3 ≤ K.wl.toNat
  trm : K.trm = trmOf d
  buffers : NoClash d.out d.inp (byteLen d.n.toNat)

theorem trmOf_cases (d : Desc) : trmOf d = 0#2 ∨ trmOf d = 1#2 ∨ trmOf d = 2#2 := by
  unfold trmOf; split <;> simp

theorem trmOf_two {d : Desc} (h : trmOf d = 2#2) : d.inp = none := by
  unfold trmOf at h; split at h
  · cases h
  · cases h
  · assumption

theorem trmOf_one {d : Desc} (h : trmOf d = 1#2) : d.out = none := by
  unfold trmOf at h; split at h
  · cases h
  · assumption
  · cases h

/-- A word whose channel has the fields `K`, sent as `o`, shows these events when it is done. -/
theorem eventsAt_done {c w : Nat} {K : ConfFields} {x : Channel} (s : State) (hx : x.conf = confWord K)
    (hw : K.wl.toNat + 1 = w) {o : Word} (ho : x.startWord = o) :
    eventsAt c x s .done = wordTrace c K.force w K.pol K.pha o
      (if K.trm = 2#2 then none else some (lowBits w (s.env.word.answer Config.freeWord 0))) := by
  obtain ⟨h1, h2, h3, h4, h5⟩ := channel_confWord hx
  simp only [eventsAt, wordIn, h1, h2, h3, h4, h5, ho, hw]

/-- The accesses that take a received word: the channel is disabled before the last one (R200). -/
def takeWord (last : Bool) (c : Nat) (s : State) : Except Fault (Word × State) := do
  let s ← rcDisableLast last c s
  seqRead (.rx c) s

theorem takeWord_done {c w : Nat} {K : ConfFields} {a t : State} (hca : c < a.rc.nchan)
    (hw : K.wl.toNat + 1 = w) (ha : Asked (a.rc.chan c)) (hx : (a.rc.chan c).conf = confWord K)
    (hq : OthersQuiet c a.rc) (ht : K.trm ≠ 2#2) (h : WordAt c a .done t) (last : Bool) {v : Word}
    (hv : v = lowBits w (a.env.word.answer Config.freeWord 0)) :
    ∃ u, takeWord last c t = .ok (v, u) ∧ RcFrame c t u ∧ u.mem = t.mem ∧ u.env = t.env ∧
      withoutPolls c u.trace = withoutPolls c t.trace ++
        ((if last then [rcW (.ctrl c) 0#32] else []) ++ [rcR (.rx c) v]) ∧
      (last = true → Off K (u.rc.chan c)) ∧ (last = false → Ready K (u.rc.chan c)) := by
  obtain ⟨f1, f2, f3, f4, f5, f6, f7⟩ := done_fields ha a
  obtain ⟨g1, g2, g3, g4, g5⟩ := channel_confWord hx
  have hc : c < t.rc.nchan := h.frame.has hca
  have hwi : wordIn (a.rc.chan c) a = some v := by simp [wordIn, g2, ht, g3, hw, hv]
  have hch : t.rc.chan c = chanAt (a.rc.chan c) a .done := h.chan
  have hm : (t.rc.chan c).movable = false := by rw [hch]; exact done_still ha a
  have hq' : OthersQuiet c t.rc := h.rc.quiet hq
  have hs : anyMovable t.rc = false := hq'.still hm
  have hen : (t.rc.chan c).en = true := by rw [hch]; unfold Channel.en; rw [f2]; exact ha.en
  have hfull : (t.rc.chan c).rxFull = true := by rw [hch, f6, hwi]; rfl
  have hrx : (t.rc.chan c).rx = v := by rw [hch]; exact f7 v hwi
  cases last with
  | true =>
    have hb : (t.rc.chan c).busy = false := by rw [hch]; exact f3
    generalize hy : ({ t.rc.chan c with ctrl := 0#32, txFull := false, rxReq := false, busy := false } : Channel) = y
    have h1 : rcDisableLast true c t = .ok (setChan c y (emit (rcW (.ctrl c) 0#32) t)) := by
      unfold rcDisableLast
      rw [if_pos rfl, seqWrite_still hs, rcWrite_ctrl_disable hc hen, abortEvents_idle hb, hy]
    have hye : y.en = false := by rw [← hy]; exact en_of_ctrl rfl
    have hyb : y.busy = false := by rw [← hy]
    have hs2 : anyMovable (setChan c y (emit (rcW (.ctrl c) 0#32) t)).rc = false :=
      ((ChanOnly.setChan c y (emit (rcW (.ctrl c) 0#32) t)).quiet hq').still
        (by rw [chan_setChan_same (show c < (emit (rcW (.ctrl c) 0#32) t).rc.nchan from hc)]
            exact still_of_off hyb hye)
    have hce : c < (emit (rcW (.ctrl c) 0#32) t).rc.nchan := hc
    have hcy : c < (setChan c y (emit (rcW (.ctrl c) 0#32) t)).rc.nchan := by rw [setChan_nchan]; exact hce
    have h2 := rcRead_rx hcy (by rw [chan_setChan_same hce, ← hy]; exact hfull)
    rw [chan_setChan_same hce] at h2
    have hyv : y.rx = v := by rw [← hy]; exact hrx
    rw [hyv] at h2
    refine ⟨emit (rcR (.rx c) v) (setChan c y.rxTaken (setChan c y (emit (rcW (.ctrl c) 0#32) t))),
      by rw [takeWord, h1, ok_bind, seqRead_still hs2, h2], ?_, rfl, rfl, ?_, fun _ => ?_,
      fun e => by cases e⟩
    · exact (((RcFrame.emit c _ t).trans (RcFrame.setChan c y _)).trans (RcFrame.setChan c _ _)).trans
        (RcFrame.emit c _ _)
    · simp [emit, setChan, withoutPolls_append]
    · show Off K ((setChan c y.rxTaken (setChan c y (emit (rcW (.ctrl c) 0#32) t))).rc.chan c)
      rw [chan_setChan_same hcy]
      have hyc : y.conf = confWord K := by rw [← hy]; show (t.rc.chan c).conf = _; rw [hch, f1, hx]
      refine ⟨hyc, by rw [← hy]; rfl, by rw [← hy]; rfl, rfl, by rw [← hy]; rfl, ?_⟩
      simp [Channel.rxTaken, hye]
      rw [← hy]
  | false =>
    have h2 := rcRead_rx hc hfull
    rw [hrx] at h2
    refine ⟨emit (rcR (.rx c) v) (setChan c (t.rc.chan c).rxTaken t),
      by rw [takeWord, rcDisableLast, if_neg (by decide), ok_bind, seqRead_still hs, h2], ?_, rfl, rfl, ?_, fun e => by (cases e), fun _ => ?_⟩
    · exact (RcFrame.setChan c _ t).trans (RcFrame.emit c _ _)
    · simp [emit, setChan, withoutPolls_append]
    · show Ready K ((setChan c (t.rc.chan c).rxTaken t).rc.chan c)
      rw [chan_setChan_same hc]
      have hxc : (t.rc.chan c).conf = confWord K := by rw [hch, f1, hx]
      refine ⟨hxc, hen, by show (t.rc.chan c).busy = _; rw [hch]; exact f3, rfl,
        by show (t.rc.chan c).txFull = _; rw [hch]; exact f4, ?_⟩
      have hr : (t.rc.chan c).rxReq = false := by rw [hch]; exact f5
      have htr := (channel_confWord hxc).2.1
      by_cases e : K.trm = 1#2 <;> simp [Channel.rxTaken, hen, htr, e, hr]

theorem rcReceive_seen {d : Desc} {c w i : Nat} {last : Bool} {acc : Byte} {s t u : State} {r : Word}
    (h1 : poll c rxsBit s = .ok (true, t)) (h2 : takeWord last c t = .ok (r, u)) :
    rcReceive d c w i last acc s = .ok (true, (putInElem d.inp d.n.toNat r w (i * w) acc u).1,
      (putInElem d.inp d.n.toNat r w (i * w) acc u).2) := by
  obtain ⟨m, h3, h4⟩ := bind_eq_ok.1 h2
  simp only [rcReceive, h1, ok_bind, if_true, h3, h4]
  rfl

theorem rcReceive_unseen {d : Desc} {c w i : Nat} {last : Bool} {acc : Byte} {s t : State}
    (h1 : poll c rxsBit s = .ok (false, t)) : rcReceive d c w i last acc s = .ok (false, acc, t) := by
  simp [rcReceive, h1]

/-! ## The elements so far -/

/-- The words the slave answers, from the state the exchange starts in. -/
def wordsIn (w : Nat) (s : State) (k : Nat) : Word := lowBits w (s.env.word.answer Config.freeWord k)

/-- The bits they are. -/
def bitsIn (w : Nat) (s : State) (k : Nat) : Bool :=
  (s.env.word.answer Config.freeWord (k / w)).getLsbD (w - 1 - k % w)

/-- Elements `0 .. k - 1` have been exchanged from `s` on, but that the events `pend` are still to come. -/
structure Exchanged (c w : Nat) (K : ConfFields) (d : Desc) (s : State) (k : Nat) (acc : Byte)
    (pend : List Obs) (t : State) : Prop where
  frame : RcFrame c s t
  word : t.env.word = s.env.word.drop (if K.trm = 2#2 then 0 else k)
  trace : withoutPolls c t.trace ++ pend = withoutPolls c s.trace ++
    elemsTrace c K w (d.n.toNat / w) (outElem d.out d.flags.lsb s.mem w) (wordsIn w s) k
  fill : FillingAt d.inp false d.n.toNat (bitsIn w s) s.mem (k * w) acc t.mem

/-- A word has been asked for and its poll has not seen its bit. -/
structure Late (c : Nat) (K : ConfFields) (d : Desc) (s t : State) : Prop where
  frame : RcFrame c s t
  word : ∃ a ph, Asked (a.rc.chan c) ∧ (a.rc.chan c).conf = confWord K ∧ WordAt c a ph t ∧ ph ≠ .done
  fill : ∃ n i k acc, n = d.n.toNat ∧ FillingAt d.inp false n i s.mem k acc t.mem

/-- The word whose poll has not seen its bit has a step to make. -/
theorem Late.movable {c : Nat} {K : ConfFields} {d : Desc} {s t : State} (h : Late c K d s t) :
    (t.rc.chan c).movable = true := by
  obtain ⟨a, ph, ha, -, hw, hnd⟩ := h.word
  rw [hw.chan]
  cases ph with
  | waiting => simp [Channel.movable, chanAt, asked_startable ha]
  | busy => simp [Channel.movable, chanAt, (started_fields _).1]
  | done => exact absurd rfl hnd

theorem bitsIn_word {w : Nat} (hw : 0 < w) (s : State) (k : Nat) {p : Nat} (hp : p < w) (h32 : w ≤ 32) :
    (wordsIn w s k).getLsbD (w - 1 - p) = bitsIn w s (k * w + p) := by
  unfold wordsIn bitsIn
  have e1 : (k * w + p) / w = k := by
    rw [Nat.mul_comm, Nat.mul_add_div hw, Nat.div_eq_of_lt hp, Nat.add_zero]
  have e2 : (k * w + p) % w = p := by
    rw [Nat.mul_comm, Nat.mul_add_mod, Nat.mod_eq_of_lt hp]
  have : w - 1 - p < w := by omega
  rw [lowBits_getLsbD _ _ (by omega), e1, e2]
  simp only [this, decide_true, Bool.true_and]

/-- The receive half of an element whose word has been asked for. -/
theorem rcReceive_spec {c w : Nat} {K : ConfFields} {d : Desc} (L : Link w K d) {s a : State}
    (hc : c < s.rc.nchan) (hq : OthersQuiet c s.rc) (ht : K.trm ≠ 2#2) {k : Nat} {acc : Byte} {o : Word}
    (hf : RcFrame c s a) (ha : Asked (a.rc.chan c)) (hx : (a.rc.chan c).conf = confWord K)
    (hword : a.env.word = s.env.word.drop k)
    (hfill : FillingAt d.inp false d.n.toNat (bitsIn w s) s.mem (k * w) acc a.mem)
    (hk : k * w + w ≤ d.n.toNat) (hlast : Bool) (hl : hlast = (k + 1 == d.n.toNat / w))
    (ho : (a.rc.chan c).startWord = (if K.trm = 1#2 then 0#32 else o))
    (hoe : o = outElem d.out d.flags.lsb s.mem w k)
    (htr : withoutPolls c a.trace = withoutPolls c s.trace ++
      elemsTrace c K w (d.n.toNat / w) (outElem d.out d.flags.lsb s.mem w) (wordsIn w s) k ++
      (if K.trm = 1#2 then [] else [rcW (.tx c) o])) :
    ∃ fine acc' t, rcReceive d c w k hlast acc a = .ok (fine, acc', t) ∧
      (fine = true → Exchanged c w K d s (k + 1) acc' [] t ∧ (hlast = true → Off K (t.rc.chan c)) ∧
        (hlast = false → Ready K (t.rc.chan c))) ∧
      (fine = false → Late c K d s t) ∧
      (2 ≤ (a.env.sched.answer Config.freeSchedule 0).count c → fine = true ∧
        t.env.sched = a.env.sched.drop 1) := by
  obtain ⟨c1, c2, c3, c4, c5⟩ := channel_confWord hx
  have hqa : OthersQuiet c a.rc := hf.chan.quiet hq
  have hb : rxsBit = txsBit ∧ (a.rc.chan c).trm ≠ 1#2 ∨ rxsBit = rxsBit ∧ (a.rc.chan c).trm ≠ 2#2 :=
    .inr ⟨rfl, by rw [c2]; exact ht⟩
  have hca : c < a.rc.nchan := hf.has hc
  obtain ⟨r, t, ph, h1, h2, h3, h4⟩ := poll_word hca ha hqa hb (WordAt.start c a)
  have hw4 : 0 < w := by have := L.wl; omega
  have hw32 : w ≤ 32 := by have := L.wl; have := K.wl.isLt; omega
  cases r with
  | false =>
    refine ⟨false, acc, t, rcReceive_unseen h1, fun e => (by cases e), fun _ => ⟨hf.trans h2.frame,
      ⟨a, ph, ha, hx, h2, fun e => (by cases h3.2 e)⟩, ⟨_, bitsIn w s, k * w, acc, rfl, ?_⟩⟩,
      fun e => by cases (h4 e).1⟩
    rw [h2.rest]; exact hfill
  | true =>
    have hph : ph = .done := h3.1 rfl
    subst hph
    have hv : wordsIn w s k = lowBits w (a.env.word.answer Config.freeWord 0) := by
      unfold wordsIn; rw [hword, answer_drop, Nat.add_zero]
    obtain ⟨u, g1, g2, g3, g4, g5, g6, g7⟩ := takeWord_done hca L.wl ha hx hqa ht h2 hlast hv
    have hmem : t.mem = a.mem := by rw [h2.rest]
    have hmu : u.mem = a.mem := g3.trans hmem
    generalize hp : putInElem d.inp d.n.toNat (wordsIn w s k) w (k * w) acc u = p
    have hpe : p.2 = { u with mem := p.2.mem } := by rw [← hp]; exact putInElem_eq ..
    have hfill' : FillingAt d.inp false d.n.toNat (bitsIn w s) s.mem (k * w + w) p.1 p.2.mem := by
      rw [← hp]
      exact FillingAt.putInElem (by rw [hmu]; exact hfill) hk (fun q hq => bitsIn_word hw4 s k hq hw32)
    have hrc : p.2.rc = u.rc := by rw [hpe]
    refine ⟨true, p.1, p.2, by rw [rcReceive_seen h1 g1, hp], fun _ => ⟨⟨?_, ?_, ?_, ?_⟩, fun e => ?_, fun e => ?_⟩,
      fun e => (by cases e), fun e => ⟨rfl, ?_⟩⟩
    · rw [hpe]; exact ((hf.trans h2.frame).trans g2).trans (RcFrame.mem c _ u)
    · rw [if_neg ht, hpe]
      show u.env.word = _
      rw [g4, h2.word, hword]
      simp [drawnAt, c2, ht]
    · have htt : p.2.trace = u.trace := by rw [hpe]
      rw [List.append_nil, htt, g5, h2.trace, htr, eventsAt_done a hx L.wl ho, hoe, ← hv, hl]
      simp only [elemsTrace, elemTrace, ht, if_false, List.append_assoc]
    · rw [Nat.succ_mul]; exact hfill'
    · rw [hrc]; exact g6 e
    · rw [hrc]; exact g7 e
    · have : p.2.env = u.env := by rw [hpe]
      rw [this, g4]; exact (h4 e).2 rfl

/-! ## The send half of an element -/

/-- The state after TX was written to a channel that is ready. -/
def asked (c : Nat) (v : Word) (t : State) : State :=
  setChan c { t.rc.chan c with tx := v, txFull := true } (emit (rcW (.tx c) v) t)

theorem asked_frame (c : Nat) (v : Word) (t : State) : RcFrame c t (asked c v t) :=
  (RcFrame.emit c _ t).trans (RcFrame.setChan c _ _)

/-- TX written to a ready channel: a word is asked for (R177). -/
theorem seqWrite_tx_ready {c w : Nat} {K : ConfFields} {d : Desc} (L : Link w K d) (ht : K.trm ≠ 1#2)
    {t : State} (hc : c < t.rc.nchan) (hq : OthersQuiet c t.rc) (hr : Ready K (t.rc.chan c)) {v : Word} (hv : lowBits w v = v) :
    seqWrite (.tx c) v t = .ok (asked c v t) ∧ Asked ((asked c v t).rc.chan c) ∧
      ((asked c v t).rc.chan c).conf = confWord K ∧ ((asked c v t).rc.chan c).startWord = v := by
  obtain ⟨c1, c2, c3, c4, c5⟩ := channel_confWord hr.conf
  have hch : (asked c v t).rc.chan c = { t.rc.chan c with tx := v, txFull := true } :=
    chan_setChan_same hc _
  have hrq : (t.rc.chan c).rxReq = false := by rw [hr.rxReq]; simpa using ht
  refine ⟨?_, ?_, ?_, ?_⟩
  · rw [seqWrite_still (hq.still (hr.still ht)), rcWrite_tx hc v hr.txFull hr.busy]
    rfl
  · rw [hch]
    refine ⟨hr.en, hr.busy, hr.rxFull, ?_, .inr ⟨?_, rfl, hrq⟩⟩
    · show 3 ≤ (t.rc.chan c).wl.toNat
      rw [c3]; exact L.least
    · show (t.rc.chan c).trm = 0#2 ∨ (t.rc.chan c).trm = 2#2
      rw [c2]
      rcases trmOf_cases d with e | e | e <;> rw [← L.trm] at e
      · exact .inl e
      · exact absurd e ht
      · exact .inr e
  · rw [hch]; exact hr.conf
  · rw [hch]
    show (if (t.rc.chan c).trm == 1#2 then 0#32 else lowBits ((t.rc.chan c).wl.toNat + 1) v) = v
    rw [c2, c3, L.wl, hv]
    simp [ht]

theorem rcSend_seen {d : Desc} {c w i : Nat} {s t u : State} (ht : trmOf d ≠ 1#2)
    (h1 : poll c txsBit s = .ok (true, t))
    (h2 : seqWrite (.tx c) (outElem d.out d.flags.lsb t.mem w i) t = .ok u) :
    rcSend d c w i s = .ok (true, u) := by
  simp [rcSend, ht, h1, h2]

theorem rcSend_unseen {d : Desc} {c w i : Nat} {s t : State} (ht : trmOf d ≠ 1#2)
    (h1 : poll c txsBit s = .ok (false, t)) : rcSend d c w i s = .ok (false, t) := by
  simp [rcSend, ht, h1]

/-- The output stream of element `k` is what it was when the exchange started. -/
theorem Exchanged.outElem {c w : Nat} {K : ConfFields} {d : Desc} (L : Link w K d) {s t : State} {k : Nat}
    {acc : Byte} {pend : List Obs} (h : Exchanged c w K d s k acc pend t) (hk : k * w + w ≤ d.n.toNat) :
    Machine.outElem d.out d.flags.lsb t.mem w k = Machine.outElem d.out d.flags.lsb s.mem w k :=
  outElem_congr fun _ h1 h2 => h.fill.outBit L.buffers h1 (by omega) _

/-- A ready channel shows TXS. -/
theorem Ready.txs {K : ConfFields} {x : Channel} (h : Ready K x) : x.stat.getLsbD txsBit = true := by
  rw [stat_getLsbD_txs]; simp [Channel.txs, h.txFull, h.busy]

/-- A poll leaves an exchange where it was. -/
theorem Exchanged.polled {c w : Nat} {K : ConfFields} {d : Desc} {s t t' : State} {k : Nat} {acc : Byte}
    {pend : List Obs} (h : Exchanged c w K d s k acc pend t) {v : Word}
    (e : t' = { t with
      now := t'.now,
      trace := t.trace ++ [rcR (.stat c) v],
      env := { t.env with tick := t.env.tick.drop 1, rounds := t.env.rounds.drop 1 } }) :
    Exchanged c w K d s k acc pend t' := by
  refine ⟨h.frame.trans ⟨?_, ?_, ?_⟩, ?_, ?_, ?_⟩
  · rw [e]; exact ChanOnly.refl c _
  · rw [e]
  · rw [e]
  · rw [e]; exact h.word
  · rw [e]
    show withoutPolls c (t.trace ++ [rcR (.stat c) v]) ++ pend = _
    rw [withoutPolls_append, withoutPolls_stat, List.append_nil, h.trace]
  · rw [e]; exact h.fill

/-! ## Elements that receive -/

/-- One element of an exchange that receives, on a ready channel (R200). -/
theorem rcElement_receiving {c w : Nat} {K : ConfFields} {d : Desc} (L : Link w K d) {s t : State}
    (hc : c < s.rc.nchan) (hq : OthersQuiet c s.rc) (ht : K.trm ≠ 2#2) {k : Nat} {acc : Byte}
    (h : Exchanged c w K d s k acc [] t) (hr : Ready K (t.rc.chan c)) (hk : k * w + w ≤ d.n.toNat)
    (last : Bool) (hl : last = (k + 1 == d.n.toNat / w)) :
    ∃ fine acc' t', rcElement d c w k last acc t = .ok (fine, acc', t') ∧
      (fine = true → Exchanged c w K d s (k + 1) acc' [] t' ∧ (last = true → Off K (t'.rc.chan c)) ∧
        (last = false → Ready K (t'.rc.chan c))) ∧
      (fine = false → Late c K d s t') ∧
      (2 ≤ (t.env.sched.answer Config.freeSchedule 0).count c → fine = true ∧
        t'.env.sched = t.env.sched.drop 1) := by
  have htd : trmOf d ≠ 2#2 := by rw [← L.trm]; exact ht
  have hqt : OthersQuiet c t.rc := h.frame.chan.quiet hq
  have hword : ∀ t' : State, t'.env.word = t.env.word → t'.env.word = s.env.word.drop k := fun t' e => by
    rw [e, h.word, if_neg ht]
  have htrace := h.trace
  rw [List.append_nil] at htrace
  by_cases h1 : K.trm = 1#2
  · have h1d : trmOf d = 1#2 := by rw [← L.trm]; exact h1
    have ha := hr.asked h1 L.least
    obtain ⟨fine, acc', u, g1, g2, g3, g4⟩ := rcReceive_spec L hc hq ht h.frame ha hr.conf
      (hword t rfl) h.fill hk last hl (o := outElem d.out d.flags.lsb s.mem w k)
      (by simp [Channel.startWord, (channel_confWord hr.conf).2.1, h1]) rfl (by rw [htrace]; simp [h1])
    exact ⟨fine, acc', u, by simp [rcElement, rcSend, h1d, g1], g2, g3, g4⟩
  · have h1d : trmOf d ≠ 1#2 := by rw [← L.trm]; exact h1
    obtain ⟨t1, p1, p2⟩ := poll_still (h.frame.has hc) (hqt.still (hr.still h1)) hr.txs
    have hrc : t1.rc = t.rc := by rw [p2]
    have h' := h.polled p2
    have hr' : Ready K (t1.rc.chan c) := by rw [hrc]; exact hr
    have ho := h'.outElem L hk
    obtain ⟨w1, w2, w3, w4⟩ := seqWrite_tx_ready L h1 (h'.frame.has hc) (h'.frame.chan.quiet hq) hr'
      (v := outElem d.out d.flags.lsb s.mem w k) (lowBits_outElem ..)
    have htrace' := h'.trace
    rw [List.append_nil] at htrace'
    obtain ⟨fine, acc', u, g1, g2, g3, g4⟩ := rcReceive_spec L hc hq ht (h'.frame.trans (asked_frame c _ t1)) w2 w3
      (hword _ (by show t1.env.word = _; rw [p2])) h'.fill hk last hl (o := outElem d.out d.flags.lsb s.mem w k)
      (by rw [w4, if_neg h1]) rfl (by
        rw [if_neg h1, ← htrace']
        show withoutPolls c (t1.trace ++ [rcW (.tx c) _]) = _
        rw [withoutPolls_append, withoutPolls_rcW])
    rw [← ho] at w1
    refine ⟨fine, acc', u, ?_, g2, g3, fun e => ?_⟩
    · rw [ho] at w1
      simp [rcElement, rcSend_seen h1d p1 (by rw [ho]; exact w1), htd, g1]
    · have hs : (asked c (outElem d.out d.flags.lsb s.mem w k) t1).env.sched = t.env.sched := by
        show t1.env.sched = _; rw [p2]
      rw [hs] at g4
      exact g4 e

/-- All elements of an exchange that receives. -/
theorem rcElements_receiving {c w : Nat} {K : ConfFields} {d : Desc} (L : Link w K d) {s : State}
    (hc : c < s.rc.nchan) (hq : OthersQuiet c s.rc) (ht : K.trm ≠ 2#2) {rem k : Nat} {acc : Byte} {t : State}
    (h : Exchanged c w K d s k acc [] t) (hr : Ready K (t.rc.chan c)) (hrem : 0 < rem)
    (hk : k + rem = d.n.toNat / w) :
    ∃ fine t', rcElements d c w rem k acc t = .ok (fine, t') ∧
      (fine = true → ∃ acc', Exchanged c w K d s (d.n.toNat / w) acc' [] t' ∧ Off K (t'.rc.chan c)) ∧
      (fine = false → Late c K d s t') ∧
      (Willing c rem t.env → fine = true ∧ t'.env.sched = t.env.sched.drop rem) := by
  induction rem generalizing k acc t with
  | zero => omega
  | succ rem ih =>
    have hkw : k * w + w ≤ d.n.toNat := by
      have h1 : (k + 1) * w ≤ d.n.toNat / w * w := Nat.mul_le_mul_right w (by omega)
      have h2 := Nat.div_mul_le_self d.n.toNat w
      rw [Nat.succ_mul] at h1
      omega
    have hl : (rem == 0) = (k + 1 == d.n.toNat / w) := by
      rw [← hk, Bool.eq_iff_iff]; simp
    obtain ⟨fine, acc', u, g1, g2, g3, g4⟩ := rcElement_receiving L hc hq ht h hr hkw _ hl
    cases fine with
    | false =>
      exact ⟨false, u, by simp [rcElements, g1], fun e => (by cases e), g3, fun e => by
        cases (g4 (e 0 (by omega))).1⟩
    | true =>
      obtain ⟨i1, i2, i3⟩ := g2 rfl
      cases rem with
      | zero =>
        have : k + 1 = d.n.toNat / w := hk
        rw [this] at i1
        have g1 : rcElement d c w k true acc t = .ok (true, acc', u) := g1
        exact ⟨true, u, by simp [rcElements, g1], fun _ => ⟨acc', i1, i2 rfl⟩, fun e => (by cases e),
          fun e => ⟨rfl, (g4 (e 0 (by omega))).2⟩⟩
      | succ rem =>
        obtain ⟨fine', v, j1, j2, j3, j4⟩ := ih i1 (i3 rfl) (by omega) (by omega)
        refine ⟨fine', v, by rw [rcElements, g1, ok_bind]; exact j1, j2, j3, fun e => ?_⟩
        have hs := (g4 (e 0 (by omega))).2
        have := j4 fun q hq => by
          rw [hs, answer_drop, Nat.add_comm]; exact e (q + 1) (by omega)
        rw [hs, drop_drop, Nat.add_comm] at this
        exact this

/-! ## Elements that only send -/

/-- A transmit-only exchange between two elements: the channel is ready, or the last word written is still to
leave. -/
def Sending (c w : Nat) (K : ConfFields) (d : Desc) (s : State) (k : Nat) (acc : Byte) (t : State) : Prop :=
  (Exchanged c w K d s k acc [] t ∧ Ready K (t.rc.chan c)) ∨
  ∃ o, Exchanged c w K d s k acc (wordTrace c K.force w K.pol K.pha o none) t ∧ Asked (t.rc.chan c) ∧
    (t.rc.chan c).conf = confWord K ∧ (t.rc.chan c).startWord = o

/-- The poll for TXS of a transmit-only exchange (R196, R200). -/
theorem poll_sending {c w : Nat} {K : ConfFields} {d : Desc} (L : Link w K d) {s t : State}
    (hc : c < s.rc.nchan) (hq : OthersQuiet c s.rc) (ht : K.trm = 2#2) {k : Nat} {acc : Byte} (h : Sending c w K d s k acc t) :
    ∃ r t', poll c txsBit t = .ok (r, t') ∧
      (r = true → Exchanged c w K d s k acc [] t' ∧ Ready K (t'.rc.chan c)) ∧
      (r = false → Late c K d s t') ∧
      (Ready K (t.rc.chan c) → r = true ∧ t'.env.sched = t.env.sched) ∧
      (Asked (t.rc.chan c) → 2 ≤ (t.env.sched.answer Config.freeSchedule 0).count c → r = true ∧
        t'.env.sched = t.env.sched.drop 1) := by
  have h12 : K.trm ≠ 1#2 := by rw [ht]; decide
  rcases h with ⟨h, hr⟩ | ⟨o, h, ha, hx, ho⟩
  · obtain ⟨t1, p1, p2⟩ := poll_still (h.frame.has hc) ((h.frame.chan.quiet hq).still (hr.still h12)) hr.txs
    refine ⟨true, t1, p1, fun _ => ⟨h.polled p2, by rw [show t1.rc = t.rc by rw [p2]]; exact hr⟩,
      fun e => (by cases e), fun _ => ⟨rfl, by rw [p2]⟩, fun ha => ?_⟩
    have hrq : (t.rc.chan c).rxReq = false := by rw [hr.rxReq]; simpa using h12
    rcases ha.word with ⟨-, e, -⟩ | ⟨-, e, -⟩
    · rw [hrq] at e; cases e
    · rw [hr.txFull] at e; cases e
  · obtain ⟨c1, c2, c3, c4, c5⟩ := channel_confWord hx
    have hqt := h.frame.chan.quiet hq
    obtain ⟨r, t1, ph, h1, h2, h3, h4⟩ := poll_word (h.frame.has hc) ha hqt
      (.inl ⟨rfl, by rw [c2]; exact h12⟩ : txsBit = txsBit ∧ _ ∨ _) (WordAt.start c t)
    refine ⟨r, t1, h1, fun e => ?_, fun e => ⟨h.frame.trans h2.frame,
      ⟨t, ph, ha, hx, h2, fun f => (by rw [h3.2 f] at e; cases e)⟩, ⟨_, bitsIn w s, k * w, acc, rfl, by rw [h2.rest]; exact h.fill⟩⟩,
      fun hr => ?_,
      fun _ e => ⟨(h4 e).1, (h4 e).2 rfl⟩⟩
    · have hph := h3.1 e
      subst hph
      obtain ⟨f1, f2, f3, f4, f5, f6, f7⟩ := done_fields ha t
      have hwi : wordIn (t.rc.chan c) t = none := by simp [wordIn, c2, ht]
      refine ⟨⟨h.frame.trans h2.frame, ?_, ?_, by rw [h2.rest]; exact h.fill⟩, ?_⟩
      · rw [h2.word, h.word]; simp [drawnAt, c2, ht]
      · rw [List.append_nil, h2.trace, eventsAt_done t hx L.wl ho, if_pos ht, h.trace]
      · rw [h2.chan]
        refine ⟨f1.trans hx, by unfold Channel.en; rw [f2]; exact ha.en, f3, by rw [f6, hwi]; rfl, f4, ?_⟩
        rw [f5, ht]; rfl
    · rcases ha.word with ⟨-, e, -⟩ | ⟨-, e, -⟩
      · rw [hr.rxReq, ht] at e; cases e
      · rw [hr.txFull] at e; cases e

/-- One element of a transmit-only exchange: the word before has left, this one is written (R200). -/
theorem rcElement_sending {c w : Nat} {K : ConfFields} {d : Desc} (L : Link w K d) {s t : State}
    (hc : c < s.rc.nchan) (hq : OthersQuiet c s.rc) (ht : K.trm = 2#2) {k : Nat} {acc : Byte} (h : Sending c w K d s k acc t)
    (hk : k * w + w ≤ d.n.toNat) (last : Bool) :
    ∃ fine t', rcElement d c w k last acc t = .ok (fine, acc, t') ∧
      (fine = true → Sending c w K d s (k + 1) acc t' ∧ Asked (t'.rc.chan c)) ∧
      (fine = false → Late c K d s t') ∧
      (Ready K (t.rc.chan c) → fine = true ∧ t'.env.sched = t.env.sched) ∧
      (Asked (t.rc.chan c) → 2 ≤ (t.env.sched.answer Config.freeSchedule 0).count c → fine = true ∧
        t'.env.sched = t.env.sched.drop 1) := by
  have h1d : trmOf d ≠ 1#2 := by rw [← L.trm, ht]; decide
  have h2d : trmOf d = 2#2 := by rw [← L.trm, ht]
  obtain ⟨r, t1, p1, p2, p3, p4, p5⟩ := poll_sending L hc hq ht h
  cases r with
  | false =>
    exact ⟨false, t1, by simp [rcElement, rcSend_unseen h1d p1], fun e => (by cases e), p3,
      fun e => (by cases (p4 e).1), fun e f => (by cases (p5 e f).1)⟩
  | true =>
    obtain ⟨h', hr'⟩ := p2 rfl
    have ho := h'.outElem L hk
    obtain ⟨w1, w2, w3, w4⟩ := seqWrite_tx_ready L (by rw [ht]; decide) (h'.frame.has hc) (h'.frame.chan.quiet hq) hr'
      (v := outElem d.out d.flags.lsb s.mem w k) (lowBits_outElem ..)
    have hin : d.inp = none := trmOf_two h2d
    refine ⟨true, asked c (outElem d.out d.flags.lsb s.mem w k) t1,
      by simp [rcElement, rcSend_seen h1d p1 (by rw [ho]; exact w1), h2d], fun _ => ⟨.inr ⟨_, ⟨?_, ?_, ?_, ?_⟩, w2, w3, w4⟩, w2⟩,
      fun e => (by cases e), fun e => ⟨rfl, (p4 e).2⟩, fun e f => ⟨rfl, (p5 e f).2⟩⟩
    · exact h'.frame.trans (asked_frame c _ t1)
    · have := h'.word
      rw [if_pos ht] at this ⊢
      exact this
    · have := h'.trace
      rw [List.append_nil] at this
      show withoutPolls c (t1.trace ++ [rcW (.tx c) _]) ++ _ = _
      rw [withoutPolls_append, withoutPolls_rcW, this]
      simp [elemsTrace, elemTrace, ht]
    · have := h'.fill
      rw [hin] at this ⊢
      exact this

/-- All elements of a transmit-only exchange. -/
theorem rcElements_sending {c w : Nat} {K : ConfFields} {d : Desc} (L : Link w K d) {s : State}
    (hc : c < s.rc.nchan) (hq : OthersQuiet c s.rc) (ht : K.trm = 2#2) {rem k : Nat} {acc : Byte} {t : State}
    (h : Sending c w K d s k acc t) (hk : k + rem = d.n.toNat / w) :
    ∃ fine t', rcElements d c w rem k acc t = .ok (fine, t') ∧
      (fine = true → Sending c w K d s (d.n.toNat / w) acc t' ∧ (0 < rem → Asked (t'.rc.chan c))) ∧
      (fine = false → Late c K d s t') ∧
      (Ready K (t.rc.chan c) → 0 < rem → Willing c (rem - 1) t.env → fine = true ∧
        t'.env.sched = t.env.sched.drop (rem - 1)) ∧
      (Asked (t.rc.chan c) → Willing c rem t.env → fine = true ∧ t'.env.sched = t.env.sched.drop rem) := by
  induction rem generalizing k t with
  | zero =>
    have hk : k = d.n.toNat / w := hk
    exact ⟨true, t, rfl, fun _ => ⟨hk ▸ h, fun e => by omega⟩, fun e => (by cases e), fun _ e => by omega,
      fun _ _ => ⟨rfl, (drop_zero _).symm⟩⟩
  | succ rem ih =>
    have hkw : k * w + w ≤ d.n.toNat := by
      have h1 : (k + 1) * w ≤ d.n.toNat / w * w := Nat.mul_le_mul_right w (by omega)
      have h2 := Nat.div_mul_le_self d.n.toNat w
      rw [Nat.succ_mul] at h1
      omega
    obtain ⟨fine, u, g1, g2, g3, g4, g5⟩ := rcElement_sending L hc hq ht h hkw (rem == 0)
    cases fine with
    | false =>
      exact ⟨false, u, by simp [rcElements, g1], fun e => (by cases e), g3, fun e _ _ => (by cases (g4 e).1),
        fun e f => (by cases (g5 e (f 0 (by omega))).1)⟩
    | true =>
      obtain ⟨i1, i2⟩ := g2 rfl
      obtain ⟨fine', v, j1, j2, j3, -, j5⟩ := ih i1 (by omega)
      refine ⟨fine', v, by rw [rcElements, g1, ok_bind]; exact j1, fun e => ⟨(j2 e).1, fun _ => ?_⟩, j3,
        fun e _ f => ?_, fun e f => ?_⟩
      · cases rem with
        | zero => cases j1; exact i2
        | succ rem => exact (j2 e).2 (by omega)
      · have hs := (g4 e).2
        have := j5 i2 (by rw [Willing, hs]; exact f)
        rw [hs] at this
        exact this
      · have hs := (g5 e (f 0 (by omega))).2
        have := j5 i2 fun q hq => by
          rw [hs, answer_drop, Nat.add_comm]; exact f (q + 1) (by omega)
        rw [hs, drop_drop, Nat.add_comm] at this
        exact this

/-- The end of a transmit-only exchange: the last word has left, the channel is disabled (R200). -/
theorem rcDrain_sending {c w : Nat} {K : ConfFields} {d : Desc} (L : Link w K d) {s t : State}
    (hc : c < s.rc.nchan) (hq : OthersQuiet c s.rc) (ht : K.trm = 2#2) {k : Nat} {acc : Byte} (h : Sending c w K d s k acc t)
    (ha : Asked (t.rc.chan c)) :
    ∃ drained t', rcDrain d c t = .ok (drained, t') ∧
      (drained = true → RcFrame c s t' ∧ t'.mem = s.mem ∧ t'.env.word = s.env.word ∧
        withoutPolls c t'.trace = withoutPolls c s.trace ++ elemsTrace c K w (d.n.toNat / w)
          (outElem d.out d.flags.lsb s.mem w) (wordsIn w s) k ++ [rcW (.ctrl c) 0#32] ∧ Off K (t'.rc.chan c)) ∧
      (drained = false → Late c K d s t') ∧
      (2 ≤ (t.env.sched.answer Config.freeSchedule 0).count c → drained = true ∧
        t'.env.sched = t.env.sched.drop 1) := by
  have h2d : trmOf d = 2#2 := by rw [← L.trm, ht]
  have hin : d.inp = none := trmOf_two h2d
  obtain ⟨r, t1, p1, p2, p3, p4, p5⟩ := poll_sending L hc hq ht h
  cases r with
  | false =>
    exact ⟨false, t1, by simp [rcDrain, h2d, p1], fun e => (by cases e), p3, fun f => by cases (p5 ha f).1⟩
  | true =>
    obtain ⟨h', hr⟩ := p2 rfl
    have hs : anyMovable t1.rc = false :=
      (h'.frame.chan.quiet hq).still (hr.still (by rw [ht]; decide))
    generalize hy : ({ t1.rc.chan c with ctrl := 0#32, txFull := false, rxReq := false, busy := false } : Channel) = y
    have hw : seqWrite (.ctrl c) 0#32 t1 = .ok (setChan c y (emit (rcW (.ctrl c) 0#32) t1)) := by
      rw [seqWrite_still hs, rcWrite_ctrl_disable (h'.frame.has hc) hr.en, abortEvents_idle hr.busy, hy]
    refine ⟨true, setChan c y (emit (rcW (.ctrl c) 0#32) t1), by simp [rcDrain, h2d, p1, hw],
      fun _ => ⟨(h'.frame.trans (RcFrame.emit c _ t1)).trans (RcFrame.setChan c _ _), ?_, ?_, ?_, ?_⟩,
      fun e => (by cases e), fun f => ⟨rfl, (p5 ha f).2⟩⟩
    · have := h'.fill
      rw [hin] at this
      exact this
    · have := h'.word
      rw [if_pos ht, drop_zero] at this
      exact this
    · have := h'.trace
      rw [List.append_nil] at this
      show withoutPolls c (t1.trace ++ [rcW (.ctrl c) 0#32]) = _
      rw [withoutPolls_append, withoutPolls_rcW, this]
    · rw [chan_setChan_same (show c < (emit (rcW (.ctrl c) 0#32) t1).rc.nchan from h'.frame.has hc), ← hy]
      exact ⟨hr.conf, rfl, rfl, hr.rxFull, rfl, rfl⟩

/-! ## The timeout path (R201) -/

/-- From a poll that expired the timeout path meets no fault: the channel ends disabled, idle and not forced, the
secondary select not asserted. -/
theorem rcTimeout_spec {c : Nat} {K : ConfFields} {d : Desc} {S : Session} {s t : State} (hc : c < s.rc.nchan)
    (hq : OthersQuiet c s.rc) (h : Late c K d s t) :
    ∃ u, rcTimeout S c t = .ok (.error .timeout, cs2 .rc false u) ∧ RcFrame c s u ∧ u.mem = t.mem ∧
      (u.rc.chan c).conf = confWord (programConf S none (some false) K) ∧ (u.rc.chan c).ctrl = 0#32 ∧
      (u.rc.chan c).busy = false ∧ (u.rc.chan c).txFull = false ∧ (u.rc.chan c).rxReq = false := by
  obtain ⟨a, ph, ha, hx, hw, -⟩ := h.word
  have hct : c < t.rc.nchan := h.frame.has hc
  have hca : c < a.rc.nchan := hw.rc.nchan ▸ hct
  have hqt := h.frame.chan.quiet hq
  have hqa : OthersQuiet c a.rc := fun k hk hne => by
    rw [← hw.rc.chan k hne]; exact hqt k (hw.rc.nchan.symm ▸ hk) hne
  obtain ⟨t1, ph1, g1, g2, -⟩ := shifterGap_word hca ha hqa hw
  have hq1 : OthersQuiet c t1.rc := g2.rc.quiet hqa
  have hconf : (t1.rc.chan c).conf = confWord K := by
    rw [g2.chan]
    cases ph1 with
    | waiting => exact hx
    | busy => exact hx
    | done => exact (done_fields ha a).1.trans hx
  have hen : (t1.rc.chan c).en = true := by
    rw [g2.chan]
    cases ph1 with
    | waiting => exact ha.en
    | busy => exact ha.en
    | done => unfold Channel.en; rw [(done_fields ha a).2.1]; exact ha.en
  have hm1 : t1.mem = t.mem := by rw [g2.rest, hw.rest]
  have hf1 : RcFrame c t t1 := by
    have he : t1.env = { t.env with word := t1.env.word, tick := t1.env.tick, rounds := t1.env.rounds,
                                    sched := t1.env.sched } := g2.env.trans (by rw [hw.env])
    refine ⟨⟨?_, ?_, fun k hk => ?_⟩, ?_, g2.rest.trans ?_⟩
    · rw [g2.rc.nchan, hw.rc.nchan]
    · rw [g2.rc.shared, hw.rc.shared]
    · rw [g2.rc.chan k hk, hw.rc.chan k hk]
    · rw [g2.bus, hw.bus]
    · rw [← he, hm1, hw.rest]
  generalize hy : ({ t1.rc.chan c with ctrl := 0#32, txFull := false, rxReq := false, busy := false } : Channel) = y
  generalize ht2 : abortEvents c (t1.rc.chan c) (setChan c y (emit (rcW (.ctrl c) 0#32) t1)) = t2
  have hc1 : c < t1.rc.nchan := hf1.has hct
  have hw2 : seqWrite (.ctrl c) 0#32 t = .ok t2 := by
    rw [seqWrite, g1, ok_bind, rcWrite_ctrl_disable hc1 hen, hy, ht2]
  have he2 : t2.rc = (setChan c y (emit (rcW (.ctrl c) 0#32) t1)).rc ∧ RcFrame c t1 t2 ∧ t2.mem = t1.mem := by
    have hf : RcFrame c t1 (setChan c y (emit (rcW (.ctrl c) 0#32) t1)) :=
      (RcFrame.emit c _ t1).trans (RcFrame.setChan c _ _)
    rw [← ht2]
    unfold abortEvents
    split
    · simp only
      split
      · exact ⟨rfl, hf.trans (RcFrame.emit c _ _), rfl⟩
      · exact ⟨rfl, (hf.trans (RcFrame.emit c _ _)).trans (RcFrame.emit c _ _), rfl⟩
    · exact ⟨rfl, hf, rfl⟩
  obtain ⟨e1, e2, e3⟩ := he2
  have hce : c < (emit (rcW (.ctrl c) 0#32) t1).rc.nchan := hc1
  have hch2 : t2.rc.chan c = y := by rw [e1]; exact chan_setChan_same hce _
  have hyb : y.busy = false := by rw [← hy]
  have hye : y.en = false := by rw [← hy]; exact en_of_ctrl rfl
  have hyc : y.conf = confWord K := by rw [← hy]; exact hconf
  obtain ⟨u, k1, k2, k3, k4, k5⟩ := rcConf_still (S := S) (trm := none) (force := some false) (e2.has hc1)
    (e2.chan.quiet hq1) (by rw [hch2]; exact still_of_off hyb hye)
  rw [hch2, hyc, confFields_confWord, hye] at k3
  have hus : anyMovable u.rc = false := (k2.chan.quiet (e2.chan.quiet hq1)).still
    (by rw [k3]; exact still_of_off hyb hye)
  refine ⟨u, by simp [rcTimeout, hw2, k1, seqCs2_still hus], ((h.frame.trans hf1).trans e2).trans k2, by rw [k5, e3, hm1],
    by rw [k3], by rw [k3, ← hy], by rw [k3]; exact hyb, by rw [k3, ← hy], by rw [k3, ← hy]; simp⟩

/-! ## The begin and the end of an exchange -/

/-- The state once the secondary select of a begin phase is driven. -/
def begun (d : Desc) (s : State) : State := if d.flags.begins then cs2 .rc true s else s

theorem rcBeginCs2_still {s : State} (h : anyMovable s.rc = false) (d : Desc) : rcBeginCs2 d s = .ok (begun d s) := by
  unfold rcBeginCs2 begun
  rw [seqCs2_still h]
  split <;> rfl

theorem begun_rc (d : Desc) (s : State) : (begun d s).rc.chan = s.rc.chan ∧
    (begun d s).rc.shared = s.rc.shared ∧ (begun d s).rc.nchan = s.rc.nchan := by
  unfold begun cs2
  split
  · split <;> exact ⟨rfl, rfl, rfl⟩
  · exact ⟨rfl, rfl, rfl⟩

/-- CONF programmed for an exchange on a controller that stands still (R200). -/
theorem rcProgram_still {S : Session} {c : Nat} {d : Desc} {t : State} (hc : c < t.rc.nchan)
    (hq : OthersQuiet c t.rc) (hm : (t.rc.chan c).movable = false) (hb : (t.rc.chan c).busy = false) :
    ∃ t', rcProgram S c d t = .ok t' ∧ RcFrame c t t' ∧
      t'.rc.chan c = { t.rc.chan c with
        conf := confWord (programConf S (some (trmOf d)) (if d.flags.begins then some true else none)
          (confFields (t.rc.chan c).conf)),
        rxReq := if (programConf S (some (trmOf d)) (if d.flags.begins then some true else none)
            (confFields (t.rc.chan c).conf)).trm = 1#2 ∧ (t.rc.chan c).en = true
          then true else (t.rc.chan c).rxReq } ∧
      t'.trace = t.trace ++ confTrace c (if d.flags.begins then some true else none) (t.rc.chan c).conf
        (confWord (programConf S (some (trmOf d)) (if d.flags.begins then some true else none)
          (confFields (t.rc.chan c).conf))) ∧
      t' = { t with rc := t'.rc, trace := t'.trace } := by
  unfold rcProgram
  cases d.flags.begins with
  | true => exact rcPhase_still hc hq hm hb
  | false =>
    obtain ⟨u, k1, k2, k3, k4, k5⟩ := rcConf_still (S := S) (trm := some (trmOf d)) (force := none) hc hq hm
    rw [confEvents_same, List.append_nil] at k4
    · exact ⟨u, k1, k2, k3, k4, k5⟩
    · exact (channel_confWord (x := { t.rc.chan c with
        conf := confWord (programConf S (some (trmOf d)) none (confFields (t.rc.chan c).conf)) }) rfl).1.symm

/-- An exchange begins: the channel is enabled and its CONF programmed (R200). -/
theorem rcStart_spec {S : Session} {c : Nat} {d : Desc} {s : State} (hc : c < s.rc.nchan)
    (hq : RcQuiet c s.rc) {K : ConfFields}
    (hK : K = programConf S (some (trmOf d)) (if d.flags.begins then some true else none)
      (confFields (s.rc.chan c).conf)) :
    ∃ m a, seqWrite (.ctrl c) 1#32 s = .ok m ∧
      rcProgram S c d m = .ok a ∧ RcFrame c s a ∧ a.mem = s.mem ∧ a.env = s.env ∧ Ready K (a.rc.chan c) ∧
      a.trace = s.trace ++ [rcW (.ctrl c) 1#32] ++
        confTrace c (if d.flags.begins then some true else none) (s.rc.chan c).conf (confWord K) := by
  have hs : anyMovable s.rc = false := hq.others.still (still_of_off hq.busy hq.en)
  generalize hy : ({ s.rc.chan c with ctrl := 1#32, txFull := false, rxFull := false, rxReq := false } : Channel) = y
  have h1 : seqWrite (.ctrl c) 1#32 s = .ok (setChan c y (emit (rcW (.ctrl c) 1#32) s)) := by
    rw [seqWrite_still hs, rcWrite_ctrl_enable hc hq.en, hy]
  have hce : c < (emit (rcW (.ctrl c) 1#32) s).rc.nchan := hc
  have hch : (setChan c y (emit (rcW (.ctrl c) 1#32) s)).rc.chan c = y := chan_setChan_same hce _
  have hyb : y.busy = false := by rw [← hy]; exact hq.busy
  have hyc : y.conf = (s.rc.chan c).conf := by rw [← hy]
  have hye : y.en = true := by rw [← hy]; simp [Channel.en]
  have hym : y.movable = false := by
    rw [← hy] at hyb ⊢
    simp [Channel.movable, Channel.startable, Channel.receiveWaits]
    exact hyb
  have hf : RcFrame c s (setChan c y (emit (rcW (.ctrl c) 1#32) s)) :=
    (RcFrame.emit c _ s).trans (RcFrame.setChan c _ _)
  obtain ⟨a, k1, k2, k3, k4, k5⟩ := rcProgram_still (S := S) (d := d) (hf.has hc) (hf.chan.quiet hq.others)
    (by rw [hch]; exact hym) (by rw [hch]; exact hyb)
  rw [hch, hyc, ← hK] at k3 k4
  refine ⟨_, a, h1, k1, hf.trans k2, by rw [k5]; rfl, by rw [k5]; rfl, ?_, ?_⟩
  · rw [k3]
    have htrm : K.trm = trmOf d := by rw [hK]; rfl
    refine ⟨rfl, hye, hyb, by rw [← hy], by rw [← hy], ?_⟩
    have hr : y.rxReq = false := by rw [← hy]
    by_cases e : K.trm = 1#2 <;> simp [e, hye, hr]
  · rw [k4]; simp [setChan, emit]

/-- The end of an exchange: FORCE is cleared, the select event performed, and the secondary select falls (R199, R200). -/
theorem rcEnd_spec {S : Session} {c : Nat} {d : Desc} (he : d.flags.ends = true) {t : State} (hc : c < t.rc.nchan)
    (hq : RcQuiet c t.rc) {K : ConfFields} (hK : (t.rc.chan c).conf = confWord K) :
    ∃ u, rcEnd S c d t = .ok (cs2 .rc false u) ∧ RcFrame c t u ∧
      u.rc.chan c = { t.rc.chan c with conf := confWord (programConf S none (some false) K) } ∧
      u = { t with
        rc := u.rc,
        trace := t.trace ++ confTrace c (some false) (confWord K) (confWord (programConf S none (some false) K)) } := by
  obtain ⟨u, k1, k2, k3, k4, k5⟩ := rcPhase_still (S := S) (trm := none) (a := false) hc hq.others
    (still_of_off hq.busy hq.en) hq.busy
  rw [hK, confFields_confWord] at k3 k4
  have hus : anyMovable u.rc = false := (k2.chan.quiet hq.others).still (by
    rw [k3]; exact still_of_off hq.busy (x := { t.rc.chan c with conf := _, rxReq := _ }) hq.en)
  refine ⟨u, by simp [rcEnd, he, k1, seqCs2_still hus], k2, ?_, by rw [k4] at k5; exact k5⟩
  rw [k3, hq.en]
  simp

theorem Off.quiet {c : Nat} {K : ConfFields} {r : RcBus} (ho : OthersQuiet c r) (h : Off K (r.chan c)) :
    RcQuiet c r := ⟨ho, h.busy, en_of_ctrl h.ctrl⟩

/-- All elements and what follows the last one: with none left the channel is off, otherwise a poll expired. -/
theorem rcElements_drained {c w : Nat} {K : ConfFields} {d : Desc} (L : Link w K d) {a : State}
    (hc : c < a.rc.nchan) (hq : OthersQuiet c a.rc) (hr : Ready K (a.rc.chan c)) (hwf : Memory.wf a.mem = true)
    (hm : 0 < d.n.toNat / w) (hn : d.n.toNat / w * w = d.n.toNat) :
    ∃ fine t, rcElements d c w (d.n.toNat / w) 0 0#8 a = .ok (fine, t) ∧ (fine = false → Late c K d a t) ∧
      (fine = true → ∃ drained u, rcDrain d c t = .ok (drained, u) ∧
        (drained = true → RcFrame c a u ∧ Off K (u.rc.chan c) ∧
          u.env.word = a.env.word.drop (if K.trm = 2#2 then 0 else d.n.toNat / w) ∧
          withoutPolls c u.trace = withoutPolls c a.trace ++
            elemsTrace c K w (d.n.toNat / w) (outElem d.out d.flags.lsb a.mem w) (wordsIn w a) (d.n.toNat / w) ++
            whenSet (K.trm == 2#2) [rcW (.ctrl c) 0#32] ∧
          InputStoredAt d.inp false d.n.toNat (bitsIn w a) a.mem u.mem ∧ Memory.wf u.mem = true) ∧
        (drained = false → Late c K d a u) ∧
        (Willing c (d.n.toNat / w) a.env → drained = true ∧
          u.env.sched = a.env.sched.drop (d.n.toNat / w))) ∧
      (Willing c (d.n.toNat / w) a.env → fine = true) := by
  have h0 : Exchanged c w K d a 0 0#8 [] a := by
    refine ⟨.refl c a, by simp, by simp [elemsTrace], ?_⟩
    rw [Nat.zero_mul]
    exact FillingAt.start hwf
  have hwfin : ∀ {k acc m}, FillingAt d.inp false d.n.toNat (bitsIn w a) a.mem k acc m → Memory.wf m = true := by
    intro k acc m h
    unfold FillingAt at h
    split at h
    · exact h.wf
    · rw [h]; exact hwf
  by_cases ht : K.trm = 2#2
  · have hin : d.inp = none := trmOf_two (by rw [← L.trm, ht])
    have hra := hr
    obtain ⟨fine, t, e1, e2, e3, e4, -⟩ := rcElements_sending L hc hq ht (.inl ⟨h0, hr⟩) (Nat.zero_add (d.n.toNat / w))
    have hresp : Willing c (d.n.toNat / w) a.env → fine = true ∧
        2 ≤ (t.env.sched.answer Config.freeSchedule 0).count c ∧
        t.env.sched.drop 1 = a.env.sched.drop (d.n.toNat / w) := fun f => by
      obtain ⟨h1, h2⟩ := e4 hr hm fun q hq => f q (by omega)
      refine ⟨h1, ?_, ?_⟩
      · rw [h2, answer_drop, Nat.add_zero]
        exact f _ (by omega)
      · rw [h2, drop_drop, Nat.sub_add_cancel hm]
    refine ⟨fine, t, e1, e3, fun f => ?_, fun f => (hresp f).1⟩
    obtain ⟨i1, i2⟩ := e2 f
    obtain ⟨dr, u, g1, g2, g3, g4⟩ := rcDrain_sending L hc hq ht i1 (i2 hm)
    refine ⟨dr, u, g1, fun e => ?_, g3, fun f => ?_⟩
    · obtain ⟨j1, j2, j3, j4, j5⟩ := g2 e
      refine ⟨j1, j5, by rw [j3, if_pos ht, drop_zero], ?_, by rw [hin]; exact j2, by rw [j2]; exact hwf⟩
      rw [j4, ht]; rfl
    · obtain ⟨h1, h2, h3⟩ := hresp f
      rw [← h3]
      exact g4 h2
  · have htd : trmOf d ≠ 2#2 := by rw [← L.trm]; exact ht
    obtain ⟨fine, t, e1, e2, e3, e4⟩ := rcElements_receiving L hc hq ht h0 hr hm (Nat.zero_add (d.n.toNat / w))
    refine ⟨fine, t, e1, e3, fun f => ⟨true, t, by simp [rcDrain, htd], fun _ => ?_, fun e => (by cases e),
      fun g => ⟨rfl, (e4 g).2⟩⟩, fun g => (e4 g).1⟩
    obtain ⟨acc, i1, i2⟩ := e2 f
    have hfill := i1.fill
    rw [hn] at hfill
    refine ⟨i1.frame, i2, i1.word, ?_, hfill.finish, hwfin hfill⟩
    have := i1.trace
    rw [List.append_nil] at this
    rw [this]
    simp [whenSet, ht]

/-! ## The exchange as a whole -/

theorem direction_eq (d : Desc) : direction d = trmOf d := by
  unfold direction trmOf; cases d.out <;> cases d.inp <;> rfl

theorem programConf_direction (S : Session) (t : BitVec 2) (f : Option Bool) (v : Word) :
    programConf S (some t) f (confFields v) = sessionConf S t (f.getD (v.getLsbD 20)) := rfl

theorem withoutPolls_pins (c : Nat) (l : List PinEvent) : withoutPolls c (pins l) = pins l := by
  induction l with
  | nil => rfl
  | cons e l ih => simp [pins] at *; exact ih

theorem withoutPolls_confTrace (c : Nat) (p : Option Bool) (a b : Word) :
    withoutPolls c (confTrace c p a b) = confTrace c p a b := by
  unfold confTrace
  rw [withoutPolls_append, show [rcR (.conf c) a, rcW (.conf c) b] = [rcR (.conf c) a] ++ [rcW (.conf c) b] from rfl,
    withoutPolls_append]
  cases p <;> simp

/-- The secondary select before an exchange. -/
theorem begun_eq (d : Desc) (s : State) : begun d s = { s with
    rc := { s.rc with bus := { s.rc.bus with
      cs2Asserted := if d.flags.begins ∧ s.rc.bus.profile.hasCs2 then true else s.rc.bus.cs2Asserted } },
    trace := s.trace ++ whenSet d.flags.begins (pins (cs2Events .rc s.rc.bus.profile true)) } := by
  unfold begun
  cases d.flags.begins
  · simp [whenSet]
  · simp only [if_true, cs2_rc_spec, whenSet]; simp

/-- The word length and the direction of a legal exchange fit together, and it has an element. -/
theorem link_of_legal {S : Session} {d : Desc} (h : Legal .rc S d) (hn : d.n ≠ 0#32)
    (f : Bool) : Link S.wordlen.toNat (sessionConf S (trmOf d) f) d ∧ 0 < d.n.toNat / S.wordlen.toNat ∧
      d.n.toNat / S.wordlen.toNat * S.wordlen.toNat = d.n.toNat := by
  have h1 := h.wordlen
  have hw := wl_toNat h1.1 h1.2
  have hn : d.n.toNat ≠ 0 := fun h => hn (BitVec.eq_of_toNat_eq (by simpa using h))
  have hd := Nat.div_mul_cancel (Nat.dvd_of_mod_eq_zero h.words)
  refine ⟨⟨?_, ?_, rfl, h.buffers⟩, ?_, hd⟩
  · show ((S.wordlen - 1#8).setWidth 5).toNat + 1 = _; omega
  · show 3 ≤ ((S.wordlen - 1#8).setWidth 5).toNat; omega
  · apply Nat.pos_of_ne_zero; intro h; rw [h] at hd; omega

/-- How an exchange that met no timeout ends: `a` is the state once CONF is programmed, `u` the one after the last
element. -/
structure RcDone (c : Nat) (S : Session) (d : Desc) (K : ConfFields) (a u t : State) : Prop where
  frame : RcFrame c a u
  off : Off K (u.rc.chan c)
  word : u.env.word = a.env.word.drop (if K.trm = 2#2 then 0 else d.n.toNat / S.wordlen.toNat)
  trace : withoutPolls c u.trace = withoutPolls c a.trace ++
    elemsTrace c K S.wordlen.toNat (d.n.toNat / S.wordlen.toNat)
      (outElem d.out d.flags.lsb a.mem S.wordlen.toNat) (wordsIn S.wordlen.toNat a) (d.n.toNat / S.wordlen.toNat) ++
    whenSet (K.trm == 2#2) [rcW (.ctrl c) 0#32]
  stored : InputStoredAt d.inp false d.n.toNat (bitsIn S.wordlen.toNat a) a.mem u.mem
  wf : Memory.wf u.mem = true
  held : d.flags.ends = false → t = u
  freed : d.flags.ends = true → ∃ v, t = cs2 .rc false v ∧ RcFrame c u v ∧
    v.rc.chan c = { u.rc.chan c with conf := confWord (sessionConf S K.trm false) } ∧
    v = { u with
      rc := v.rc,
      trace := u.trace ++ confTrace c (some false) (confWord K) (confWord (sessionConf S K.trm false)) }

/-- How an exchange that met a timeout ends. -/
structure RcLate (c : Nat) (S : Session) (d : Desc) (K : ConfFields) (a t : State) : Prop where
  late : ∃ u v, Late c K d a u ∧ t = cs2 .rc false v ∧ RcFrame c a v ∧ v.mem = u.mem ∧
    (v.rc.chan c).conf = confWord (sessionConf S K.trm false) ∧ (v.rc.chan c).ctrl = 0#32 ∧
    (v.rc.chan c).busy = false ∧ (v.rc.chan c).txFull = false ∧ (v.rc.chan c).rxReq = false

/-- What an exchange of RC does from a quiet controller (R200, R201): it meets no fault, and a timer reading that ends
a poll leaves its channel with a step to make. -/
theorem rcExchange_spec {S : Session} {d : Desc} (hg : Legal .rc S d) (hn : d.n ≠ 0#32) {c : Nat} {s : State}
    (hc : c < s.rc.nchan) (hq : RcQuiet c s.rc) (hwf : Memory.wf s.mem = true) {K : ConfFields}
    (hK : K = sessionConf S (trmOf d) (d.flags.begins || (s.rc.chan c).conf.getLsbD 20)) :
    ∃ r t a, rcExchange S c d s = .ok (r, t) ∧ RcFrame c (begun d s) a ∧ a.mem = s.mem ∧ a.env = s.env ∧
      a.trace = (begun d s).trace ++ [rcW (.ctrl c) 1#32] ++
        confTrace c (if d.flags.begins then some true else none) (s.rc.chan c).conf (confWord K) ∧
      ((r = .count d.n ∧ (∃ u, RcDone c S d K a u t) ∧
          (Willing c (d.n.toNat / S.wordlen.toNat) s.env →
            t.env.sched = s.env.sched.drop (d.n.toNat / S.wordlen.toNat))) ∨
        (r = .error .timeout ∧ (∃ u, rcShift S c d s = .ok (false, u) ∧ (u.rc.chan c).movable = true) ∧
          ¬ Willing c (d.n.toNat / S.wordlen.toNat) s.env ∧ RcLate c S d K a t)) := by
  obtain ⟨L, hm, hn⟩ := link_of_legal hg hn (d.flags.begins || (s.rc.chan c).conf.getLsbD 20)
  have hb := begun_rc d s
  have hs : anyMovable s.rc = false := hq.others.still (still_of_off hq.busy hq.en)
  have hb0 := rcBeginCs2_still hs d
  have hcb : c < (begun d s).rc.nchan := hb.2.2 ▸ hc
  have hqb : RcQuiet c (begun d s).rc :=
    ⟨fun k h1 h2 => by rw [hb.1]; exact hq.others k (hb.2.2 ▸ h1) h2, by rw [hb.1]; exact hq.busy, by rw [hb.1]; exact hq.en⟩
  have hmem : (begun d s).mem = s.mem := by rw [begun_eq]
  have henv : (begun d s).env = s.env := by rw [begun_eq]
  have hKe : K = programConf S (some (trmOf d)) (if d.flags.begins then some true else none)
      (confFields ((begun d s).rc.chan c).conf) := by
    rw [programConf_direction, hb.1, hK]; cases d.flags.begins <;> rfl
  obtain ⟨m, a, s1, s2, s3, s4, s5, s6, s7⟩ := rcStart_spec (S := S) hcb hqb hKe
  have hpc : programConf S none (some false) K = sessionConf S K.trm false := by rw [hK]; rfl
  rw [← hK] at L
  rw [hb.1] at s7
  have hqa : OthersQuiet c a.rc := s3.chan.quiet hqb.others
  have hae : a.env = s.env := by rw [s5, henv]
  have hca : c < a.rc.nchan := s3.has hcb
  obtain ⟨fine, t, e1, e2, e3, e4⟩ := rcElements_drained L hca hqa s6 (by rw [s4, hmem]; exact hwf) hm hn
  rw [hae] at e3 e4
  have hshift : ∀ {r u}, (if fine = true then rcDrain d c t else Except.ok (false, t)) = .ok (r, u) →
      rcShift S c d s = .ok (r, u) := fun h => by
    simp only [rcShift, hb0, s1, ok_bind, s2, e1]; exact h
  have hlate : ∀ {u}, rcShift S c d s = .ok (false, u) → Late c K d a u →
      ¬ Willing c (d.n.toNat / S.wordlen.toNat) s.env → ∃ r v, rcExchange S c d s = .ok (r, v) ∧
        r = .error .timeout ∧ (∃ u, rcShift S c d s = .ok (false, u) ∧ (u.rc.chan c).movable = true) ∧
          ¬ Willing c (d.n.toNat / S.wordlen.toNat) s.env ∧ RcLate c S d K a v := fun hu hl hw => by
    obtain ⟨v, g1, g2, g3, g4, g5, g6, g7, g8⟩ := rcTimeout_spec (S := S) hca hqa hl
    exact ⟨_, _, by simp [rcExchange, hu, g1], rfl, ⟨_, hu, hl.movable⟩, hw,
      ⟨_, v, hl, rfl, g2, g3, by rw [← hpc]; exact g4, g5, g6, g7, g8⟩⟩
  cases fine with
  | false =>
    obtain ⟨r, v, x1, x2⟩ := hlate (hshift rfl) (e2 rfl) fun h => by cases e4 h
    exact ⟨r, v, a, x1, s3, by rw [s4, hmem], hae, s7, .inr x2⟩
  | true =>
    obtain ⟨dr, u, f1, f2, f3, f4⟩ := e3 rfl
    have hu := hshift f1
    cases dr with
    | false =>
      obtain ⟨r, v, x1, x2⟩ := hlate hu (f3 rfl) fun h => by cases (f4 h).1
      exact ⟨r, v, a, x1, s3, by rw [s4, hmem], hae, s7, .inr x2⟩
    | true =>
      obtain ⟨j1, j2, j3, j4, j5, j6⟩ := f2 rfl
      cases hn : d.flags.ends with
      | false =>
        exact ⟨_, _, a, by simp [rcExchange, hu, rcEnd, hn], s3,
          by rw [s4, hmem], hae, s7, .inl ⟨rfl, ⟨u, j1, j2, by rw [hae]; exact j3, j4, j5, j6, fun _ => rfl,
            fun e => by rw [hn] at e; cases e⟩, fun g => (f4 g).2⟩⟩
      | true =>
        obtain ⟨v, k1, k2, k3, k4⟩ := rcEnd_spec (S := S) hn (j1.has hca) (j2.quiet (j1.chan.quiet hqa)) j2.conf
        rw [hpc] at k3 k4
        refine ⟨_, _, a, by simp [rcExchange, hu, k1], s3, by rw [s4, hmem],
          hae, s7, .inl ⟨rfl, ⟨u, j1, j2, by rw [hae]; exact j3, j4, j5, j6, fun e => (by rw [hn] at e; cases e),
            fun _ => ⟨v, rfl, k2, k3, k4⟩⟩, fun g => ?_⟩⟩
        rw [cs2_rc_spec, k4]
        exact (f4 g).2

end Sys2Proof.Machine
end

