-- ==== Sys2Proof/Laws/RcTouch.lean ====
section
/-! SUPPORT. Two laws of RC's sequencer: which registers a transfer accesses (spec 42_regctl R204), and what it does
when the shifter never moves (R201, R184). -/

namespace Sys2Proof.Machine

/-! ## Which registers are accessed -/

/-- The register belongs to channel `c`. -/
def RcReg.ofChan (c : Nat) (g : RcReg) : Prop :=
  g = .conf c ∨ g = .stat c ∨ g = .ctrl c ∨ g = .tx c ∨ g = .rx c

/-- Between the two states only registers of channel `c` were accessed, and SHARED is as it was. -/
structure RcTouch (c : Nat) (s t : State) : Prop where
  regs : ∃ l, regTrace t.trace = regTrace s.trace ++ l ∧
    ∀ a, a ∈ l → ∃ g, RcReg.ofChan c g ∧ a.reg = .rc g
  shared : t.rc.shared = s.rc.shared

theorem regTrace_append (a b : List Obs) : regTrace (a ++ b) = regTrace a ++ regTrace b := List.filterMap_append

@[simp] theorem regTrace_pins (l : List PinEvent) : regTrace (pins l) = [] := by
  induction l with
  | nil => rfl
  | cons e l ih => simp [pins, regTrace] at *

theorem RcTouch.of_eq {c : Nat} {s t : State} (h1 : t.trace = s.trace) (h2 : t.rc.shared = s.rc.shared) :
    RcTouch c s t := ⟨⟨[], by simp [h1], fun _ h => by cases h⟩, h2⟩

theorem RcTouch.refl (c : Nat) (s : State) : RcTouch c s s := .of_eq rfl rfl

theorem RcTouch.trans {c : Nat} {s t u : State} (a : RcTouch c s t) (b : RcTouch c t u) : RcTouch c s u := by
  obtain ⟨l, h1, h2⟩ := a.regs
  obtain ⟨m, h3, h4⟩ := b.regs
  refine ⟨⟨l ++ m, by rw [h3, h1, List.append_assoc], fun x hx => ?_⟩, b.shared.trans a.shared⟩
  rcases List.mem_append.1 hx with hx | hx
  · exact h2 x hx
  · exact h4 x hx

theorem RcTouch.of_pins {c : Nat} {s t : State} {l : List PinEvent} (h1 : t.trace = s.trace ++ pins l)
    (h2 : t.rc.shared = s.rc.shared) : RcTouch c s t :=
  ⟨⟨[], by rw [h1, regTrace_append, regTrace_pins], fun _ h => by cases h⟩, h2⟩

theorem Shifted.touch {s t : State} (h : Shifted s t) (c : Nat) : RcTouch c s t := by
  obtain ⟨l, hl⟩ := h.pins
  exact .of_pins hl h.shared

theorem rcLog_touch {c : Nat} {g : RcReg} (hg : RcReg.ofChan c g) (wr : Bool) (v : Word) (s : State) :
    RcTouch c s (rcLog wr g v s) := by
  refine ⟨⟨[{ reg := .rc g, write := wr, width := 32, value := v }], ?_, ?_⟩, rfl⟩
  · show regTrace (s.trace ++ [.reg _]) = _
    rw [regTrace_append]; rfl
  · intro a ha
    cases List.mem_singleton.1 ha
    exact ⟨g, hg, rfl⟩

theorem emitPin_touch (c : Nat) (e : PinEvent) (s : State) : RcTouch c s (emitPin e s) :=
  .of_pins (l := [e]) rfl rfl

theorem setChan_touch (c k : Nat) (x : Channel) (s : State) : RcTouch c s (setChan k x s) := .of_eq rfl rfl

theorem confSelectEvent_touch (c k : Nat) (old new : Channel) (s : State) :
    RcTouch c s (confSelectEvent k old new s) := by
  unfold confSelectEvent
  repeat' split
  all_goals first | exact .refl _ _ | exact emitPin_touch _ _ _

theorem abortEvents_touch (c k : Nat) (x : Channel) (s : State) : RcTouch c s (abortEvents k x s) := by
  unfold abortEvents
  simp only
  repeat' split
  all_goals first
    | exact .refl _ _
    | exact emitPin_touch _ _ _
    | exact (emitPin_touch _ _ _).trans (emitPin_touch _ _ _)

theorem rcWrite_touch {c : Nat} {g : RcReg} (hg : RcReg.ofChan c g) {v : Word} {s t : State}
    (h : rcWrite g v s = .ok t) : RcTouch c s t := by
  unfold rcWrite at h
  split at h
  · refine (rcLog_touch hg true v s).trans ?_
    rcases hg with rfl | rfl | rfl | rfl | rfl
    · have h : confWrite c v _ = .ok t := h
      unfold confWrite at h
      simp only at h
      split at h
      · cases h
      · cases h
        exact (setChan_touch c c _ _).trans (confSelectEvent_touch c c _ _ _)
    · cases h; exact .refl _ _
    · cases h
      unfold ctrlWrite
      simp only
      split
      · exact setChan_touch _ _ _ _
      · split
        · exact (setChan_touch c c _ _).trans (abortEvents_touch c c _ _)
        · exact setChan_touch _ _ _ _
    · have h : txWrite c v _ = .ok t := h
      unfold txWrite at h
      simp only at h
      split at h
      · cases h
      · cases h; exact setChan_touch _ _ _ _
    · cases h; exact .refl _ _
  · cases h

theorem rcRead_touch {c : Nat} {g : RcReg} (hg : RcReg.ofChan c g) {v : Word} {s t : State}
    (h : rcRead g s = .ok (v, t)) : RcTouch c s t := by
  unfold rcRead at h
  split at h
  · have hg' := hg
    rcases hg with rfl | rfl | rfl | rfl | rfl
    · cases h; exact rcLog_touch hg' _ _ _
    · cases h; exact rcLog_touch hg' _ _ _
    · cases h; exact rcLog_touch hg' _ _ _
    · cases h; exact rcLog_touch hg' _ _ _
    · simp only at h
      split at h
      · cases h
        exact (setChan_touch c c _ s).trans (rcLog_touch hg' _ _ _)
      · cases h
  · cases h

theorem seqWrite_touch {c : Nat} {g : RcReg} (hg : RcReg.ofChan c g) {v : Word} {s t : State}
    (h : seqWrite g v s = .ok t) : RcTouch c s t := by
  obtain ⟨m, h1, h2⟩ := bind_eq_ok.1 h
  exact ((shifterGap_shifted h1).touch c).trans (rcWrite_touch hg h2)

theorem seqRead_touch {c : Nat} {g : RcReg} (hg : RcReg.ofChan c g) {v : Word} {s t : State}
    (h : seqRead g s = .ok (v, t)) : RcTouch c s t := by
  obtain ⟨m, h1, h2⟩ := bind_eq_ok.1 h
  exact ((shifterGap_shifted h1).touch c).trans (rcRead_touch hg h2)

theorem pollRounds_touch {c b t0 k : Nat} {s t : State} {r : Bool} (h : pollRounds c b t0 k s = .ok (r, t)) :
    RcTouch c s t := by
  induction k generalizing s with
  | zero =>
    obtain ⟨⟨v, m⟩, h1, h2⟩ := bind_eq_ok.1 h
    refine (seqRead_touch (.inr (.inl rfl)) h1).trans ?_
    simp only at h2
    split at h2
    · cases h2; exact .refl _ _
    · cases h2; exact .of_eq rfl rfl
  | succ k ih =>
    obtain ⟨⟨v, m⟩, h1, h2⟩ := bind_eq_ok.1 h
    refine (seqRead_touch (.inr (.inl rfl)) h1).trans ?_
    simp only at h2
    split at h2
    · cases h2; exact .refl _ _
    · refine RcTouch.trans (t := (readNow m).2) (.of_eq rfl rfl) ?_
      split at h2
      · cases h2; exact .refl _ _
      · exact ih h2

theorem poll_touch {c b : Nat} {s t : State} {r : Bool} (h : poll c b s = .ok (r, t)) : RcTouch c s t :=
  RcTouch.trans (t := (drawRounds (readNow s).2).2) (.of_eq rfl rfl) (pollRounds_touch h)

theorem rcConf_touch {S : Session} {c : Nat} {trm : Option (BitVec 2)} {force : Option Bool} {s t : State}
    (h : rcConf S c trm force s = .ok t) : RcTouch c s t := by
  obtain ⟨⟨v, m⟩, h1, h2⟩ := bind_eq_ok.1 h
  exact (seqRead_touch (.inl rfl) h1).trans (seqWrite_touch (.inl rfl) h2)

/-- A begin or end phase touches its channel's CONF, and has pin events. -/
theorem rcPhase_touch {S : Session} {c : Nat} {trm : Option (BitVec 2)} {a : Bool} {s t : State}
    (h : rcPhase S c trm a s = .ok t) : RcTouch c s t := by
  obtain ⟨⟨v, m⟩, h1, h⟩ := bind_eq_ok.1 h
  obtain ⟨m2, h2, h⟩ := bind_eq_ok.1 h
  obtain ⟨m3, h3, h⟩ := bind_eq_ok.1 h
  cases h
  refine ((seqRead_touch (.inl rfl) h1).trans (seqWrite_touch (.inl rfl) (bind_eq_ok.2 ⟨m2, h2, h3⟩))).trans ?_
  unfold repeatSelect
  split
  · exact .of_pins (l := [.cs .rc c a]) rfl rfl
  · exact .refl _ _

theorem cs2_touch (c : Nat) (a : Bool) (s : State) : RcTouch c s (cs2 .rc a s) := by
  rw [cs2_rc_spec]; exact .of_pins rfl rfl

theorem seqCs2_touch {c : Nat} {a : Bool} {s t : State} (h : seqCs2 a s = .ok t) : RcTouch c s t := by
  obtain ⟨m, h1, h2⟩ := bind_eq_ok.1 h
  cases h2
  exact ((shifterGap_shifted h1).touch c).trans (cs2_touch c a m)

theorem putInElem_touch (c : Nat) (inp : Option Nat) (n : Nat) (r : Word) (j k : Nat) (acc : Byte) (s : State) :
    RcTouch c s (putInElem inp n r j k acc s).2 := by
  rw [putInElem_eq]; exact .of_eq rfl rfl

theorem rcReceive_touch {d : Desc} {c w i : Nat} {last : Bool} {acc : Byte} {s t : State} {r : Bool} {b : Byte}
    (h : rcReceive d c w i last acc s = .ok (r, b, t)) : RcTouch c s t := by
  obtain ⟨⟨seen, m⟩, h1, h2⟩ := bind_eq_ok.1 h
  refine (poll_touch h1).trans ?_
  simp only at h2
  split at h2
  · obtain ⟨m1, h3, h4⟩ := bind_eq_ok.1 h2
    obtain ⟨⟨v, m2⟩, h5, h6⟩ := bind_eq_ok.1 h4
    cases h6
    refine RcTouch.trans ?_ ((seqRead_touch (.inr (.inr (.inr (.inr rfl)))) h5).trans (putInElem_touch _ _ _ _ _ _ _ _))
    unfold rcDisableLast at h3
    split at h3
    · exact seqWrite_touch (.inr (.inr (.inl rfl))) h3
    · cases h3; exact .refl _ _
  · cases h2; exact .refl _ _

theorem rcSend_touch {d : Desc} {c w i : Nat} {s t : State} {r : Bool} (h : rcSend d c w i s = .ok (r, t)) :
    RcTouch c s t := by
  unfold rcSend at h
  split at h
  · cases h; exact .refl _ _
  · obtain ⟨⟨seen, m⟩, h1, h2⟩ := bind_eq_ok.1 h
    refine (poll_touch h1).trans ?_
    simp only at h2
    split at h2
    · obtain ⟨m1, h3, h4⟩ := bind_eq_ok.1 h2
      cases h4
      exact seqWrite_touch (.inr (.inr (.inr (.inl rfl)))) h3
    · cases h2; exact .refl _ _

theorem rcElement_touch {d : Desc} {c w i : Nat} {last : Bool} {acc : Byte} {s t : State} {r : Bool} {b : Byte}
    (h : rcElement d c w i last acc s = .ok (r, b, t)) : RcTouch c s t := by
  obtain ⟨⟨sent, m⟩, h1, h2⟩ := bind_eq_ok.1 h
  refine (rcSend_touch h1).trans ?_
  simp only at h2
  split at h2
  · split at h2
    · cases h2; exact .refl _ _
    · exact rcReceive_touch h2
  · cases h2; exact .refl _ _

theorem rcElements_touch {d : Desc} {c w rem i : Nat} {acc : Byte} {s t : State} {r : Bool}
    (h : rcElements d c w rem i acc s = .ok (r, t)) : RcTouch c s t := by
  induction rem generalizing i acc s with
  | zero => cases h; exact .refl _ _
  | succ rem ih =>
    obtain ⟨⟨fine, b, m⟩, h1, h2⟩ := bind_eq_ok.1 h
    refine (rcElement_touch h1).trans ?_
    simp only at h2
    split at h2
    · exact ih h2
    · cases h2; exact .refl _ _

theorem rcDrain_touch {d : Desc} {c : Nat} {s t : State} {r : Bool} (h : rcDrain d c s = .ok (r, t)) :
    RcTouch c s t := by
  unfold rcDrain at h
  split at h
  · obtain ⟨⟨seen, m⟩, h1, h2⟩ := bind_eq_ok.1 h
    refine (poll_touch h1).trans ?_
    simp only at h2
    split at h2
    · obtain ⟨m1, h3, h4⟩ := bind_eq_ok.1 h2
      cases h4
      exact seqWrite_touch (.inr (.inr (.inl rfl))) h3
    · cases h2; exact .refl _ _
  · cases h; exact .refl _ _

theorem rcTimeout_touch {S : Session} {c : Nat} {s t : State} {r : OpResult} (h : rcTimeout S c s = .ok (r, t)) :
    RcTouch c s t := by
  obtain ⟨m, h1, h2⟩ := bind_eq_ok.1 h
  obtain ⟨m1, h3, h4⟩ := bind_eq_ok.1 h2
  obtain ⟨m2, h5, h6⟩ := bind_eq_ok.1 h4
  cases h6
  exact ((seqWrite_touch (.inr (.inr (.inl rfl))) h1).trans (rcConf_touch h3)).trans (seqCs2_touch h5)

theorem rcBeginCs2_touch {c : Nat} {d : Desc} {s t : State} (h : rcBeginCs2 d s = .ok t) : RcTouch c s t := by
  unfold rcBeginCs2 at h
  split at h
  · exact seqCs2_touch h
  · cases h; exact .refl _ _

theorem rcEnd_touch {S : Session} {c : Nat} {d : Desc} {s t : State} (h : rcEnd S c d s = .ok t) :
    RcTouch c s t := by
  unfold rcEnd at h
  split at h
  · obtain ⟨m, h1, h2⟩ := bind_eq_ok.1 h
    exact (rcPhase_touch h1).trans (seqCs2_touch h2)
  · cases h; exact .refl _ _

theorem rcSelectOnly_touch {S : Session} {c : Nat} {d : Desc} {s t : State} {r : OpResult}
    (h : rcSelectOnly S c d s = .ok (r, t)) : RcTouch c s t := by
  obtain ⟨m, h1, h2⟩ := bind_eq_ok.1 h
  obtain ⟨m1, h3, h4⟩ := bind_eq_ok.1 h2
  cases h4
  refine RcTouch.trans ?_ (rcEnd_touch h3)
  obtain ⟨m2, h5, h6⟩ := bind_eq_ok.1 h1
  refine (rcBeginCs2_touch h5).trans ?_
  split at h6
  · exact rcPhase_touch h6
  · cases h6; exact .refl _ _

theorem rcProgram_touch {S : Session} {c : Nat} {d : Desc} {s t : State} (h : rcProgram S c d s = .ok t) :
    RcTouch c s t := by
  unfold rcProgram at h
  split at h
  · exact rcPhase_touch h
  · exact rcConf_touch h

theorem rcShift_touch {S : Session} {c : Nat} {d : Desc} {s t : State} {r : Bool}
    (h : rcShift S c d s = .ok (r, t)) : RcTouch c s t := by
  obtain ⟨m0, h0, h⟩ := bind_eq_ok.1 h
  obtain ⟨m1, h1, h⟩ := bind_eq_ok.1 h
  obtain ⟨m2, h2, h⟩ := bind_eq_ok.1 h
  obtain ⟨⟨fine, m3⟩, h3, h⟩ := bind_eq_ok.1 h
  refine (((rcBeginCs2_touch h0).trans (seqWrite_touch (.inr (.inr (.inl rfl))) h1)).trans
    (rcProgram_touch h2)).trans ((rcElements_touch h3).trans ?_)
  simp only at h
  split at h
  · exact rcDrain_touch h
  · cases h; exact .refl _ _

theorem rcExchange_touch {S : Session} {c : Nat} {d : Desc} {s t : State} {r : OpResult}
    (h : rcExchange S c d s = .ok (r, t)) : RcTouch c s t := by
  obtain ⟨⟨fine, m⟩, h1, h⟩ := bind_eq_ok.1 h
  refine (rcShift_touch h1).trans ?_
  simp only at h
  split at h
  · obtain ⟨m2, h2, h⟩ := bind_eq_ok.1 h
    cases h
    exact rcEnd_touch h2
  · exact rcTimeout_touch h

/-- R204: a transfer accesses only the registers of its session's channel, and never SHARED. -/
theorem rcTransferBody_touch {S : Session} {d : Desc} {s t : State} {r : OpResult}
    (h : rcTransferBody d S s = .ok (r, t)) : RcTouch S.cs.toNat s t := by
  unfold rcTransferBody at h
  split at h
  · exact rcExchange_touch h
  · exact rcSelectOnly_touch h

/-! ## A shifter that never moves -/

/-- A schedule that does not offer channel `c` changes nothing where the other channels are quiet. -/
theorem shifterRun_stuck {c : Nat} {s : State} (hq : OthersQuiet c s.rc) {l : List Nat} (h : l.count c = 0) :
    shifterRun l s = .ok s := by
  induction l with
  | nil => rfl
  | cons k l ih =>
    have hk : k ≠ c := fun e => by subst e; simp at h
    rw [List.count_cons_of_ne hk] at h
    simp [shifterRun, shifterStep_quiet hq hk, ih h]

/-- A gap in which the shifter takes no step. -/
theorem shifterGap_stuck {c n : Nat} {s : State} (hq : OthersQuiet c s.rc) (h : Stuck c (n + 1) s.env) :
    ∃ t, shifterGap s = .ok t ∧ t = { s with env := { s.env with sched := t.env.sched } } ∧ Stuck c n t.env := by
  unfold shifterGap
  split
  · refine ⟨{ s with env := { s.env with sched := s.env.sched.rest } }, ?_, rfl, fun k hk => ?_⟩
    · refine shifterRun_stuck (s := { s with env := { s.env with sched := s.env.sched.rest } }) hq ?_
      rw [next_eq_answer]
      exact h 0 (by omega)
    · show (s.env.sched.rest.answer Config.freeSchedule k).count c = 0
      rw [answer_rest]
      exact h (k + 1) (by omega)
  · exact ⟨s, rfl, rfl, fun k hk => h k (by omega)⟩

/-- A poll of a bit that is not set, under a shifter that never moves, expires (R196, R201). -/
theorem poll_stuck {c b r : Nat} {s : State} (hc : c < s.rc.nchan) (hq : OthersQuiet c s.rc)
    (hb : (s.rc.chan c).stat.getLsbD b = false)
    (h : Stuck c (s.env.rounds.answer Config.freeRounds 0 + 1 + r) s.env) :
    ∃ t, poll c b s = .ok (false, t) ∧ t.rc = s.rc ∧ t.mem = s.mem ∧ Stuck c r t.env ∧
      ∃ n, t.trace = s.trace ++ List.replicate n (rcR (.stat c) (s.rc.chan c).stat) := by
  have gen : ∀ (t0 k : Nat) (m : State), m.rc = s.rc → Stuck c (k + 1 + r) m.env →
      ∃ t, pollRounds c b t0 k m = .ok (false, t) ∧ t.rc = m.rc ∧ t.mem = m.mem ∧ Stuck c r t.env ∧
        ∃ n, t.trace = m.trace ++ List.replicate n (rcR (.stat c) (s.rc.chan c).stat) := by
    intro t0 k
    induction k with
    | zero =>
      intro m hm hs
      obtain ⟨g, g1, g2, g3⟩ := shifterGap_stuck (n := r) (by rw [hm]; exact hq)
        (by rw [show r + 1 = 0 + 1 + r by omega]; exact hs)
      have hg : g.rc = s.rc := by rw [g2]; exact hm
      have h1 : seqRead (.stat c) m = .ok ((s.rc.chan c).stat, emit (rcR (.stat c) (s.rc.chan c).stat) g) := by
        rw [seqRead, g1, ok_bind, rcRead_stat (by rw [hg]; exact hc), hg]
      refine ⟨readNowFrom (t0 + g.params.tPoll + 1) (emit (rcR (.stat c) (s.rc.chan c).stat) g),
        by simp [pollRounds, h1, hb], hg.trans hm.symm, ?_, g3, 1, ?_⟩
      · show g.mem = m.mem; rw [g2]
      · show g.trace ++ _ = _; rw [g2]; rfl
    | succ k ih =>
      intro m hm hs
      obtain ⟨g, g1, g2, g3⟩ := shifterGap_stuck (n := k + 1 + r) (by rw [hm]; exact hq)
        (by rw [show k + 1 + r + 1 = k + 1 + 1 + r by omega]; exact hs)
      have hg : g.rc = s.rc := by rw [g2]; exact hm
      have h1 : seqRead (.stat c) m = .ok ((s.rc.chan c).stat, emit (rcR (.stat c) (s.rc.chan c).stat) g) := by
        rw [seqRead, g1, ok_bind, rcRead_stat (by rw [hg]; exact hc), hg]
      have hmem : g.mem = m.mem := by rw [g2]
      have htr : g.trace = m.trace := by rw [g2]
      rw [pollRounds_unseen h1 hb]
      split
      · refine ⟨_, rfl, hg.trans hm.symm, hmem, fun q hq => g3 q (by omega), 1, ?_⟩
        show g.trace ++ _ = _; rw [htr]; rfl
      · obtain ⟨t, i1, i2, i3, i4, n, i5⟩ := ih (readNow (emit (rcR (.stat c) (s.rc.chan c).stat) g)).2 hg g3
        refine ⟨t, i1, i2.trans (hg.trans hm.symm), i3.trans hmem, i4, n + 1, ?_⟩
        rw [i5]
        show (g.trace ++ [rcR (.stat c) (s.rc.chan c).stat]) ++ _ = _
        rw [htr, List.append_assoc, List.replicate_succ]
        rfl
  exact gen _ _ (drawRounds (readNow s).2).2 rfl (by
    show Stuck c (s.env.rounds.next Config.freeRounds + 1 + r) _
    rw [next_eq_answer]
    exact h)

end Sys2Proof.Machine
end

