-- ==== Sys2Proof/Laws/Mf.lean ====
section
/-! SUPPORT. The laws of the MF peer and of MF's bursts (spec 43_mmfifo R220 to R238): what the exchanges do to the
queue, the draws and the trace, and that a burst leaves the queue as it found it. -/

namespace Sys2Proof.Machine

/-! ## Traces -/

theorem pinTrace_append (a b : List Obs) : pinTrace (a ++ b) = pinTrace a ++ pinTrace b := List.filterMap_append

@[simp] theorem pinTrace_pins (l : List PinEvent) : pinTrace (pins l) = l := by
  induction l with
  | nil => rfl
  | cons e l ih => simp [pins, pinTrace] at *

@[simp] theorem pinTrace_pin (e : PinEvent) : pinTrace [.pin e] = [e] := rfl
@[simp] theorem pinTrace_reg (a : RegAccess) : pinTrace [.reg a] = [] := rfl
@[simp] theorem regTrace_pin (e : PinEvent) : regTrace [.pin e] = [] := rfl
@[simp] theorem regTrace_reg (a : RegAccess) : regTrace [.reg a] = [a] := rfl

/-! ## Exchanges -/

/-- R230: a byte exchanged with room in the queue. -/
theorem mfExch_ok {o : Byte} {s : State} (h : s.mf.rxq.length < s.params.fifoBytes) :
    mfExch o s = .ok { s with
      mf := { s.mf with rxq := s.mf.rxq ++ [s.env.byte.answer Config.freeByte 0] },
      env := { s.env with byte := s.env.byte.drop 1 },
      trace := s.trace ++ [.pin (.byte o (s.env.byte.answer Config.freeByte 0))] } := by
  simp [mfExch, emitPin, emit, h, next_eq_answer, rest_eq_drop]

/-- The state after bytes `j .. j + n - 1` have been exchanged: `o` sent, `g` received, with these entries added to
the trace. -/
def mfExchanged (g : Nat → Byte) (j n : Nat) (l : List Obs) (s : State) : State :=
  { s with
    mf := { s.mf with rxq := s.mf.rxq ++ (List.range' j n).map g },
    env := { s.env with byte := s.env.byte.drop n },
    trace := s.trace ++ l }

/-- R228: bytes of zeros exchanged. -/
theorem mfExchZeros_spec {g : Nat → Byte} {n j : Nat} {s : State}
    (hg : ∀ k, k < n → s.env.byte.answer Config.freeByte k = g (j + k))
    (hq : s.mf.rxq.length + n ≤ s.params.fifoBytes) :
    mfExchZeros n s = .ok (mfExchanged g j n (pins ((List.range' j n).map fun k => .byte 0#8 (g k))) s) := by
  induction n generalizing j s with
  | zero => simp [mfExchZeros, mfExchanged, pins]
  | succ n ih =>
    have h0 : s.env.byte.answer Config.freeByte 0 = g j := by simpa using hg 0 (by omega)
    rw [mfExchZeros, mfExch_ok (by omega), ok_bind, ih (j := j + 1)]
    · simp [mfExchanged, List.range'_succ, h0, pins, Nat.add_comm 1 n]
    · intro k hk
      show (s.env.byte.drop 1).answer Config.freeByte k = _
      rw [answer_drop, Nat.add_comm 1 k, hg (k + 1) (by omega)]
      congr 1
      omega
    · simp; omega

@[simp] theorem loByte_pairWord (lo hi : Byte) : loByte (pairWord lo hi) = lo := by
  unfold loByte pairWord
  apply BitVec.eq_of_getLsbD_eq
  intro i h
  rw [BitVec.getLsbD_setWidth, BitVec.getLsbD_setWidth, BitVec.getLsbD_append]
  have : i < 32 := by omega
  simp [h, this]

@[simp] theorem hiByte_pairWord (lo hi : Byte) : hiByte (pairWord lo hi) = hi := by
  unfold hiByte pairWord
  apply BitVec.eq_of_getLsbD_eq
  intro i h
  rw [BitVec.getLsbD_setWidth, BitVec.getLsbD_ushiftRight, BitVec.getLsbD_setWidth, BitVec.getLsbD_append]
  have h1 : 8 + i < 32 := by omega
  have h2 : ¬ 8 + i < 8 := by omega
  have h3 : 8 + i - 8 = i := by omega
  simp [h, h1, h2, h3]

/-- A window access of the queue (R221): two bytes, low half first. -/
theorem mfWrite_txfifo {g : Nat → Byte} {o j : Nat} {lo hi : Byte} {s : State}
    (hw : o % 2 = 0) (ho : o < s.params.fifoBytes)
    (hg : ∀ k, k < 2 → s.env.byte.answer Config.freeByte k = g (j + k))
    (hq : s.mf.rxq.length + 2 ≤ s.params.fifoBytes) :
    mfWrite (.txfifo o) (pairWord lo hi) s = .ok (mfExchanged g j 2
      [.reg (mfW (.txfifo o) (pairWord lo hi)), .pin (.byte lo (g j)), .pin (.byte hi (g (j + 1)))] s) := by
  have h0 : s.env.byte.answer Config.freeByte 0 = g j := by simpa using hg 0 (by omega)
  have h1 : s.env.byte.answer Config.freeByte 1 = g (j + 1) := hg 1 (by omega)
  have hwin : mfWindowOk s.params o = true := by simp [mfWindowOk, hw, ho]
  have e1 : (mfLog true (.txfifo o) (pairWord lo hi) s).mf.rxq.length < (mfLog true (.txfifo o) (pairWord lo hi) s).params.fifoBytes := by
    show s.mf.rxq.length < s.params.fifoBytes; omega
  unfold mfWrite
  simp only [hwin, if_true, loByte_pairWord, hiByte_pairWord]
  rw [mfExch_ok e1, ok_bind, mfExch_ok]
  · simp [mfExchanged, mfLog, emit, List.range'_succ, h0, answer_drop, h1, mfW]
  · simp [mfLog, emit]; omega

/-! ## The two halves of a burst -/

/-- The accesses that feed bytes `2 * q .. 2 * q + n - 1` of a burst (R238). -/
def feedAccesses (o : Nat → Byte) (q n : Nat) : List RegAccess :=
  (List.range' q (n / 2)).map (fun p => mfW (.txfifo (2 * p)) (pairWord (o (2 * p)) (o (2 * p + 1)))) ++
    whenSet (n % 2 == 1) [mfW .wrbyte ((o (2 * q + n - 1)).setWidth 32)]

/-- The accesses that drain them. -/
def drainAccesses (i : Nat → Byte) (q n : Nat) : List RegAccess :=
  (List.range' q (n / 2)).map (fun p => mfR (.rxfifo (2 * p)) (pairWord (i (2 * p)) (i (2 * p + 1)))) ++
    whenSet (n % 2 == 1) [mfR .rdbyte ((i (2 * q + n - 1)).setWidth 32)]

theorem pairs_succ {α : Type} (f : Nat → α) (last : Nat → α) (q n : Nat) :
    (List.range' q ((n + 2) / 2)).map f ++ whenSet ((n + 2) % 2 == 1) [last (2 * q + (n + 2) - 1)] =
      f q :: ((List.range' (q + 1) (n / 2)).map f ++ whenSet (n % 2 == 1) [last (2 * (q + 1) + n - 1)]) := by
  have e1 : (n + 2) / 2 = n / 2 + 1 := by omega
  have e2 : (n + 2) % 2 = n % 2 := by omega
  have e3 : 2 * q + (n + 2) - 1 = 2 * (q + 1) + n - 1 := by omega
  rw [e1, e2, e3, List.range'_succ]
  rfl

theorem feedAccesses_succ (o : Nat → Byte) (q n : Nat) : feedAccesses o q (n + 2) =
    mfW (.txfifo (2 * q)) (pairWord (o (2 * q)) (o (2 * q + 1))) :: feedAccesses o (q + 1) n :=
  pairs_succ (fun p => mfW (.txfifo (2 * p)) (pairWord (o (2 * p)) (o (2 * p + 1))))
    (fun k => mfW .wrbyte ((o k).setWidth 32)) q n

theorem drainAccesses_succ (i : Nat → Byte) (q n : Nat) : drainAccesses i q (n + 2) =
    mfR (.rxfifo (2 * q)) (pairWord (i (2 * q)) (i (2 * q + 1))) :: drainAccesses i (q + 1) n :=
  pairs_succ (fun p => mfR (.rxfifo (2 * p)) (pairWord (i (2 * p)) (i (2 * p + 1))))
    (fun k => mfR .rdbyte ((i k).setWidth 32)) q n

/-- The bytes on the pins. -/
def bytePins (o g : Nat → Byte) (j n : Nat) : List PinEvent :=
  (List.range' j n).map fun k => .byte (o k) (g k)

/-- A burst is fed (R238). -/
theorem mfFeed_spec {o g : Nat → Byte} (n : Nat) {q : Nat} {s : State}
    (hg : ∀ k, k < n → s.env.byte.answer Config.freeByte k = g (2 * q + k))
    (hq : s.mf.rxq.length + n ≤ s.params.fifoBytes) (hn : 2 * q + n ≤ s.params.fifoBytes) :
    ∃ l, mfFeed ((List.range' (2 * q) n).map o) q s = .ok (mfExchanged g (2 * q) n l s) ∧
      pinTrace l = bytePins o g (2 * q) n ∧ regTrace l = feedAccesses o q n := by
  induction n using Nat.twoStepInduction generalizing q s with
  | zero => exact ⟨[], by simp [mfFeed, mfExchanged], rfl, by simp [feedAccesses, whenSet, regTrace]⟩
  | one =>
    have h0 : s.env.byte.answer Config.freeByte 0 = g (2 * q) := by simpa using hg 0 (by omega)
    have hlo : ∀ b : Byte, loByte (b.setWidth 32) = b := fun b => by
      unfold loByte; simp
    have e1 : (mfLog true .wrbyte ((o (2 * q)).setWidth 32) s).mf.rxq.length <
        (mfLog true .wrbyte ((o (2 * q)).setWidth 32) s).params.fifoBytes := by
      show s.mf.rxq.length < s.params.fifoBytes; omega
    refine ⟨[.reg (mfW .wrbyte ((o (2 * q)).setWidth 32)), .pin (.byte (o (2 * q)) (g (2 * q)))], ?_, rfl, ?_⟩
    · show mfWrite .wrbyte ((o (2 * q)).setWidth 32) s = _
      unfold mfWrite
      simp only [hlo]
      rw [mfExch_ok e1]
      simp [mfExchanged, mfLog, emit, h0, mfW]
    · simp [feedAccesses, whenSet, regTrace]
  | more n ih _ =>
    obtain ⟨l, h1, h2, h3⟩ := ih (q := q + 1)
      (s := mfExchanged g (2 * q) 2 [.reg (mfW (.txfifo (2 * q)) (pairWord (o (2 * q)) (o (2 * q + 1)))),
        .pin (.byte (o (2 * q)) (g (2 * q))), .pin (.byte (o (2 * q + 1)) (g (2 * q + 1)))] s)
      (fun k hk => by
        show (s.env.byte.drop 2).answer Config.freeByte k = _
        rw [answer_drop, Nat.add_comm 2 k, hg (k + 2) (by omega)]
        congr 1
        omega)
      (by simp [mfExchanged]; omega) (by show 2 * (q + 1) + n ≤ s.params.fifoBytes; omega)
    have e : 2 * (q + 1) = 2 * q + 1 + 1 := by omega
    refine ⟨[.reg (mfW (.txfifo (2 * q)) (pairWord (o (2 * q)) (o (2 * q + 1)))),
        .pin (.byte (o (2 * q)) (g (2 * q))), .pin (.byte (o (2 * q + 1)) (g (2 * q + 1)))] ++ l, ?_, ?_, ?_⟩
    · rw [List.range'_succ, List.range'_succ, List.map_cons, List.map_cons, mfFeed,
        mfWrite_txfifo (g := g) (j := 2 * q) (by omega) (by omega) (fun k hk => hg k (by omega)) (by omega), ok_bind,
        ← e, h1]
      simp [mfExchanged, List.range'_succ, e, Nat.add_comm 2 n]
    · rw [pinTrace_append, h2, e]
      simp [bytePins, List.range'_succ, pinTrace]
    · rw [regTrace_append, h3, feedAccesses_succ]
      simp [regTrace]

/-- Bytes `lo .. hi - 1` of an input buffer hold `f`, and no other byte of memory differs. -/
def MfStored (inp : Option Nat) (f : Nat → Byte) (lo hi : Nat) (m m' : Memory) : Prop :=
  match inp with
  | none => m' = m
  | some b => Memory.wf m' = true ∧ (∀ k, lo ≤ k → k < hi → readByte m' (b + k) = f k) ∧
    ∀ a, (∀ k, lo ≤ k → k < hi → a ≠ b + k) → readByte m' a = readByte m a

theorem MfStored.refl {inp : Option Nat} {f : Nat → Byte} {lo : Nat} {m : Memory} (hw : Memory.wf m = true) :
    MfStored inp f lo lo m m := by
  cases inp with
  | none => rfl
  | some b => exact ⟨hw, fun k h1 h2 => by omega, fun _ _ => rfl⟩

theorem MfStored.trans {inp : Option Nat} {f : Nat → Byte} {lo mid hi : Nat} {m m' m'' : Memory} (h1 : lo ≤ mid)
    (h2 : mid ≤ hi) (a : MfStored inp f lo mid m m') (b : MfStored inp f mid hi m' m'') :
    MfStored inp f lo hi m m'' := by
  cases inp with
  | none => exact Eq.trans (show m'' = m' from b) a
  | some x =>
    obtain ⟨-, a2, a3⟩ := a
    obtain ⟨b1, b2, b3⟩ := b
    refine ⟨b1, fun k g1 g2 => ?_, fun y hy => ?_⟩
    · by_cases e : k < mid
      · rw [b3 _ fun j hj _ => by omega, a2 k g1 e]
      · exact b2 k (by omega) g2
    · rw [b3 y fun k hk hk2 => hy k (by omega) hk2, a3 y fun k hk hk2 => hy k hk (by omega)]

theorem MfStored.wf {inp : Option Nat} {f : Nat → Byte} {lo hi : Nat} {m m' : Memory} (hw : Memory.wf m = true)
    (h : MfStored inp f lo hi m m') : Memory.wf m' = true := by
  cases inp with
  | none => rw [show m' = m from h]; exact hw
  | some b => exact h.1

/-- One received byte stored, where there is an input buffer. -/
theorem mfStore_spec {inp : Option Nat} {lsb : Bool} {k : Nat} {b : Byte} {s : State} {f : Nat → Byte}
    (hw : Memory.wf s.mem = true) (hf : flipByte lsb b = f k) :
    ∃ m, mfStore inp lsb k b s = { s with mem := m } ∧ MfStored inp f k (k + 1) s.mem m := by
  cases inp with
  | none => exact ⟨s.mem, rfl, rfl⟩
  | some a =>
    refine ⟨writeByte s.mem (a + k) (flipByte lsb b), rfl, writeByte_wf hw _ _, fun j h1 h2 => ?_, fun x hx => ?_⟩
    · obtain rfl : j = k := by omega
      rw [readByte_writeByte_same hw, hf]
    · exact readByte_writeByte_other hw (hx k (Nat.le_refl k) (by omega)) _

/-- A burst is drained: the queue ends empty (R238). -/
theorem mfDrain_spec {inp : Option Nat} {lsb : Bool} {g : Nat → Byte} (n : Nat) {pos q : Nat} {s : State}
    {f : Nat → Byte} (hr : s.mf.rxq = (List.range' (2 * q) n).map g) (hn : 2 * q + n ≤ s.params.fifoBytes)
    (hw : Memory.wf s.mem = true) (hf : ∀ k, flipByte lsb (g k) = f (pos + k)) :
    ∃ l m, mfDrain inp lsb pos n q s =
        .ok { s with mf := { s.mf with rxq := [] }, mem := m, trace := s.trace ++ l } ∧
      pinTrace l = [] ∧ regTrace l = drainAccesses g q n ∧
      MfStored inp f (pos + 2 * q) (pos + 2 * q + n) s.mem m := by
  induction n using Nat.twoStepInduction generalizing q s with
  | zero =>
    refine ⟨[], s.mem, ?_, rfl, by simp [drainAccesses, whenSet, regTrace], .refl hw⟩
    have : s.mf.rxq = [] := by rw [hr]; rfl
    simp [mfDrain, ← this]
  | one =>
    have hq : s.mf.rxq = [g (2 * q)] := by rw [hr]; rfl
    have hlo : ∀ b : Byte, loByte (b.setWidth 32) = b := fun b => by
      unfold loByte; simp
    obtain ⟨m, h1, h2⟩ := mfStore_spec (inp := inp) (lsb := lsb) (k := pos + 2 * q) (b := g (2 * q)) (f := f)
      (s := mfLog false .rdbyte ((g (2 * q)).setWidth 32) { s with mf := { s.mf with rxq := [] } }) hw (hf _)
    refine ⟨[.reg (mfR .rdbyte ((g (2 * q)).setWidth 32))], m, ?_, rfl, ?_, h2⟩
    · simp only [mfDrain, mfRead, hq, ok_bind, hlo, h1]
      simp [mfLog, emit, mfR]
    · simp [drainAccesses, whenSet, regTrace]
  | more n ih _ =>
    have e : 2 * (q + 1) = 2 * q + 1 + 1 := by omega
    have hq : s.mf.rxq = g (2 * q) :: g (2 * q + 1) :: (List.range' (2 * (q + 1)) n).map g := by
      rw [hr, List.range'_succ, List.range'_succ, e]; rfl
    have hwin : mfWindowOk s.params (2 * q) = true := by simp [mfWindowOk]; omega
    generalize hs0 : mfLog false (.rxfifo (2 * q)) (pairWord (g (2 * q)) (g (2 * q + 1)))
      { s with mf := { s.mf with rxq := (List.range' (2 * (q + 1)) n).map g } } = s0
    have hm0 : s0.mem = s.mem := by rw [← hs0]; rfl
    obtain ⟨m1, h1, h2⟩ := mfStore_spec (inp := inp) (lsb := lsb) (k := pos + 2 * q) (b := g (2 * q)) (f := f)
      (s := s0) (by rw [hm0]; exact hw) (hf _)
    have hw1 := h2.wf (by rw [hm0]; exact hw)
    obtain ⟨m2, h3, h4⟩ := mfStore_spec (inp := inp) (lsb := lsb) (k := pos + 2 * q + 1) (b := g (2 * q + 1)) (f := f)
      (s := { s0 with mem := m1 }) hw1 (hf _)
    have hw2 := h4.wf hw1
    obtain ⟨l, m, i1, i2, i3, i4⟩ := ih (q := q + 1) (s := { s0 with mem := m2 })
      (by rw [← hs0]; rfl) (by rw [← hs0]; show 2 * (q + 1) + n ≤ s.params.fifoBytes; omega) hw2
    refine ⟨.reg (mfR (.rxfifo (2 * q)) (pairWord (g (2 * q)) (g (2 * q + 1)))) :: l, m, ?_, ?_, ?_, ?_⟩
    · simp only [mfDrain, mfRead, hq, hwin, if_true, ok_bind, hs0, loByte_pairWord, hiByte_pairWord, h1, h3, i1]
      rw [← hs0]
      simp [mfLog, emit, mfR]
    · exact i2
    · rw [drainAccesses_succ, ← i3]; rfl
    · have : pos + 2 * (q + 1) = pos + 2 * q + 1 + 1 := by omega
      rw [this] at i4
      have h5 := (h2.trans (by omega) (by omega) h4).trans (by omega) (by omega) i4
      rw [hm0] at h5
      have e3 : pos + 2 * q + 1 + 1 + n = pos + 2 * q + (n + 2) := by omega
      rw [e3] at h5
      exact h5

/-! ## Bursts -/

/-- The state after bytes `pos .. pos + b - 1` of a transfer, the queue empty again. -/
def mfMoved (m : Memory) (b : Nat) (l : List Obs) (s : State) : State :=
  { s with
    mf := { s.mf with rxq := [] },
    mem := m,
    env := { s.env with byte := s.env.byte.drop b },
    trace := s.trace ++ l }

/-- One burst of `b` bytes from position `pos` on: `O` are the bytes to send, `G` the slave's answers (R238). -/
theorem mfBurst_spec {d : Desc} {O G : Nat → Byte} {pos b : Nat} {s : State} (hr : s.mf.rxq = [])
    (hb : b ≤ s.params.fifoBytes) (hb2 : b < 2 ^ 32) (hw : Memory.wf s.mem = true)
    (hO : ∀ k, k < b → mfOutByte d s.mem (pos + k) = O (pos + k))
    (hG : ∀ k, k < b → s.env.byte.answer Config.freeByte k = G (pos + k)) :
    ∃ l m, mfBurst d pos b s = .ok (mfMoved m b l s) ∧
      pinTrace l = bytePins (fun k => O (pos + k)) (fun k => G (pos + k)) 0 b ∧
      regTrace l = burstAccesses d.out.isSome b (fun k => O (pos + k)) (fun k => G (pos + k)) ∧
      MfStored d.inp (fun k => flipByte d.flags.lsb (G k)) pos (pos + b) s.mem m := by
  -- the sending half
  have send : ∃ l, mfSendBurst d pos b s = .ok (mfExchanged (fun k => G (pos + k)) 0 b l s) ∧
      pinTrace l = bytePins (fun k => O (pos + k)) (fun k => G (pos + k)) 0 b ∧
      regTrace l = if d.out.isSome then feedAccesses (fun k => O (pos + k)) 0 b
        else [mfW .read (BitVec.ofNat 32 b)] := by
    cases hd : d.out with
    | some a =>
      have hl : (loadBytes s.mem (a + pos) b).map (flipByte d.flags.lsb) =
          (List.range' (2 * 0) b).map (fun k => O (pos + k)) := by
        refine List.ext_getElem (by simp [loadBytes_length]) fun j h1 h2 => ?_
        have hj : j < b := by simpa [loadBytes_length] using h1
        rw [List.getElem_map, loadBytes_getElem, List.getElem_map, List.getElem_range']
        rw [← hO (2 * 0 + 1 * j) (by omega)]
        simp [mfOutByte, hd, Nat.add_assoc]
      obtain ⟨l, h1, h2, h3⟩ := mfFeed_spec (o := fun k => O (pos + k)) (g := fun k => G (pos + k)) b (q := 0) (s := s)
        (fun k hk => by rw [hG k hk]; simp) (by rw [hr]; simpa using hb) (by omega)
      refine ⟨l, ?_, h2, by simpa using h3⟩
      simp only [mfSendBurst, hd, hl]
      exact h1
    | none =>
      have hb32 : (BitVec.ofNat 32 b).toNat = b := by
        rw [BitVec.toNat_ofNat, Nat.mod_eq_of_lt hb2]
      have hO0 : ∀ k, k < b → O (pos + k) = 0#8 := fun k hk => by rw [← hO k hk]; simp [mfOutByte, hd]
      refine ⟨.reg (mfW .read (BitVec.ofNat 32 b)) ::
        pins ((List.range' 0 b).map fun k => .byte 0#8 (G (pos + k))), ?_, ?_, ?_⟩
      · unfold mfSendBurst
        rw [hd]
        show mfExchZeros (BitVec.ofNat 32 b).toNat (mfLog true .read (BitVec.ofNat 32 b) s) = _
        rw [hb32, mfExchZeros_spec (g := fun k => G (pos + k)) (j := 0)]
        · simp [mfExchanged, mfLog, emit, mfW]
        · intro k hk
          show s.env.byte.answer Config.freeByte k = _
          rw [hG k hk]; simp
        · show s.mf.rxq.length + b ≤ s.params.fifoBytes
          rw [hr]; simpa using hb
      · show pinTrace (pins _) = _
        rw [pinTrace_pins]
        unfold bytePins
        refine List.map_congr_left fun k hk => ?_
        have hk : k < b := by simpa [List.mem_range'] using hk
        simp only [hO0 k hk]
      · show _ :: regTrace (pins _) = _
        rw [regTrace_pins]
        simp
  obtain ⟨l1, s1, s2, s3⟩ := send
  obtain ⟨l2, m, e1, e2, e3, e4⟩ := mfDrain_spec (inp := d.inp) (lsb := d.flags.lsb) (g := fun k => G (pos + k)) b
    (pos := pos) (q := 0) (s := mfExchanged (fun k => G (pos + k)) 0 b l1 s)
    (f := fun k => flipByte d.flags.lsb (G k)) (by simp [mfExchanged, hr])
    (by show 2 * 0 + b ≤ s.params.fifoBytes; omega) hw (fun _ => rfl)
  refine ⟨l1 ++ l2, m, ?_, ?_, ?_, e4⟩
  · rw [mfBurst, s1, ok_bind, e1]
    simp [mfMoved, mfExchanged]
  · rw [pinTrace_append, s2, e2, List.append_nil]
  · rw [regTrace_append, s3, e3]
    unfold burstAccesses feedAccesses drainAccesses
    simp only [List.range_eq_range']
    cases d.out <;> simp

/-- A byte of the output buffer that has not been reached yet is what it was when the transfer started. -/
theorem mfOutByte_stored {d : Desc} {f : Nat → Byte} {pos l : Nat} {m m' : Memory} (hc : NoClash d.out d.inp l)
    (h : MfStored d.inp f 0 pos m m') {k : Nat} (hk : pos ≤ k) (hl : k < l) :
    mfOutByte d m' k = mfOutByte d m k := by
  unfold mfOutByte
  cases ho : d.out with
  | none => rfl
  | some a =>
    cases hi : d.inp with
    | none => rw [hi] at h; rw [show m' = m from h]
    | some b =>
      rw [hi] at h
      simp only
      rw [h.2.2 (a + k) fun j _ hj => by
        rcases hc a b ho hi with e | e | e <;> omega]

/-- The bursts of a transfer of `l` bytes from burst `p` on (R238). -/
theorem mfBursts_spec {d : Desc} {O G : Nat → Byte} {l : Nat} {m0 : Memory} (hl : l < 2 ^ 32) (hc : NoClash d.out d.inp l)
    (hO : ∀ k, mfOutByte d m0 k = O k) {f : Nat} (hf : 0 < f) {k p : Nat} {s : State} (hk : k + p = burstCount l f)
    (hfs : f = s.params.fifoBytes) (hr : s.mf.rxq = []) (hw : Memory.wf s.mem = true)
    (hG : ∀ j, s.env.byte.answer Config.freeByte j = G (min (p * f) l + j))
    (hm : MfStored d.inp (fun k => flipByte d.flags.lsb (G k)) 0 (min (p * f) l) m0 s.mem) :
    ∃ tr m, mfBursts d l k (min (p * f) l) s = .ok (mfMoved m (l - min (p * f) l) tr s) ∧
      pinTrace tr = bytePins O G (min (p * f) l) (l - min (p * f) l) ∧
      regTrace tr = (List.range' p k).flatMap (fun p =>
        burstAccesses d.out.isSome (min (l - p * f) f) (fun k => O (p * f + k)) (fun k => G (p * f + k))) ∧
      MfStored d.inp (fun k => flipByte d.flags.lsb (G k)) 0 l m0 m := by
  have hcount : burstCount l f * f < l + f ∧ l ≤ burstCount l f * f := by
    unfold burstCount
    have h1 := Nat.div_mul_le_self (l + f - 1) f
    have h2 := Nat.lt_div_mul_add hf (a := l + f - 1)
    omega
  induction k generalizing p s with
  | zero =>
    have hp : l ≤ p * f := by
      rw [show p = burstCount l f by omega]; exact hcount.2
    have hmin : min (p * f) l = l := Nat.min_eq_right hp
    rw [hmin] at hm ⊢
    refine ⟨[], s.mem, ?_, by simp [bytePins, pinTrace], rfl, hm⟩
    simp [mfBursts, mfMoved, ← hr]
  | succ k ih =>
    have hp : p * f < l := by
      have : (p + 1) * f ≤ burstCount l f * f := Nat.mul_le_mul_right f (by omega)
      rw [Nat.succ_mul] at this
      omega
    have hmin : min (p * f) l = p * f := Nat.min_eq_left (by omega)
    rw [hmin] at hm hG ⊢
    have hb : min (l - p * f) f ≤ s.params.fifoBytes := by rw [← hfs]; exact Nat.min_le_right ..
    have hnext : p * f + min (l - p * f) f = min ((p + 1) * f) l := by rw [Nat.succ_mul]; omega
    obtain ⟨t1, m1, e1, e2, e3, e4⟩ := mfBurst_spec (d := d) (O := O) (G := G) (pos := p * f)
      (b := min (l - p * f) f) hr hb (by omega) hw (fun j hj => by
        rw [mfOutByte_stored hc hm (by omega) (by omega), hO]) (fun j _ => hG j)
    have hw1 : Memory.wf m1 = true := e4.wf hw
    have hm1 := hm.trans (by omega) (by omega) e4
    rw [hnext] at hm1
    obtain ⟨t2, m2, i1, i2, i3, i4⟩ := ih (p := p + 1)
      (s := mfMoved m1 (min (l - p * f) f) t1 s) (by omega) hfs rfl hw1 (fun j => by
        show (s.env.byte.drop _).answer Config.freeByte j = _
        rw [answer_drop, hG, ← hnext, Nat.add_assoc]) hm1
    refine ⟨t1 ++ t2, m2, ?_, ?_, ?_, i4⟩
    · simp only [mfBursts, ← hfs, e1, ok_bind, hnext, i1]
      have : min (l - p * f) f + (l - min ((p + 1) * f) l) = l - p * f := by rw [← hnext]; omega
      simp [mfMoved, this]
    · rw [pinTrace_append, e2, i2, ← hnext]
      unfold bytePins
      have e5 : (List.range' 0 (min (l - p * f) f)).map
          (fun k => PinEvent.byte (O (p * f + k)) (G (p * f + k))) =
          (List.range' (p * f) (min (l - p * f) f)).map (fun k => .byte (O k) (G k)) := by
        rw [List.range'_eq_map_range (s := p * f), ← List.range_eq_range', List.map_map]
        rfl
      rw [e5, ← List.map_append, List.range'_append_1]
      congr 2
      omega
    · rw [regTrace_append, e3, i3, List.range'_succ, List.flatMap_cons]

/-! ## The parts of a transfer -/

/-- A write of the slot of a chip-select, the other slot not asserted (R223). -/
theorem mfSlotWrite_spec {cs : BitVec 8} {x : Word} {b : Bool} (hb : x.getLsbD 0 = !b) {s : State}
    (hs : cs.toNat < 2) (ho : if cs = 0#8 then s.mf.cs1 = true else s.mf.cs0 = true) :
    mfSlotWrite cs x s = .ok { s with
      mf := { s.mf with
        cs0 := if cs = 0#8 then !b else s.mf.cs0,
        cs1 := if cs = 1#8 then !b else s.mf.cs1 },
      trace := s.trace ++ [.reg (mfW (slotReg cs) x), .pin (.cs .mf cs.toNat b)] } := by
  have : cs = 0#8 ∨ cs = 1#8 := by
    have : cs.toNat = 0 ∨ cs.toNat = 1 := by omega
    rcases this with h | h
    · exact .inl (BitVec.eq_of_toNat_eq (by simpa using h))
    · exact .inr (BitVec.eq_of_toNat_eq (by simpa using h))
  rcases this with rfl | rfl
  · simp at ho
    simp only [mfSlotWrite, mfSlot, slotReg, if_true, mfWrite, mfSelectWrite, hb]
    simp [mfLog, emit, emitPin, ho, mfW]
  · simp at ho
    have hne : (1#8 : BitVec 8) ≠ 0#8 := by decide
    simp only [mfSlotWrite, mfSlot, slotReg, if_neg hne, if_true, mfWrite, mfSelectWrite, hb]
    simp [mfLog, emit, emitPin, ho, mfW]

/-- The begin of a transfer (R238). -/
theorem mfBegin_spec {S : Session} {s : State} (hq : MfQuiet S.cs s.mf) (d : Desc) :
    ∃ a, mfBegin S d s = .ok a ∧
      a = { s with
        mf := { s.mf with
          cs0 := if S.cs = 0#8 then !(d.flags.begins || !s.mf.cs0) else s.mf.cs0,
          cs1 := if S.cs = 1#8 then !(d.flags.begins || !s.mf.cs1) else s.mf.cs1,
          bus := { s.mf.bus with cs2Asserted :=
            if d.flags.begins && s.mf.bus.profile.hasCs2 then true else s.mf.bus.cs2Asserted } },
        trace := a.trace } ∧
      pinTrace a.trace = pinTrace s.trace ++
        whenSet d.flags.begins (cs2Events .mf s.mf.bus.profile true ++ [.cs .mf S.cs.toNat true]) ∧
      regTrace a.trace = regTrace s.trace ++ whenSet d.flags.begins [mfW (slotReg S.cs) 0#32] ∧
      (if S.cs = 0#8 then a.mf.cs1 = true else a.mf.cs0 = true) := by
  unfold mfBegin
  cases d.flags.begins with
  | false => exact ⟨s, rfl, by simp, by simp [whenSet], by simp [whenSet], hq.other⟩
  | true =>
    simp only [if_true]
    rw [mfSlotWrite_spec (b := true) (by decide) hq.slot (by rw [cs2_mf_spec]; exact hq.other), cs2_mf_spec]
    refine ⟨_, rfl, ?_, ?_, ?_, ?_⟩
    · simp
    · show pinTrace ((s.trace ++ pins _) ++ [.reg _, .pin _]) = _
      rw [pinTrace_append, pinTrace_append, pinTrace_pins]; simp [whenSet, pinTrace]
    · show regTrace ((s.trace ++ pins _) ++ [.reg _, .pin _]) = _
      rw [regTrace_append, regTrace_append, regTrace_pins]; simp [whenSet, regTrace]
    · have := hq.other
      by_cases h : S.cs = 0#8 <;> simp [h] at this ⊢ <;> exact this

/-- The end of a transfer (R238). -/
theorem mfEnd_spec {S : Session} {s : State} (hs : S.cs.toNat < 2)
    (ho : if S.cs = 0#8 then s.mf.cs1 = true else s.mf.cs0 = true) (d : Desc) :
    ∃ u, mfEnd S d s = .ok u ∧
      u = { s with
        mf := { s.mf with
          cs0 := if S.cs = 0#8 then (if d.flags.ends then true else s.mf.cs0) else s.mf.cs0,
          cs1 := if S.cs = 1#8 then (if d.flags.ends then true else s.mf.cs1) else s.mf.cs1,
          bus := { s.mf.bus with cs2Asserted :=
            if d.flags.ends && s.mf.bus.profile.hasCs2 then false else s.mf.bus.cs2Asserted } },
        trace := u.trace } ∧
      pinTrace u.trace = pinTrace s.trace ++
        whenSet d.flags.ends (.cs .mf S.cs.toNat false :: cs2Events .mf s.mf.bus.profile false) ∧
      regTrace u.trace = regTrace s.trace ++ whenSet d.flags.ends [mfW (slotReg S.cs) 1#32] := by
  unfold mfEnd
  cases d.flags.ends with
  | false => exact ⟨s, rfl, by simp, by simp [whenSet], by simp [whenSet]⟩
  | true =>
    simp only [if_true]
    rw [mfSlotWrite_spec (b := false) (by decide) hs ho, ok_bind, cs2_mf_spec]
    refine ⟨_, rfl, ?_, ?_, ?_⟩
    · simp
    · show pinTrace ((s.trace ++ [.reg _, .pin _]) ++ pins _) = _
      rw [pinTrace_append, pinTrace_append, pinTrace_pins]; simp [whenSet, pinTrace]
    · show regTrace ((s.trace ++ [.reg _, .pin _]) ++ pins _) = _
      rw [regTrace_append, regTrace_append, regTrace_pins]; simp [whenSet, regTrace]

/-- The exchange of a transfer: its bytes, and the queue empty again (R238). -/
theorem mfExchange_spec {S : Session} {d : Desc} (hg : Legal .mf S d) {s : State} (hr : s.mf.rxq = [])
    (hw : Memory.wf s.mem = true) {l : Nat} (hl : l = if exchanges d then d.n.toNat / 8 else 0) {G : Nat → Byte}
    (hG : G = s.env.byte.answer Config.freeByte) :
    ∃ tr m, mfExchange d s = .ok (mfMoved m l tr s) ∧
      pinTrace tr = (List.range l).map (fun k => .byte (mfOutByte d s.mem k) (G k)) ∧
      regTrace tr = burstsAccesses d.out.isSome l s.params.fifoBytes (mfOutByte d s.mem) G ∧
      MfStored d.inp (fun k => flipByte d.flags.lsb (G k)) 0 l s.mem m := by
  have hfp : 0 < s.params.fifoBytes := by unfold Params.fifoBytes; omega
  unfold mfExchange
  cases hx : exchanges d with
  | false =>
    obtain rfl : l = 0 := by rw [hl, hx]; rfl
    have hc : burstCount 0 s.params.fifoBytes = 0 := by unfold burstCount; exact Nat.div_eq_of_lt (by omega)
    refine ⟨[], s.mem, ?_, rfl, by simp [burstsAccesses, hc, regTrace], .refl hw⟩
    simp [mfMoved, ← hr]
  | true =>
    have h0 : l = d.n.toNat / 8 := by rw [hl, hx]; rfl
    have hnc : NoClash d.out d.inp l := by
      have h1 := hg.buffers
      have h2 := hg.bytes rfl
      have : byteLen d.n.toNat = l := by unfold byteLen; omega
      rw [this] at h1
      exact h1
    have h := mfBursts_spec (d := d) (O := mfOutByte d s.mem) (G := G) (l := l) (m0 := s.mem)
      (by have := d.n.isLt; omega) hnc (fun _ => rfl)
      (f := s.params.fifoBytes) hfp (k := burstCount l s.params.fifoBytes) (p := 0) (s := s) rfl rfl hr hw
      (by intro j; rw [hG]; simp) (by simpa using .refl hw)
    simp only [Nat.zero_mul, Nat.zero_le, Nat.min_eq_left, Nat.sub_zero] at h
    obtain ⟨tr, m, q1, q2, q3, q4⟩ := h
    refine ⟨tr, m, ?_, ?_, ?_, q4⟩
    · simp only [if_true, ← h0]; exact q1
    · rw [q2, bytePins, List.range_eq_range']
    · rw [q3, burstsAccesses, List.range_eq_range']

end Sys2Proof.Machine
end

