-- ==== Sys2Proof/Laws/Ld.lean ====
section
/-! SUPPORT. The laws of the loader (spec 44_loader): what a streaming transfer does on each of the buses a load can
use, the status wait, the stream and the settle wait. -/

namespace Sys2Proof.Machine

/-! ## The bus of a load -/

/-- Between the two states the loader, memory, the parameters and the draws of the loader's lines are as they were, and
of the bus record only the secondary select differs. -/
structure LoadFrame (u : BusUnit) (s t : State) : Prop where
  ld : t.ld = s.ld
  mem : t.mem = s.mem
  params : t.params = s.params
  status : t.env.status = s.env.status
  done : t.env.done = s.env.done
  crc : t.env.crc = s.env.crc
  pad : t.env.pad = s.env.pad
  nchan : t.rc.nchan = s.rc.nchan
  bus : t.bus u = { s.bus u with cs2Asserted := (t.bus u).cs2Asserted }

theorem LoadFrame.refl (u : BusUnit) (s : State) : LoadFrame u s s := ⟨rfl, rfl, rfl, rfl, rfl, rfl, rfl, rfl, rfl⟩

theorem LoadFrame.trans {u : BusUnit} {s t r : State} (a : LoadFrame u s t) (b : LoadFrame u t r) : LoadFrame u s r :=
  ⟨b.ld.trans a.ld, b.mem.trans a.mem, b.params.trans a.params, b.status.trans a.status, b.done.trans a.done,
    b.crc.trans a.crc, b.pad.trans a.pad, b.nchan.trans a.nchan, by rw [b.bus, a.bus]⟩

/-- A load's session on a bus that is ready for its next transfer. -/
structure LoadBus (u : BusUnit) (sid : Nat) (S : Session) (s : State) : Prop where
  live : Live u sid S s
  wordlen : S.wordlen = 8#8
  rc : u = .rc → RcQuiet S.cs.toNat s.rc ∧ S.cs.toNat < s.rc.nchan
  mf : u = .mf → MfQuiet S.cs s.mf

theorem Live.frame {u : BusUnit} {sid : Nat} {S : Session} {s t : State} (h : Live u sid S s)
    (hb : t.bus u = { s.bus u with cs2Asserted := (t.bus u).cs2Asserted }) : Live u sid S t := by
  refine ⟨?_, h.2⟩
  rw [hb]
  exact h.1

/-- A transfer that sends, or only moves selects: what a load makes (R254, R256). -/
structure LoadDesc (u : BusUnit) (S : Session) (d : Desc) : Prop where
  legal : Legal u S d
  inp : d.inp = none
  out : d.out = none → d.n = 0#32
  bytes : d.n.toNat % 8 = 0

/-- What such a transfer does: the select as its flags say, unless an RC poll timed out, which leaves it not asserted;
the bits on BB, the bytes on MF; on RC, where no poll timed out, the words, and under a willing shifter no timeout. -/
structure Chunked (u : BusUnit) (sid : Nat) (S : Session) (d : Desc) (s : State) (r : OpResult) (t : State) : Prop where
  frame : LoadFrame u s t
  bus : LoadBus u sid S t
  result : (∃ n, r = .count n) ∧ primaryAsserted u S.cs t = selectLeft d.flags (primaryAsserted u S.cs s) ∨
    u = .rc ∧ r = .error .timeout ∧ primaryAsserted u S.cs t = false
  bb : u = .bb → doutTrace (pinTrace t.trace) = doutTrace (pinTrace s.trace) ++
    (List.range d.n.toNat).map (outBit d.out d.flags.lsb s.mem)
  mf : u = .mf → byteOutTrace (pinTrace t.trace) = byteOutTrace (pinTrace s.trace) ++
    (List.range (d.n.toNat / 8)).map (mfOutByte d s.mem)
  rc : u = .rc → Willing S.cs.toNat (d.n.toNat / 8) s.env →
    (∃ n, r = .count n) ∧ t.env.sched = s.env.sched.drop (d.n.toNat / 8)
  words : u = .rc → (∃ n, r = .count n) → wordOutTrace (pinTrace t.trace) = wordOutTrace (pinTrace s.trace) ++
    (List.range (d.n.toNat / 8)).map (outElem d.out d.flags.lsb s.mem 8)

/-! ## On BB -/

theorem doutTrace_append (a b : List PinEvent) : doutTrace (a ++ b) = doutTrace a ++ doutTrace b :=
  List.filterMap_append

theorem byteOutTrace_append (a b : List PinEvent) : byteOutTrace (a ++ b) = byteOutTrace a ++ byteOutTrace b :=
  List.filterMap_append

/-- The bits a run of cells drives on MOSI. -/
theorem doutTrace_cells (S : Session) (o : Nat → Bool) (i : Nat → Option Bool) (n k : Nat) :
    doutTrace (cellsEvents S o i n k) = (List.range' k n).map o := by
  have cell : ∀ (b : Bool) (x : Option Bool), doutTrace (cellEvents S b x) = [b] := by
    intro b x
    unfold cellEvents gapEvents
    cases S.cpha <;> cases x <;> by_cases h : S.delay = 0#32 <;> simp [h, sampleEvents, doutTrace]
  induction n generalizing k with
  | zero => rfl
  | succ n ih => rw [cellsEvents, doutTrace_append, cell, ih, List.range'_succ]; rfl

theorem doutTrace_cs2 (u : BusUnit) (p : BusProfile) (a : Bool) : doutTrace (cs2Events u p a) = [] := by
  unfold cs2Events; split <;> rfl

theorem doutTrace_begin (S : Session) (p : BusProfile) : doutTrace (bbBeginEvents S p) = [] := by
  unfold bbBeginEvents
  rw [doutTrace_append, doutTrace_append, doutTrace_cs2]; rfl

theorem doutTrace_end (S : Session) (p : BusProfile) : doutTrace (bbEndEvents S p) = [] := by
  unfold bbEndEvents
  rw [doutTrace_append, doutTrace_append, doutTrace_cs2]; rfl

theorem bbTransfer_chunk {sid : Nat} {S : Session} {d : Desc} {s : State} (hb : LoadBus .bb sid S s)
    (hd : LoadDesc .bb S d) (hw : Memory.wf s.mem = true) :
    ∃ r t, transferOp .bb sid d s = .ok (r, t) ∧ Chunked .bb sid S d s r t := by
  have h256 : S.cs.toNat < 256 := S.cs.isLt
  -- begin
  obtain ⟨a, a1, a2, a3, a4⟩ : ∃ a, (if d.flags.begins then bbBegin S s else s) = a ∧ LoadFrame .bb s a ∧
      a.bb.csAsserted.getLsbD S.cs.toNat = (d.flags.begins || s.bb.csAsserted.getLsbD S.cs.toNat) ∧
      doutTrace (pinTrace a.trace) = doutTrace (pinTrace s.trace) := by
    cases d.flags.begins with
    | false => exact ⟨s, rfl, .refl .bb s, by simp, rfl⟩
    | true =>
      have e := bbBegin_spec S s
      refine ⟨bbBegin S s, rfl, ?_, ?_, ?_⟩
      · rw [e]; exact ⟨rfl, rfl, rfl, rfl, rfl, rfl, rfl, rfl, rfl⟩
      · rw [e]; simp only; rw [putLine_getLsbD _ _ _ h256]; simp
      · rw [e]; simp only
        rw [pinTrace_append, pinTrace_pins, doutTrace_append, doutTrace_begin, List.append_nil]
  -- exchange
  obtain ⟨e, e1, e2, e3, e4⟩ : ∃ e, (if exchanges d then bbExchange S d a else a) = e ∧ LoadFrame .bb a e ∧
      e.bb.csAsserted = a.bb.csAsserted ∧
      doutTrace (pinTrace e.trace) = doutTrace (pinTrace a.trace) ++
        (List.range d.n.toNat).map (outBit d.out d.flags.lsb s.mem) := by
    cases hx : exchanges d with
    | false =>
      have : d.n = 0#32 := by
        by_contra hn
        have := exchanges_true hn (.inl fun h => hn (hd.out h))
        rw [hx] at this; cases this
      exact ⟨a, rfl, .refl .bb a, rfl, by simp [this]⟩
    | true =>
      have ex := bbExchange_spec (S := S) (d := d) (s := a) (by rw [a2.mem]; exact hw) hd.legal.buffers
      refine ⟨_, rfl, ?_, ?_, ?_⟩
      · have hm := ex.mem
        rw [hd.inp] at hm
        refine ⟨?_, hm, ?_, ?_, ?_, ?_, ?_, ?_, ?_⟩
        · rw [if_pos rfl, ex.rest]
        · rw [if_pos rfl, ex.rest]
        · rw [if_pos rfl, ex.rest]
        · rw [if_pos rfl, ex.rest]
        · rw [if_pos rfl, ex.rest]
        · rw [if_pos rfl, ex.rest]
        · rw [if_pos rfl, ex.rest]
        · have e : (bbExchange S d a).bus .bb = a.bus .bb := by
            show (bbExchange S d a).bb.bus = a.bb.bus
            rw [ex.bb]
          rw [if_pos rfl, e]
      · rw [if_pos rfl, ex.bb]
      · rw [if_pos rfl, ex.trace, pinTrace_append, pinTrace_pins, doutTrace_append, doutTrace_cells, a2.mem,
          List.range_eq_range']
  -- end
  obtain ⟨f, f1, f2, f3, f4⟩ : ∃ f, (if d.flags.ends then bbEnd S e else e) = f ∧ LoadFrame .bb e f ∧
      f.bb.csAsserted.getLsbD S.cs.toNat = (!d.flags.ends && e.bb.csAsserted.getLsbD S.cs.toNat) ∧
      doutTrace (pinTrace f.trace) = doutTrace (pinTrace e.trace) := by
    cases d.flags.ends with
    | false => exact ⟨e, rfl, .refl .bb e, by simp, rfl⟩
    | true =>
      have h := bbEnd_spec S e
      refine ⟨bbEnd S e, rfl, ?_, ?_, ?_⟩
      · rw [h]; exact ⟨rfl, rfl, rfl, rfl, rfl, rfl, rfl, rfl, rfl⟩
      · rw [h]; simp only; rw [putLine_getLsbD _ _ _ h256]; simp
      · rw [h]; simp only
        rw [pinTrace_append, pinTrace_pins, doutTrace_append, doutTrace_end, List.append_nil]
  have hfr := (a2.trans e2).trans f2
  refine ⟨transferResult d, f, ?_, hfr, ⟨hb.live.frame hfr.bus, hb.wordlen, fun h => (by cases h), fun h => (by cases h)⟩,
    .inl ⟨⟨_, rfl⟩, ?_⟩, fun _ => by rw [f4, e4, a4], fun h => (by cases h), fun h => (by cases h), fun h => (by cases h)⟩
  · show checkedTransfer .bb sid d (bbTransferBody d) s = _
    rw [checkedTransfer_legal hb.live hd.legal]
    simp only [bbTransferBody, a1, e1, f1]
  · show f.bb.csAsserted.getLsbD S.cs.toNat = selectLeft d.flags (s.bb.csAsserted.getLsbD S.cs.toNat)
    rw [f3, e3, a3]
    unfold selectLeft
    cases d.flags.begins <;> cases d.flags.ends <;> simp

/-! ## On RC -/

theorem wordOutTrace_append (a b : List PinEvent) : wordOutTrace (a ++ b) = wordOutTrace a ++ wordOutTrace b :=
  List.filterMap_append

theorem wordOutTrace_cs2 (u : BusUnit) (p : BusProfile) (a : Bool) : wordOutTrace (cs2Events u p a) = [] := by
  unfold cs2Events; split <;> rfl

theorem wordOutTrace_begin (f : Bool) (p : BusProfile) :
    wordOutTrace (pinTrace (whenSet f (pins (cs2Events .rc p true)))) = [] := by
  unfold whenSet
  cases f
  · rfl
  · rw [if_pos rfl, pinTrace_pins, wordOutTrace_cs2]

theorem wordOutTrace_conf (c : Nat) (p : Option Bool) (a b : Word) :
    wordOutTrace (pinTrace (confTrace c p a b)) = [] := by
  cases p <;> rfl

/-- The words of a transmit-only exchange. -/
theorem wordOutTrace_elems (c : Nat) {K : ConfFields} (ht : K.trm = 2#2) (w m : Nat) (o i : Nat → Word) (k : Nat) :
    wordOutTrace (pinTrace (elemsTrace c K w m o i k)) = (List.range k).map o := by
  induction k with
  | zero => rfl
  | succ k ih =>
    rw [elemsTrace, pinTrace_append, wordOutTrace_append, ih, List.range_succ, List.map_append]
    congr 1
    unfold elemTrace wordTrace
    cases K.force <;> simp [ht, pinTrace, wordOutTrace, rcW]

/-- The rounds of polls are no pin events. -/
theorem pinTrace_withoutPolls (c : Nat) (l : List Obs) : pinTrace (withoutPolls c l) = pinTrace l := by
  induction l with
  | nil => rfl
  | cons o l ih =>
    cases o with
    | pin e => rw [withoutPolls_pin]; simpa [pinTrace] using ih
    | reg a =>
      have e : pinTrace (.reg a :: l) = pinTrace l := rfl
      rw [e, ← ih]
      unfold withoutPolls
      rw [List.filter_cons]
      split <;> rfl

/-- A select-only transfer of RC from a quiet controller (R199). -/
theorem rcSelectOnly_spec {S : Session} {c : Nat} (d : Desc) {s : State} (hc : c < s.rc.nchan) (hq : RcQuiet c s.rc) :
    ∃ t, rcSelectOnly S c d s = .ok (.count 0#32, t) ∧ ChanOnly c s.rc t.rc ∧ RcQuiet c t.rc ∧
      (t.rc.chan c).force = selectLeft d.flags (s.rc.chan c).force ∧
      wordOutTrace (pinTrace t.trace) = wordOutTrace (pinTrace s.trace) ∧
      t.rc.bus = { s.rc.bus with cs2Asserted := t.rc.bus.cs2Asserted } ∧
      t = { s with rc := t.rc, trace := t.trace } := by
  have hs : anyMovable s.rc = false := hq.others.still (still_of_off hq.busy hq.en)
  obtain ⟨m, m1, m2, m3, m4, mw, m5, m6⟩ : ∃ m, rcBeginOnly S c d s = .ok m ∧ ChanOnly c s.rc m.rc ∧ RcQuiet c m.rc ∧
      (m.rc.chan c).force = (d.flags.begins || (s.rc.chan c).force) ∧
      wordOutTrace (pinTrace m.trace) = wordOutTrace (pinTrace s.trace) ∧
      m.rc.bus = { s.rc.bus with cs2Asserted := m.rc.bus.cs2Asserted } ∧ m = { s with rc := m.rc, trace := m.trace } := by
    unfold rcBeginOnly
    rw [rcBeginCs2_still hs, ok_bind]
    cases hb : d.flags.begins with
    | false =>
      have e : begun d s = s := by simp [begun, hb]
      exact ⟨s, by simp [e], .refl c _, hq, by simp, rfl, rfl, rfl⟩
    | true =>
      have hb' := begun_rc d s
      have hqb : RcQuiet c (begun d s).rc :=
        ⟨fun k h1 h2 => by rw [hb'.1]; exact hq.others k (hb'.2.2 ▸ h1) h2, by rw [hb'.1]; exact hq.busy, by rw [hb'.1]; exact hq.en⟩
      obtain ⟨u, k1, k2, k3, k4, k5⟩ := rcPhase_still (S := S) (trm := none) (a := true) (hb'.2.2.symm ▸ hc)
        hqb.others
        (still_of_off hqb.busy hqb.en) hqb.busy
      refine ⟨u, by simp [k1], ⟨by rw [k2.chan.nchan, hb'.2.2], by rw [k2.chan.shared, hb'.2.1], fun k hk => by rw [k2.chan.chan k hk, hb'.1]⟩,
        ⟨k2.chan.quiet hqb.others, by rw [k3]; exact hqb.busy, by rw [k3]; exact hqb.en⟩, ?_, ?_, ?_, ?_⟩
      · rw [(channel_confWord (x := u.rc.chan c) (by rw [k3])).1]; rfl
      · rw [k4, pinTrace_append, wordOutTrace_append, wordOutTrace_conf, List.append_nil, begun_eq]
        simp only
        rw [pinTrace_append, wordOutTrace_append, wordOutTrace_begin, List.append_nil]
      · rw [k2.bus, begun_eq]
      · rw [k5, begun_eq]
  unfold rcSelectOnly
  cases he : d.flags.ends with
  | false =>
    exact ⟨m, by simp [m1, rcEnd, he], m2, m3, by rw [m4]; unfold selectLeft; rw [he]; cases d.flags.begins <;> simp,
      mw, m5, m6⟩
  | true =>
    obtain ⟨u, k1, k2, k3, k4, k5⟩ := rcPhase_still (S := S) (trm := none) (a := false) (m2.nchan.symm ▸ hc)
      m3.others
      (still_of_off m3.busy m3.en) m3.busy
    have hch : (cs2 .rc false u).rc.chan = u.rc.chan ∧ (cs2 .rc false u).rc.shared = u.rc.shared ∧
        (cs2 .rc false u).rc.nchan = u.rc.nchan := by
      rw [cs2_rc_spec]; exact ⟨rfl, rfl, rfl⟩
    have hus : anyMovable u.rc = false := (k2.chan.quiet m3.others).still (by
      rw [k3]; exact still_of_off m3.busy (x := { m.rc.chan c with conf := _, rxReq := _ }) m3.en)
    refine ⟨cs2 .rc false u, by simp [m1, rcEnd, he, k1, seqCs2_still hus],
      ⟨by rw [hch.2.2, k2.chan.nchan, m2.nchan], by rw [hch.2.1, k2.chan.shared, m2.shared],
      fun k hk => by rw [hch.1, k2.chan.chan k hk, m2.chan k hk]⟩, ⟨?_, ?_, ?_⟩, ?_, ?_, ?_, ?_⟩
    · intro k hk hne; rw [hch.1]; exact k2.chan.quiet m3.others k (hch.2.2 ▸ hk) hne
    · rw [hch.1, k3]; exact m3.busy
    · rw [hch.1, k3]; exact m3.en
    · rw [hch.1, (channel_confWord (x := u.rc.chan c) (by rw [k3])).1]; unfold selectLeft; rw [he]; rfl
    · rw [cs2_rc_spec]
      simp only
      rw [pinTrace_append, pinTrace_pins, wordOutTrace_append, wordOutTrace_cs2, List.append_nil, k4, pinTrace_append,
        wordOutTrace_append, wordOutTrace_conf, List.append_nil, mw]
    · rw [cs2_rc_spec]; simp only; rw [k2.bus, m5]
    · rw [cs2_rc_spec]; simp only; rw [k5, m6]

/-- The wait for a session's bus depends on nothing else than the records a frame keeps. -/
theorem LoadFrame.of_rc {s t : State} {r : RcBus} {l : List Obs} (h : t = { s with rc := r, trace := l })
    (hn : r.nchan = s.rc.nchan) (hb : r.bus = { s.rc.bus with cs2Asserted := r.bus.cs2Asserted }) :
    LoadFrame .rc s t := by
  subst h; exact ⟨rfl, rfl, rfl, rfl, rfl, rfl, rfl, hn, hb⟩

theorem LoadFrame.of_rcFrame {c : Nat} {s t : State} (h : RcFrame c s t) (hm : t.mem = s.mem) : LoadFrame .rc s t := by
  have e := h.rest
  refine ⟨by rw [e], hm, by rw [e], by rw [e], by rw [e], by rw [e], by rw [e], h.chan.nchan, ?_⟩
  show t.rc.bus = { s.rc.bus with cs2Asserted := t.rc.bus.cs2Asserted }
  rw [h.bus]

theorem LoadFrame.cs2_rc (a : Bool) (s : State) : LoadFrame .rc s (cs2 .rc a s) := by
  rw [cs2_rc_spec]
  exact ⟨rfl, rfl, rfl, rfl, rfl, rfl, rfl, rfl, rfl⟩

theorem RcQuiet.cs2 {c : Nat} {s : State} (h : RcQuiet c s.rc) (a : Bool) : RcQuiet c (cs2 .rc a s).rc := by
  rw [cs2_rc_spec]; exact ⟨h.others, h.busy, h.en⟩

theorem cs2_rc_chan (a : Bool) (s : State) : (cs2 .rc a s).rc.chan = s.rc.chan := by rw [cs2_rc_spec]; rfl

theorem rcTransfer_chunk {sid : Nat} {S : Session} {d : Desc} {s : State} (hb : LoadBus .rc sid S s)
    (hd : LoadDesc .rc S d) (hw : Memory.wf s.mem = true) :
    ∃ r t, transferOp .rc sid d s = .ok (r, t) ∧ Chunked .rc sid S d s r t := by
  obtain ⟨hq, hc⟩ := hb.rc rfl
  have hrun : transferOp .rc sid d s = rcTransferBody d S s := checkedTransfer_legal hb.live hd.legal
  have mk : ∀ {r t}, LoadFrame .rc s t → RcQuiet S.cs.toNat t.rc →
      ((∃ n, r = .count n) ∧ (t.rc.chan S.cs.toNat).force = selectLeft d.flags (s.rc.chan S.cs.toNat).force ∨
        r = .error .timeout ∧ (t.rc.chan S.cs.toNat).force = false) →
      (Willing S.cs.toNat (d.n.toNat / 8) s.env →
        (∃ n, r = .count n) ∧ t.env.sched = s.env.sched.drop (d.n.toNat / 8)) →
      ((∃ n, r = .count n) → wordOutTrace (pinTrace t.trace) = wordOutTrace (pinTrace s.trace) ++
          (List.range (d.n.toNat / 8)).map (outElem d.out d.flags.lsb s.mem 8)) →
      Chunked .rc sid S d s r t := fun hf hq' hr hs hwd =>
    ⟨hf, ⟨hb.live.frame hf.bus, hb.wordlen, fun _ => ⟨hq', hf.nchan.symm ▸ hc⟩, fun h => (by cases h)⟩,
      hr.imp id fun h => ⟨rfl, h⟩, fun h => (by cases h), fun h => (by cases h), fun _ => hs, fun _ => hwd⟩
  cases hx : exchanges d with
  | false =>
    have h0 : d.n = 0#32 := by
      by_contra hn
      have := exchanges_true hn (.inl fun h => hn (hd.out h))
      rw [hx] at this; cases this
    obtain ⟨t, e, e1, e2, e3, ew, e4, e5⟩ := rcSelectOnly_spec (S := S) d hc hq
    refine ⟨_, t, by rw [hrun, rcTransferBody, if_neg (by rw [hx]; simp), e],
      mk (.of_rc e5 e1.nchan e4) e2 (.inl ⟨⟨_, rfl⟩, e3⟩) (fun _ => ⟨⟨_, rfl⟩, by rw [e5, h0]; simp [Draws.drop]⟩) fun _ => ?_⟩
    rw [ew, h0]; simp
  | true =>
    have hn : d.n ≠ 0#32 := by intro h; rw [exchanges_false (.inl h)] at hx; cases hx
    have htrm : trmOf d = 2#2 := by
      cases ho : d.out with
      | none => exact absurd (hd.out ho) hn
      | some a => unfold trmOf; rw [hd.inp, ho]
    have hw8 : S.wordlen.toNat = 8 := by rw [hb.wordlen]; rfl
    obtain ⟨r, t, a, e, fa, ma, ea, ta, h⟩ := rcExchange_spec hd.legal hn hc hq hw rfl
    rw [hw8] at h
    have f0 : LoadFrame .rc s (begun d s) := by rw [begun_eq]; exact ⟨rfl, rfl, rfl, rfl, rfl, rfl, rfl, rfl, rfl⟩
    have hb' := begun_rc d s
    have m0 : (begun d s).mem = s.mem := f0.mem
    have hqa : OthersQuiet S.cs.toNat a.rc := fa.chan.quiet fun k h1 h2 => by
      rw [hb'.1]; exact hq.others k (hb'.2.2 ▸ h1) h2
    have f1 : LoadFrame .rc s a := f0.trans (.of_rcFrame fa (ma.trans m0.symm))
    have wa : wordOutTrace (pinTrace a.trace) = wordOutTrace (pinTrace s.trace) := by
      rw [ta, begun_eq]
      simp only
      rw [pinTrace_append, pinTrace_append, pinTrace_append, wordOutTrace_append, wordOutTrace_append,
        wordOutTrace_append, wordOutTrace_begin, wordOutTrace_conf, List.append_nil, List.append_nil]
      exact List.append_nil _
    refine ⟨r, t, by rw [hrun, rcTransferBody, if_pos hx, e], ?_⟩
    rcases h with ⟨hr, ⟨u, hu⟩, hs⟩ | ⟨hr, -, hnr, ⟨u, v, lu, ht, fv, mv, v1, v2, v3, v4, v5⟩⟩
    · have mu : u.mem = a.mem := by have := hu.stored; rw [hd.inp] at this; exact this
      have f2 := f1.trans (.of_rcFrame hu.frame mu)
      have hqu := hu.off.quiet (hu.frame.chan.quiet hqa)
      have wu : wordOutTrace (pinTrace u.trace) = wordOutTrace (pinTrace s.trace) ++
          (List.range (d.n.toNat / 8)).map (outElem d.out d.flags.lsb s.mem 8) := by
        rw [← pinTrace_withoutPolls S.cs.toNat, hu.trace, hw8, pinTrace_append, pinTrace_append, wordOutTrace_append,
          wordOutTrace_append, pinTrace_withoutPolls, wa, wordOutTrace_elems _ htrm, ma]
        unfold whenSet
        split <;> exact List.append_nil _
      cases he : d.flags.ends with
      | false =>
        obtain rfl := hu.held he
        refine mk f2 hqu (.inl ⟨⟨_, hr⟩, ?_⟩) (fun g => ⟨⟨_, hr⟩, hs g⟩) fun _ => wu
        rw [(channel_confWord hu.off.conf).1]
        show (d.flags.begins || _) = _
        unfold selectLeft Channel.force
        rw [he]
        cases d.flags.begins <;> simp
      | true =>
        obtain ⟨v, ht, fv, cv, ev⟩ := hu.freed he
        have mv : v.mem = u.mem := by rw [ev]
        subst ht
        have hqv : RcQuiet S.cs.toNat v.rc :=
          ⟨fv.chan.quiet hqu.others, by rw [cv]; exact hqu.busy, by rw [cv]; exact hqu.en⟩
        refine mk ((f2.trans (.of_rcFrame fv mv)).trans (.cs2_rc false v)) (hqv.cs2 false) (.inl ⟨⟨_, hr⟩, ?_⟩)
          (fun g => ⟨⟨_, hr⟩, hs g⟩) fun _ => ?_
        · rw [cs2_rc_chan, (channel_confWord (x := v.rc.chan S.cs.toNat) (by rw [cv])).1]
          unfold selectLeft
          rw [he]; rfl
        · rw [cs2_rc_spec]
          simp only
          rw [pinTrace_append, pinTrace_pins, wordOutTrace_append, wordOutTrace_cs2, List.append_nil, ev]
          simp only
          rw [pinTrace_append, wordOutTrace_append, wordOutTrace_conf, List.append_nil, wu]
    · obtain ⟨n, i, k, acc, -, hf⟩ := lu.fill
      have mu : u.mem = a.mem := by rw [hd.inp] at hf; exact hf
      have hqv : RcQuiet S.cs.toNat v.rc := ⟨fv.chan.quiet hqa, v3, en_of_ctrl v2⟩
      subst ht
      refine mk ((f1.trans (.of_rcFrame fv (mv.trans mu))).trans (.cs2_rc false v)) (hqv.cs2 false) (.inr ⟨hr, ?_⟩)
        (fun g => absurd g hnr) fun ⟨n, hn⟩ => by rw [hr] at hn; cases hn
      rw [cs2_rc_chan, (channel_confWord v1).1]; rfl

/-! ## On MF -/

theorem byteOutTrace_cs2 (u : BusUnit) (p : BusProfile) (a : Bool) : byteOutTrace (cs2Events u p a) = [] := by
  unfold cs2Events; split <;> rfl

theorem mfTransfer_chunk {sid : Nat} {S : Session} {d : Desc} {s : State} (hb : LoadBus .mf sid S s)
    (hd : LoadDesc .mf S d) (hw : Memory.wf s.mem = true) :
    ∃ r t, transferOp .mf sid d s = .ok (r, t) ∧ Chunked .mf sid S d s r t := by
  have hq := hb.mf rfl
  have hrun : transferOp .mf sid d s = mfTransferBody d S s := checkedTransfer_legal hb.live hd.legal
  obtain ⟨a, a1, a2, a3, -, a5⟩ := mfBegin_spec hq d
  have ha : a.params = s.params ∧ a.mem = s.mem ∧ a.env = s.env ∧ a.mf.rxq = [] ∧ a.ld = s.ld := by
    rw [a2]; exact ⟨rfl, rfl, rfl, hq.queue, rfl⟩
  obtain ⟨tr, m, e1, e2, -, e4⟩ := mfExchange_spec hd.legal ha.2.2.2.1 (by rw [ha.2.1]; exact hw) rfl rfl
  rw [hd.inp] at e4
  generalize hl : (if exchanges d then d.n.toNat / 8 else 0) = l at e1 e2
  have hl8 : l = d.n.toNat / 8 := by
    rw [← hl]
    cases hx : exchanges d with
    | true => rfl
    | false =>
      have h0 : d.n = 0#32 := by
        by_contra hn
        have := exchanges_true hn (.inl fun h => hn (hd.out h))
        rw [hx] at this; cases this
      simp [h0]
  generalize he : mfMoved m l tr a = e at e1
  have hee : e.mf.cs0 = a.mf.cs0 ∧ e.mf.cs1 = a.mf.cs1 ∧ e.mf.bus = a.mf.bus ∧ e.trace = a.trace ++ tr ∧
      e.mf.rxq = [] := by
    rw [← he]; exact ⟨rfl, rfl, rfl, rfl, rfl⟩
  obtain ⟨u, u1, u2, u3, -⟩ := mfEnd_spec (S := S) hq.slot (s := e) (by rw [hee.1, hee.2.1]; exact a5) d
  have fa : LoadFrame .mf s a := by rw [a2]; exact ⟨rfl, rfl, rfl, rfl, rfl, rfl, rfl, rfl, rfl⟩
  have fe : LoadFrame .mf a e := by rw [← he]; exact ⟨rfl, e4, rfl, rfl, rfl, rfl, rfl, rfl, rfl⟩
  have fu : LoadFrame .mf e u := by rw [u2]; exact ⟨rfl, rfl, rfl, rfl, rfl, rfl, rfl, rfl, rfl⟩
  have hfr := (fa.trans fe).trans fu
  have hu0 : u.mf.cs0 = if S.cs = 0#8 then !selectLeft d.flags (!s.mf.cs0) else s.mf.cs0 := by
    rw [u2]; simp only; rw [hee.1, a2]; simp only
    unfold selectLeft
    cases d.flags.begins <;> cases d.flags.ends <;> by_cases h0 : S.cs = 0#8 <;> simp [h0]
  have hu1 : u.mf.cs1 = if S.cs = 1#8 then !selectLeft d.flags (!s.mf.cs1) else s.mf.cs1 := by
    rw [u2]; simp only; rw [hee.2.1, a2]; simp only
    unfold selectLeft
    cases d.flags.begins <;> cases d.flags.ends <;> by_cases h0 : S.cs = 1#8 <;> simp [h0]
  have hcase : S.cs = 0#8 ∨ S.cs = 1#8 := by
    have := hq.slot
    have : S.cs.toNat = 0 ∨ S.cs.toNat = 1 := by unfold Config.mfNcs at this; omega
    rcases this with h | h
    · exact .inl (BitVec.eq_of_toNat_eq (by simpa using h))
    · exact .inr (BitVec.eq_of_toNat_eq (by simpa using h))
  refine ⟨transferResult d, u, ?_, hfr, ⟨hb.live.frame hfr.bus, hb.wordlen, fun h => (by cases h), fun _ => ?_⟩,
    .inl ⟨⟨_, rfl⟩, ?_⟩, fun h => (by cases h), fun _ => ?_, fun h => (by cases h), fun h => (by cases h)⟩
  · rw [hrun]; simp [mfTransferBody, a1, e1, u1]
  · refine ⟨by rw [u2]; exact hee.2.2.2.2, hq.slot, ?_⟩
    have := hq.other
    rcases hcase with h | h <;> simp [h] at this hu0 hu1 ⊢
    · rw [hu1]; exact this
    · rw [hu0]; exact this
  · show (_ || _) = selectLeft d.flags (_ || _)
    rcases hcase with h | h <;> simp [h] at hu0 hu1 ⊢
    · rw [hu0]
    · rw [hu1]
  · rw [u3, byteOutTrace_append, hee.2.2.2.1, pinTrace_append, byteOutTrace_append, a3, byteOutTrace_append, e2, hl8,
      ha.2.1]
    have h1 : byteOutTrace (whenSet d.flags.begins (cs2Events .mf s.mf.bus.profile true ++ [.cs .mf S.cs.toNat true])) =
        [] := by
      unfold whenSet; split
      · rw [byteOutTrace_append, byteOutTrace_cs2]; rfl
      · rfl
    have h2 : byteOutTrace (whenSet d.flags.ends (.cs .mf S.cs.toNat false :: cs2Events .mf e.mf.bus.profile false)) =
        [] := by
      unfold whenSet; split
      · exact byteOutTrace_cs2 ..
      · rfl
    rw [h1, h2, List.append_nil, List.append_nil]
    congr 1
    simp [byteOutTrace, List.filterMap_map]

/-- The transfer of a load on any of the three buses: it meets no fault. -/
theorem transferOp_chunk {u : BusUnit} {sid : Nat} {S : Session} {d : Desc} {s : State} (hb : LoadBus u sid S s)
    (hd : LoadDesc u S d) (hw : Memory.wf s.mem = true) :
    ∃ r t, transferOp u sid d s = .ok (r, t) ∧ Chunked u sid S d s r t := by
  cases u with
  | bb => exact bbTransfer_chunk hb hd hw
  | rc => exact rcTransfer_chunk hb hd hw
  | mf => exact mfTransfer_chunk hb hd hw

end Sys2Proof.Machine
end

