-- ==== Sys2Proof/Laws/LdStream.lean ====
section
/-! SUPPORT. The laws of `ld.write` (spec 44_loader): the samples of the handshake lines, the status wait, the stream
of transfers and how it stops, the settle wait, and the bus a load leaves. -/

namespace Sys2Proof.Machine

/-! ## Samples (R267) -/

/-- Where no shifter of the loader's bus can move, an event happens at once. -/
theorem afterGap_quiet {α : Type} {h : Nat} {s : State} (hq : LoaderQuiet h s) (event : State → α) :
    afterGap h event s = .ok (event s) := by
  unfold afterGap ldGap
  split
  · rename_i e; rw [shifterGap_still (hq e)]; rfl
  · rfl

theorem LoaderQuiet.congr {h : Nat} {s t : State} (hq : LoaderQuiet h s) (hrc : t.rc = s.rc)
    (hb : (t.handle h).bus = (s.handle h).bus) : LoaderQuiet h t := fun e => by
  rw [hrc]; exact hq (hb.symm.trans e)

theorem LoadBus.quiet {u : BusUnit} {sid h : Nat} {S : Session} {s : State} (hb : LoadBus u sid S s)
    (hu : (s.handle h).bus = u) : LoaderQuiet h s := fun e =>
  have hq := (hb.rc (hu.symm.trans e)).1
  hq.others.still (still_of_off hq.busy hq.en)

theorem statusEvent_spec (h : Nat) (s : State) : statusEvent h s = (s.env.status.answer Config.freeStatus 0,
    { s with
      env := { s.env with status := s.env.status.drop 1 },
      trace := s.trace ++ [.pin (.status h (s.env.status.answer Config.freeStatus 0))] }) := by
  unfold statusEvent
  rw [next_eq_answer, rest_eq_drop]; rfl

theorem doneEvent_spec (h : Nat) (s : State) : doneEvent h s = (s.env.done.answer Config.freeDone 0,
    { s with
      env := { s.env with done := s.env.done.drop 1 },
      trace := s.trace ++ [.pin (.done h (s.env.done.answer Config.freeDone 0))] }) := by
  unfold doneEvent
  rw [next_eq_answer, rest_eq_drop]; rfl

theorem setHandle_setHandle (h : Nat) (x y : Handle) (s : State) :
    setHandle h x (setHandle h y s) = setHandle h x s := by
  simp [setHandle]

/-- The state in which handle `h` is `x` but for the diagnostic sample, and that has been taken (R260). -/
def diagnosed (h : Nat) (x : Handle) (s : State) : State :=
  { setHandle h { x with
      crcDiag := if x.hasCrc then some (s.env.crc.answer Config.freeCrc 0) else x.crcDiag } s with
    env := { s.env with crc := s.env.crc.drop (if x.hasCrc then 1 else 0) },
    trace := s.trace ++ pins (diagEvents h x s.env) }

theorem diag_quiet {h : Nat} {x : Handle} {s : State} (hh : h < s.ld.length) (hb : x.bus = (s.handle h).bus)
    (hq : LoaderQuiet h s) : diag h (setHandle h x s) = .ok (diagnosed h x s) := by
  have hq' : LoaderQuiet h (setHandle h x s) :=
    hq.congr rfl (by rw [handle_setHandle_same hh, hb])
  have hh' : h < (emitPin (.crc h (s.env.crc.answer Config.freeCrc 0)) { setHandle h x s with
      env := { s.env with crc := s.env.crc.drop 1 } }).ld.length := by
    show h < (setHandle h x s).ld.length; rw [setHandle_length]; exact hh
  unfold diag
  rw [handle_setHandle_same hh]
  cases hc : x.hasCrc with
  | false =>
    obtain ⟨xb, xc, xs, xh, xst, xe, xd, xn⟩ := x
    simp only at hc
    subst hc
    simp [diagnosed, diagEvents, pins]
    rfl
  | true =>
    have he : crcEvent h (setHandle h x s) = (s.env.crc.answer Config.freeCrc 0,
        emitPin (.crc h (s.env.crc.answer Config.freeCrc 0)) { setHandle h x s with
          env := { s.env with crc := s.env.crc.drop 1 } }) := by
      unfold crcEvent
      rw [next_eq_answer, rest_eq_drop]; rfl
    simp only [sampleCrc, afterGap_quiet hq', he, if_true, ok_bind, pure_eq_ok]
    have hx : (emitPin (.crc h (s.env.crc.answer Config.freeCrc 0)) { setHandle h x s with
        env := { s.env with crc := s.env.crc.drop 1 } }).handle h = x := handle_setHandle_same hh x
    rw [hx]
    simp [diagnosed, hc, diagEvents, pins, setHandle, emitPin, emit]

theorem fail_quiet {h : Nat} {s : State} (hh : h < s.ld.length) (hq : LoaderQuiet h s) (e : Err) :
    fail h e s = .ok (.error e, diagnosed h { s.handle h with state := .failed, lastError := some e } s) := by
  simp only [fail, diag_quiet (x := { s.handle h with state := .failed, lastError := some e }) hh rfl hq, ok_bind]
  rfl

/-! ## Streaming transfers (R254 to R256) -/

/-- A streaming transfer is one a load makes (R254). -/
theorem chunkDesc_load {u : BusUnit} {S : Session} (hS : S.wordlen = 8#8) (a b : Nat) (hb : b < 2 ^ 29)
    (first last : Bool) : LoadDesc u S (chunkDesc a b first last) ∧ (chunkDesc a b first last).n.toNat = 8 * b := by
  have hn : (chunkDesc a b first last).n.toNat = 8 * b := by
    show (BitVec.ofNat 32 (8 * b)).toNat = _
    rw [BitVec.toNat_ofNat]; omega
  have h8 : S.wordlen.toNat = 8 := by rw [hS]; rfl
  refine ⟨⟨⟨by rw [h8]; decide, fun _ => hS, fun _ _ => rfl, by rw [hn, h8]; omega, fun _ => by rw [hn]; omega, ?_⟩, rfl,
    fun h => (by cases h), by rw [hn]; omega⟩, hn⟩
  intro x y _ h
  cases h

theorem endDesc_load {u : BusUnit} {S : Session} (hS : S.wordlen = 8#8) : LoadDesc u S endDesc := by
  have h8 : S.wordlen.toNat = 8 := by rw [hS]; rfl
  refine ⟨⟨by rw [h8]; decide, fun h => (by cases h), fun _ h => (by cases h), by simp [endDesc], fun _ => rfl, ?_⟩, rfl,
    fun _ => rfl, rfl⟩
  intro x y _ h
  cases h

/-- Where a stream stands that has taken `j` status samples and sent bytes `pos .. pos + b - 1` of the source since `s`,
as memory `m` holds them; on RC when no poll has timed out (`fine`). -/
structure Fed (u : BusUnit) (sid : Nat) (S : Session) (src : Nat) (m : Memory) (pos : Nat) (s : State) (fine : Bool)
    (j b : Nat) (t : State) : Prop where
  ld : t.ld = s.ld
  mem : t.mem = s.mem
  params : t.params = s.params
  status : t.env.status = s.env.status.drop j
  done : t.env.done = s.env.done
  crc : t.env.crc = s.env.crc
  pad : t.env.pad = s.env.pad
  nchan : t.rc.nchan = s.rc.nchan
  bus : LoadBus u sid S t
  profile : t.bus u = { s.bus u with cs2Asserted := (t.bus u).cs2Asserted }
  bbOut : u = .bb → doutTrace (pinTrace t.trace) = doutTrace (pinTrace s.trace) ++
    (List.range' (8 * pos) (8 * b)).map (outBit (some src) true m)
  mfOut : u = .mf → byteOutTrace (pinTrace t.trace) = byteOutTrace (pinTrace s.trace) ++
    (List.range' pos b).map (fun k => rev8 (readByte m (src + k)))
  rcOut : u = .rc → fine = true → wordOutTrace (pinTrace t.trace) = wordOutTrace (pinTrace s.trace) ++
    (List.range' pos b).map (fun k => (rev8 (readByte m (src + k))).setWidth 32)

theorem Fed.refl {u : BusUnit} {sid : Nat} {S : Session} {src pos : Nat} {m : Memory} {s : State}
    (h : LoadBus u sid S s) : Fed u sid S src m pos s true 0 0 s :=
  ⟨rfl, rfl, rfl, by simp, rfl, rfl, rfl, rfl, h, rfl, fun _ => by simp, fun _ => by simp, fun _ _ => by simp⟩

theorem Fed.trans {u : BusUnit} {sid : Nat} {S : Session} {src pos : Nat} {m : Memory} {s t v : State} {f : Bool}
    {j b j' b' : Nat} (h : Fed u sid S src m pos s true j b t) (g : Fed u sid S src m (pos + b) t f j' b' v) :
    Fed u sid S src m pos s f (j + j') (b + b') v := by
  refine ⟨g.ld.trans h.ld, g.mem.trans h.mem, g.params.trans h.params, by rw [g.status, h.status, drop_drop],
    g.done.trans h.done, g.crc.trans h.crc, g.pad.trans h.pad, g.nchan.trans h.nchan, g.bus,
    by rw [g.profile, h.profile], fun e => ?_, fun e => ?_, fun e hf => ?_⟩
  · rw [g.bbOut e, h.bbOut e, List.append_assoc, ← List.map_append, Nat.mul_add, Nat.mul_add,
      List.range'_append_1]
  · rw [g.mfOut e, h.mfOut e, List.append_assoc, ← List.map_append, List.range'_append_1]
  · rw [g.rcOut e hf, h.rcOut e rfl, List.append_assoc, ← List.map_append, List.range'_append_1]

/-- One status sample. -/
theorem Fed.sample {u : BusUnit} {sid : Nat} {S : Session} {s : State} (hb : LoadBus u sid S s) (h src : Nat)
    (m : Memory) (pos : Nat) : Fed u sid S src m pos s true 1 0 (statusEvent h s).2 := by
  rw [statusEvent_spec]
  have hbu : ({ s with
      env := { s.env with status := s.env.status.drop 1 },
      trace := s.trace ++ [.pin (.status h (s.env.status.answer Config.freeStatus 0))] } : State).bus u = s.bus u := by
    cases u <;> rfl
  refine ⟨rfl, rfl, rfl, rfl, rfl, rfl, rfl, rfl,
    ⟨⟨by rw [hbu]; exact hb.live.1, hb.live.2⟩, hb.wordlen, hb.rc, hb.mf⟩, by rw [hbu],
    fun _ => ?_, fun _ => ?_, fun _ _ => ?_⟩
  · simp [pinTrace, doutTrace]
  · simp [pinTrace, byteOutTrace]
  · simp [pinTrace, wordOutTrace]

theorem outBit_shift (src pos : Nat) (m : Memory) (k : Nat) :
    outBit (some (src + pos)) true m k = outBit (some src) true m (8 * pos + k) := by
  unfold outBit bitPos
  simp only [if_true]
  rw [Nat.mul_add_mod, show (8 * pos + k) / 8 = pos + k / 8 by omega, Nat.add_assoc]

/-- A byte sent bit 0 first as one element of a word length of 8 (20_memory R65). -/
theorem outElem_byte (a : Nat) (m : Memory) (k : Nat) :
    outElem (some a) true m 8 k = (rev8 (readByte m (a + k))).setWidth 32 := by
  apply BitVec.eq_of_getLsbD_eq
  intro q hq
  rw [outElem, gatherBits_getLsbD _ _ _ _ hq, BitVec.getLsbD_setWidth]
  simp only [hq, decide_true, Bool.true_and]
  by_cases h : q < 8
  · rw [if_pos h]
    have e1 : (k * 8 + (8 - 1 - q)) / 8 = k := by omega
    have e2 : (k * 8 + (8 - 1 - q)) % 8 = 7 - q := by omega
    unfold rev8
    rw [BitVec.getLsbD_reverse]
    simp only [outBit, bitPos, if_true, e1, e2]
    rw [BitVec.getMsbD]
    simp [h]
  · rw [if_neg h, BitVec.getLsbD_of_ge (rev8 (readByte m (a + k))) q (by omega)]
    simp

/-- One streaming transfer: under a willing shifter its bytes are sent; otherwise RC may time out, which leaves the
select not asserted. Memory is what it is in the transfer; `m` agrees with it on the bytes sent. -/
theorem Fed.chunk {u : BusUnit} {sid : Nat} {S : Session} {s : State} (h : LoadBus u sid S s)
    (hw : Memory.wf s.mem = true) (src pos : Nat) {m : Memory} {b : Nat} (hb : b < 2 ^ 29)
    (hm : ∀ k, k < b → readByte s.mem (src + (pos + k)) = readByte m (src + (pos + k))) (first last : Bool) :
    ∃ r t, transferOp u sid (chunkDesc (src + pos) b first last) s = .ok (r, t) ∧
      ((∃ n, r = .count n) ∧ Fed u sid S src m pos s true 0 b t ∧ primaryAsserted u S.cs t =
          (if last then false else if first then true else primaryAsserted u S.cs s) ∨
        u = .rc ∧ r = .error .timeout ∧ Fed u sid S src m pos s false 0 b t ∧ primaryAsserted u S.cs t = false ∧
          ¬ Willing S.cs.toNat b s.env) ∧
      (u = .rc → Willing S.cs.toNat b s.env → t.env.sched = s.env.sched.drop b) := by
  obtain ⟨hd, hn⟩ := chunkDesc_load (u := u) h.wordlen (src + pos) b hb first last
  obtain ⟨r, t, e, c⟩ := transferOp_chunk h hd hw
  have h8 : (chunkDesc (src + pos) b first last).n.toNat / 8 = b := by rw [hn]; omega
  have fed : ∀ f : Bool, (f = true → ∃ n, r = .count n) → Fed u sid S src m pos s f 0 b t := fun f hf =>
    ⟨c.frame.ld, c.frame.mem, c.frame.params, by rw [c.frame.status, drop_zero], c.frame.done, c.frame.crc,
    c.frame.pad, c.frame.nchan, c.bus, c.frame.bus, fun hu => by
      rw [c.bb hu, hn, List.range'_eq_map_range, List.map_map]
      congr 1
      refine List.map_congr_left fun k hk => ?_
      have hk : k < 8 * b := List.mem_range.1 hk
      have e1 : (chunkDesc (src + pos) b first last).out = some (src + pos) := rfl
      have e2 : (chunkDesc (src + pos) b first last).flags.lsb = true := rfl
      rw [e1, e2, outBit_shift src pos s.mem k]
      simp only [Function.comp_apply, outBit]
      rw [show (8 * pos + k) / 8 = pos + k / 8 by omega, hm (k / 8) (by omega)],
    fun hu => by
      rw [c.mf hu, h8, List.range'_eq_map_range, List.map_map]
      congr 1
      refine List.map_congr_left fun k hk => ?_
      have hk : k < b := List.mem_range.1 hk
      show flipByte true (readByte s.mem (src + pos + k)) = rev8 (readByte m (src + (pos + k)))
      rw [Nat.add_assoc, hm k hk]; rfl,
    fun hu he => by
      rw [c.words hu (hf he), h8, List.range'_eq_map_range, List.map_map]
      congr 1
      refine List.map_congr_left fun k hk => ?_
      have hk : k < b := List.mem_range.1 hk
      show outElem (some (src + pos)) true s.mem 8 k = (rev8 (readByte m (src + (pos + k)))).setWidth 32
      rw [outElem_byte, Nat.add_assoc, hm k hk]⟩
  refine ⟨r, t, e, ?_, fun hu g => ?_⟩
  · rcases c.result with ⟨hr, hp⟩ | ⟨hu, hr, hp⟩
    · exact .inl ⟨hr, fed true fun _ => hr, hp⟩
    · refine .inr ⟨hu, hr, fed false (fun e => by cases e), hp, fun g => ?_⟩
      obtain ⟨⟨n, hn⟩, -⟩ := c.rc hu (by rw [h8]; exact g)
      rw [hr] at hn; cases hn
  · have := (c.rc hu (by rw [h8]; exact g)).2
    rw [h8] at this; exact this

/-- `ABORT` on a rejection: the select is moved to not asserted when a BEGIN has moved it, then release and fail. -/
theorem abort_rejected {u : BusUnit} {sid h : Nat} {S : Session} {s : State} (hb : LoadBus u sid S s)
    (hu : (s.handle h).bus = u) (hw : Memory.wf s.mem = true) (src : Nat) (m : Memory) (pos p : Nat)
    (hp : p = 0 → primaryAsserted u S.cs s = false) :
    ∃ t, abort h sid p .configurationRejected s = releaseAndFail h sid .configurationRejected t ∧
      Fed u sid S src m pos s true 0 0 t ∧ primaryAsserted u S.cs t = false := by
  unfold abort
  by_cases h0 : p = 0
  · exact ⟨s, by simp [h0], .refl hb, hp h0⟩
  · obtain ⟨r, t, e, c⟩ := transferOp_chunk hb (endDesc_load hb.wordlen) hw
    rw [if_pos ⟨by omega, rfl⟩, hu, e]
    refine ⟨t, rfl, ⟨c.frame.ld, c.frame.mem, c.frame.params, by rw [c.frame.status, drop_zero], c.frame.done,
      c.frame.crc, c.frame.pad, c.frame.nchan, c.bus, c.frame.bus, fun hu => by rw [c.bb hu]; rfl,
      fun hu => by rw [c.mf hu]; rfl, fun hu _ => by
        rw [c.words hu (c.rc hu fun k hk => by simp [endDesc] at hk).1]; rfl⟩, ?_⟩
    rcases c.result with ⟨-, hp⟩ | ⟨-, -, hp⟩
    · exact hp
    · exact hp

theorem abort_timeout {h sid p : Nat} (s : State) : abort h sid p .timeout s = releaseAndFail h sid .timeout s := by
  unfold abort
  rw [if_neg (by rintro ⟨-, h⟩; cases h)]

theorem Willing.mono {c m n : Nat} {e : Env} (h : Willing c n e) (hm : m ≤ n) : Willing c m e :=
  fun k hk => h k (by omega)

/-- How a stream ends that finds its status samples `A` and has `k` transfers before the last to make. -/
inductive StreamEnd (u : BusUnit) (h sid : Nat) (S : Session) (src len : Nat) (m : Memory) (chunk k pos : Nat)
    (A : Nat → Bool) (s : State) : Except Fault (Streamed × State) → Prop where
  | sent (v w : State) : Fed u sid S src m pos s true (k + 1) (len - pos + 1) v → primaryAsserted u S.cs v = false →
      w = { v with env := { v.env with pad := v.env.pad.drop 1 } } →
      (∀ q, q ≤ k → A q = true) → StreamEnd u h sid S src len m chunk k pos A s (.ok (.sent, w))
  | rejected (v : State) (i : Nat) : i ≤ k → Fed u sid S src m pos s true (i + 1) (i * chunk) v →
      primaryAsserted u S.cs v = false → (∀ q, q < i → A q = true) → A i = false →
      StreamEnd u h sid S src len m chunk k pos A s (stopStream (releaseAndFail h sid .configurationRejected v))
  | timeout (v w : State) (i b : Nat) : i ≤ k → Fed u sid S src m pos s false (i + 1) b v →
      primaryAsserted u S.cs v = false → w = { v with env := { v.env with pad := w.env.pad } } →
      (∀ q, q ≤ i → A q = true) → u = .rc →
      ¬ Willing S.cs.toNat (if i < k then (i + 1) * chunk else len - pos + 1) s.env →
      StreamEnd u h sid S src len m chunk k pos A s (stopStream (releaseAndFail h sid .timeout w))

/-- Memory as the last transfer of a load reads it (R255): the byte past the buffer is a draw. -/
def padded (src len : Nat) (s : State) : Memory :=
  writeByte s.mem (src + len) (s.env.pad.answer Config.freePad 0)

theorem readByte_padded {src len : Nat} {s : State} (hw : Memory.wf s.mem = true) {k : Nat} (hk : k < len) :
    readByte (padded src len s) (src + k) = readByte s.mem (src + k) :=
  readByte_writeByte_other hw (by omega) _

/-- The last transfer of a stream (R255). -/
theorem lastTransfer_spec {u : BusUnit} {h sid : Nat} {S : Session} {src len pos : Nat} {s : State} {m : Memory}
    (hb : LoadBus u sid S s) (hu : (s.handle h).bus = u) (hw : Memory.wf s.mem = true) (hm : m = padded src len s)
    (hlen : len - pos + 1 < 2 ^ 29) :
    (∃ v w, lastTransfer h sid src len pos s = .ok (.sent, w) ∧
      Fed u sid S src m pos s true 0 (len - pos + 1) v ∧ primaryAsserted u S.cs v = false ∧
      w = { v with env := { v.env with pad := v.env.pad.drop 1 } }) ∨
    (∃ v w, lastTransfer h sid src len pos s = stopStream (releaseAndFail h sid .timeout w) ∧
      Fed u sid S src m pos s false 0 (len - pos + 1) v ∧ primaryAsserted u S.cs v = false ∧
      w = { v with env := { v.env with pad := w.env.pad } } ∧ u = .rc ∧
      ¬ Willing S.cs.toNat (len - pos + 1) s.env) := by
  generalize hs' : ({ s with mem := m, env := { s.env with pad := s.env.pad.drop 1 } } : State) = s'
  have hmem : s'.mem = m := by rw [← hs']
  have hb' : LoadBus u sid S s' := by
    rw [← hs']
    refine ⟨⟨?_, hb.live.2⟩, hb.wordlen, hb.rc, hb.mf⟩
    have := hb.live.1
    cases u <;> exact this
  have hw' : Memory.wf s'.mem = true := by rw [hmem, hm]; exact writeByte_wf hw _ _
  obtain ⟨r, t, e, g, -⟩ := Fed.chunk hb' hw' src pos (m := m) (b := len - pos + 1) hlen
    (fun k _ => by rw [hmem]) (pos == 0) true
  have hpad : drawPad s = (s.env.pad.answer Config.freePad 0,
      { s with env := { s.env with pad := s.env.pad.drop 1 } }) := by
    unfold drawPad; rw [next_eq_answer, rest_eq_drop]
  have hrun : transferWith (src + len) (s.env.pad.answer Config.freePad 0) u sid
      (chunkDesc (src + pos) (len - pos + 1) (pos == 0) true)
      { s with env := { s.env with pad := s.env.pad.drop 1 } } = .ok (r, { t with mem := s.mem }) := by
    unfold transferWith
    have : ({ s with
        mem := writeByte s.mem (src + len) (s.env.pad.answer Config.freePad 0),
        env := { s.env with pad := s.env.pad.drop 1 } } : State) = s' := by rw [← hs', hm]; rfl
    show (transferOp u sid _ _ >>= _) = _
    rw [this, e]; rfl
  have back : ∀ {f : Bool}, Fed u sid S src m pos s' f 0 (len - pos + 1) t →
      Fed u sid S src m pos s f 0 (len - pos + 1)
        { t with mem := s.mem, env := { t.env with pad := s.env.pad } } := fun {f} k => by
    have b1 := k.bus
    have b2 := k.profile
    have hbu : s'.bus u = s.bus u := by rw [← hs']; cases u <;> rfl
    have htu : ({ t with mem := s.mem, env := { t.env with pad := s.env.pad } } : State).bus u = t.bus u := by
      cases u <;> rfl
    refine ⟨by rw [k.ld, ← hs'], rfl, by rw [k.params, ← hs'], by rw [k.status, ← hs'], by rw [k.done, ← hs'],
      by rw [k.crc, ← hs'], rfl, by rw [k.nchan, ← hs'],
      ⟨⟨by rw [htu]; exact b1.live.1, b1.live.2⟩, b1.wordlen, b1.rc, b1.mf⟩, by rw [htu, ← hbu]; exact b2, ?_, ?_, ?_⟩
    · intro hu; have := k.bbOut hu; rw [← hs'] at this; exact this
    · intro hu; have := k.mfOut hu; rw [← hs'] at this; exact this
    · intro hu hf; have := k.rcOut hu hf; rw [← hs'] at this; exact this
  have hpt : ∀ {f : Bool}, Fed u sid S src m pos s' f 0 (len - pos + 1) t → t.env.pad = s.env.pad.drop 1 := fun k => by
    rw [k.pad, ← hs']
  have hpa : primaryAsserted u S.cs { t with mem := s.mem, env := { t.env with pad := s.env.pad } } =
      primaryAsserted u S.cs t := by cases u <;> rfl
  have hsu : ({ s with env := { s.env with pad := s.env.pad.drop 1 } } : State).handle h = s.handle h := rfl
  have hlast : lastTransfer h sid src len pos s = (match r with
      | .error e => stopStream (abort h sid pos e { t with mem := s.mem })
      | _ => .ok (.sent, { t with mem := s.mem })) := by
    unfold lastTransfer
    rw [hpad]
    simp only [hsu, hu, hrun, ok_bind]
    cases r <;> rfl
  rcases g with ⟨⟨n, rfl⟩, hf, hp⟩ | ⟨hrc, rfl, hf, hp, hnw⟩
  · refine .inl ⟨_, _, hlast, back hf, by rw [hpa]; exact hp, ?_⟩
    simp only [← hpt hf]
  · refine .inr ⟨_, { t with mem := s.mem }, by rw [hlast]; simp only [abort_timeout], back hf, by rw [hpa]; exact hp,
      rfl, hrc, fun hg => hnw (by rw [← hs']; exact hg)⟩

/-- The stream of a load (R254 to R256): every way it ends. -/
theorem stream_spec {u : BusUnit} {h sid : Nat} {S : Session} {src len chunk : Nat} {m : Memory} (hchunk : 0 < chunk)
    (hbig : chunk + 1 < 2 ^ 29) (k pos : Nat) (s : State) (hb : LoadBus u sid S s) (hu : (s.handle h).bus = u)
    (hw : Memory.wf s.mem = true) (hm : m = padded src len s) (hc : s.params.chunkBytes = chunk)
    (hlen : pos + k * chunk ≤ len) (hlast : len - (pos + k * chunk) ≤ chunk) (hpos : 0 < k → pos + k * chunk < len)
    (hsel : pos = 0 → primaryAsserted u S.cs s = false) {A : Nat → Bool}
    (hA : A = s.env.status.answer Config.freeStatus) :
    StreamEnd u h sid S src len m chunk k pos A s (stream h sid src len k pos s) := by
  induction k generalizing pos s A with
  | zero =>
    have f1 := Fed.sample hb h src m pos
    have hss : sampleStatus h s = .ok (statusEvent h s) := afterGap_quiet (hb.quiet hu) _
    have hp1 : primaryAsserted u S.cs (statusEvent h s).2 = primaryAsserted u S.cs s := by
      rw [statusEvent_spec]; cases u <;> rfl
    have hs1 : (statusEvent h s).1 = A 0 := by rw [statusEvent_spec, hA]
    have hsch : (statusEvent h s).2.env.sched = s.env.sched := by rw [statusEvent_spec]
    unfold stream
    rw [hss]
    generalize statusEvent h s = p at *
    obtain ⟨st, t⟩ := p
    simp only [ok_bind] at f1 hp1 hs1 hsch ⊢
    have hut : (t.handle h).bus = u := by rw [handle_congr f1.ld]; exact hu
    have hwt : Memory.wf t.mem = true := by rw [f1.mem]; exact hw
    have hmt : m = padded src len t := by unfold padded; rw [f1.mem, f1.pad]; exact hm
    cases st with
    | false =>
      obtain ⟨v, e, f2, f3⟩ := abort_rejected f1.bus hut hwt src m pos pos (fun e => by rw [hp1]; exact hsel e)
      simp only [Bool.false_eq_true, if_false, e]
      exact .rejected v 0 (Nat.le_refl 0) (by simpa using f1.trans f2) f3 (fun q hq => by omega) hs1.symm
    | true =>
      simp only [if_true]
      rcases lastTransfer_spec (len := len) (pos := pos) f1.bus hut hwt hmt (by omega) with
        ⟨v, w, e, f2, hp, hvw⟩ | ⟨v, w, e, f2, hp, hvw, hrc, hnr⟩
      · rw [e]
        exact .sent v w (by simpa using f1.trans f2) hp hvw fun q hq => by rw [Nat.le_zero.1 hq]; exact hs1.symm
      · rw [e]
        refine .timeout v w 0 (0 + (len - pos + 1)) (Nat.le_refl 0) (f1.trans f2) hp hvw
          (fun q hq => by rw [Nat.le_zero.1 hq]; exact hs1.symm) hrc ?_
        rw [if_neg (by omega)]
        intro g
        refine hnr fun q hq => ?_
        rw [hsch]; exact g q hq
  | succ k ih =>
    have f1 := Fed.sample hb h src m pos
    have hss : sampleStatus h s = .ok (statusEvent h s) := afterGap_quiet (hb.quiet hu) _
    have hp1 : primaryAsserted u S.cs (statusEvent h s).2 = primaryAsserted u S.cs s := by
      rw [statusEvent_spec]; cases u <;> rfl
    have hs1 : (statusEvent h s).1 = A 0 := by rw [statusEvent_spec, hA]
    have hsch : (statusEvent h s).2.env.sched = s.env.sched := by rw [statusEvent_spec]
    unfold stream
    rw [hss]
    generalize statusEvent h s = p at *
    obtain ⟨st, t⟩ := p
    simp only [ok_bind] at f1 hp1 hs1 hsch ⊢
    have hut : (t.handle h).bus = u := by rw [handle_congr f1.ld]; exact hu
    have hwt : Memory.wf t.mem = true := by rw [f1.mem]; exact hw
    have hct : t.params.chunkBytes = chunk := by rw [f1.params]; exact hc
    have hk : (k + 1) * chunk = chunk + k * chunk := by rw [Nat.succ_mul, Nat.add_comm]
    have hp0 := hpos (Nat.succ_pos k)
    cases st with
    | false =>
      obtain ⟨v, e, f2, f3⟩ := abort_rejected f1.bus hut hwt src m pos pos (fun e => by rw [hp1]; exact hsel e)
      simp only [Bool.false_eq_true, if_false, e]
      exact .rejected v 0 (Nat.zero_le _) (by simpa using f1.trans f2) f3 (fun q hq => by omega) hs1.symm
    | true =>
      obtain ⟨r, v, e, g1, g2⟩ := Fed.chunk f1.bus hwt src pos (m := m) (b := chunk) (by omega) (fun q hq => by
        rw [hm, readByte_padded hw (by omega), f1.mem]) (pos == 0) false
      simp only [if_true, hut, hct, e, ok_bind]
      rcases g1 with ⟨⟨n, rfl⟩, f2, hp⟩ | ⟨hrc, rfl, f2, hp, hnr⟩
      · have f3 := f1.trans f2
        rw [Nat.zero_add] at f3
        have hcv : v.params.chunkBytes = chunk := by rw [f3.params]; exact hc
        simp only [hcv]
        have hAv : (fun q => A (q + 1)) = v.env.status.answer Config.freeStatus := by
          funext q
          rw [f3.status, answer_drop, hA, Nat.add_comm q 1]
        have rest := ih (pos + chunk) v f3.bus (by rw [handle_congr f3.ld]; exact hu) (by rw [f3.mem]; exact hw)
          (by unfold padded; rw [f3.mem, f3.pad]; exact hm)
          (by rw [f3.params]; exact hc) (by omega) (by omega) (fun _ => by omega) (fun e => by omega) hAv
        have hl : len - (pos + chunk) + 1 + chunk = len - pos + 1 := by omega
        have up : ∀ {q}, (∀ x, x ≤ q → A (x + 1) = true) → ∀ x, x ≤ q + 1 → A x = true := fun hq x hx => by
          cases x with
          | zero => exact hs1.symm
          | succ x => exact hq x (by omega)
        generalize stream h sid src len k (pos + chunk) v = y at rest
        cases rest with
        | sent w w' f4 hp4 hw4 a4 =>
          refine .sent w w' ?_ hp4 hw4 (up a4)
          have := f3.trans f4
          rwa [show 1 + 0 + (k + 1) = k + 1 + 1 by omega, Nat.add_comm chunk, hl] at this
        | rejected w i hi f4 hp4 a4 b4 =>
          refine .rejected w (i + 1) (Nat.succ_le_succ hi) ?_ hp4 (fun x hx => ?_) b4
          · have := f3.trans f4
            rwa [show 1 + 0 + (i + 1) = i + 1 + 1 by omega, show chunk + i * chunk = (i + 1) * chunk by
              rw [Nat.succ_mul, Nat.add_comm]] at this
          · cases x with
            | zero => exact hs1.symm
            | succ x => exact a4 x (by omega)
        | timeout w w' i b hi f4 hp4 hw4 a4 hrc hnr =>
          have := f3.trans f4
          rw [show 1 + 0 + (i + 1) = i + 1 + 1 by omega] at this
          refine .timeout w w' (i + 1) (chunk + b) (Nat.succ_le_succ hi) this hp4 hw4 (up a4) hrc
            fun g => hnr fun q hq => ?_
          have hr : Willing S.cs.toNat chunk t.env := by
            intro x hx
            rw [hsch]
            refine g x ?_
            split
            · rw [Nat.succ_mul]; omega
            · omega
          rw [g2 hrc hr, hsch, answer_drop]
          refine g _ ?_
          have e2 : (i + 1 + 1) * chunk = (i + 1) * chunk + chunk := Nat.succ_mul ..
          by_cases hik : i < k
          · rw [if_pos hik] at hq; rw [if_pos (by omega)]; omega
          · rw [if_neg hik] at hq; rw [if_neg (by omega)]; omega
      · have f3 := f1.trans f2
        rw [Nat.zero_add] at f3
        simp only [abort_timeout]
        refine .timeout v v 0 chunk (Nat.zero_le _) f3 hp rfl
          (fun q hq => by rw [Nat.le_zero.1 hq]; exact hs1.symm) hrc ?_
        rw [if_pos (by omega), Nat.zero_add, Nat.one_mul]
        intro g
        refine hnr fun q hq => ?_
        rw [hsch]; exact g q hq

/-! ## The claim of a load (R251) -/

/-- A load's claim on a ready bus: a session whose transfers can go on; no line moves. -/
theorem claim_loadReady {h : Nat} {s : State} (hr : LoadReady h s) :
    ∃ S sid t, claimOp (s.handle h).bus (s.handle h).cs s = .ok (.session sid, t) ∧ LoadBus (s.handle h).bus sid S t ∧ S.cs = (s.handle h).cs ∧
      primaryAsserted (s.handle h).bus (s.handle h).cs t = false ∧
      t = { s with bb := t.bb, rc := t.rc, mf := t.mf, trace := t.trace } ∧ pinTrace t.trace = pinTrace s.trace ∧
      (t.bus (s.handle h).bus).profile = (s.bus (s.handle h).bus).profile ∧ (t.bus (s.handle h).bus).cfgOk = true ∧
      ((s.handle h).bus = .mf → t.mf.cs0 = true ∧ t.mf.cs1 = true) := by
  obtain ⟨-, h1, h2, h3, h4, h5, h6⟩ := hr
  generalize (s.handle h).bus = u at *
  generalize (s.handle h).cs = cs at *
  have hcl : (s.bus u).claimed = false := by simp [BusRec.claimed, h2]
  cases u with
  | bb =>
    have h4 := h4 rfl
    simp [State.bus] at h1 h2 h3 hcl
    simp [claimOp, hcl, Nat.not_le.2 h3, h1, openSession, unitClaim, unitSetSpeed, unitSetMode, newSession,
      putSession, State.bus, State.setBus, Config.wlInitial]
    refine ⟨_, ⟨⟨rfl, rfl⟩, rfl, fun e => (by cases e), fun e => (by cases e)⟩, rfl, h4⟩
  | rc =>
    have h5 := h5 rfl
    simp [State.bus] at h1 h2 h3 hcl
    simp [claimOp, hcl, Nat.not_le.2 h3, h1, openSession, unitClaim, unitSetSpeed, unitSetMode, newSession,
      putSession, State.bus, State.setBus, Config.wlInitial]
    refine ⟨_, ⟨⟨rfl, rfl⟩, rfl, fun _ => ⟨⟨h5.1.others, h5.1.busy, h5.1.en⟩, ?_⟩, fun e => (by cases e)⟩, rfl, h5.2⟩
    exact Nat.lt_of_lt_of_le h3 (Nat.min_le_right ..)
  | mf =>
    have h6 := h6 rfl
    simp [State.bus] at h1 h2 h3 hcl
    simp [claimOp, hcl, Nat.not_le.2 h3, h1, openSession, unitClaim, unitSetSpeed, unitSetMode, newSession,
      putSession, State.bus, State.setBus, Config.wlInitial, mfWrite, mfBusctl, mfLog, emit]
    refine ⟨_, ⟨⟨rfl, rfl⟩, rfl, fun e => (by cases e), fun _ => ⟨h6.1, ?_, ?_⟩⟩, rfl, ?_, ?_, h6.2⟩
    · exact Nat.lt_of_lt_of_le h3 (Nat.min_le_right ..)
    · simp [h6.2]
    · simp [primaryAsserted, h6.2]
    · simp [pinTrace]

/-! ## Release and failure (R256, R259) -/

/-- The bus of a load at rest: its session can be released, and the release leaves the bus ready for another load. -/
structure AtRest (h : Nat) (u : BusUnit) (sid : Nat) (S : Session) (s : State) : Prop where
  bus : LoadBus u sid S s
  handle : h < s.ld.length
  unit : (s.handle h).bus = u
  cs : (s.handle h).cs = S.cs
  off : primaryAsserted u S.cs s = false
  setUp : (s.bus u).cfgOk = true
  index : S.cs.toNat < claimLimit u s.rc.nchan (s.bus u).profile

theorem LoadReady.of {h : Nat} {u : BusUnit} {cs : BitVec 8} {t : State} (hh : h < t.ld.length)
    (hu : (t.handle h).bus = u) (hcs : (t.handle h).cs = cs) (setUp : (t.bus u).cfgOk = true)
    (free : (t.bus u).cur = none) (index : cs.toNat < claimLimit u t.rc.nchan (t.bus u).profile)
    (bb : u = .bb → t.bb.csAsserted.getLsbD cs.toNat = false)
    (rc : u = .rc → RcQuiet cs.toNat t.rc ∧ (t.rc.chan cs.toNat).force = false)
    (mf : u = .mf → t.mf.rxq = [] ∧ t.mf.cs0 = true ∧ t.mf.cs1 = true) : LoadReady h t := by
  subst hu hcs
  exact ⟨hh, setUp, free, index, bb, rc, mf⟩

/-- Releasing a session at rest. -/
theorem release_atRest {h : Nat} {u : BusUnit} {sid : Nat} {S : Session} {s : State} (hr : AtRest h u sid S s) :
    ∃ t, releaseOp (s.handle h).bus sid s = .ok (.nothing, t) ∧ LoadReady h t ∧ pinTrace t.trace = pinTrace s.trace ∧
      t = { s with bb := t.bb, rc := t.rc, mf := t.mf, trace := t.trace } := by
  obtain ⟨⟨⟨h1, h2⟩, -, h3, h4⟩, hh, hu, hcs, hoff, hset, hix⟩ := hr
  rw [hu]
  cases u with
  | bb =>
    simp only [State.bus] at h1 hset hix
    simp only [releaseOp, liveSession, State.bus, h1, h2, if_true, hoff, Bool.false_eq_true, if_false, unitRelease,
      State.setBus, Except.pure, pure, Except.bind, bind]
    exact ⟨_, rfl, .of (u := .bb) hh hu hcs hset rfl hix (fun _ => hoff) (fun e => (by cases e)) (fun e => by cases e),
      rfl, rfl⟩
  | rc =>
    have hq := (h3 rfl).1
    simp only [State.bus] at h1 hset hix
    simp only [releaseOp, liveSession, State.bus, h1, h2, if_true, hoff, Bool.false_eq_true, if_false, unitRelease,
      State.setBus, Except.pure, pure, Except.bind, bind]
    exact ⟨_, rfl, .of (u := .rc) hh hu hcs hset rfl hix (fun e => (by cases e))
      (fun _ => ⟨⟨hq.others, hq.busy, hq.en⟩, hoff⟩) (fun e => by cases e), rfl, rfl⟩
  | mf =>
    have h4 := h4 rfl
    simp only [State.bus] at h1 hset hix
    have e : mfWrite .busctl 0#32 s =
        .ok { mfLog true .busctl 0#32 s with mf := { (mfLog true .busctl 0#32 s).mf with claimed := false } } := rfl
    simp only [releaseOp, liveSession, State.bus, h1, h2, if_true, hoff, Bool.false_eq_true, if_false, unitRelease,
      State.setBus, Except.pure, pure, Except.bind, bind, e]
    refine ⟨_, rfl, ?_, by simp [mfLog, emit, pinTrace], rfl⟩
    have hcase : S.cs = 0#8 ∨ S.cs = 1#8 := by
      have := h4.slot
      have : S.cs.toNat = 0 ∨ S.cs.toNat = 1 := by unfold Config.mfNcs at this; omega
      rcases this with h | h
      · exact .inl (BitVec.eq_of_toNat_eq (by simpa using h))
      · exact .inr (BitVec.eq_of_toNat_eq (by simpa using h))
    have hs : s.mf.cs0 = true ∧ s.mf.cs1 = true := by
      have h5 := h4.other
      unfold primaryAsserted at hoff
      rcases hcase with h | h <;> simp [h] at h5 hoff
      · exact ⟨hoff, h5⟩
      · exact ⟨h5, hoff⟩
    exact .of (u := .mf) hh hu hcs hset rfl hix (fun e => (by cases e)) (fun e => (by cases e)) fun _ => ⟨h4.queue, hs⟩

theorem LoadReady.congr {h : Nat} {s t : State} (hr : LoadReady h s) (hbb : t.bb = s.bb) (hrc : t.rc = s.rc)
    (hmf : t.mf = s.mf) (hl : t.ld.length = s.ld.length) (hb : (t.handle h).bus = (s.handle h).bus)
    (hcs : (t.handle h).cs = (s.handle h).cs) : LoadReady h t := by
  have hbus : ∀ u, t.bus u = s.bus u := fun u => by cases u <;> simp only [State.bus, hbb, hrc, hmf]
  refine ⟨?_, ?_, ?_, ?_, ?_, ?_, ?_⟩ <;> simp only [hl, hb, hcs, hbb, hrc, hmf, hbus]
  · exact hr.handle
  · exact hr.setUp
  · exact hr.free
  · exact hr.index
  · exact hr.bb
  · exact hr.rc
  · exact hr.mf

theorem LoadReady.quiet {h : Nat} {s : State} (hr : LoadReady h s) : LoaderQuiet h s := fun e =>
  have hq := (hr.rc e).1
  hq.others.still (still_of_off hq.busy hq.en)

/-- Giving a handle another state of its own leaves its bus as ready as it was. -/
theorem LoadReady.diagnosed {h : Nat} {s : State} (hr : LoadReady h s) {x : Handle} (hb : x.bus = (s.handle h).bus)
    (hcs : x.cs = (s.handle h).cs) : LoadReady h (diagnosed h x s) := by
  have e : (Machine.diagnosed h x s).handle h = { x with
      crcDiag := if x.hasCrc then some (s.env.crc.answer Config.freeCrc 0) else x.crcDiag } :=
    handle_setHandle_same hr.handle _
  refine hr.congr rfl rfl rfl ?_ (by rw [e]; exact hb) (by rw [e]; exact hcs)
  show (setHandle h _ s).ld.length = _
  rw [setHandle_length]

/-- A load that fails at rest (R259, R260). -/
theorem releaseAndFail_atRest {h : Nat} {u : BusUnit} {sid : Nat} {S : Session} {s : State} (hr : AtRest h u sid S s)
    (e : Err) :
    ∃ t, releaseAndFail h sid e s = .ok (.error e, t) ∧ LoadReady h t ∧
      pinTrace t.trace = pinTrace s.trace ++ diagEvents h (s.handle h) s.env ∧ t.mem = s.mem ∧
      t.ld = (setHandle h { s.handle h with
        state := .failed, lastError := some e,
        crcDiag := if (s.handle h).hasCrc then some (s.env.crc.answer Config.freeCrc 0) else (s.handle h).crcDiag }
        s).ld := by
  obtain ⟨t, h1, h2, h3, h4⟩ := release_atRest hr
  have hl : t.ld = s.ld := by rw [h4]
  have he : t.env = s.env := by rw [h4]
  have hhd : t.handle h = s.handle h := handle_congr hl h
  refine ⟨_, by simp only [releaseAndFail, h1, ok_bind, fail_quiet h2.handle h2.quiet]; rfl, ?_, ?_, ?_, ?_⟩
  · exact h2.diagnosed rfl rfl
  · show pinTrace (t.trace ++ pins (diagEvents h _ t.env)) = _
    rw [pinTrace_append, pinTrace_pins, h3, he, hhd]; rfl
  · show t.mem = _; rw [h4]
  · show t.ld.set h _ = s.ld.set h _
    rw [hl, he, hhd]

/-! ## The status wait (R252, R253) -/

theorem driveNcfg_quiet {h : Nat} {s : State} (hq : LoaderQuiet h s) (b : Bool) : driveNcfg h b s =
    .ok { setHandle h { s.handle h with ncfg := b } s with trace := s.trace ++ [.pin (.ncfg h b)] } := by
  rw [driveNcfg, afterGap_quiet hq]; rfl

theorem delayMicros_quiet {h : Nat} {s : State} (hq : LoaderQuiet h s) (n : Nat) : delayMicros h n s =
    .ok { s with trace := s.trace ++ [.pin (.delay (.micros n))] } := by
  rw [delayMicros, afterGap_quiet hq]; rfl

theorem resetPulse_spec {h : Nat} {s : State} (hh : h < s.ld.length) (hq : LoaderQuiet h s) : resetPulse h s =
    .ok { setHandle h { s.handle h with ncfg := true } s with trace := s.trace ++ pins (pulseEvents h) } := by
  have q1 : ∀ l b, LoaderQuiet h { setHandle h { s.handle h with ncfg := b } s with trace := l } := fun l b =>
    hq.congr rfl (by
      show ((setHandle h { s.handle h with ncfg := b } s).handle h).bus = _
      rw [handle_setHandle_same hh])
  have e : ∀ l b, ({ setHandle h { s.handle h with ncfg := b } s with trace := l } : State).handle h =
      { s.handle h with ncfg := b } := fun l b => handle_setHandle_same hh _
  unfold resetPulse
  rw [driveNcfg_quiet hq, ok_bind, delayMicros_quiet (q1 _ _), ok_bind, driveNcfg_quiet (q1 _ _), e]
  simp [setHandle, pins, pulseEvents]

/-- The status wait of `n` samples: it ends at the first that reads 1, or after all of them. -/
theorem statusWait_spec {h : Nat} (n : Nat) (s : State) (hq : LoaderQuiet h s) {A : Nat → Bool}
    (hA : A = s.env.status.answer Config.freeStatus) :
    (∃ i l, i < n ∧ (∀ q, q < i → A q = false) ∧ A i = true ∧ statusWait h n s = .ok (true, { setLdState h .streaming s with
        env := { s.env with status := s.env.status.drop (i + 1) },
        trace := s.trace ++ pins l }) ∧ doutTrace l = [] ∧ byteOutTrace l = [] ∧ wordOutTrace l = []) ∨
      ((∀ q, q < n → A q = false) ∧ statusWait h n s = .ok (false, { s with
        env := { s.env with status := s.env.status.drop n },
        trace := s.trace ++ pins (lowSamples h n) })) := by
  induction n generalizing s A with
  | zero => exact .inr ⟨fun q hq => by omega, by simp [statusWait, lowSamples, pins]⟩
  | succ n ih =>
    have hss : sampleStatus h s = .ok (statusEvent h s) := afterGap_quiet hq _
    unfold statusWait
    rw [hss, statusEvent_spec, ok_bind]
    simp only
    rw [show s.env.status.answer Config.freeStatus 0 = A 0 by rw [hA]]
    cases h0 : A 0 with
    | true =>
      exact .inl ⟨0, [.status h true], by omega, fun q hq => by omega, h0,
        by simp [setLdState, pins, setHandle, State.handle], rfl, rfl, rfl⟩
    | false =>
      simp only [Bool.false_eq_true, if_false]
      have hq1 : LoaderQuiet h { s with
        env := { s.env with status := s.env.status.drop 1 },
        trace := s.trace ++ [.pin (.status h false)] } := hq.congr rfl rfl
      rw [delayMicros_quiet hq1, ok_bind]
      have := ih (A := fun q => A (q + 1)) { s with
        env := { s.env with status := s.env.status.drop 1 },
        trace := s.trace ++ [.pin (.status h false)] ++ [.pin (.delay (.micros Config.tStatusStepUs))] }
        (hq.congr rfl rfl)
        (by funext q; show A (q + 1) = (s.env.status.drop 1).answer _ q; rw [answer_drop, hA, Nat.add_comm])
      rcases this with ⟨i, l, h1, h2, h3, h4, h5, h6, h7⟩ | ⟨h1, h2⟩
      · refine .inl ⟨i + 1, .status h false :: .delay (.micros Config.tStatusStepUs) :: l, by omega, fun q hq => ?_, h3, ?_,
          h5, h6, h7⟩
        · cases q with
          | zero => exact h0
          | succ q => exact h2 q (by omega)
        · rw [h4]
          simp [setLdState, setHandle, State.handle, pins, Nat.add_comm]
      · refine .inr ⟨fun q hq => ?_, ?_⟩
        · cases q with
          | zero => exact h0
          | succ q => exact h1 q (by omega)
        · rw [h2]
          simp [pins, lowSamples, Nat.add_comm]

/-! ## The settle wait (R258) -/

/-- Between the two states only the timer, the trace and the draws of the settle wait differ; only line samples have
been added to the trace. -/
structure Waited (s t : State) : Prop where
  rest : t = { s with
    now := t.now,
    trace := t.trace,
    env := { s.env with
      status := t.env.status, done := t.env.done, tick := t.env.tick, rounds := t.env.rounds } }
  trace : ∃ l, t.trace = s.trace ++ pins l ∧ doutTrace l = [] ∧ byteOutTrace l = [] ∧ wordOutTrace l = []

theorem Waited.trans {s t r : State} (a : Waited s t) (b : Waited t r) : Waited s r := by
  obtain ⟨l, h1, h2, h3, h4⟩ := a.trace
  obtain ⟨m, g1, g2, g3, g4⟩ := b.trace
  exact ⟨b.rest.trans (by rw [a.rest]), l ++ m, by rw [g1, h1]; simp [pins],
    by rw [doutTrace_append, h2, g2]; rfl, by rw [byteOutTrace_append, h3, g3]; rfl,
    by rw [wordOutTrace_append, h4, g4]; rfl⟩

theorem Waited.quiet {h : Nat} {s t : State} (a : Waited s t) (hq : LoaderQuiet h s) : LoaderQuiet h t :=
  hq.congr (by rw [a.rest]) (by rw [handle_congr (by rw [a.rest] : t.ld = s.ld)])

theorem settleSamples_waited {h : Nat} {s : State} (hq : LoaderQuiet h s) :
    ∃ x t, settleSamples h s = .ok (x, t) ∧ Waited s t ∧
      (x = none ∨ x = some .configured ∨ x = some (.stopped .configurationRejected)) := by
  have hss : sampleStatus h s = .ok (statusEvent h s) := afterGap_quiet hq _
  unfold settleSamples
  rw [hss, statusEvent_spec, ok_bind]
  simp only
  generalize s.env.status.answer Config.freeStatus 0 = b
  cases b with
  | false => exact ⟨_, _, rfl, ⟨rfl, [.status h false], rfl, rfl, rfl, rfl⟩, .inr (.inr rfl)⟩
  | true =>
    have hq1 : LoaderQuiet h { s with
        env := { s.env with status := s.env.status.drop 1 },
        trace := s.trace ++ [.pin (.status h true)] } := hq.congr rfl rfl
    simp only [if_true, sampleDone, afterGap_quiet hq1, doneEvent_spec, ok_bind]
    generalize s.env.done.answer Config.freeDone 0 = d
    exact ⟨_, _, rfl, ⟨rfl, [.status h true, .done h d], by simp [pins], rfl, rfl, rfl⟩, by cases d <;> simp⟩

theorem settleRounds_waited {h : Nat} (t0 k : Nat) {s : State} (hq : LoaderQuiet h s) :
    ∃ x t, settleRounds h t0 k s = .ok (x, t) ∧ Waited s t ∧
      (x = .configured ∨ x = .stopped .configurationRejected ∨ x = .stopped .timeout) := by
  induction k generalizing s with
  | zero =>
    obtain ⟨x, t, h0, h1, h2⟩ := settleSamples_waited hq
    unfold settleRounds
    rw [h0, ok_bind]
    rcases h2 with rfl | rfl | rfl
    · exact ⟨_, _, rfl, h1.trans ⟨rfl, [], by simp [readNowFrom, pins], rfl, rfl, rfl⟩, .inr (.inr rfl)⟩
    · exact ⟨_, _, rfl, h1, .inl rfl⟩
    · exact ⟨_, _, rfl, h1, .inr (.inl rfl)⟩
  | succ k ih =>
    obtain ⟨x, t, h0, h1, h2⟩ := settleSamples_waited hq
    unfold settleRounds
    rw [h0, ok_bind]
    rcases h2 with rfl | rfl | rfl
    · have h3 : Waited s (readNow t).2 := h1.trans ⟨rfl, [], by simp [readNow, pins], rfl, rfl, rfl⟩
      simp only
      split
      · exact ⟨_, _, rfl, h3, .inr (.inr rfl)⟩
      · obtain ⟨x, r, g0, g1, g2⟩ := ih (h3.quiet hq)
        exact ⟨x, r, g0, h3.trans g1, g2⟩
    · exact ⟨_, _, rfl, h1, .inl rfl⟩
    · exact ⟨_, _, rfl, h1, .inr (.inl rfl)⟩

theorem doneWait_waited {h : Nat} {s : State} (hq : LoaderQuiet h s) : ∃ x t, doneWait h s = .ok (x, t) ∧ Waited s t ∧
    (x = .configured ∨ x = .stopped .configurationRejected ∨ x = .stopped .timeout) := by
  have h0 : Waited s (drawRounds (readNow s).2).2 := ⟨rfl, [], by simp [readNow, drawRounds, pins], rfl, rfl, rfl⟩
  obtain ⟨x, t, g0, g1, g2⟩ := settleRounds_waited (readNow s).1 (drawRounds (readNow s).2).1 (h0.quiet hq)
  exact ⟨x, t, g0, h0.trans g1, g2⟩

/-! ## The load as a whole -/

/-- The state in which a load has claimed its bus and pulsed the target's reset (R251, R252). -/
structure Pulsed (h : Nat) (s : State) (S : Session) (sid : Nat) (t : State) : Prop where
  rest : AtRest h (s.handle h).bus sid S t
  ld : t.ld = (setHandle h { s.handle h with
    state := .resetting, lastError := none, crcDiag := none, ncfg := true } s).ld
  mem : t.mem = s.mem
  params : t.params = s.params
  env : t.env = s.env
  trace : pinTrace t.trace = pinTrace s.trace ++ pulseEvents h

theorem AtRest.congr {h : Nat} {u : BusUnit} {sid : Nat} {S : Session} {s t : State} (hr : AtRest h u sid S s)
    (hbb : t.bb = s.bb) (hrc : t.rc = s.rc) (hmf : t.mf = s.mf) (hl : t.ld.length = s.ld.length)
    (hb : (t.handle h).bus = (s.handle h).bus) (hcs : (t.handle h).cs = (s.handle h).cs) : AtRest h u sid S t := by
  have hbus : ∀ u, t.bus u = s.bus u := fun u => by cases u <;> simp only [State.bus, hbb, hrc, hmf]
  obtain ⟨⟨⟨h1, h2⟩, h3, h4, h5⟩, hh, h6, h7, h8, h9, h10⟩ := hr
  refine ⟨⟨⟨by rw [hbus]; exact h1, h2⟩, h3, by rw [hrc]; exact h4, by rw [hmf]; exact h5⟩, by rw [hl]; exact hh,
    by rw [hb]; exact h6, by rw [hcs]; exact h7, ?_, by rw [hbus]; exact h9, by rw [hbus, hrc]; exact h10⟩
  rw [← h8]
  cases u <;> simp only [primaryAsserted, hbb, hrc, hmf]

theorem AtRest.quiet {h : Nat} {u : BusUnit} {sid : Nat} {S : Session} {s : State} (hr : AtRest h u sid S s) :
    LoaderQuiet h s := hr.bus.quiet hr.unit

/-- Where `ld.write` from a ready bus stands after the reset pulse (R251, R252). -/
theorem ldWrite_pulsed {h : Nat} {s : State} (hr : LoadReady h s) (src : Nat) (len : Word) :
    ∃ S sid t, Pulsed h s S sid t ∧
    ldWriteOp h src len s = (do
      let (risen, t) ← statusWait h Config.nStatus t
      if risen then
        let (x, t) ← stream h sid src len.toNat (chunkCount len.toNat t.params.chunkBytes) 0 t
        match x with
        | .sent => finishLoad h sid len t
        | .stopped r => return (r, t)
      else releaseAndFail h sid .timeout t) := by
  have hih : (enterIdle h s).handle h = { s.handle h with state := .idle, lastError := none, crcDiag := none } :=
    handle_setHandle_same hr.handle _
  have hil : (enterIdle h s).ld.length = s.ld.length := setHandle_length ..
  obtain ⟨S, sid, t, h1, h2, h3, h4, h5, h6, h7, h8, -⟩ :=
    claim_loadReady (hr.congr (t := enterIdle h s) rfl rfl rfl hil (by rw [hih]) (by rw [hih]))
  have hidle : ((enterIdle h s).handle h).bus = (s.handle h).bus := by rw [hih]
  rw [hidle] at h2 h4 h7 h8
  have hl : t.ld = (enterIdle h s).ld := by rw [h5]
  have hth : t.handle h = { s.handle h with state := .idle, lastError := none, crcDiag := none } := by
    rw [handle_congr hl, hih]
  have hlen : h < t.ld.length := by rw [hl, hil]; exact hr.handle
  have hi := hr.index
  have hbi : ∀ u, (enterIdle h s).bus u = s.bus u := fun u => setHandle_bus ..
  have hn : t.rc.nchan = s.rc.nchan := (claimOp_evolves (rep := false) h1).nchan
  have hScs : S.cs = (s.handle h).cs := by rw [h3, hih]
  have hrest : AtRest h (s.handle h).bus sid S t :=
    ⟨h2, hlen, by rw [hth], by rw [hth, hScs], by rw [hScs]; rw [hih] at h4; exact h4, h8,
      by rw [hScs, h7, hbi, hn]; exact hi⟩
  have hsl : (setLdState h .resetting t).ld.length = t.ld.length := setHandle_length ..
  have hsh : (setLdState h .resetting t).handle h = { t.handle h with state := .resetting } :=
    handle_setHandle_same hlen _
  have hrest2 : AtRest h (s.handle h).bus sid S (setLdState h .resetting t) :=
    hrest.congr rfl rfl rfl hsl (by rw [hsh]) (by rw [hsh])
  have hpulse := resetPulse_spec (by rw [hsl]; exact hlen) hrest2.quiet
  refine ⟨S, sid, { setHandle h { (setLdState h .resetting t).handle h with ncfg := true }
      (setLdState h .resetting t) with
    trace := (setLdState h .resetting t).trace ++ pins (pulseEvents h) }, ?_, ?_⟩
  · refine ⟨hrest2.congr rfl rfl rfl (setHandle_length ..) ?_ ?_, ?_, ?_, ?_, ?_, ?_⟩
    · show ((setHandle h _ (setLdState h .resetting t)).handle h).bus = _
      rw [handle_setHandle_same (by rw [hsl]; exact hlen)]
    · show ((setHandle h _ (setLdState h .resetting t)).handle h).cs = _
      rw [handle_setHandle_same (by rw [hsl]; exact hlen)]
    · show ((t.ld.set h _).set h _) = s.ld.set h _
      rw [hsh, hth, hl, List.set_set]
      show (s.ld.set h _).set h _ = _
      rw [List.set_set]
    · show t.mem = _; rw [h5]; rfl
    · show t.params = _; rw [h5]; rfl
    · show t.env = _; rw [h5]; rfl
    · show pinTrace (t.trace ++ pins (pulseEvents h)) = _
      rw [pinTrace_append, pinTrace_pins, h6]; rfl
  · simp only [ldWriteOp, h1, ok_bind, runLoad, hpulse] <;> rfl

/-- A stream leaves the bus of the load at rest. -/
theorem Fed.atRest {h : Nat} {u : BusUnit} {sid : Nat} {S : Session} {src pos j b : Nat} {m : Memory} {f : Bool}
    {s t : State} (hr : AtRest h u sid S s) (k : Fed u sid S src m pos s f j b t)
    (hoff : primaryAsserted u S.cs t = false) : AtRest h u sid S t :=
  ⟨k.bus, by rw [k.ld]; exact hr.handle, by rw [handle_congr k.ld]; exact hr.unit,
    by rw [handle_congr k.ld]; exact hr.cs, hoff, by rw [k.profile]; exact hr.setUp,
    by rw [k.profile, k.nchan]; exact hr.index⟩

/-- What follows a stream that was sent whole (R257, R258). -/
theorem finishLoad_spec {h : Nat} {u : BusUnit} {sid : Nat} {S : Session} {s : State} (hr : AtRest h u sid S s)
    (len : Word) :
    ∃ (x : Settled) (t : State),
      finishLoad h sid len s = .ok (match x with | .configured => .count len | .stopped e => .error e, t) ∧
      (x = .configured ∨ x = .stopped .configurationRejected ∨ x = .stopped .timeout) ∧ LoadReady h t ∧ t.mem = s.mem ∧
      t.ld = (setHandle h { s.handle h with
        state := match x with | .configured => .ready | .stopped _ => .failed,
        lastError := match x with | .configured => (s.handle h).lastError | .stopped e => some e,
        crcDiag := if (s.handle h).hasCrc then some (s.env.crc.answer Config.freeCrc 0) else (s.handle h).crcDiag }
        s).ld ∧
      (s.env.status.answer Config.freeStatus 0 = true → s.env.done.answer Config.freeDone 0 = true → x = .configured) ∧
      doutTrace (pinTrace t.trace) = doutTrace (pinTrace s.trace) ∧
      byteOutTrace (pinTrace t.trace) = byteOutTrace (pinTrace s.trace) ∧
      wordOutTrace (pinTrace t.trace) = wordOutTrace (pinTrace s.trace) := by
  obtain ⟨a, a1, a2, a3, a4⟩ := release_atRest hr
  have hal : a.ld = s.ld := by rw [a4]
  have hah : a.handle h = s.handle h := handle_congr hal h
  have hae : a.env = s.env := by rw [a4]
  have ham : a.mem = s.mem := by rw [a4]
  have hlen : h < a.ld.length := a2.handle
  have hsh : (setLdState h .awaitingDone a).handle h = { a.handle h with state := .awaitingDone } :=
    handle_setHandle_same hlen _
  have hqa : LoaderQuiet h (setLdState h .awaitingDone a) := a2.quiet.congr rfl (by rw [hsh])
  have hfast : s.env.status.answer Config.freeStatus 0 = true → s.env.done.answer Config.freeDone 0 = true →
      ∀ {x t}, doneWait h (setLdState h .awaitingDone a) = .ok (x, t) → x = .configured := by
    intro h1 h2
    have key : ∀ b : State, LoaderQuiet h b → b.env.status = s.env.status → b.env.done = s.env.done →
        ∃ t, settleSamples h b = .ok (some .configured, t) := by
      intro b hb e1 e2
      have hss : sampleStatus h b = .ok (statusEvent h b) := afterGap_quiet hb _
      have hb1 : LoaderQuiet h { b with
        env := { b.env with status := b.env.status.drop 1 },
        trace := b.trace ++ [.pin (.status h true)] } := hb.congr rfl rfl
      unfold settleSamples
      rw [hss, statusEvent_spec, ok_bind]
      rw [← e1] at h1
      rw [← e2] at h2
      simp only [h1, if_true, sampleDone, afterGap_quiet hb1, doneEvent_spec, ok_bind, h2]
      exact ⟨_, rfl⟩
    have kr : ∀ (t0 k : Nat) (b : State), LoaderQuiet h b → b.env.status = s.env.status → b.env.done = s.env.done →
        ∃ t, settleRounds h t0 k b = .ok (.configured, t) := by
      intro t0 k b hb e1 e2
      obtain ⟨t, ht⟩ := key b hb e1 e2
      cases k <;> unfold settleRounds <;> rw [ht, ok_bind] <;> exact ⟨_, rfl⟩
    intro x t e
    obtain ⟨t', e'⟩ := kr (readNow (setLdState h .awaitingDone a)).1
      (drawRounds (readNow (setLdState h .awaitingDone a)).2).1
      (drawRounds (readNow (setLdState h .awaitingDone a)).2).2 (hqa.congr rfl rfl)
      (by show a.env.status = _; rw [hae]) (by show a.env.done = _; rw [hae])
    have e2 := e'.symm.trans e
    cases e2; rfl
  obtain ⟨x, b, e0, w, hx⟩ := doneWait_waited hqa
  obtain ⟨l, l1, l2, l3, l4⟩ := w.trace
  have hb := w.rest
  have e1 : b.bb = a.bb := by rw [hb]; rfl
  have e2 : b.rc = a.rc := by rw [hb]; rfl
  have e3 : b.mf = a.mf := by rw [hb]; rfl
  have e4 : b.ld = s.ld.set h { s.handle h with state := .awaitingDone } := by
    rw [hb]; show a.ld.set h _ = _; rw [hal, hah]
  have e5 : b.mem = s.mem := by rw [← ham, hb]; rfl
  have e6 : b.env.crc = s.env.crc := by rw [← hae, hb]; rfl
  have e7 : pinTrace b.trace = pinTrace s.trace ++ l := by
    rw [l1, pinTrace_append, pinTrace_pins]; show pinTrace a.trace ++ l = _; rw [a3]
  have e8 : b.handle h = { s.handle h with state := .awaitingDone } := by
    rw [← hah, ← hsh]; exact handle_congr (by rw [hb]) h
  have hbl : b.ld.length = a.ld.length := by rw [e4, hal]; simp
  have hbr : LoadReady h b := a2.congr e1 e2 e3 hbl (by rw [e8, hah]) (by rw [e8, hah])
  have hd : ∀ (y : Handle) (e : Env), doutTrace (diagEvents h y e) = [] ∧ byteOutTrace (diagEvents h y e) = [] ∧
      wordOutTrace (diagEvents h y e) = [] := fun y e => by
    unfold diagEvents; split <;> exact ⟨rfl, rfl, rfl⟩
  have fin : ∀ (st : LdState) (le : Option Err) (y : Handle), y = { b.handle h with state := st, lastError := le } →
      (diagnosed h y b).mem = s.mem ∧ LoadReady h (diagnosed h y b) ∧
      (diagnosed h y b).ld = (setHandle h { s.handle h with
        state := st, lastError := le,
        crcDiag := if (s.handle h).hasCrc then some (s.env.crc.answer Config.freeCrc 0) else (s.handle h).crcDiag }
        s).ld ∧
      doutTrace (pinTrace (diagnosed h y b).trace) = doutTrace (pinTrace s.trace) ∧
      byteOutTrace (pinTrace (diagnosed h y b).trace) = byteOutTrace (pinTrace s.trace) ∧
      wordOutTrace (pinTrace (diagnosed h y b).trace) = wordOutTrace (pinTrace s.trace) := by
    intro st le y hy
    obtain ⟨d1, d2, d3⟩ := hd y b.env
    refine ⟨e5, hbr.diagnosed (by rw [hy]) (by rw [hy]), ?_, ?_, ?_, ?_⟩
    · show b.ld.set h _ = s.ld.set h _
      rw [e4, hy, e8, e6, List.set_set]
    · show doutTrace (pinTrace (b.trace ++ pins _)) = _
      rw [pinTrace_append, pinTrace_pins, doutTrace_append, d1, e7, doutTrace_append, l2, List.append_nil,
        List.append_nil]
    · show byteOutTrace (pinTrace (b.trace ++ pins _)) = _
      rw [pinTrace_append, pinTrace_pins, byteOutTrace_append, d2, e7, byteOutTrace_append, l3, List.append_nil,
        List.append_nil]
    · show wordOutTrace (pinTrace (b.trace ++ pins _)) = _
      rw [pinTrace_append, pinTrace_pins, wordOutTrace_append, d3, e7, wordOutTrace_append, l4, List.append_nil,
        List.append_nil]
  have hle : (b.handle h).lastError = (s.handle h).lastError := by rw [e8]
  cases x with
  | configured =>
    obtain ⟨q1, q2, q3, q4, q5, q6⟩ := fin .ready (b.handle h).lastError _ rfl
    refine ⟨.configured, _, ?_, .inl rfl, q2, q1, by rw [← hle]; exact q3, fun _ _ => rfl, q4, q5, q6⟩
    have hdg : diag h (setLdState h .ready b) = .ok (diagnosed h { b.handle h with state := .ready } b) :=
      diag_quiet hbr.handle rfl hbr.quiet
    simp only [finishLoad, a1, ok_bind, e0, hdg]
    rfl
  | stopped e =>
    obtain ⟨q1, q2, q3, q4, q5, q6⟩ := fin .failed (some e) _ rfl
    refine ⟨.stopped e, _, ?_, hx, q2, q1, q3, fun f g => hfast f g e0, q4, q5, q6⟩
    simp only [finishLoad, a1, ok_bind, e0, fail_quiet hbr.handle hbr.quiet]

/-! ## The loader's events of a trace -/

theorem loaderTrace_append (a b : List Obs) : loaderTrace (a ++ b) = loaderTrace a ++ loaderTrace b := by
  simp [loaderTrace, pinTrace_append]

theorem loaderTrace_pins (l : List PinEvent) : loaderTrace (pins l) = l.filter PinEvent.isLoader := by
  simp [loaderTrace, pinTrace_pins]

/-- A shifter's step is none of the loader's events. -/
theorem shifterStep_loaderTrace {c : Nat} {s t : State} (h : shifterStep c s = .ok t) :
    loaderTrace t.trace = loaderTrace s.trace := by
  have hcs : ∀ (b : Bool) (m : State), loaderTrace (emitPin (.cs .rc c b) m).trace = loaderTrace m.trace := fun b m => by
    simp [emitPin, emit, loaderTrace, pinTrace, PinEvent.isLoader]
  unfold shifterStep at h
  split at h
  · simp only at h
    split at h
    · unfold shifterComplete drawWord at h
      simp only at h
      split at h
      · cases h
      · cases h
        split <;> split <;> simp [setChan, emitPin, emit, loaderTrace, pinTrace, PinEvent.isLoader]
    · split at h
      · unfold shifterStart at h
        simp only at h
        split at h
        · cases h
        · split at h
          · cases h
          · cases h; split
            · rfl
            · rw [hcs]; rfl
      · cases h; rfl
  · cases h; rfl

theorem shifterRun_loaderTrace {l : List Nat} {s t : State} (h : shifterRun l s = .ok t) :
    loaderTrace t.trace = loaderTrace s.trace := by
  induction l generalizing s with
  | nil => cases h; rfl
  | cons c l ih =>
    obtain ⟨m, h1, h2⟩ := bind_eq_ok.1 h
    rw [ih h2, shifterStep_loaderTrace h1]

theorem shifterGap_loaderTrace {s t : State} (h : shifterGap s = .ok t) : loaderTrace t.trace = loaderTrace s.trace := by
  unfold shifterGap at h
  split at h
  · exact (shifterRun_loaderTrace (s := { s with env := { s.env with sched := s.env.sched.rest } }) h).trans rfl
  · cases h; rfl

/-- What the gap before a loader's event leaves as it was. -/
theorem ldGap_loaderTrace {h : Nat} {s t : State} (e : ldGap h s = .ok t) : loaderTrace t.trace = loaderTrace s.trace ∧
    t.params = s.params ∧ t.now = s.now ∧ t.env.tick = s.env.tick ∧ (LoaderQuiet h s → t = s) := by
  unfold ldGap at e
  split at e
  · rename_i hu
    have hs := (shifterGap_shifted e).rest
    refine ⟨shifterGap_loaderTrace e, by rw [hs], by rw [hs], by rw [hs], fun q => ?_⟩
    rw [shifterGap_still (q hu)] at e; cases e; rfl
  · cases e; exact ⟨rfl, rfl, rfl, rfl, fun _ => rfl⟩

end Sys2Proof.Machine
end

