-- ==== Sys2Proof/Laws/PerInstr.lean ====
section
/-! SUPPORT. What holds of every instruction as syntax, one lemma for each constructor. The family `Encodable`: the
word of an instruction has its header or key of two bytes, and is no longer than the longest instruction, so
that it fits where `withFetchWord` lays a word (spec 30_encoding R90, R91, R98, R99). -/

namespace Sys2Proof.Laws.Encodable

/-- The encoding of `i`, under any layout, has at least the two bytes of a header or key and at most `longestBytes`. -/
def Statement (i : Instr) : Prop :=
  ∀ L : Config.Layout, 2 ≤ (encode L i).bytes.length ∧ (encode L i).bytes.length ≤ longestBytes

theorem leBytes_length (k v : Nat) : (leBytes k v).length = k := by
  induction k generalizing v with
  | zero => rfl
  | succ k ih => simp [leBytes, ih]

theorem bufBytes_length (b : Option Nat) : (bufBytes b).length = 9 := by
  cases b <;> simp [bufBytes, leBytes_length]

theorem opIssue_length (u : BusUnit) (o : ContractOp) (bs : List Byte) :
    (opIssue u o bs).bytes.length = 2 + bs.length := by
  simp [opIssue, leBytes_length]

theorem loaderIssue_length (o : LoaderOp) (h : Nat) (bs : List Byte) :
    (loaderIssue o h bs).bytes.length = 3 + bs.length := by
  simp [loaderIssue, leBytes_length]; omega

theorem descBytes_length (d : Desc) : (descBytes d).length = 23 := by
  simp [descBytes, leBytes_length, bufBytes_length]

theorem rcRead_within (M : Config.RcMap) (g : RcReg) :
    2 ≤ (rcReadIssue M g).bytes.length ∧ (rcReadIssue M g).bytes.length ≤ longestBytes := by
  simp [rcReadIssue, leBytes_length, longestBytes]

theorem rcWrite_within (M : Config.RcMap) (g : RcReg) (v : Word) :
    2 ≤ (rcWriteIssue M g v).bytes.length ∧ (rcWriteIssue M g v).bytes.length ≤ longestBytes := by
  simp [rcWriteIssue, leBytes_length, longestBytes]

theorem mfRead_within (M : Config.MfMap) (g : MfReg) :
    2 ≤ (mfReadIssue M g).bytes.length ∧ (mfReadIssue M g).bytes.length ≤ longestBytes := by
  simp [mfReadIssue, leBytes_length, longestBytes]

theorem mfWrite_within (M : Config.MfMap) (g : MfReg) (v : Nat) :
    2 ≤ (mfWriteIssue M g v).bytes.length ∧ (mfWriteIssue M g v).bytes.length ≤ longestBytes := by
  cases g <;> simp [mfWriteIssue, leBytes_length, mfWidth, longestBytes]

theorem bbSetup : Statement .bbSetup := by
  intro L; simp [encode, opIssue_length, leBytes_length, longestBytes]
theorem bbClaim (cs : BitVec 8) : Statement (.bbClaim cs) := by
  intro L; simp [encode, opIssue_length, leBytes_length, longestBytes]
theorem bbRelease (s : Nat) : Statement (.bbRelease s) := by
  intro L; simp [encode, opIssue_length, leBytes_length, longestBytes]
theorem bbSetSpeed (s : Nat) (hz : Word) : Statement (.bbSetSpeed s hz) := by
  intro L; simp [encode, opIssue_length, leBytes_length, longestBytes]
theorem bbSetMode (s : Nat) (m : Mode) : Statement (.bbSetMode s m) := by
  intro L; simp [encode, opIssue_length, leBytes_length, longestBytes]
theorem bbSetWordlen (s : Nat) (bits : BitVec 8) : Statement (.bbSetWordlen s bits) := by
  intro L; simp [encode, opIssue_length, leBytes_length, longestBytes]
theorem bbTransfer (s : Nat) (d : Desc) : Statement (.bbTransfer s d) := by
  intro L; simp [encode, opIssue_length, leBytes_length, descBytes_length, longestBytes]
theorem rcSetup : Statement .rcSetup := by
  intro L; simp [encode, opIssue_length, leBytes_length, longestBytes]
theorem rcClaim (cs : BitVec 8) : Statement (.rcClaim cs) := by
  intro L; simp [encode, opIssue_length, leBytes_length, longestBytes]
theorem rcRelease (s : Nat) : Statement (.rcRelease s) := by
  intro L; simp [encode, opIssue_length, leBytes_length, longestBytes]
theorem rcSetSpeed (s : Nat) (hz : Word) : Statement (.rcSetSpeed s hz) := by
  intro L; simp [encode, opIssue_length, leBytes_length, longestBytes]
theorem rcSetMode (s : Nat) (m : Mode) : Statement (.rcSetMode s m) := by
  intro L; simp [encode, opIssue_length, leBytes_length, longestBytes]
theorem rcSetWordlen (s : Nat) (bits : BitVec 8) : Statement (.rcSetWordlen s bits) := by
  intro L; simp [encode, opIssue_length, leBytes_length, longestBytes]
theorem rcTransfer (s : Nat) (d : Desc) : Statement (.rcTransfer s d) := by
  intro L; simp [encode, opIssue_length, leBytes_length, descBytes_length, longestBytes]
theorem mfSetup : Statement .mfSetup := by
  intro L; simp [encode, opIssue_length, leBytes_length, longestBytes]
theorem mfClaim (cs : BitVec 8) : Statement (.mfClaim cs) := by
  intro L; simp [encode, opIssue_length, leBytes_length, longestBytes]
theorem mfRelease (s : Nat) : Statement (.mfRelease s) := by
  intro L; simp [encode, opIssue_length, leBytes_length, longestBytes]
theorem mfSetSpeed (s : Nat) (hz : Word) : Statement (.mfSetSpeed s hz) := by
  intro L; simp [encode, opIssue_length, leBytes_length, longestBytes]
theorem mfSetMode (s : Nat) (m : Mode) : Statement (.mfSetMode s m) := by
  intro L; simp [encode, opIssue_length, leBytes_length, longestBytes]
theorem mfSetWordlen (s : Nat) (bits : BitVec 8) : Statement (.mfSetWordlen s bits) := by
  intro L; simp [encode, opIssue_length, leBytes_length, longestBytes]
theorem mfTransfer (s : Nat) (d : Desc) : Statement (.mfTransfer s d) := by
  intro L; simp [encode, opIssue_length, leBytes_length, descBytes_length, longestBytes]
theorem ldErase (offset len : Word) (h : Nat) : Statement (.ldErase offset len h) := by
  intro L; simp [encode, loaderIssue_length, leBytes_length, longestBytes]
theorem ldRead (offset len : Word) (dst : Nat) (h : Nat) : Statement (.ldRead offset len dst h) := by
  intro L; simp [encode, loaderIssue_length, leBytes_length, longestBytes]
theorem ldWrite (offset : Word) (src : Nat) (len : Word) (h : Nat) : Statement (.ldWrite offset src len h) := by
  intro L; simp [encode, loaderIssue_length, leBytes_length, longestBytes]
theorem ldSync (h : Nat) : Statement (.ldSync h) := by
  intro L; simp [encode, loaderIssue_length, longestBytes]
theorem ldLock (offset len : Word) (h : Nat) : Statement (.ldLock offset len h) := by
  intro L; simp [encode, loaderIssue_length, leBytes_length, longestBytes]
theorem ldUnlock (offset len : Word) (h : Nat) : Statement (.ldUnlock offset len h) := by
  intro L; simp [encode, loaderIssue_length, leBytes_length, longestBytes]
theorem rcChconfR (c : Nat) : Statement (.rcChconfR c) := fun _ => rcRead_within _ _
theorem rcChconfW (c : Nat) (v : Word) : Statement (.rcChconfW c v) := fun _ => rcWrite_within _ _ _
theorem rcChstatR (c : Nat) : Statement (.rcChstatR c) := fun _ => rcRead_within _ _
theorem rcChstatW (c : Nat) (v : Word) : Statement (.rcChstatW c v) := fun _ => rcWrite_within _ _ _
theorem rcChctrlR (c : Nat) : Statement (.rcChctrlR c) := fun _ => rcRead_within _ _
theorem rcChctrlW (c : Nat) (v : Word) : Statement (.rcChctrlW c v) := fun _ => rcWrite_within _ _ _
theorem rcTxR (c : Nat) : Statement (.rcTxR c) := fun _ => rcRead_within _ _
theorem rcTxW (c : Nat) (v : Word) : Statement (.rcTxW c v) := fun _ => rcWrite_within _ _ _
theorem rcRxR (c : Nat) : Statement (.rcRxR c) := fun _ => rcRead_within _ _
theorem rcRxW (c : Nat) (v : Word) : Statement (.rcRxW c v) := fun _ => rcWrite_within _ _ _
theorem rcSharedR (j : Nat) : Statement (.rcSharedR j) := fun _ => rcRead_within _ _
theorem rcSharedW (j : Nat) (v : Word) : Statement (.rcSharedW j v) := fun _ => rcWrite_within _ _ _
theorem mfTxfifoW (o : Nat) (v : BitVec 16) : Statement (.mfTxfifoW o v) := fun _ => mfWrite_within _ _ _
theorem mfBusctlW (v : Word) : Statement (.mfBusctlW v) := fun _ => mfWrite_within _ _ _
theorem mfCs0W (v : Word) : Statement (.mfCs0W v) := fun _ => mfWrite_within _ _ _
theorem mfCs1W (v : Word) : Statement (.mfCs1W v) := fun _ => mfWrite_within _ _ _
theorem mfSpeedW (v : Word) : Statement (.mfSpeedW v) := fun _ => mfWrite_within _ _ _
theorem mfModeW (v : Word) : Statement (.mfModeW v) := fun _ => mfWrite_within _ _ _
theorem mfWrbyteW (v : Word) : Statement (.mfWrbyteW v) := fun _ => mfWrite_within _ _ _
theorem mfRdbyteR : Statement .mfRdbyteR := fun _ => mfRead_within _ _
theorem mfReadW (v : Word) : Statement (.mfReadW v) := fun _ => mfWrite_within _ _ _
theorem mfRxfifoR (o : Nat) : Statement (.mfRxfifoR o) := fun _ => mfRead_within _ _

end Sys2Proof.Laws.Encodable
end

