-- ==== Sys2Proof/Laws/Step.lean ====
section
/-! SUPPORT. The laws of `exec` and `step`: what every instruction can do, and every way a step answers a next state. -/

namespace Sys2Proof.Machine

/-- What every instruction can do (00_scope R13, R14). -/
theorem exec_evolves {i : Instr} {s t : State} (h : exec i s = .next t) : Evolves (repeatsSelect i) s t := by
  cases i
  case ldErase => cases (onHandle_eq_next.1 h).2; exact result_evolves _ _
  case ldSync => cases (onHandle_eq_next.1 h).2; exact result_evolves _ _
  case ldLock => cases (onHandle_eq_next.1 h).2; exact result_evolves _ _
  case ldUnlock => cases (onHandle_eq_next.1 h).2; exact result_evolves _ _
  case ldRead => cases (onHandle_eq_next.1 h).2; exact (storeBytes_evolves _ _ _).trans (result_evolves _ _)
  case ldWrite => exact finish_evolves (fun r m hx => ldWriteOp_evolves hx) (onHandle_eq_next.1 h).2
  case mfSpeedW v =>
    exact finish_evolves (x := returnWrite (mfWrite .speed v s))
      (fun r m hx => mfWrite_evolves (returnWrite_eq_ok.1 hx).1) h
  case mfModeW v =>
    exact finish_evolves (x := returnWrite (mfWrite .mode v s))
      (fun r m hx => mfWrite_evolves (returnWrite_eq_ok.1 hx).1) h
  all_goals refine finish_evolves ?_ h; intro r m hx
  case bbSetup => exact setupOp_evolves hx
  case rcSetup => exact setupOp_evolves hx
  case mfSetup => exact setupOp_evolves hx
  case bbClaim => exact claimOp_evolves hx
  case rcClaim => exact claimOp_evolves hx
  case mfClaim => exact claimOp_evolves hx
  case bbRelease => exact releaseOp_evolves hx
  case rcRelease => exact releaseOp_evolves hx
  case mfRelease => exact releaseOp_evolves hx
  case bbSetSpeed => exact setSpeedOp_evolves hx
  case rcSetSpeed => exact setSpeedOp_evolves hx
  case mfSetSpeed => exact setSpeedOp_evolves hx
  case bbSetMode => exact setModeOp_evolves hx
  case rcSetMode => exact setModeOp_evolves hx
  case mfSetMode => exact setModeOp_evolves hx
  case bbSetWordlen => exact setWordlenOp_evolves hx
  case rcSetWordlen => exact setWordlenOp_evolves hx
  case mfSetWordlen => exact setWordlenOp_evolves hx
  case bbTransfer => exact (bbTransferOp_works hx).evolves
  case rcTransfer => exact (rcTransferOp_works hx).evolves
  case mfTransfer => exact (mfTransferOp_works hx).evolves
  case mfRdbyteR => obtain ⟨v, h1, _⟩ := returnRead_eq_ok.1 hx; exact mfRead_evolves h1
  case mfRxfifoR => obtain ⟨v, h1, _⟩ := returnRead_eq_ok.1 hx; exact mfRead_evolves h1
  all_goals first
    | (obtain ⟨v, h1, _⟩ := returnRead_eq_ok.1 hx; exact rcRead_evolves h1)
    | exact rcWrite_evolves (returnWrite_eq_ok.1 hx).1
    | exact mfWrite_evolves (returnWrite_eq_ok.1 hx).1

/-- Every way a step answers a next state: no fault is marked, the shifters take their steps, and what stands at the
head of the queue, if anything does, is bytes that are stored or a word that spells the instruction that runs. -/
theorem step_cases {s t : State} (h : step s = .next t) : s.faultMark = [] ∧ ∃ m, shifterGap s = .ok m ∧
    ((m.queue = [] ∧ t = m) ∨
      (∃ a bs rest, m.queue = .store a bs :: rest ∧ t = storeBytes a bs { m with queue := rest }) ∨
      ∃ x rest i, m.queue = .issue x :: rest ∧ decodeIssue m.layout x = .ok i ∧
        exec i { m with queue := rest } = .next t) := by
  unfold step stepOnce at h
  cases hf : s.faultMark with
  | cons f l => simp [hf] at h
  | nil =>
    simp only [hf] at h
    refine ⟨rfl, ?_⟩
    cases hg : shifterGap s with
    | error f => simp [hg] at h
    | ok m =>
      simp only [hg, issueNext] at h
      refine ⟨m, rfl, ?_⟩
      cases hq : m.queue with
      | nil => simp [hq] at h; exact .inl ⟨rfl, h.symm⟩
      | cons x rest =>
        cases x with
        | store a bs => simp only [hq] at h; cases h; exact .inr (.inl ⟨a, bs, rest, rfl, rfl⟩)
        | issue x =>
          simp only [hq] at h
          cases hd : decodeIssue m.layout x with
          | error e => simp only [hd] at h; cases e <;> simp [rejected] at h
          | ok i => simp only [hd] at h; exact .inr (.inr ⟨x, rest, i, rfl, hd, h⟩)

/-- The invariant says nothing of the host's queue. -/
theorem queue_inv {s : State} {q : List HostAct} (h : Inv s) : Inv { s with queue := q } :=
  Inv.congr (s := s) rfl rfl rfl rfl rfl h

end Sys2Proof.Machine
end

