-- ==== Sys2Proof/Tests/Slice0.lean ====
section
/-! SUPPORT. The model's own tests: ill-formed terms refused, words of the spec decoded, the vectors of
95_test_vectors on single steps, and for every obligation with hypotheses a witness that meets them. Expected
values are the spec's; the vector is named in each comment. -/

open Sys2Proof Sys2Proof.Machine

namespace Sys2Proof.Tests

/-! ## Well-formedness: each check refuses -/

theorem test_sid_too_large : (Instr.bbRelease (2 ^ 32)).wellFormed Config.layout = false := by decide
theorem test_sid_largest : (Instr.mfSetSpeed (2 ^ 32 - 1) 0#32).wellFormed Config.layout = true := by decide
theorem test_out_too_large :
    (Instr.rcTransfer 0 ⟨8#32, some (2 ^ 64), none, ⟨true, true, false⟩⟩).wellFormed Config.layout = false := by decide
theorem test_in_too_large :
    (Instr.mfTransfer 0 ⟨8#32, none, some (2 ^ 64), ⟨true, true, false⟩⟩).wellFormed Config.layout = false := by decide
theorem test_dst_too_large : (Instr.ldRead 0#32 4#32 (2 ^ 64) 0).wellFormed Config.layout = false := by decide
theorem test_src_too_large : (Instr.ldWrite 0#32 (2 ^ 64) 4#32 0).wellFormed Config.layout = false := by decide
theorem test_handle_too_large : (Instr.ldSync (2 ^ 8)).wellFormed Config.layout = false := by decide
theorem test_no_channel_4 : (Instr.rcChconfR 4).wellFormed Config.layout = false := by decide
theorem test_no_shared_11 : (Instr.rcSharedW 11 0#32).wellFormed Config.layout = false := by decide
theorem test_window_offset_odd : (Instr.mfTxfifoW 1 0#16).wellFormed Config.layout = false := by decide
theorem test_window_offset_256 : (Instr.mfRxfifoR 256).wellFormed Config.layout = false := by decide

/-! ## Decoding: words from the spec -/

/-- A decoded word, without the bytes after it. -/
def read (p : Port) (bs : List Byte) : Except DecodeError Instr := decodeIssue Config.layout { port := p, bytes := bs }

/-- V-ENC-1 with the operands of R92 (log 2). -/
theorem test_decode_bb : read .op [0x00#8, 0x00#8, 0x00#8] = .ok .bbSetup ∧
    read .op [0x01#8, 0x00#8, 0x00#8, 0x01#8] = .ok (.bbClaim 1#8) ∧
    read .op [0x02#8, 0x00#8, 0x07#8, 0x00#8, 0x00#8, 0x00#8] = .ok (.bbRelease 7) ∧
    read .op [0x05#8, 0x00#8, 0x07#8, 0x00#8, 0x00#8, 0x00#8, 0x0C#8] = .ok (.bbSetWordlen 7 12#8) := by
  decide

/-- P2 lines 3 and 4 (R96: cpha bit 0, cpol bit 1, cs_high bit 2). -/
theorem test_decode_rc : read .op [0x03#8, 0x01#8, 0x07#8, 0#8, 0#8, 0#8, 0x40#8, 0x42#8, 0x0F#8, 0#8] =
      .ok (.rcSetSpeed 7 1000000#32) ∧
    read .op [0x04#8, 0x01#8, 0x07#8, 0#8, 0#8, 0#8, 0x02#8] = .ok (.rcSetMode 7 ⟨false, true, false⟩) := by
  decide

/-- V-ENC-3, V-ENC-6: a descriptor whose output buffer is at address 0 and whose input is absent. -/
theorem test_decode_desc : read .op ([0x06#8, 0x02#8, 0x07#8, 0#8, 0#8, 0#8, 0x18#8, 0#8, 0#8, 0#8] ++
      [1#8, 0#8, 0#8, 0#8, 0#8, 0#8, 0#8, 0#8, 0#8] ++ [0#8, 0#8, 0#8, 0#8, 0#8, 0#8, 0#8, 0#8, 0#8] ++ [0x05#8]) =
    .ok (.mfTransfer 7 ⟨24#32, some 0, none, ⟨true, false, true⟩⟩) := by
  decide

/-- V-ENC-4 with the operands of R92. -/
theorem test_decode_ld : read .op ([0x12#8, 0x03#8, 0#8] ++ [1#8, 0#8, 0#8, 0#8] ++
      [0x34#8, 0x12#8, 0#8, 0#8, 0#8, 0#8, 0#8, 0#8] ++ [5#8, 0#8, 0#8, 0#8]) = .ok (.ldWrite 1#32 0x1234 5#32 0) ∧
    read .op ([0x11#8, 0x03#8, 0#8] ++ [1#8, 0#8, 0#8, 0#8] ++ [5#8, 0#8, 0#8, 0#8] ++
      [0x34#8, 0x12#8, 0#8, 0#8, 0#8, 0#8, 0#8, 0#8]) = .ok (.ldRead 1#32 5#32 0x1234 0) ∧
    read .op [0x15#8, 0x03#8, 2#8, 1#8, 0#8, 0#8, 0#8, 2#8, 0#8, 0#8, 0#8] = .ok (.ldUnlock 1#32 2#32 2) := by
  decide

/-- V-ENC-5. -/
theorem test_decode_reserved : read .op [0x07#8, 0x01#8] = .error .unknownOperation ∧
    read .op [0x06#8, 0x03#8] = .error .unknownOperation ∧
    read .op [0x00#8, 0x04#8] = .error .unknownOperation ∧
    read .op [0x06#8, 0x10#8] = .error .unknownOperation := by decide

/-- V-ENC-9, V-ENC-10. -/
theorem test_decode_rc_regs : read (.rcWindow 32) [0x34#8, 0x10#8, 1#8, 0#8, 0#8, 0#8] = .ok (.rcChctrlW 0 1#32) ∧
    read (.rcWindow 32) [0x3C#8, 0x00#8] = .ok (.rcRxR 0) ∧
    read (.rcWindow 32) [0x6C#8, 0x00#8] = .ok (.rcChstatR 3) ∧
    read (.rcWindow 32) [0x74#8, 0x10#8, 0xA5#8, 0#8, 0#8, 0#8] = .ok (.rcTxW 3 0xA5#32) := by decide

/-- V-ENC-11, V-ENC-12, V-RCR-14. -/
theorem test_decode_rc_shared : read (.rcWindow 32) [0x10#8, 0x00#8] = .ok (.rcSharedR 4) ∧
    read (.rcWindow 32) [0x28#8, 0x10#8, 7#8, 0#8, 0#8, 0#8] = .ok (.rcSharedW 10 7#32) ∧
    read (.rcWindow 32) [0x7C#8, 0x00#8] = .error .unmappedAccess ∧
    read (.rcWindow 16) [0x30#8, 0x00#8] = .error .unmappedAccess ∧
    read (.rcWindow 32) [0x32#8, 0x00#8] = .error .unmappedAccess := by decide

/-- V-ENC-13. -/
theorem test_decode_mf_regs : read (.mfWindow 16) [0xFE#8, 0x10#8, 0xAA#8, 0xBB#8] = .ok (.mfTxfifoW 0xFE 0xBBAA#16) ∧
    read (.mfWindow 16) [0x02#8, 0x02#8] = .ok (.mfRxfifoR 2) ∧
    read (.mfWindow 32) [0x00#8, 0x11#8, 1#8, 0#8, 0#8, 0#8] = .ok (.mfBusctlW 1#32) ∧
    read (.mfWindow 32) [0x08#8, 0x11#8, 1#8, 0#8, 0#8, 0#8] = .ok (.mfCs1W 1#32) ∧
    read (.mfWindow 32) [0x1C#8, 0x11#8, 3#8, 0#8, 0#8, 0#8] = .ok (.mfReadW 3#32) := by decide

/-- V-ENC-14, V-MFR-12. -/
theorem test_decode_mf_unmapped : read (.mfWindow 32) [0x00#8, 0x01#8] = .error .unmappedAccess ∧
    read (.mfWindow 32) [0x18#8, 0x11#8, 0#8, 0#8, 0#8, 0#8] = .error .unmappedAccess ∧
    read (.mfWindow 32) [0x20#8, 0x11#8, 0#8, 0#8, 0#8, 0#8] = .error .unmappedAccess ∧
    read (.mfWindow 32) [0x00#8, 0x10#8, 0#8, 0#8, 0#8, 0#8] = .error .unmappedAccess ∧
    read (.mfWindow 16) [0x01#8, 0x10#8, 0#8, 0#8] = .error .unmappedAccess := by decide

/-- Two `OP` rows never match one header. -/
theorem test_op_rows_disjoint : (opRows.map (·.1)).Nodup := by decide

/-- Two rows of a window never match one key: they differ in a bit both look at. -/
def disjointRows {α : Type} (rows : List (KeyRow α)) : Bool :=
  rows.zipIdx.all (fun a => rows.zipIdx.all (fun b =>
    a.2 == b.2 || (a.1.pattern ^^^ b.1.pattern) &&& (a.1.mask &&& b.1.mask) != 0))

theorem test_rc_rows_disjoint : disjointRows (rcRows Config.layout) = true := by decide
theorem test_mf_rows_disjoint : disjointRows (mfRows Config.mfMap) = true := by decide

/-- The `REG_RC` rows of opcode_table.json, by mask, match and direction, in its order. -/
theorem test_rc_rows_are_the_table : (rcRows Config.layout).map (fun r => (r.mask, r.pattern, r.write)) =
    [(0x1FFF, 0x002C, false), (0x1FFF, 0x102C, true), (0x1FFF, 0x0030, false), (0x1FFF, 0x1030, true), (0x1FFF, 0x0034, false),
      (0x1FFF, 0x1034, true), (0x1FFF, 0x0038, false), (0x1FFF, 0x1038, true), (0x1FFF, 0x003C, false), (0x1FFF, 0x103C, true)] ++
    [(0x1FFF, 0x0040, false), (0x1FFF, 0x1040, true), (0x1FFF, 0x0044, false), (0x1FFF, 0x1044, true), (0x1FFF, 0x0048, false),
      (0x1FFF, 0x1048, true), (0x1FFF, 0x004C, false), (0x1FFF, 0x104C, true), (0x1FFF, 0x0050, false), (0x1FFF, 0x1050, true)] ++
    [(0x1FFF, 0x0054, false), (0x1FFF, 0x1054, true), (0x1FFF, 0x0058, false), (0x1FFF, 0x1058, true), (0x1FFF, 0x005C, false),
      (0x1FFF, 0x105C, true), (0x1FFF, 0x0060, false), (0x1FFF, 0x1060, true), (0x1FFF, 0x0064, false), (0x1FFF, 0x1064, true)] ++
    [(0x1FFF, 0x0068, false), (0x1FFF, 0x1068, true), (0x1FFF, 0x006C, false), (0x1FFF, 0x106C, true), (0x1FFF, 0x0070, false),
      (0x1FFF, 0x1070, true), (0x1FFF, 0x0074, false), (0x1FFF, 0x1074, true), (0x1FFF, 0x0078, false), (0x1FFF, 0x1078, true)] ++
    [(0x1FE0, 0x0000, false), (0x1FF8, 0x0020, false), (0x1FFC, 0x0028, false), (0x1FE0, 0x1000, true), (0x1FF8, 0x1020, true),
      (0x1FFC, 0x1028, true)] := by decide

/-- The `REG_MF` rows of opcode_table.json. -/
theorem test_mf_rows_are_the_table : ((mfRows Config.mfMap).map (fun r => (r.mask, r.pattern, r.write))).Perm (
    [(0x1F00, 0x1000, true), (0x1FFF, 0x1100, true), (0x1FFF, 0x1104, true), (0x1FFF, 0x1108, true), (0x1FFF, 0x110C, true),
      (0x1FFF, 0x1110, true), (0x1FFF, 0x1114, true), (0x1FFF, 0x0118, false), (0x1FFF, 0x111C, true),
      (0x1F00, 0x0200, false)]) := by decide

/-- R100 for two channels and for one more than the table has: `CHBASE(4) = 0x7C`. -/
theorem test_other_channel_counts :
    legalLayout { Config.layout with nchan := 2 } = true ∧ legalLayout { Config.layout with nchan := 5 } = true ∧
    rcOfKey { Config.layout with nchan := 5 } 0x107C = some (true, .conf 4) ∧
    rcOfKey { Config.layout with nchan := 2 } 0x0054 = none := by decide

/-- Another map (10_state R46): the shared block at 0x400, its six rows and words moved with it. -/
theorem test_other_shared_place :
    legalLayout { Config.layout with rc := { Config.rcMap with shared := 0x400 } } = true ∧
    rcOfKey { Config.layout with rc := { Config.rcMap with shared := 0x400 } } 0x1428 = some (true, .shared 10) ∧
    rcOfKey { Config.layout with rc := { Config.rcMap with shared := 0x400 } } 0x0424 = some (false, .shared 9) ∧
    rcOfKey { Config.layout with rc := { Config.rcMap with shared := 0x400 } } 0x0000 = none := by decide

/-- V-ENC-15 to V-ENC-18. -/
theorem test_conf_words :
    confWord ⟨false, false, 0#4, true, 7#5, 0#2, true⟩ = 0x001003C0#32 ∧
    confWord ⟨true, true, 6#4, true, 7#5, 2#2, true⟩ = 0x001023DB#32 ∧
    confWord ⟨false, false, 0#4, false, 11#5, 1#2, false⟩ = 0x00001580#32 ∧
    confWord ⟨false, true, 0#4, true, 31#5, 0#2, true⟩ = 0x00100FC2#32 := by decide

/-! ## A small machine -/

/-- Two slaves: mode 0 at 24 MHz, mode 3 at 10 MHz (V-CLM-13, V-CLM-15). -/
def profile (n : BitVec 8) (cs2 : Bool) : BusProfile :=
  { ncs := n, nbound := n, hasCs2 := cs2, linesOk := true, cs2Ok := true, windowOk := true,
    slaves := [⟨24000000#32, false, false, false⟩, ⟨10000000#32, true, true, false⟩] }

/-- Session 7. -/
def session (cs w : BitVec 8) (cpol cpha csHigh : Bool) : Session :=
  { id := 7, cs := cs, cpol := cpol, cpha := cpha, csHigh := csHigh, wordlen := w, clkd := 0#4, delay := 0#32,
    hz := 0#32 }

/-- A bus that is set up. -/
def busWith (n : BitVec 8) (cs2 : Bool) (cur : Option Session) : BusRec :=
  { profile := profile n cs2, cfgOk := true, cur := cur, cs2Asserted := false, nextSid := 8 }

/-- A channel after reset, its latches 0. -/
def idleChan : Channel :=
  { conf := 0#32, ctrl := 0#32, tx := 0#32, rx := 0#32, txFull := false, rxFull := false, rxReq := false,
    busy := false, shCfg := { wl := 0#5, pol := false, pha := false, trm := 0#2 }, shOut := 0#32 }

/-- No answer scripted. -/
def noEnv : Env :=
  { miso := ⟨[], 0⟩, word := ⟨[], 0⟩, byte := ⟨[], 0⟩, status := ⟨[], 0⟩, done := ⟨[], 0⟩, crc := ⟨[], 0⟩,
    pad := ⟨[], 0⟩, tick := ⟨[0, 0, 0, 0, 0, 0, 0, 0], 0⟩, rounds := ⟨[0, 0, 0, 0, 0, 0, 0, 0], 0⟩,
    sched := ⟨[], 0⟩, fast := ⟨[], 0⟩ }

/-- The machine with its three buses set up; `S` is the session of each, if there is one. -/
def machine (cs2 : Bool) (S : Option Session) (m : Memory) (e : Env) : State :=
  { bb := { bus := busWith 2#8 cs2 S, nbound := 2#8, csAsserted := 0#256, csLevel := 0#256,
            sclk := false, mosi := false },
    rc := { bus := busWith 4#8 cs2 S, shared := Vector.replicate 11 0#32, ch := List.replicate 4 idleChan },
    mf := { bus := busWith 2#8 cs2 S, claimed := false, cs0 := true, cs1 := true, speed := 0#32, mode := 0#32,
            rxq := [] },
    ld := [{ bus := .mf, cs := 0#8, size := 0#32, hasCrc := true, state := .idle, lastError := none,
             crcDiag := none, ncfg := true }],
    mem := m, now := 0, faultMark := [],
    params := { rcMap := Config.rcMap, mfMap := Config.mfMap, fifoHalf := 127, chunkPred := 1, fill := 0xFF#8,
                refHz := 48000000, tPoll := 10, tSettle := 2000, delayMax := 1000#32 },
    env := e, queue := [], trace := [], result := none }

/-- What is looked at in the state an instruction leaves. -/
def after {α : Type} (i : Instr) (s : State) (f : State → α) : Option α :=
  match exec i s with
  | .next t => some (f t)
  | .fault _ => none
  | .refused _ => none

/-- The fault an instruction ends in, if it does. -/
def faultOf (i : Instr) (s : State) : Option Fault :=
  match exec i s with
  | .next _ => none
  | .fault f => some f
  | .refused _ => none

/-- A descriptor. -/
def desc (n : Word) (out inp : Option Nat) (begins ends lsb : Bool) : Desc :=
  { n := n, out := out, inp := inp, flags := { begins := begins, ends := ends, lsb := lsb } }

/-- An entry of the trace with the offset the layout of the table gives a register (00_scope R11). -/
inductive Shown where
  | pin (e : PinEvent)
  | reg (u : BusUnit) (write : Bool) (off width : Nat) (v : Word)
  deriving DecidableEq, Repr

/-- A trace, with the offset of each access. -/
def shown (l : List Obs) : List Shown :=
  l.map (fun o => match o with
    | .pin e => .pin e
    | .reg a => .reg a.unit a.write (a.off Config.layout) a.width a.value)

/-- The machine with a second target: handle 1 on a bus, at an index. -/
def onHandles (u : BusUnit) (cs : BitVec 8) (s : State) : State :=
  { s with ld := s.ld ++ [{ bus := u, cs := cs, size := 0#32, hasCrc := true, state := .idle, lastError := none,
                            crcDiag := none, ncfg := true }] }

/-- A machine without sessions. -/
def free : State := machine false none [] noEnv

/-- A machine with the session of `cs`, mode 0, word length 8. -/
def claimed (cs : BitVec 8) : State := machine false (some (session cs 8#8 false false false)) [] noEnv

/-! ## SETUP, CLAIM, RELEASE -/

/-- V-CLM-11. -/
theorem test_bb_setup : after .bbSetup (machine true none [] noEnv) (fun t => (t.trace, t.result, t.bb.bus.cfgOk)) =
    some ([.pin (.cs .bb 0 false), .pin (.cs .bb 1 false), .pin (.cs2 .bb false)], some .ok, true) := by decide

/-- V-CLM-10: a count that differs binds nothing. -/
theorem test_bb_setup_count :
    let s : State := { free with bb := { free.bb with bus := { free.bb.bus with
      profile := { free.bb.bus.profile with nbound := 1#8 } } } }
    after .bbSetup s (fun t => (t.trace, t.result, t.bb.bus.cfgOk)) =
      some ([], some (.error .resourceUnavailable), false) := by decide

/-- P2 line 1: no register access. -/
theorem test_rc_setup : after .rcSetup free (fun t => (t.trace, t.result, t.rc.bus.cfgOk)) =
    some ([], some .ok, true) := by decide

/-- R232. -/
theorem test_mf_setup : after .mfSetup (machine true none [] noEnv) (fun t => (t.trace, t.result)) =
    some ([.pin (.cs2 .mf false)], some .ok) := by decide

/-- V-CLM-2, V-CLM-1. -/
theorem test_bb_claim : after (.bbClaim 1#8) free (fun t => (t.trace, t.bb.bus.claimed)) = some ([], true) ∧
    after (.bbClaim 2#8) free (fun t => (t.result, t.bb.bus.claimed)) =
      some (some (.error .noSuchChipSelect), false) := by decide

/-- V-CLM-15, V-CLM-3. -/
theorem test_rc_claim : after (.rcClaim 0#8) free (fun t => t.rc.bus.cur.map (fun S => (S.clkd, S.wordlen))) =
      some (some (1#4, 8#8)) ∧
    after (.rcClaim 4#8) free (·.result) = some (some (.error .noSuchChipSelect)) := by decide

/-- V-CLM-13. -/
theorem test_mf_claim : after (.mfClaim 1#8) free (fun t => shown t.trace) =
    some [.reg .mf true 0x100 32 1#32, .reg .mf true 0x10C 32 0x00989680#32,
      .reg .mf true 0x110 32 3#32] := by decide

/-- V-CLM-16, V-CLM-19. -/
theorem test_claimed_bus : faultOf (.bbClaim 0#8) (claimed 0#8) = some .reentrantClaim ∧
    faultOf .rcSetup (claimed 0#8) = some .setupWhileClaimed := by decide

/-- R123, R192. -/
theorem test_bb_rc_release : after (.bbRelease 7) (claimed 0#8) (fun t => (t.trace, t.bb.bus.claimed)) =
      some ([], false) ∧
    after (.rcRelease 7) (claimed 0#8) (fun t => (t.trace, t.rc.bus.claimed)) = some ([], false) := by decide

/-- V-CLM-14. -/
theorem test_mf_release : after (.mfRelease 7) (claimed 1#8) (fun t => (shown t.trace, t.mf.bus.claimed)) =
    some ([.reg .mf true 0x100 32 0#32], false) := by decide

/-! ## Setters -/

/-- V-SPD-1 to V-SPD-10. -/
theorem test_select_div : [4294967295#32, 48000000#32, 47999999#32, 24000000#32, 1000000#32, 750000#32, 749999#32,
      1464#32, 1463#32, 0#32].map (selectDiv 48000000) =
    [0#4, 0#4, 1#4, 1#4, 6#4, 6#4, 7#4, 15#4, 15#4, 15#4] := by decide

/-- V-SET-3. -/
theorem test_bb_set_speed : after (.bbSetSpeed 7 0#32) (claimed 0#8) (fun t => t.bb.bus.cur.map (·.delay)) =
    some (some 1000#32) := by decide

/-- V-SET-1. -/
theorem test_rc_set_speed : after (.rcSetSpeed 7 1000000#32) (claimed 0#8)
    (fun t => (t.trace, t.rc.bus.cur.map (·.clkd))) = some ([], some 6#4) := by decide

/-- V-SET-2. -/
theorem test_mf_set_speed : after (.mfSetSpeed 7 1000000#32) (claimed 0#8)
    (fun t => (shown t.trace, t.mf.bus.cur.map (·.hz), t.mf.speed)) =
    some ([.reg .mf true 0x10C 32 0x000F4240#32], some 1000000#32, 1000000#32) := by decide

/-- V-SET-5. -/
theorem test_bb_set_mode : after (.bbSetMode 7 ⟨false, true, false⟩) (claimed 0#8)
    (fun t => (t.trace, t.bb.bus.cur.map (fun S => (S.cpol, S.cpha, S.csHigh)))) =
    some ([], some (true, false, false)) := by decide

/-- V-SET-4. -/
theorem test_mf_set_mode : after (.mfSetMode 7 ⟨false, true, true⟩) (claimed 0#8) (fun t => (shown t.trace, t.mf.mode)) =
    some ([.reg .mf true 0x110 32 6#32], 6#32) := by decide

/-- V-SET-6: stored, and no transfer runs; P4 line 7. -/
theorem test_set_wordlen : after (.rcSetWordlen 7 33#8) (claimed 0#8) (fun t => t.rc.bus.cur.map (·.wordlen)) =
      some (some 33#8) ∧
    after (.rcTransfer 7 (desc 0#32 none none true false false))
      (machine false (some (session 0#8 33#8 false false false)) [] noEnv) (fun t => (t.trace, t.result)) =
      some ([], some (.error .bitLengthNotWordAligned)) := by decide

/-! ## The checks of TRANSFER -/

/-- The result and trace of a transfer with word length `w`. -/
def checked (i : Desc → Instr) (w : BitVec 8) (n : Word) (out inp : Option Nat) (lsb : Bool) : Option (Option OpResult × List Obs) :=
  after (i (desc n out inp false false lsb)) (machine false (some (session 0#8 w false false false)) [] noEnv)
    (fun t => (t.result, t.trace))

/-- V-CHK-3 to V-CHK-6, V-CHK-11. -/
theorem test_checks_order :
    checked (.bbTransfer 7) 16#8 16#32 (some 0) none true = some (some (.error .unsupportedBitOrder), []) ∧
    checked (.mfTransfer 7) 16#8 0#32 none none true = some (some (.error .unsupportedBitOrder), []) ∧
    checked (.rcTransfer 7) 3#8 8#32 (some 0) none true = some (some (.error .bitLengthNotWordAligned), []) ∧
    checked (.rcTransfer 7) 16#8 24#32 (some 0) none true = some (some (.error .unsupportedBitOrder), []) ∧
    checked (.bbTransfer 7) 8#8 12#32 (some 0) none false = some (some (.error .bitLengthNotWordAligned), []) := by
  decide

/-- V-CHK-7, V-CHK-10, V-CHK-13. -/
theorem test_checks_unit :
    checked (.rcTransfer 7) 8#8 8#32 (some 0) (some 4) true = some (some (.error .unsupportedBitOrder), []) ∧
    checked (.rcTransfer 7) 8#8 8#32 none (some 4) true = some (some (.error .unsupportedBitOrder), []) ∧
    checked (.mfTransfer 7) 12#8 12#32 (some 0) none false = some (some (.error .bitLengthNotWordAligned), []) := by
  decide

/-- V-CHK-16, V-CHK-19. -/
theorem test_checks_faults :
    faultOf (.bbTransfer 7 (desc 16#32 (some 100) (some 101) false false false)) (claimed 0#8) = some .bufferOverlap ∧
    faultOf (.rcTransfer 6 (desc 8#32 (some 0) none false false false)) (claimed 0#8) = some .notClaimed := by
  decide

/-! ## Transfers of BB -/

/-- The bits of a byte on the wire, the most significant first. -/
def bitsOf (b : Byte) : List Bool := (List.range 8).map (fun k => b.getLsbD (7 - k))

/-- V-BB-5: the trace of `[0x01]` sent LSB-first. -/
theorem test_bb_lsb : after (.bbTransfer 7 (desc 8#32 (some 0) none true true true))
      (machine false (some (session 0#8 8#8 false false false)) [(0, 0x01#8)] noEnv) (fun t => pinTrace t.trace) =
    some ([.clk .bb false, .cs .bb 0 true] ++
      [true, false, false, false, false, false, false, false].flatMap
        (fun o => [.dout .bb o, .clk .bb true, .clk .bb false]) ++
      [.cs .bb 0 false, .clk .bb false]) := by decide

/-- V-BB-4: mode 3, duplex. -/
theorem test_bb_mode3 : after (.bbTransfer 7 (desc 8#32 (some 0) (some 4) true true false))
      (machine false (some (session 0#8 8#8 true true false)) [(0, 0xA5#8)]
        { noEnv with miso := ⟨bitsOf 0x3C#8, 0⟩ }) (fun t => (pinTrace t.trace, readByte t.mem 4)) =
    some ([.clk .bb true, .cs .bb 0 true] ++
      [(true, false), (false, false), (true, true), (false, true), (false, true), (true, true), (false, false),
        (true, false)].flatMap
        (fun x => [.clk .bb false, .dout .bb x.1, .clk .bb true, .din .bb x.2]) ++
      [.cs .bb 0 false, .clk .bb true], 0x3C#8) := by decide

/-- R156, R321: the level of a select is driven with the session's polarity; SET_MODE leaves it. -/
theorem test_bb_select_level :
    after (.bbTransfer 7 (desc 0#32 none none true false false))
      (machine false (some (session 1#8 8#8 false false true)) [] noEnv) (·.bb.csLevel) = some 2#256 ∧
    after (.bbTransfer 7 (desc 0#32 none none false true false)) (claimed 1#8) (·.bb.csLevel) = some 2#256 ∧
    after (.bbSetMode 7 ⟨false, false, true⟩) (claimed 1#8) (·.bb.csLevel) = some 0#256 := by decide

/-! ## Transfers of RC -/

/-- V-RC-1 with a secondary select (V-RC-9). -/
theorem test_rc_duplex :
    after (.rcTransfer 7 (desc 16#32 (some 0) (some 4) true true false))
      (machine true (some (session 0#8 8#8 false false false)) [(0, 0xA5#8), (1, 0x5A#8)]
        { noEnv with sched := ⟨[[0, 0], [0, 0]], 0⟩, word := ⟨[0xC3#32, 0x3C#32], 0⟩ })
      (fun t => (shown t.trace, t.result, t.mem)) =
    some ([.pin (.cs2 .rc true), .reg .rc true 0x34 32 1#32, .reg .rc false 0x2C 32 0#32,
      .reg .rc true 0x2C 32 0x001003C0#32, .pin (.cs .rc 0 true),
      .reg .rc false 0x30 32 2#32, .reg .rc true 0x38 32 0xA5#32,
      .pin (.word 0 8 false false 0xA5#32 (some 0xC3#32)),
      .reg .rc false 0x30 32 3#32, .reg .rc false 0x3C 32 0xC3#32,
      .reg .rc false 0x30 32 2#32, .reg .rc true 0x38 32 0x5A#32,
      .pin (.word 0 8 false false 0x5A#32 (some 0x3C#32)),
      .reg .rc false 0x30 32 3#32, .reg .rc true 0x34 32 0#32,
      .reg .rc false 0x3C 32 0x3C#32, .reg .rc false 0x2C 32 0x001003C0#32,
      .reg .rc true 0x2C 32 0x000003C0#32, .pin (.cs .rc 0 false), .pin (.cs2 .rc false)],
      some (.count 16#32), [(0, 0xA5#8), (1, 0x5A#8), (4, 0xC3#8), (5, 0x3C#8)]) := by decide

/-- V-RC-4: the timeout, with the readings 0, 3, 7, 10, 11. -/
theorem test_rc_timeout :
    after (.rcTransfer 7 (desc 8#32 (some 0) (some 4) true false false))
      (machine false (some (session 0#8 8#8 false false false)) [(0, 0xA5#8)]
        { noEnv with sched := ⟨[[], [], [], [], []], 0⟩, tick := ⟨[0, 0, 3, 4, 3, 1], 0⟩, rounds := ⟨[9, 9], 0⟩ })
      (fun t => (shown t.trace, t.result, t.mem, (t.rc.chan 0).stat)) =
    some ([.reg .rc true 0x34 32 1#32, .reg .rc false 0x2C 32 0#32,
      .reg .rc true 0x2C 32 0x001003C0#32, .pin (.cs .rc 0 true),
      .reg .rc false 0x30 32 2#32, .reg .rc true 0x38 32 0xA5#32,
      .reg .rc false 0x30 32 0#32, .reg .rc false 0x30 32 0#32, .reg .rc false 0x30 32 0#32,
      .reg .rc false 0x30 32 0#32, .reg .rc true 0x34 32 0#32,
      .reg .rc false 0x2C 32 0x001003C0#32, .reg .rc true 0x2C 32 0x000003C0#32,
      .pin (.cs .rc 0 false)], some (.error .timeout), [(0, 0xA5#8)], 2#32) := by decide

/-- V-RC-3: receive-only, 12-bit words, the select pulsing with each. -/
theorem test_rc_receive :
    after (.rcTransfer 7 (desc 24#32 none (some 4) false false false))
      (machine false (some (session 2#8 12#8 false false true)) []
        { noEnv with sched := ⟨[[2, 2], [2, 2]], 0⟩, word := ⟨[0x5A3#32, 0xFFF#32], 0⟩ })
      (fun t => (pinTrace t.trace, t.mem)) =
    some ([.cs .rc 2 true, .word 2 12 false false 0#32 (some 0x5A3#32), .cs .rc 2 false,
      .cs .rc 2 true, .word 2 12 false false 0#32 (some 0xFFF#32), .cs .rc 2 false],
      [(4, 0x5A#8), (5, 0x3F#8), (6, 0xFF#8)]) := by decide

/-- R128, R133, U34: a BEGIN on a held select and an END on one that is not perform the select event again. -/
theorem test_rc_repeated_phases :
    after (.rcTransfer 7 (desc 0#32 none none true false false))
      (setChan 0 { idleChan with conf := 0x001003C0#32 } (claimed 0#8)) (fun t => shown t.trace) =
      some [.reg .rc false 0x2C 32 0x001003C0#32, .reg .rc true 0x2C 32 0x001003C0#32, .pin (.cs .rc 0 true)] ∧
    after (.rcTransfer 7 (desc 0#32 none none false true false)) (claimed 0#8) (fun t => shown t.trace) =
      some [.reg .rc false 0x2C 32 0#32, .reg .rc true 0x2C 32 0x000003C0#32, .pin (.cs .rc 0 false)] := by decide

/-! ## Registers of RC -/

/-- `free` with channel 0 as given. -/
def chan0 (x : Channel) : State := setChan 0 x free

/-- V-RCR-1, V-RCR-2. -/
theorem test_rc_reads : after (.rcChstatR 0) free (·.result) = some (some (.value 2#32)) ∧
    after (.rcChconfR 0) free (·.result) = some (some (.value 0#32)) ∧
    after (.rcChctrlR 0) (chan0 { idleChan with ctrl := 1#32 }) (·.result) = some (some (.value 1#32)) ∧
    after (.rcTxR 0) (chan0 { idleChan with tx := 0xA5#32, txFull := true }) (·.result) =
      some (some (.value 0xA5#32)) ∧
    faultOf (.rcRxR 0) free = some .rxUnderrun := by decide

/-- V-RCR-3. -/
theorem test_rc_stat_write : after (.rcChstatW 0 0xFFFFFFFF#32) free (fun t => (t.rc.chan 0).stat) = some 2#32 := by
  decide

/-- R180: a write of RX is ignored. -/
theorem test_rc_rx_write : after (.rcRxW 0 5#32) free (fun t => (t.rc.chan 0).rx) = some 0#32 := by decide

/-- V-RCR-4, V-RCR-5. -/
theorem test_rc_tx_write : after (.rcTxW 0 0xA5#32) free (fun t => ((t.rc.chan 0).tx, (t.rc.chan 0).stat)) =
      some (0xA5#32, 0#32) ∧
    faultOf (.rcTxW 0 0x5A#32) (chan0 { idleChan with tx := 0xA5#32, txFull := true }) = some .txOverrun := by
  decide

/-- V-RCR-6, V-RCR-12. -/
theorem test_rc_ctrl_write :
    after (.rcChctrlW 0 1#32) (chan0 { idleChan with tx := 0xA5#32, txFull := true }) (fun t => (t.rc.chan 0).stat) =
      some 2#32 ∧
    after (.rcChctrlW 0 0#32) (chan0 { idleChan with ctrl := 1#32, busy := true })
      (fun t => (pinTrace t.trace, (t.rc.chan 0).stat)) = some ([.abort 0, .cs .rc 0 false], 2#32) := by decide

/-- V-ENC-19, V-RCR-10. -/
theorem test_rc_conf_write : after (.rcChconfW 0 0xFFFFFFFF#32) free (fun t => (t.rc.chan 0).conf) =
      some 0x00103FFF#32 ∧
    after (.rcChconfW 0 0x00100380#32) (chan0 { idleChan with conf := 0x001003C0#32 })
      (fun t => (pinTrace t.trace, (t.rc.chan 0).csLevel)) = some ([], true) := by decide

/-- V-RCR-9. -/
theorem test_rc_two_channels :
    faultOf (.rcChconfW 1 0x001003C0#32) (chan0 { idleChan with conf := 0x001003C0#32 }) =
      some .multiChannelActive := by decide

/-- V-RCR-11. -/
theorem test_rc_rx_read :
    after (.rcRxR 0) (chan0 { idleChan with conf := 0x000013C0#32, ctrl := 1#32, rx := 0x77#32, rxFull := true })
      (fun t => (t.result, (t.rc.chan 0).rxReq, (t.rc.chan 0).rxFull)) =
    some (some (.value 0x77#32), true, false) := by decide

/-- V-RCR-13. -/
theorem test_rc_shared : after (.rcSharedW 0 0x12345678#32) free (fun t => t.rc.sharedWord 0) =
      some 0x12345678#32 ∧
    after (.rcSharedR 3) { free with rc := { free.rc with shared := free.rc.shared.set 3 9#32 } } (·.result) =
      some (some (.value 9#32)) := by decide

/-- V-RCR-7: the shifter's two steps. -/
theorem test_shifter :
    (match shifterRun [0, 0] { chan0 { idleChan with conf := 0x000003C0#32, ctrl := 1#32, tx := 0xA5#32, txFull := true }
        with env := { noEnv with word := ⟨[0x1C3#32], 0⟩ } } with
      | .ok t => some (pinTrace t.trace, (t.rc.chan 0).stat, (t.rc.chan 0).rx)
      | .error _ => none) =
    some ([.cs .rc 0 true, .word 0 8 false false 0xA5#32 (some 0xC3#32), .cs .rc 0 false], 3#32, 0xC3#32) := by
  decide

/-- V-RCR-8. -/
theorem test_shifter_reserved : step { chan0 { idleChan with
    conf := 0x00000040#32, ctrl := 1#32, tx := 1#32, txFull := true } with
      env := { noEnv with sched := ⟨[[0]], 0⟩ } } = .fault .reservedConfig := rfl

/-- R182, U11, 30_encoding R101: a word waits under the reserved TRM 3. -/
theorem test_shifter_reserved_trm : step { chan0 { idleChan with
    conf := 0x000033C0#32, ctrl := 1#32, tx := 1#32, txFull := true } with
      env := { noEnv with sched := ⟨[[0]], 0⟩ } } = .fault .reservedConfig := rfl

/-- R76: a word in flight may complete between the CONF write of the end phase and the secondary select. -/
theorem test_gap_before_cs2 :
    after (.rcTransfer 7 (desc 0#32 none none false true false))
      (setChan 0 { idleChan with
          conf := 0x001003C0#32, ctrl := 1#32, busy := true, shCfg := ⟨7#5, false, false, 2#2⟩, shOut := 0xA5#32 }
        (machine true (some (session 0#8 8#8 false false false)) [] { noEnv with sched := ⟨[[], [], [0]], 0⟩ }))
      (fun t => shown t.trace) =
    some [.reg .rc false 0x2C 32 0x001003C0#32, .reg .rc true 0x2C 32 0x000003C0#32,
      .pin (.word 0 8 false false 0xA5#32 none), .pin (.cs .rc 0 false), .pin (.cs2 .rc false)] := by decide

/-- R9, R46: a controller of five channels. -/
theorem test_five_channels :
    let s : State := { free with rc := { free.rc with ch := List.replicate 5 idleChan } }
    after (.rcChconfW 4 0x001003C0#32) s (fun t => (pinTrace t.trace, (t.rc.chan 4).force)) =
      some ([.cs .rc 4 true], true) ∧
    faultOf (.rcChconfW 4 0#32) free = some .unmappedAccess ∧ State.reset.rc.nchan = 4 := by decide

/-! ## Transfers and registers of MF -/

/-- V-MF-1. -/
theorem test_mf_duplex :
    after (.mfTransfer 7 (desc 24#32 (some 0) (some 8) true true false))
      (machine false (some (session 1#8 8#8 false false false)) [(0, 0x12#8), (1, 0x34#8), (2, 0x56#8)]
        { noEnv with byte := ⟨[0xA1#8, 0xA2#8, 0xA3#8], 0⟩ })
      (fun t => (shown t.trace, t.result, loadBytes t.mem 8 3, t.mf.rxq)) =
    some ([.reg .mf true 0x108 32 0#32, .pin (.cs .mf 1 true),
      .reg .mf true 0x000 16 0x3412#32, .pin (.byte 0x12#8 0xA1#8), .pin (.byte 0x34#8 0xA2#8),
      .reg .mf true 0x114 32 0x56#32, .pin (.byte 0x56#8 0xA3#8),
      .reg .mf false 0x200 16 0xA2A1#32, .reg .mf false 0x118 32 0xA3#32,
      .reg .mf true 0x108 32 1#32, .pin (.cs .mf 1 false)],
      some (.count 24#32), [0xA1#8, 0xA2#8, 0xA3#8], []) := by decide

/-- V-MF-7, FIFO_BYTES 4: bursts. -/
theorem test_mf_bursts :
    let s := machine false (some (session 1#8 8#8 false false false))
      [(0, 1#8), (1, 2#8), (2, 3#8), (3, 4#8), (4, 5#8)]
      { noEnv with byte := ⟨[0xB0#8, 0xB1#8, 0xB2#8, 0xB3#8, 0xB4#8], 0⟩ }
    after (.mfTransfer 7 (desc 40#32 (some 0) (some 8) false false false))
      { s with params := { s.params with fifoHalf := 1 } } (fun t => (regTrace t.trace, loadBytes t.mem 8 5)) =
    some ([mfW (.txfifo 0) 0x0201#32, mfW (.txfifo 2) 0x0403#32,
      mfR (.rxfifo 0) 0xB1B0#32, mfR (.rxfifo 2) 0xB3B2#32, mfW .wrbyte 5#32, mfR .rdbyte 0xB4#32],
      [0xB0#8, 0xB1#8, 0xB2#8, 0xB3#8, 0xB4#8]) := by decide

/-- `free` with bytes to receive. -/
def bytesTo : State := { free with env := { noEnv with byte := ⟨[1#8, 2#8, 3#8], 0⟩ } }

/-- V-MFR-1, V-MFR-11. -/
theorem test_mf_txfifo : after (.mfTxfifoW 0xF0 0x3412#16) bytesTo (fun t => (pinTrace t.trace, t.mf.rxq)) =
    some ([.byte 0x12#8 1#8, .byte 0x34#8 2#8], [1#8, 2#8]) := by decide

/-- V-MFR-2, V-MFR-3. -/
theorem test_mf_rxfifo :
    after (.mfRxfifoR 0) { free with mf := { free.mf with rxq := [0xAB#8, 0xCD#8] } } (fun t => (t.result, t.mf.rxq)) =
      some (some (.value 0xCDAB#32), []) ∧
    faultOf (.mfRxfifoR 0) { free with mf := { free.mf with rxq := [0xAB#8] } } = some .rxUnderrun := by decide

/-- V-MFR-4. -/
theorem test_mf_rdbyte : faultOf .mfRdbyteR free = some .rxUnderrun ∧
    after .mfRdbyteR { free with mf := { free.mf with rxq := [0xAB#8, 0xCD#8] } } (fun t => (t.result, t.mf.rxq)) =
      some (some (.value 0xAB#32), [0xCD#8]) := by decide

/-- V-MFR-6. -/
theorem test_mf_read : after (.mfReadW 3#32) bytesTo (fun t => (pinTrace t.trace, t.mf.rxq)) =
    some ([.byte 0#8 1#8, .byte 0#8 2#8, .byte 0#8 3#8], [1#8, 2#8, 3#8]) := by decide

/-- R226: only bits 7:0 are sent; V-MFR-5 with FIFO_BYTES 2. -/
theorem test_mf_wrbyte : after (.mfWrbyteW 0x1234#32) bytesTo (fun t => (pinTrace t.trace, t.mf.rxq)) =
      some ([.byte 0x34#8 1#8], [1#8]) ∧
    faultOf (.mfWrbyteW 0#32) { bytesTo with
      mf := { free.mf with rxq := [7#8, 8#8] }, params := { free.params with fifoHalf := 0 } } =
      some .rxOverrun := by decide

/-- V-MFR-7, R222. -/
theorem test_mf_busctl : faultOf (.mfBusctlW 2#32) free = some .reservedConfig ∧
    after (.mfBusctlW 1#32) free (·.mf.claimed) = some true := by decide

/-- V-MFR-9, V-MFR-8. -/
theorem test_mf_selects : after (.mfCs0W 0xFFFFFFFE#32) free (fun t => (pinTrace t.trace, t.mf.cs0)) =
      some ([.cs .mf 0 true], false) ∧
    faultOf (.mfCs1W 0#32) { free with mf := { free.mf with cs0 := false } } = some .multiChannelActive := by decide

/-- R223: de-asserting is always allowed and is an event. -/
theorem test_mf_cs1 : after (.mfCs1W 1#32) { free with mf := { free.mf with cs0 := false } }
    (fun t => (pinTrace t.trace, t.mf.cs1)) = some ([.cs .mf 1 false], true) := by decide

/-- R223: the levels follow bit 2 of MODE. -/
theorem test_mf_select_level : after (.mfModeW 4#32) { free with mf := { free.mf with cs1 := false } }
    (fun t => (t.mf.csLevel 0, t.mf.csLevel 1)) = some (false, true) := by decide

/-- R224, V-MFR-10. -/
theorem test_mf_speed_mode : after (.mfSpeedW 9#32) free (·.mf.speed) = some 9#32 ∧
    after (.mfModeW 0xFF#32) free (·.mf.mode) = some 7#32 := by decide

/-! ## The loader -/

/-- V-LD-9. -/
theorem test_ld_no_ops : after (.ldErase 0#32 4096#32 0) free (fun t => (t.result, t.trace)) = some (some .ok, []) ∧
    after (.ldSync 0) free (·.result) = some (some .ok) ∧ after (.ldLock 0#32 16#32 0) free (·.result) = some (some .ok) ∧
    after (.ldUnlock 0#32 16#32 0) free (·.result) = some (some .ok) := by decide

/-- Handle 1 of one, and of two (R39). -/
theorem test_ld_handles : after (.ldSync 1) free (·.result) = none ∧
    after (.ldSync 1) (onHandles .bb 0#8 free) (·.result) = some (some .ok) := by decide

/-- V-LD-9. -/
theorem test_ld_read : after (.ldRead 0#32 3#32 5 0) free (fun t => (t.result, t.mem)) =
    some (some .ok, [(5, 0xFF#8), (6, 0xFF#8), (7, 0xFF#8)]) := by decide

/-- P3: the target ready at once, three bytes over MF in chunks of two; the byte past the buffer is an answer (R71). -/
theorem test_ld_write :
    let s := machine false none [(16, 0x01#8), (17, 0x80#8), (18, 0xC1#8)]
      { noEnv with
                   pad := ⟨[0x0F#8], 0⟩,
                   status := ⟨[true, true, true, true], 0⟩, done := ⟨[true], 0⟩, crc := ⟨[false], 0⟩,
                   byte := ⟨[1#8, 2#8, 3#8, 4#8], 0⟩ }
    after (.ldWrite 0#32 16 3#32 0) s (fun t => (shown t.trace, t.result, (t.handle 0).state, (t.handle 0).crcDiag)) =
    some ([.reg .mf true 0x100 32 1#32, .reg .mf true 0x10C 32 24000000#32,
      .reg .mf true 0x110 32 0#32,
      .pin (.ncfg 0 false), .pin (.delay (.micros 40)), .pin (.ncfg 0 true), .pin (.status 0 true), .pin (.status 0 true),
      .reg .mf true 0x104 32 0#32, .pin (.cs .mf 0 true),
      .reg .mf true 0x000 16 0x0180#32, .pin (.byte 0x80#8 1#8), .pin (.byte 0x01#8 2#8),
      .reg .mf false 0x200 16 0x0201#32, .pin (.status 0 true),
      .reg .mf true 0x000 16 0xF083#32, .pin (.byte 0x83#8 3#8), .pin (.byte 0xF0#8 4#8),
      .reg .mf false 0x200 16 0x0403#32, .reg .mf true 0x104 32 1#32, .pin (.cs .mf 0 false),
      .reg .mf true 0x100 32 0#32, .pin (.status 0 true), .pin (.done 0 true), .pin (.crc 0 false)],
      some (.count 3#32), .ready, some false) := by decide

/-- V-LD-3: the status drops after the first chunk. -/
theorem test_ld_rejected :
    let s := machine false none [(0, 1#8), (1, 2#8)]
      { noEnv with status := ⟨[true, true, false], 0⟩, crc := ⟨[true], 0⟩, byte := ⟨[1#8, 2#8], 0⟩ }
    after (.ldWrite 0#32 0 5#32 0) s (fun t => (pinTrace t.trace, t.result, (t.handle 0).lastError, t.mf.bus.claimed)) =
    some ([.ncfg 0 false, .delay (.micros 40), .ncfg 0 true, .status 0 true, .status 0 true, .cs .mf 0 true,
      .byte 0x80#8 1#8, .byte 0x40#8 2#8, .status 0 false, .cs .mf 0 false, .crc 0 true],
      some (.error .configurationRejected), some .configurationRejected, false) := by decide

/-! ## The step -/

/-- R14: a word placed at the fetch runs; the table word of `rc.chctrl.w` channel 0 (opcode_table.json). -/
theorem test_table_word : decodeTableWord 16 0x1034 = some (.rcChctrlW 0 0#32) ∧
    decodeTableWord 16 0x0313 = some (.ldSync 0) ∧ decodeTableWord 16 0x0118 = some .mfRdbyteR := by decide

/-- R287. -/
theorem test_fault_mark : step { free with faultMark := [.rxOverrun] } = .fault .rxOverrun := rfl

/-! ## Witnesses: encoding and step -/

theorem witness_DecodeEncode : (Instr.rcTransfer (2 ^ 32 - 1)
    (desc 0xFFFFFFFF#32 (some (2 ^ 64 - 1)) none true true true)).wellFormed Config.layout = true ∧
    (Instr.mfRxfifoR 254).wellFormed Config.layout = true ∧ (Instr.rcSharedW 10 1#32).wellFormed Config.layout = true ∧
    (Instr.rcRxR 3).wellFormed Config.layout = true ∧ (Instr.ldWrite 0#32 0 0#32 255).wellFormed Config.layout = true ∧
    legalLayout { Config.layout with nchan := 5 } = true ∧
    (Instr.rcRxR 4).wellFormed { Config.layout with nchan := 5 } = true := by decide

theorem witness_EncodeDecode : decode Config.layout .op [0x13#8, 0x03#8, 4#8, 9#8] = .ok (.ldSync 4, [9#8]) ∧
    decode Config.layout (.rcWindow 32) [0x28#8, 0x00#8] = .ok (.rcSharedR 10, []) ∧
    decode Config.layout (.mfWindow 16) [0xFE#8, 0x02#8] = .ok (.mfRxfifoR 0xFE, []) := by decide

theorem witness_ReservedOperationsRefused :
    (∀ h, h ∈ [0x0007, 0x0207, 0x0300, 0x030F, 0x0316, 0x0400, 0x1000, 0xFFFF] → h < 0x10000 ∧
      ¬ (h / 0x100 < 3 ∧ h % 0x100 < 7) ∧ ¬ (h / 0x100 = 3 ∧ 0x10 ≤ h % 0x100 ∧ h % 0x100 < 0x16)) ∧
    8 ≤ (0x08#8).toNat ∧ (1#8 ≠ 0#8) := by decide

theorem witness_UnmappedAccesses : (0xFE < 0x100 ∧ 0xFE % 2 = 0) ∧
    (0x11C % 4 = 0 ∧ 0x100 ≤ 0x11C ∧ 0x11C < 0x120 ∧ 0x11C ≠ 0x118) ∧
    (0x200 ≤ 0x2FE ∧ 0x2FE < 0x300 ∧ 0x2FE % 2 = 0) ∧
    (∀ x, x ∈ [(32, 0x7C), (32, 0x2D), (16, 0x30)] → x.2 < 0x1000 ∧ (x.1 ≠ 32 ∨ x.2 % 4 ≠ 0 ∨ 0x7C ≤ x.2)) ∧
    (0x78 % 4 = 0 ∧ 0x78 < 0x7C) ∧
    ∀ x : Nat × Nat × Bool, x ∈ [(32, 0x118, true), (32, 0x120, true), (16, 0x100, true), (16, 0xFF, true),
        (32, 0x100, false), (16, 0x118, false), (16, 0x300, false), (16, 0x201, false), (32, 0x200, false)] →
      x.2.1 < 0x1000 ∧ ¬ (x.2.2 = true ∧ x.1 = 16 ∧ x.2.1 < 0x100 ∧ x.2.1 % 2 = 0) ∧
      ¬ (x.2.2 = true ∧ x.1 = 32 ∧ x.2.1 % 4 = 0 ∧ 0x100 ≤ x.2.1 ∧ x.2.1 < 0x120 ∧ x.2.1 ≠ 0x118) ∧
      ¬ (x.2.2 = false ∧ x.1 = 32 ∧ x.2.1 = 0x118) ∧
      ¬ (x.2.2 = false ∧ x.1 = 16 ∧ 0x200 ≤ x.2.1 ∧ x.2.1 < 0x300 ∧ x.2.1 % 2 = 0) := by decide

/-- `s` with one word issued. -/
def issued (s : State) (p : Port) (bs : List Byte) : State := { s with queue := [.issue { port := p, bytes := bs }] }

/-- `free`, the host about to store two bytes. -/
def storing : State := { free with queue := [.store 9 [1#8, 2#8]] }

/-- R78, R79: bytes the host stores between operations are in memory (log 31). -/
theorem test_host_store : (match step storing with | .next t => some (t.mem, t.queue) | _ => none) =
    some ([(9, 1#8), (10, 2#8)], []) := by decide

/-- `free`, the shifter of channel 0 about to start a word of reserved length. -/
def badWord : State := { chan0 { idleChan with conf := 0x00000040#32, ctrl := 1#32, tx := 1#32, txFull := true } with
  env := { noEnv with sched := ⟨[[0]], 0⟩ } }

theorem witness_StepRunsDecoded :
    (let s := issued free .op [0x00#8, 0x00#8, 0x00#8]
     s.faultMark = [] ∧ s.queue = .issue { port := .op, bytes := [0x00#8, 0x00#8, 0x00#8] } :: [] ∧
       s.layout = Config.layout ∧ shifterGap s = .ok s) ∧
    decodeIssue Config.layout { port := .op, bytes := [0x00#8, 0x00#8, 0x00#8] } = .ok .bbSetup ∧
    decodeIssue Config.layout { port := .rcWindow 32, bytes := [0x7C#8, 0x00#8] } = .error .unmappedAccess ∧
    decodeIssue Config.layout { port := .op, bytes := [0x07#8, 0x00#8] } = .error .unknownOperation ∧
    (badWord.faultMark = [] ∧ shifterGap badWord = .error .reservedConfig) ∧
    (∀ c, c < 4 → (free.rc.chan c).busy = false ∧ (free.rc.chan c).en = false) ∧
    free.faultMark = [] ∧ decodeTableWord 16 0x1034 = some (.rcChctrlW 0 0#32) ∧
    decodeIssue Config.layout (issueOfTableWord Config.layout 16 0x1034) = .ok (.rcChctrlW 0 0#32) ∧
    (storing.faultMark = [] ∧ storing.queue = .store 9 [1#8, 2#8] :: [] ∧ shifterGap storing = .ok storing ∧
      Memory.wf storing.mem = true ∧ [1#8, 2#8][1]? = some 2#8 ∧ ∀ k, k < [1#8, 2#8].length → 11 ≠ 9 + k) :=
  ⟨⟨rfl, rfl, rfl, rfl⟩, rfl, rfl, rfl, ⟨rfl, rfl⟩, by decide, rfl, by decide, by decide,
    ⟨rfl, rfl, rfl, rfl, rfl, by decide⟩⟩

theorem witness_WaitsAndNeverFinal : free.faultMark = [] ∧ free.queue = [] ∧
    (∀ c, c < 4 → (free.rc.chan c).busy = false ∧ (free.rc.chan c).en = false) ∧
    { free with faultMark := [.rxOverrun] }.faultMark = .rxOverrun :: [] := ⟨rfl, rfl, by decide, rfl⟩

/-! ## Witnesses: the whole machine -/

/-- Every channel of a machine is idle. -/
theorem machine_chan (b : Bool) (S : Option Session) (m : Memory) (e : Env) (c : Nat) (h : c < 4) :
    (machine b S m e).rc.chan c = idleChan := by
  match c, h with
  | 0, _ => rfl
  | 1, _ => rfl
  | 2, _ => rfl
  | 3, _ => rfl

/-- A machine without sessions meets the invariant. -/
theorem machine_inv (b : Bool) (m : Memory) (e : Env) (h : Memory.wf m = true) : Inv (machine b none m e) := by
  refine ⟨h, ⟨?_, ?_⟩, ⟨.inl rfl, Nat.zero_le _, (by decide : 0#32 &&& modeMask = 0#32)⟩, ?_, ?_, ?_⟩
  · intro c hc
    rw [machine_chan _ _ _ _ c hc]
    exact ⟨rfl, rfl, fun h => absurd h (by decide)⟩
  · intro a a' ha _ hx
    rw [machine_chan _ _ _ _ a ha] at hx
    exact absurd hx (by decide)
  all_goals intro S hS; exact Option.noConfusion rfl (heq_of_eq hS)

/-- A step of a machine that meets the invariant: the host writes CONF of channel 3 with FORCE. -/
def forcing : State := issued free (.rcWindow 32) [0x68#8, 0x10#8, 0xC0#8, 0x03#8, 0x10#8, 0x00#8]

theorem witness_StepKeepsInv : ∃ t, Inv forcing ∧ step forcing = .next t := by
  refine ⟨_, ?_, rfl⟩
  have h := machine_inv false [] noEnv rfl
  exact ⟨h.mem, h.rc, h.mf, h.bbBus, h.rcBus, h.mfBus⟩

theorem witness_StepKeepsInputs : ∃ t, step forcing = .next t := ⟨_, rfl⟩

theorem witness_SelectFollowsActive : (∃ t, 3 < 4 ∧ step forcing = .next t ∧
      (t.rc.chan 3).active = true ∧ (forcing.rc.chan 3).active = false) ∧
    { idleChan with conf := 0x00100040#32 }.active = true ∧
    (∃ t, exec (.rcChconfW 0 0x00100040#32) free = .next t ∧ repeatsSelect (.rcChconfW 0 0x00100040#32) = false) ∧
    ∃ t, exec (.rcTransfer 7 (desc 0#32 none none false true false)) (claimed 3#8) = .next t :=
  ⟨⟨_, by decide, rfl, rfl, rfl⟩, rfl, ⟨_, rfl, rfl⟩, ⟨_, rfl⟩⟩

theorem witness_OtherUnitsUntouched :
    (∃ t, exec .mfSetup free = .next t ∧ instrUnit .mfSetup = some .mf) ∧
    (∃ t, exec (.ldSync 0) free = .next t ∧ instrUnit (.ldSync 0) = none ∧
      ∀ h o src len, Instr.ldSync 0 ≠ .ldWrite o src len h) ∧
    (∃ t, exec (.ldWrite 0#32 0 0#32 1) (onHandles .rc 9#8 free) = .next t ∧
      instrHandle (.ldWrite 0#32 0 0#32 1) = some 1 ∧ ((onHandles .rc 9#8 free).handle 1).bus ≠ .bb) :=
  ⟨⟨_, rfl, rfl⟩, ⟨_, rfl, rfl, by simp⟩, ⟨_, rfl, rfl, by decide⟩⟩

theorem witness_OwnershipOnlyByClaimAndRelease : ∃ t, exec .bbSetup free = .next t ∧
    (∀ cs, Instr.bbSetup ≠ claimInstr .bb cs) ∧ (∀ sid, Instr.bbSetup ≠ releaseInstr .bb sid) ∧
    Instr.bbSetup ≠ setupInstr .rc := ⟨_, rfl, by simp [claimInstr], by simp [releaseInstr], by simp [setupInstr]⟩

theorem witness_MemoryLaws : Memory.wf [(0, 1#8), (9, 2#8)] = true ∧ (9 : Nat) ≠ 0 ∧
    ∀ a, readByte [(0, 1#8), (9, 2#8)] a = readByte [(0, 1#8), (9, 2#8)] a := ⟨by decide, by decide, fun _ => rfl⟩

/-! ## Witnesses: SETUP, CLAIM, RELEASE, setters -/

/-- `free` with another profile on every bus. -/
def withProfile (p : BusProfile) : State :=
  { free with
    bb := { free.bb with bus := { free.bb.bus with profile := p } },
    rc := { free.rc with bus := { free.rc.bus with profile := p } },
    mf := { free.mf with bus := { free.mf.bus with profile := p } } }

theorem witness_BbSetup :
    (∀ b, (withProfile (profile 255#8 b)).bb.bus.cur = none ∧ (profile 255#8 b).linesOk = true ∧
      ((profile 255#8 b).hasCs2 = true → (profile 255#8 b).cs2Ok = true) ∧
      (profile 255#8 b).nbound = (profile 255#8 b).ncs) ∧
    { profile 0#8 true with linesOk := false }.linesOk = false ∧
    ({ profile 2#8 true with cs2Ok := false }.linesOk = true ∧ { profile 2#8 true with cs2Ok := false }.hasCs2 = true ∧
      { profile 2#8 true with cs2Ok := false }.cs2Ok = false) ∧
    { profile 2#8 true with nbound := 1#8 }.nbound ≠ { profile 2#8 true with nbound := 1#8 }.ncs := by decide

theorem witness_WindowSetup :
    (∀ u, u = .rc ∨ u = .mf → u ≠ .bb ∧ (free.bus u).cur = none ∧ (free.bus u).profile.windowOk = true ∧
      ((free.bus u).profile.hasCs2 = true → (free.bus u).profile.cs2Ok = true)) ∧
    ((withProfile { profile 2#8 true with windowOk := false }).bus .rc).profile.windowOk = false ∧
    ((withProfile { profile 2#8 true with cs2Ok := false }).bus .mf).profile.hasCs2 = true ∧
    ((withProfile { profile 2#8 true with cs2Ok := false }).bus .mf).profile.cs2Ok = false := by
  refine ⟨?_, rfl, rfl, rfl⟩
  intro u h
  rcases h with rfl | rfl <;> exact ⟨by decide, by decide, by decide, by decide⟩

theorem witness_ClaimBbRc :
    ((free.bus .bb).cur = none ∧ (free.bus .bb).cfgOk = true ∧ (1#8).toNat < (free.bus .bb).profile.ncs.toNat) ∧
    ((free.bus .rc).cur = none ∧ (free.bus .rc).cfgOk = true ∧
      (3#8).toNat < min (free.bus .rc).profile.ncs.toNat 4) := by decide

theorem witness_ClaimMf : (profile 2#8 false).slave 1 = free.mf.bus.profile.slave (1#8).toNat ∧
    free.mf.bus.cur = none ∧ free.mf.bus.cfgOk = true ∧ (1#8).toNat < min free.mf.bus.profile.ncs.toNat 2 := by decide

theorem witness_ClaimErrors : ((claimed 0#8).bus .mf).cur ≠ none ∧
    ((free.bus .bb).cur = none ∧ (free.bus .bb).profile.ncs.toNat ≤ (2#8).toNat) ∧
    ((withProfile (profile 6#8 false)).bus .rc).cur = none ∧
    min ((withProfile (profile 6#8 false)).bus .rc).profile.ncs.toNat 4 ≤ (4#8).toNat ∧
    (State.reset.mf.bus.cur = none ∧ (1#8).toNat < min State.reset.mf.bus.profile.ncs.toNat 2 ∧
      State.reset.mf.bus.cfgOk = false) := by decide

/-- The session of `claimed cs`. -/
def mode0 (cs : BitVec 8) : Session := session cs 8#8 false false false

/-- It is live on every bus. -/
theorem claimed_live (u : BusUnit) (cs : BitVec 8) : Live u 7 (mode0 cs) (claimed cs) := by
  cases u <;> exact ⟨rfl, rfl⟩

theorem witness_Release : (Live .bb 7 (mode0 1#8) (claimed 1#8) ∧ (claimed 1#8).bb.csAsserted.getLsbD 1 = false) ∧
    (Live .rc 7 (mode0 3#8) (claimed 3#8) ∧ ((claimed 3#8).rc.chan 3).conf.getLsbD 20 = false) ∧
    (Live .mf 7 (mode0 1#8) (claimed 1#8) ∧ (claimed 1#8).mf.cs0 = true ∧ (claimed 1#8).mf.cs1 = true) ∧
    (let s : State := { claimed 1#8 with bb := { (claimed 1#8).bb with csAsserted := 2#256 } }
     Live .bb 7 (mode0 1#8) s ∧ s.bb.csAsserted.getLsbD 1 = true) ∧
    (let s := setChan 3 { idleChan with conf := 0x001003C0#32 } (claimed 3#8)
     Live .rc 7 (mode0 3#8) s ∧ (s.rc.chan 3).conf.getLsbD 20 = true) ∧
    (let s : State := { claimed 1#8 with mf := { (claimed 1#8).mf with cs1 := false } }
     Live .mf 7 (mode0 1#8) s ∧ (mode0 1#8).cs = 1#8 ∧ s.mf.cs1 = false) :=
  ⟨⟨claimed_live .bb 1#8, by decide⟩, ⟨claimed_live .rc 3#8, by decide⟩, ⟨claimed_live .mf 1#8, rfl, rfl⟩,
    ⟨⟨rfl, rfl⟩, by decide⟩, ⟨⟨rfl, rfl⟩, by decide⟩, ⟨⟨rfl, rfl⟩, rfl, rfl⟩⟩

theorem witness_NotClaimed : (∀ S, ¬ Live .mf 7 S free) ∧ (∀ S, ¬ Live .rc 6 S (claimed 0#8)) := by
  refine ⟨fun S h => ?_, fun S h => ?_⟩
  · exact absurd h.1 (by simp [State.bus, free, machine, busWith])
  · obtain ⟨h1, h2⟩ := h
    simp only [State.bus, claimed, machine, busWith, Option.some.injEq] at h1
    subst h1
    exact absurd h2 (by decide)

/-- The premise of `BbSetSpeed`, `RcSetSpeed`, `MfSetSpeed`, `SetMode` and the first of `SetWordlen`. -/
theorem witness_setters (u : BusUnit) : Live u 7 (mode0 0#8) (claimed 0#8) := claimed_live u 0#8

theorem witness_RcSetSpeed : (15 ≤ 15 ∧ 48000000 / 2 ^ 15 ≤ (1464#32).toNat ∧
      ∀ j, j < 15 → (1464#32).toNat < 48000000 / 2 ^ j) ∧
    (∀ k, k ≤ 15 → (1463#32).toNat < 48000000 / 2 ^ k) := by decide

theorem witness_SetWordlen : (session 0#8 3#8 false false false).wordlen.toNat < 4 ∧
    32 < (session 0#8 33#8 false false false).wordlen.toNat := by decide

/-! ## Witnesses: TRANSFER -/

/-- A machine whose session has word length `w`. -/
def wordlenMachine (w : BitVec 8) : State := machine false (some (session 0#8 w false false false)) [] noEnv

theorem witness_TransferChecks : (∀ S, ¬ Live .bb 7 S free) ∧
    (∀ u, Live u 7 (session 0#8 33#8 false false false) (wordlenMachine 33#8)) ∧
    (∀ u, Live u 7 (session 0#8 32#8 false false false) (wordlenMachine 32#8)) ∧ 32 < (33#8).toNat ∧
    (4 ≤ (32#8).toNat ∧ (32#8).toNat ≤ 32 ∧ (desc 0#32 none none true false true).flags.lsb = true ∧ 32#8 ≠ 8#8) ∧
    ((desc 8#32 none (some 4) false false true).inp ≠ none) ∧
    ((33#32 : Word) ≠ 0#32 ∧ (33#32).toNat % (32#8).toNat ≠ 0) ∧ (12#32).toNat % 8 ≠ 0 ∧
    ¬ Apart (desc 16#32 (some 100) (some 101) false false false) (byteLen (16#32).toNat) := by
  refine ⟨fun S h => absurd h.1 (by simp [State.bus, free, machine, busWith]), ?_, ?_, by decide, by decide,
    by decide, by decide, by decide, ?_⟩
  · intro u; cases u <;> exact ⟨rfl, rfl⟩
  · intro u; cases u <;> exact ⟨rfl, rfl⟩
  · intro h
    exact absurd (h 100 101 rfl rfl) (by decide)

/-- A legal descriptor of two bytes from 0 to 4, on any unit. -/
theorem legal_two (u : BusUnit) (cs : BitVec 8) : Legal u (mode0 cs) (desc 16#32 (some 0) (some 4) true true false) where
  wordlen := (by decide : 4 ≤ (8#8).toNat ∧ (8#8).toNat ≤ 32)
  lsb := fun _ => rfl
  lsbIn := by intro _ h; exact absurd h (by decide)
  words := (by decide : (16#32).toNat % (8#8).toNat = 0)
  bytes := by intro _; decide
  buffers := by
    intro a b ha hb
    simp only [desc, Option.some.injEq] at ha hb
    subst ha hb
    decide

/-- A legal select-only descriptor. -/
theorem legal_select (u : BusUnit) (cs : BitVec 8) : Legal u (mode0 cs) (desc 0#32 none none true true false) where
  wordlen := (by decide : 4 ≤ (8#8).toNat ∧ (8#8).toNat ≤ 32)
  lsb := fun _ => rfl
  lsbIn := by intro _ h; exact absurd h (by decide)
  words := rfl
  bytes := by intro _; decide
  buffers := by intro a b ha; exact absurd ha (by simp [desc])

/-- A legal LSB-first descriptor that only sends. -/
theorem legal_lsb (u : BusUnit) (cs : BitVec 8) : Legal u (mode0 cs) (desc 8#32 (some 0) none true true true) where
  wordlen := (by decide : 4 ≤ (8#8).toNat ∧ (8#8).toNat ≤ 32)
  lsb := fun _ => rfl
  lsbIn := by intro _ _; rfl
  words := (by decide : (8#32).toNat % (8#8).toNat = 0)
  bytes := by intro _; decide
  buffers := by intro a b _ hb; exact absurd hb (by simp [desc])

theorem witness_BbSelectOnly : Live .bb 7 (mode0 1#8) (claimed 1#8) ∧
    Legal .bb (mode0 1#8) (desc 0#32 none none true true false) ∧ (desc 0#32 none none true true false).n = 0#32 :=
  ⟨claimed_live _ _, legal_select _ _, rfl⟩

theorem witness_BbTransfer : Live .bb 7 (mode0 1#8) (claimed 1#8) ∧
    Legal .bb (mode0 1#8) (desc 16#32 (some 0) (some 4) true true false) ∧
    Legal .bb (mode0 1#8) (desc 8#32 (some 0) none true true true) ∧
    (16#32 : Word) ≠ 0#32 ∧ (desc 16#32 (some 0) (some 4) true true false).out ≠ none ∧
    Memory.wf (claimed 1#8).mem = true :=
  ⟨claimed_live _ _, legal_two _ _, legal_lsb _ _, by decide, by decide, rfl⟩

theorem witness_BbLsbFirstReversed : Live .bb 7 (mode0 0#8) { claimed 0#8 with mem := [(0, 0x01#8)] } ∧
    Legal .bb (mode0 0#8) (desc 8#32 (some 0) none true true true) ∧
    (desc 8#32 (some 0) none true true true).flags.lsb = true ∧
    (desc 8#32 (some 0) none true true true).out = some 0 ∧ Memory.wf [(0, 0x01#8)] = true ∧
    Memory.wf [(0, 0x80#8)] = true ∧
    ∀ j, j < byteLen (8#32).toNat → readByte [(0, 0x80#8)] (0 + j) = rev8 (readByte [(0, 0x01#8)] (0 + j)) :=
  ⟨⟨rfl, rfl⟩, legal_lsb _ _, rfl, rfl, by decide, by decide, by decide⟩

theorem witness_BbLoopback :
    let s : State := { claimed 0#8 with
      mem := [(0, 0xA5#8), (1, 0x5A#8)], env := { noEnv with miso := ⟨bitsOf 0xA5#8 ++ bitsOf 0x5A#8, 0⟩ } }
    Live .bb 7 (mode0 0#8) s ∧ Legal .bb (mode0 0#8) (desc 16#32 (some 0) (some 4) true true false) ∧
    (16#32 : Word) ≠ 0#32 ∧ Memory.wf s.mem = true ∧
    ∀ k, k < (16#32).toNat → s.env.miso.answer Config.freeMiso k = outBit (some 0) false s.mem k :=
  ⟨⟨rfl, rfl⟩, legal_two _ _, by decide, by decide, by decide⟩

/-! ## Witnesses: RC -/

theorem witness_RcPlainReads : 3 < 4 ∧ 10 < 11 ∧ Inv free := ⟨by decide, by decide, machine_inv false [] noEnv rfl⟩

theorem witness_RcPlainWrites : 3 < 4 ∧ 10 < 11 ∧ (0 : Nat) < 11 ∧ (0 : Nat) ≠ 10 := by decide

/-- Channel 0 of `free` holds the select. -/
def held : State := chan0 { idleChan with conf := 0x001003C0#32 }

theorem witness_RcConfWrite : ((0x001003C0#32).getLsbD 20 = true ∧ (∃ k, k < 4 ∧ k ≠ 3 ∧
      ((held.rc.chan k).conf.getLsbD 20 = true ∨ (held.rc.chan k).busy = true))) ∧
    (0x000003C0#32).getLsbD 20 = false ∧
    (∀ k, k < 4 → k ≠ 0 → (held.rc.chan k).conf.getLsbD 20 = false ∧ (held.rc.chan k).busy = false) :=
  ⟨⟨by decide, 0, by decide, by decide, by decide⟩, by decide, by decide⟩

theorem witness_RcCtrlWrite : 3 < 4 ∧ ((free.rc.chan 3).ctrl.getLsbD 0 = false ∧ (1#32).getLsbD 0 = true) ∧
    (((chan0 { idleChan with ctrl := 1#32, busy := true }).rc.chan 0).ctrl.getLsbD 0 = true ∧
      (0#32).getLsbD 0 = false) ∧ (free.rc.chan 3).ctrl.getLsbD 0 = (0xFFFFFFFE#32).getLsbD 0 := by decide

theorem witness_RcTxWriteRxRead : 3 < 4 ∧ ((free.rc.chan 3).txFull = false ∧ (free.rc.chan 3).busy = false ∧
      (free.rc.chan 3).rxFull = false) ∧
    ((chan0 { idleChan with txFull := true, rxFull := true }).rc.chan 0).txFull = true ∧
    ((chan0 { idleChan with txFull := true, rxFull := true }).rc.chan 0).rxFull = true := by decide

/-- A channel with a word to send, under a direction and a length. -/
def toSend (trm : BitVec 2) (wl : BitVec 5) : Channel :=
  { idleChan with conf := confWord ⟨false, false, 0#4, true, wl, trm, false⟩, ctrl := 1#32, tx := 0xA5#32, txFull := true }

theorem witness_ShifterStart :
    ((free.rc.chan 0).busy = false ∧ ¬ (free.rc.chan 0).ctrl.getLsbD 0 = true) ∧
    (∀ x, x ∈ [toSend 0#2 3#5, toSend 2#2 31#5, toSend 0#2 2#5] → x.busy = false ∧ x.ctrl.getLsbD 0 = true ∧
      (x.conf.extractLsb' 12 2 = 0#2 ∨ x.conf.extractLsb' 12 2 = 2#2) ∧ x.txFull = true) ∧
    ((toSend 0#2 2#5).conf.extractLsb' 7 5).toNat < 3 ∧ 3 ≤ ((toSend 0#2 3#5).conf.extractLsb' 7 5).toNat ∧
    (toSend 0#2 3#5).conf.extractLsb' 12 2 ≠ 3#2 ∧
    (∃ k, k < 4 ∧ k ≠ 1 ∧ (((setChan 1 (toSend 0#2 3#5) held).rc.chan k).conf.getLsbD 20 = true ∨
      ((setChan 1 (toSend 0#2 3#5) held).rc.chan k).busy = true)) ∧
    (∀ k, k < 4 → k ≠ 0 → ((chan0 (toSend 0#2 3#5)).rc.chan k).conf.getLsbD 20 = false ∧
      ((chan0 (toSend 0#2 3#5)).rc.chan k).busy = false) ∧
    (let x := { toSend 1#2 7#5 with txFull := false, rxReq := true }
     x.busy = false ∧ x.conf.extractLsb' 12 2 = 1#2 ∧ x.rxReq = true ∧ x.rxFull = false) ∧
    ((toSend 3#2 7#5).ctrl.getLsbD 0 = true ∧ (toSend 3#2 7#5).conf.extractLsb' 12 2 = 3#2 ∧
      (toSend 3#2 7#5).txFull = true) :=
  ⟨by decide, by decide, by decide, by decide, by decide, ⟨0, by decide, by decide, by decide⟩, by decide, by decide,
    by decide⟩

/-- A channel with a word in flight. -/
def inFlight (trm : BitVec 2) : Channel :=
  { idleChan with busy := true, shCfg := { wl := 7#5, pol := false, pha := false, trm := trm }, shOut := 0xA5#32 }

theorem witness_ShifterComplete : ((inFlight 2#2).busy = true ∧ (inFlight 2#2).shCfg.trm = 2#2) ∧
    ((inFlight 0#2).shCfg.trm = 0#2 ∧ (inFlight 0#2).rxFull = false ∧ (inFlight 1#2).shCfg.trm = 1#2) ∧
    { inFlight 1#2 with rxFull := true }.rxFull = true ∧
    (∃ t, shifterStep 0 (chan0 (toSend 0#2 7#5)) = .ok t ∧ (toSend 0#2 7#5).busy = false) ∧
    (∃ t, shifterStep 0 { chan0 (inFlight 0#2) with env := { noEnv with word := ⟨[0x77#32], 0⟩ } } = .ok t ∧
      (inFlight 0#2).txFull = false) :=
  ⟨by decide, by decide, rfl, ⟨_, rfl, rfl⟩, ⟨_, rfl, rfl⟩⟩

theorem witness_WordExpansion : (mode0 0#8).delay = 0#32 := rfl

theorem witness_StreamBits : 32 ≤ 32 ∧ 31 < 32 ∧ (32 : Nat) ≤ 32 := by decide

/-- The status is seen, and a poll that expires: V-RC-4's readings. -/
theorem witness_PollEnds : (∃ t, poll 3 1 free = .ok (true, t)) ∧ (∃ t, poll 0 0 { free with
    env := { noEnv with tick := ⟨[0, 3, 4, 3, 1], 0⟩, rounds := ⟨[9], 0⟩ } } = .ok (false, t)) := ⟨⟨_, rfl⟩, ⟨_, rfl⟩⟩

/-- Every channel of `claimed` is quiet. -/
theorem quiet_all (b : Bool) (S : Option Session) (m : Memory) (e : Env) (c : Nat) (h : c < 4) :
    RcQuiet c (machine b S m e).rc := by
  refine ⟨fun k hk _ => ?_, ?_, ?_⟩
  · rw [machine_chan _ _ _ _ k hk]; decide
  · rw [machine_chan _ _ _ _ c h]; decide
  · rw [machine_chan _ _ _ _ c h]; decide

theorem witness_RcSelectOnly : Live .rc 7 (mode0 3#8) (claimed 3#8) ∧
    Legal .rc (mode0 3#8) (desc 0#32 none none true true false) ∧ (mode0 3#8).cs.toNat < 4 ∧
    RcQuiet (mode0 3#8).cs.toNat (claimed 3#8).rc := ⟨claimed_live _ _, legal_select _ _, by decide, quiet_all _ _ _ _ 3 (by decide)⟩

/-- `claimed 3` with a willing shifter, and with one that never moves. -/
def willing : State := { claimed 3#8 with env := { noEnv with sched := ⟨[[3, 3], [3, 3]], 0⟩ } }
def stuck : State := { claimed 3#8 with env := { noEnv with sched := ⟨[[], [], [], []], 0⟩, rounds := ⟨[1, 1], 0⟩ } }

theorem witness_RcTransferEnds : Live .rc 7 (mode0 3#8) willing ∧
    Legal .rc (mode0 3#8) (desc 16#32 (some 0) (some 4) true true false) ∧ (16#32 : Word) ≠ 0#32 ∧
    (desc 16#32 (some 0) (some 4) true true false).out ≠ none ∧ (mode0 3#8).cs.toNat < 4 ∧
    RcQuiet (mode0 3#8).cs.toNat willing.rc ∧ Memory.wf willing.mem = true :=
  ⟨⟨rfl, rfl⟩, legal_two _ _, by decide, by decide, by decide, quiet_all _ _ [] noEnv 3 (by decide), rfl⟩

/-- `claimed 3` with a shifter that takes one step in each of two gaps of a poll, then both in one. -/
def slow : State := { claimed 3#8 with env := { noEnv with sched := ⟨[[3], [3], [3, 3]], 0⟩, rounds := ⟨[0, 1, 0, 0], 0⟩ } }

/-- Every poll of an exchange under `slow` sees its bit. -/
theorem slow_fine : (match rcShift (mode0 3#8) 3 (desc 16#32 (some 0) (some 4) true true false) slow with
    | .ok (fine, _) => fine
    | .error _ => false) = true := by decide

/-- A shifter that is in time, though not in every gap, meets the premise. -/
theorem witness_RcTransferResponsive :
    Responsive (mode0 3#8) (desc 16#32 (some 0) (some 4) true true false) slow ∧
    Willing 3 ((16#32).toNat / (mode0 3#8).wordlen.toNat) willing.env := by
  constructor
  · intro u hu
    have h := slow_fine
    rw [show rcShift (mode0 3#8) 3 _ slow = .ok (false, u) from hu] at h
    cases h
  · intro k hk
    match k, hk with
    | 0, _ => decide
    | 1, _ => decide

theorem witness_RcTransferStuck : Live .rc 7 (mode0 3#8) stuck ∧ RcQuiet 3 stuck.rc ∧
    Stuck 3 (stuck.env.rounds.answer Config.freeRounds 1 + 2) stuck.env := by
  refine ⟨⟨rfl, rfl⟩, quiet_all _ _ [] noEnv 3 (by decide), ?_⟩
  intro k hk
  match k, hk with
  | 0, _ => decide
  | 1, _ => decide
  | 2, _ => decide

theorem witness_RcNeverElsewhere : ∃ t, Live .rc 7 (mode0 3#8) willing ∧
    exec (.rcTransfer 7 (desc 16#32 (some 0) none true true false)) willing = .next t ∧
    t.result = some (.count 16#32) := ⟨_, ⟨rfl, rfl⟩, rfl, rfl⟩

/-! ## Witnesses: MF -/

theorem witness_MfCommandWrites : (2#32 ≠ 1#32 ∧ 2#32 ≠ 0#32) ∧ (0xFFFFFFFE#32).getLsbD 0 = false ∧
    { free.mf with cs1 := false }.cs1 = false ∧ (free.mf.cs0 = true ∧ free.mf.cs1 = true) := by decide

theorem witness_MfExchanges : (254 % 2 = 0 ∧ 254 < free.params.fifoBytes ∧
      free.mf.rxq.length + 2 ≤ free.params.fifoBytes) ∧
    (let s : State := { free with params := { free.params with fifoHalf := 0 }, mf := { free.mf with rxq := [7#8, 8#8] } }
     s.params.fifoBytes < s.mf.rxq.length + 2 ∧ s.params.fifoBytes ≤ s.mf.rxq.length ∧
     s.mf.rxq.length ≤ s.params.fifoBytes ∧ s.params.fifoBytes < s.mf.rxq.length + (1#32).toNat ∧
     ¬ (2 % 2 = 0 ∧ 2 < s.params.fifoBytes)) ∧ free.mf.rxq.length + (256#32).toNat ≤ free.params.fifoBytes := by decide

theorem witness_MfQueueReads : free.mf.rxq = [] ∧ { free.mf with rxq := [1#8, 2#8] }.rxq = [1#8, 2#8] ∧
    (254 % 2 = 0 ∧ 254 < free.params.fifoBytes) ∧ { free.mf with rxq := [1#8] }.rxq.length < 2 ∧
    ¬ (256 % 2 = 0 ∧ 256 < free.params.fifoBytes) := by decide

theorem witness_MfTransfer : Live .mf 7 (mode0 1#8) (claimed 1#8) ∧
    Legal .mf (mode0 1#8) (desc 16#32 (some 0) (some 4) true true false) ∧
    Legal .mf (mode0 1#8) (desc 0#32 none none true true false) ∧ MfQuiet (mode0 1#8).cs (claimed 1#8).mf ∧
    Memory.wf (claimed 1#8).mem = true :=
  ⟨claimed_live _ _, legal_two _ _, legal_select _ _, ⟨rfl, by decide, by decide⟩, rfl⟩

/-! ## Witnesses: the loader -/

theorem witness_LdRead : Memory.wf free.mem = true ∧ 2 < (3#32).toNat := by decide

theorem witness_LdNoOps : 0 < free.ld.length ∧ free.ld.length ≤ 1 ∧ instrHandle (.ldSync 1) = some 1 := by decide

theorem witness_LdClaimFails :
    (∀ u, ((onHandles u 1#8 (claimed 0#8)).bus ((onHandles u 1#8 (claimed 0#8)).handle 1).bus).cur ≠ none) ∧
    (let s := onHandles .bb 2#8 free
     1 < s.ld.length ∧ (s.bus (s.handle 1).bus).cur = none ∧
     claimLimit .bb s.rc.nchan (s.bus .bb).profile ≤ (s.handle 1).cs.toNat ∧ (s.handle 1).hasCrc = true) ∧
    (let s : State := onHandles .rc 3#8 { free with rc := { free.rc with bus := { free.rc.bus with cfgOk := false } } }
     (s.bus (s.handle 1).bus).cur = none ∧ (s.bus .rc).cfgOk = false ∧
     (s.handle 1).cs.toNat < claimLimit .rc s.rc.nchan (s.bus .rc).profile ∧ shifterGap s = .ok s) ∧
    (shifterGap (onHandles .rc 4#8 badWord) = .error .reservedConfig ∧
      (onHandles .rc 4#8 badWord).rc.bus.cur = none) ∧
    { free.handle 0 with hasCrc := false }.hasCrc = false := by
  refine ⟨fun u => ?_, by decide, ⟨rfl, rfl, by decide, rfl⟩, ⟨rfl, rfl⟩, rfl⟩
  cases u <;> decide

/-- `free` with a scripted target. -/
def target (st dn : List Bool) (rounds : Nat) : State :=
  { free with env := { noEnv with status := ⟨st, 0⟩, done := ⟨dn, 0⟩, rounds := ⟨[rounds], 0⟩ } }

theorem witness_SettleWait : (∃ t, doneWait 0 (target [true, true] [false, true] 5) = .ok (.configured, t)) ∧
    (∃ t, doneWait 0 (target [false] [] 0) = .ok (.stopped .configurationRejected, t)) ∧
    (∃ t, doneWait 0 (target [true] [false] 0) = .ok (.stopped .timeout, t)) ∧
    (∀ u, LoaderQuiet 1 (onHandles u 1#8 free)) :=
  ⟨⟨_, rfl⟩, ⟨_, rfl⟩, ⟨_, rfl⟩, fun u => by cases u <;> (intro _; decide)⟩

theorem loadReady_on (u : BusUnit) (b : Bool) (m : Memory) (e : Env) :
    LoadReady 1 (onHandles u 1#8 (machine b none m e)) where
  handle := (by decide : 1 < 2)
  setUp := by cases u <;> rfl
  free := by cases u <;> rfl
  index := by
    cases u
    · exact (by decide : 1 < 2)
    · exact (by decide : 1 < min 4 4)
    · exact (by decide : 1 < min 2 2)
  bb := fun _ => (by decide : (0#256).getLsbD 1 = false)
  rc := fun _ => ⟨quiet_all b none m e 1 (by decide), (by decide : (0#32).getLsbD 20 = false)⟩
  mf := fun _ => ⟨rfl, rfl, rfl⟩

theorem witness_LdWriteCompletes (u : BusUnit) : LoadReady 1 (onHandles u 1#8 free) ∧
    Memory.wf (onHandles u 1#8 free).mem = true := ⟨loadReady_on u false [] noEnv, rfl⟩

/-- A script of one answer repeated. -/
theorem answer_replicate {α : Type} (free : Nat → α) (n k : Nat) (a : α) (h : k < n) :
    Draws.answer free { script := List.replicate n a, taken := 0 } k = a := by
  simp [Draws.answer, h]

theorem witness_LdStatusNeverRises : ∃ s, LoadReady 1 s ∧
    ∀ k, k < 200 → s.env.status.answer Config.freeStatus k = false := by
  refine ⟨onHandles .bb 1#8 (machine true none [] { noEnv with status := ⟨List.replicate 200 false, 0⟩ }),
    loadReady_on _ _ _ _, ?_⟩
  intro k hk
  exact answer_replicate Config.freeStatus 200 k false hk

/-- `len` one past two chunks of two bytes, on any bus, with a shifter that takes two steps in every gap. -/
theorem witness_LdWriteSucceeds (u : BusUnit) : ∃ s, LoadReady 1 s ∧ Memory.wf s.mem = true ∧ (s.handle 1).bus = u ∧
    (∀ k, k < chunkCount (5#32).toNat s.params.chunkBytes + 3 → s.env.status.answer Config.freeStatus k = true) ∧
    s.env.done.answer Config.freeDone 0 = true ∧ Willing (s.handle 1).cs.toNat ((5#32).toNat + 1) s.env := by
  refine ⟨onHandles u 1#8 (machine true none [] { noEnv with
    status := ⟨List.replicate 5 true, 0⟩, done := ⟨[true], 0⟩, sched := ⟨List.replicate 6 [1, 1], 0⟩ }),
    loadReady_on _ _ _ _, rfl, rfl, ?_, rfl, ?_⟩
  · cases u <;> decide
  · unfold Willing
    cases u <;> decide

theorem witness_LdWriteRejected (u : BusUnit) : ∃ s, LoadReady 1 s ∧ Memory.wf s.mem = true ∧ (s.handle 1).bus = u ∧
    2 ≤ chunkCount (5#32).toNat s.params.chunkBytes ∧
    (∀ k, k ≤ 2 → s.env.status.answer Config.freeStatus k = true) ∧
    s.env.status.answer Config.freeStatus (2 + 1) = false ∧
    Willing (s.handle 1).cs.toNat (2 * s.params.chunkBytes) s.env := by
  refine ⟨onHandles u 1#8 (machine true none [] { noEnv with
    status := ⟨[true, true, true, false], 0⟩, sched := ⟨List.replicate 4 [1, 1], 0⟩ }),
    loadReady_on _ _ _ _, rfl, rfl, ?_, ?_, rfl, ?_⟩
  · cases u <;> decide
  · cases u <;> decide
  · unfold Willing
    cases u <;> decide

end Sys2Proof.Tests
end

section
/-! PROOFS. A step of the machine as an equation (spec 00_scope R7, R14): what the gap at its head leaves of what the
host reads and issues, and what follows for each of the host's steps. -/

namespace Sys2Proof.Machine

/-! ## The gap at the head of a step -/

theorem shifterGap_queue {s m : State} (h : shifterGap s = .ok m) : m.queue = s.queue := by
  rw [(shifterGap_shifted h).rest]

theorem shifterGap_mem {s m : State} (h : shifterGap s = .ok m) : m.mem = s.mem := by
  rw [(shifterGap_shifted h).rest]

/-- A gap leaves the layout under which the next word is read. -/
theorem shifterGap_layout {s m : State} (h : shifterGap s = .ok m) : m.layout = s.layout := by
  have e := shifterGap_evolves (rep := true) h
  simp [State.layout, e.params, e.nchan]

/-- Where no channel is enabled or has a word in flight, a gap does nothing. -/
theorem shifterGap_idle {s : State}
    (h : ∀ c, c < s.rc.nchan → (s.rc.chan c).busy = false ∧ (s.rc.chan c).en = false) : shifterGap s = .ok s :=
  shifterGap_still (anyMovable_eq_false.2 fun c hc => by
    obtain ⟨hbusy, hen⟩ := h c hc
    simp [Channel.movable, Channel.startable, hbusy, hen])

/-! ## The host's step -/

theorem step_of_gap {s m : State} (hf : s.faultMark = []) (hg : shifterGap s = .ok m) : step s = issueNext m := by
  simp [step, stepOnce, hf, hg]

theorem step_of_gap_fault {s : State} {f : Fault} (hf : s.faultMark = []) (hg : shifterGap s = .error f) :
    step s = .fault f := by
  simp [step, stepOnce, hf, hg]

/-- A word that spells an instruction, read under the layout before the gap, runs in the state after it. -/
theorem step_issue {s m : State} {x : Issue} {rest : List HostAct} {i : Instr} (hf : s.faultMark = [])
    (hq : s.queue = .issue x :: rest) (hg : shifterGap s = .ok m) (hd : decodeIssue s.layout x = .ok i) :
    step s = exec i { m with queue := rest } := by
  rw [step_of_gap hf hg, issueNext, shifterGap_queue hg, hq, shifterGap_layout hg]
  simp only [hd]

theorem step_issue_rejected {s m : State} {x : Issue} {rest : List HostAct} {e : DecodeError}
    (hf : s.faultMark = []) (hq : s.queue = .issue x :: rest) (hg : shifterGap s = .ok m)
    (hd : decodeIssue s.layout x = .error e) : step s = rejected e := by
  rw [step_of_gap hf hg, issueNext, shifterGap_queue hg, hq, shifterGap_layout hg]
  simp only [hd]

/-- 30_encoding R102: what spells nothing is refused, but for an access no row matches. -/
theorem rejected_of_ne {e : DecodeError} (h : e ≠ .unmappedAccess) : rejected e = .refused (.noOperation e) := by
  cases e
  case unmappedAccess => exact absurd rfl h
  all_goals rfl

theorem step_store {s m : State} {a : Nat} {bytes : List Byte} {rest : List HostAct} (hf : s.faultMark = [])
    (hq : s.queue = .store a bytes :: rest) (hg : shifterGap s = .ok m) :
    step s = .next (storeBytes a bytes { m with queue := rest }) := by
  rw [step_of_gap hf hg, issueNext, shifterGap_queue hg, hq]

/-- On quiet channels a table word placed at the head of the queue runs in the state it was placed in. -/
theorem step_withFetchWord {s : State} {nbits w : Nat} {i : Instr} (hf : s.faultMark = [])
    (hidle : ∀ c, c < s.rc.nchan → (s.rc.chan c).busy = false ∧ (s.rc.chan c).en = false)
    (hd : decodeIssue s.layout (issueOfTableWord s.layout nbits w) = .ok i) :
    step (s.withFetchWord nbits w) = exec i s :=
  step_issue (s := s.withFetchWord nbits w) (m := s.withFetchWord nbits w) (rest := s.queue) hf rfl
    (shifterGap_idle hidle) hd

theorem decodeTableWord_eq_some {nbits w : Nat} {i : Instr} :
    decodeTableWord nbits w = some i ↔
      decodeIssue Config.layout (issueOfTableWord Config.layout nbits w) = .ok i := by
  unfold decodeTableWord
  cases decodeIssue Config.layout (issueOfTableWord Config.layout nbits w) <;> simp

/-- Settles O7: a step is `issueNext` in the state the gap leaves, and the gap keeps the queue, the layout and
memory. -/
theorem stepRunsDecoded : Obligations.StepRunsDecoded := by
  unfold Obligations.StepRunsDecoded
  refine ⟨?issued, ?stored, fun s f hf hg => step_of_gap_fault hf hg, fun s h => shifterGap_idle h,
    fun s nbits w i hf hidle hd => step_withFetchWord hf hidle hd, ?table⟩
  case issued =>
    intro s m x rest hf hq hg
    refine ⟨fun i hd => step_issue hf hq hg hd, fun hd => step_issue_rejected hf hq hg hd, fun e hd hne => ?_⟩
    rw [step_issue_rejected hf hq hg hd, rejected_of_ne hne]
  case stored =>
    intro s m a bytes rest hf hq hg hw
    have hmem : m.mem = s.mem := shifterGap_mem hg
    have hwf : Memory.wf ({ m with queue := rest } : State).mem = true := hmem ▸ hw
    refine ⟨_, step_store hf hq hg, storeBytes_eq a bytes _, storeBytes_wf a bytes hwf, ?_, ?_⟩
    · intro k b hb
      obtain ⟨hk, rfl⟩ := List.getElem?_eq_some_iff.1 hb
      exact readByte_storeBytes_inside hwf hk
    · intro b hb
      have hout : b < a ∨ a + bytes.length ≤ b := by
        by_contra hin
        exact hb (b - a) (by omega) (by omega)
      exact (readByte_storeBytes_outside hwf hout).trans (congrArg (readByte · b) hmem)
  case table =>
    intro s nbits w i hf hidle hl hd
    exact step_withFetchWord hf hidle (hl ▸ decodeTableWord_eq_some.1 hd)

end Sys2Proof.Machine
end

section
/-! PROOFS. An operation stays within its unit (spec 00_scope R14). `UnitOnly u` holds of each operation of the
contract on unit `u` and of each register access of `u`; `LoadWorks h` of each piece of a load on handle `h`, which
reaches the unit of its handle through the contract's operations alone. -/

namespace Sys2Proof.Machine

/-! ## The frames -/

/-- Of the three units only `u` may differ. -/
structure OtherUnits (u : BusUnit) (s t : State) : Prop where
  bb : u ≠ .bb → t.bb = s.bb
  rc : u ≠ .rc → t.rc = s.rc
  mf : u ≠ .mf → t.mf = s.mf

theorem OtherUnits.trans {u : BusUnit} {s t r : State} (a : OtherUnits u s t) (b : OtherUnits u t r) :
    OtherUnits u s r :=
  ⟨fun n => (b.bb n).trans (a.bb n), fun n => (b.rc n).trans (a.rc n), fun n => (b.mf n).trans (a.mf n)⟩

/-- Of the units and the loader only unit `u` may differ. -/
structure UnitOnly (u : BusUnit) (s t : State) : Prop extends OtherUnits u s t where
  ld : t.ld = s.ld

/-- What leaves every unit and the loader as they are stays within any unit. -/
theorem UnitOnly.of_same {u : BusUnit} {s t : State} (hb : t.bb = s.bb) (hr : t.rc = s.rc) (hm : t.mf = s.mf)
    (hl : t.ld = s.ld) : UnitOnly u s t := ⟨⟨fun _ => hb, fun _ => hr, fun _ => hm⟩, hl⟩

theorem UnitOnly.refl (u : BusUnit) (s : State) : UnitOnly u s s := .of_same rfl rfl rfl rfl

theorem UnitOnly.trans {u : BusUnit} {s t r : State} (a : UnitOnly u s t) (b : UnitOnly u t r) : UnitOnly u s r :=
  ⟨a.toOtherUnits.trans b.toOtherUnits, b.ld.trans a.ld⟩

theorem BbOnly.unitOnly {s t : State} (h : BbOnly s t) : UnitOnly .bb s t :=
  ⟨⟨fun n => absurd rfl n, fun _ => h.rc, fun _ => h.mf⟩, h.ld⟩
theorem RcOnly.unitOnly {s t : State} (h : RcOnly s t) : UnitOnly .rc s t :=
  ⟨⟨fun _ => h.bb, fun n => absurd rfl n, fun _ => h.mf⟩, h.ld⟩
theorem MfOnly.unitOnly {s t : State} (h : MfOnly s t) : UnitOnly .mf s t :=
  ⟨⟨fun _ => h.bb, fun _ => h.rc, fun n => absurd rfl n⟩, h.ld⟩

theorem setBus_unitOnly (u : BusUnit) (b : BusRec) (s : State) : UnitOnly u s (s.setBus u b) := by
  cases u
  · exact ⟨⟨fun n => absurd rfl n, fun _ => rfl, fun _ => rfl⟩, rfl⟩
  · exact ⟨⟨fun _ => rfl, fun n => absurd rfl n, fun _ => rfl⟩, rfl⟩
  · exact ⟨⟨fun _ => rfl, fun _ => rfl, fun n => absurd rfl n⟩, rfl⟩

theorem putSession_unitOnly (u : BusUnit) (S : Session) (s : State) : UnitOnly u s (putSession u S s) :=
  setBus_unitOnly u _ s

theorem cs2_unitOnly (u : BusUnit) (a : Bool) (s : State) : UnitOnly u s (cs2 u a s) := by
  cases u
  · exact (cs2_bbOnly a s).unitOnly
  · exact (cs2_rcOnly a s).unitOnly
  · exact (cs2_mfOnly a s).unitOnly

theorem mfWrite_unitOnly {g : MfReg} {v : Word} {s t : State} (h : mfWrite g v s = .ok t) : UnitOnly .mf s t :=
  (mfWrite_works (rep := true) h).only.unitOnly

/-! ## The operations of the contract -/

theorem windowBind_unitOnly (u : BusUnit) (s : State) : UnitOnly u s (windowBind u s).2 := by
  unfold windowBind
  simp only
  split
  · exact .refl u s
  · split
    · exact .refl u s
    · exact cs2_unitOnly u false s

theorem unitBind_unitOnly (u : BusUnit) (s : State) : UnitOnly u s (unitBind u s).2 := by
  cases u
  · exact (bbBind_works (rep := true) s).only.unitOnly
  · exact windowBind_unitOnly .rc s
  · exact windowBind_unitOnly .mf s

theorem setupOp_unitOnly {u : BusUnit} {s t : State} {r : OpResult} (h : setupOp u s = .ok (r, t)) :
    UnitOnly u s t := by
  unfold setupOp at h
  split at h
  · cases h
  · cases h
    exact (unitBind_unitOnly u s).trans (setBus_unitOnly u _ _)

theorem unitSetSpeed_unitOnly {u : BusUnit} {S : Session} {hz : Word} {s t : State}
    (h : unitSetSpeed u S hz s = .ok t) : UnitOnly u s t := by
  cases u
  · cases h; exact putSession_unitOnly .bb _ s
  · cases h; exact putSession_unitOnly .rc _ s
  · exact (putSession_unitOnly .mf { S with hz := hz } s).trans (mfWrite_unitOnly (g := .speed) (v := hz) h)

theorem unitSetMode_unitOnly {u : BusUnit} {S : Session} {s t : State} (h : unitSetMode u S s = .ok t) :
    UnitOnly u s t := by
  cases u
  · cases h; exact .refl _ _
  · cases h; exact .refl _ _
  · exact mfWrite_unitOnly (g := .mode) (v := modeWord S.cpol S.cpha S.csHigh) h

theorem unitClaim_unitOnly {u : BusUnit} {s t : State} (h : unitClaim u s = .ok t) : UnitOnly u s t := by
  cases u
  · cases h; exact .refl _ _
  · cases h; exact .refl _ _
  · exact mfWrite_unitOnly (g := .busctl) (v := 1#32) h

theorem unitRelease_unitOnly {u : BusUnit} {s t : State} (h : unitRelease u s = .ok t) : UnitOnly u s t := by
  cases u
  · cases h; exact .refl _ _
  · cases h; exact .refl _ _
  · exact mfWrite_unitOnly (g := .busctl) (v := 0#32) h

theorem setSpeedOp_unitOnly {u : BusUnit} {sid : Nat} {hz : Word} {s t : State} {r : OpResult}
    (h : setSpeedOp u sid hz s = .ok (r, t)) : UnitOnly u s t := by
  obtain ⟨S, -, h⟩ := bind_eq_ok.1 h
  obtain ⟨m, hset, h⟩ := bind_eq_ok.1 h
  cases h
  exact unitSetSpeed_unitOnly hset

theorem setModeOp_unitOnly {u : BusUnit} {sid : Nat} {m : Mode} {s t : State} {r : OpResult}
    (h : setModeOp u sid m s = .ok (r, t)) : UnitOnly u s t := by
  obtain ⟨S, -, h⟩ := bind_eq_ok.1 h
  obtain ⟨m', hset, h⟩ := bind_eq_ok.1 h
  cases h
  exact (putSession_unitOnly u _ s).trans (unitSetMode_unitOnly hset)

theorem setWordlenOp_unitOnly {u : BusUnit} {sid : Nat} {w : BitVec 8} {s t : State} {r : OpResult}
    (h : setWordlenOp u sid w s = .ok (r, t)) : UnitOnly u s t := by
  obtain ⟨S, -, h⟩ := bind_eq_ok.1 h
  cases h
  exact putSession_unitOnly u _ s

theorem openSession_unitOnly {u : BusUnit} {cs : BitVec 8} {s t : State} {r : OpResult}
    (h : openSession u cs s = .ok (r, t)) : UnitOnly u s t := by
  obtain ⟨m1, hclaim, h⟩ := bind_eq_ok.1 h
  obtain ⟨m2, hspeed, h⟩ := bind_eq_ok.1 h
  obtain ⟨m3, hmode, h⟩ := bind_eq_ok.1 h
  cases h
  exact (((setBus_unitOnly u _ s).trans (unitClaim_unitOnly hclaim)).trans (unitSetSpeed_unitOnly hspeed)).trans
    (unitSetMode_unitOnly hmode)

theorem claimOp_unitOnly {u : BusUnit} {cs : BitVec 8} {s t : State} {r : OpResult}
    (h : claimOp u cs s = .ok (r, t)) : UnitOnly u s t := by
  unfold claimOp at h
  simp only at h
  split at h
  · cases h
  · split at h
    · cases h; exact .refl _ _
    · split at h
      · cases h; exact .refl _ _
      · exact openSession_unitOnly h

theorem releaseOp_unitOnly {u : BusUnit} {sid : Nat} {s t : State} {r : OpResult}
    (h : releaseOp u sid s = .ok (r, t)) : UnitOnly u s t := by
  obtain ⟨S, -, h⟩ := bind_eq_ok.1 h
  split at h
  · cases h
  · obtain ⟨m, hrel, h⟩ := bind_eq_ok.1 h
    cases h
    exact (unitRelease_unitOnly hrel).trans (setBus_unitOnly u _ m)

theorem transferOp_unitOnly {u : BusUnit} {sid : Nat} {d : Desc} {s t : State} {r : OpResult}
    (h : transferOp u sid d s = .ok (r, t)) : UnitOnly u s t := by
  cases u
  · exact (bbTransferOp_works (rep := true) h).only.unitOnly
  · exact (rcTransferOp_works h).only.unitOnly
  · exact (mfTransferOp_works (rep := true) h).only.unitOnly

/-! ## The instructions of a unit -/

theorem finish_unitOnly {u : BusUnit} {x : Except Fault (OpResult × State)} {s t : State}
    (hx : ∀ r m, x = .ok (r, m) → UnitOnly u s m) (h : finish x = .next t) : UnitOnly u s t := by
  obtain ⟨r, m, hm, rfl⟩ := finish_eq_next.1 h
  exact (hx r m hm).trans (.of_same rfl rfl rfl rfl)

theorem finish_rcRead_unitOnly {g : RcReg} {s t : State} (h : finish (returnRead (rcRead g s)) = .next t) :
    UnitOnly .rc s t :=
  finish_unitOnly (fun _ _ hx => by
    obtain ⟨v, hv, -⟩ := returnRead_eq_ok.1 hx
    exact (rcRead_rcOnly hv).unitOnly) h

theorem finish_rcWrite_unitOnly {g : RcReg} {v : Word} {s t : State}
    (h : finish (returnWrite (rcWrite g v s)) = .next t) : UnitOnly .rc s t :=
  finish_unitOnly (fun _ _ hx => (rcWrite_rcOnly (returnWrite_eq_ok.1 hx).1).unitOnly) h

theorem finish_mfRead_unitOnly {g : MfReg} {s t : State} (h : finish (returnRead (mfRead g s)) = .next t) :
    UnitOnly .mf s t :=
  finish_unitOnly (fun _ _ hx => by
    obtain ⟨v, hv, -⟩ := returnRead_eq_ok.1 hx
    exact (mfRead_works (rep := true) hv).only.unitOnly) h

theorem finish_mfWrite_unitOnly {g : MfReg} {v : Word} {s t : State}
    (h : finish (returnWrite (mfWrite g v s)) = .next t) : UnitOnly .mf s t :=
  finish_unitOnly (fun _ _ hx => mfWrite_unitOnly (returnWrite_eq_ok.1 hx).1) h

/-- Every operation and access of unit `u` stays within it. -/
theorem exec_unitOnly {i : Instr} {u : BusUnit} {s t : State} (hu : instrUnit i = some u)
    (h : exec i s = .next t) : UnitOnly u s t := by
  cases i <;> cases hu
  case bbSetup | rcSetup | mfSetup => exact finish_unitOnly (fun _ _ hx => setupOp_unitOnly hx) h
  case bbClaim | rcClaim | mfClaim => exact finish_unitOnly (fun _ _ hx => claimOp_unitOnly hx) h
  case bbRelease | rcRelease | mfRelease => exact finish_unitOnly (fun _ _ hx => releaseOp_unitOnly hx) h
  case bbSetSpeed | rcSetSpeed | mfSetSpeed => exact finish_unitOnly (fun _ _ hx => setSpeedOp_unitOnly hx) h
  case bbSetMode | rcSetMode | mfSetMode => exact finish_unitOnly (fun _ _ hx => setModeOp_unitOnly hx) h
  case bbSetWordlen | rcSetWordlen | mfSetWordlen => exact finish_unitOnly (fun _ _ hx => setWordlenOp_unitOnly hx) h
  case bbTransfer => exact finish_unitOnly (fun _ _ hx => transferOp_unitOnly (u := .bb) hx) h
  case rcTransfer => exact finish_unitOnly (fun _ _ hx => transferOp_unitOnly (u := .rc) hx) h
  case mfTransfer => exact finish_unitOnly (fun _ _ hx => transferOp_unitOnly (u := .mf) hx) h
  case rcChconfR | rcChstatR | rcChctrlR | rcTxR | rcRxR | rcSharedR => exact finish_rcRead_unitOnly h
  case rcChconfW | rcChstatW | rcChctrlW | rcTxW | rcRxW | rcSharedW => exact finish_rcWrite_unitOnly h
  case mfRdbyteR | mfRxfifoR => exact finish_mfRead_unitOnly h
  case mfSpeedW v => exact finish_mfWrite_unitOnly (g := .speed) (v := v) h
  case mfModeW v => exact finish_mfWrite_unitOnly (g := .mode) (v := v) h
  case mfTxfifoW | mfBusctlW | mfCs0W | mfCs1W | mfWrbyteW | mfReadW => exact finish_mfWrite_unitOnly h

/-! ## The loader's frame -/

/-- What every piece of a load on handle `h` does: the other handles stay, and so do the units but that of the handle,
which it keeps. -/
structure LoadWorks (h : Nat) (s t : State) : Prop where
  bus : (t.handle h).bus = (s.handle h).bus
  others : ∀ k, k ≠ h → t.handle k = s.handle k
  units : OtherUnits (s.handle h).bus s t

theorem LoadWorks.trans {h : Nat} {s t r : State} (a : LoadWorks h s t) (b : LoadWorks h t r) : LoadWorks h s r :=
  ⟨b.bus.trans a.bus, fun k hk => (b.others k hk).trans (a.others k hk), a.units.trans (a.bus ▸ b.units)⟩

/-- What stays within the unit of the handle is a piece of a load. -/
theorem UnitOnly.loadWorks {h : Nat} {s t : State} (hu : UnitOnly (s.handle h).bus s t) : LoadWorks h s t :=
  ⟨by rw [handle_congr hu.ld], fun k _ => handle_congr hu.ld k, hu.toOtherUnits⟩

theorem LoadWorks.of_same {h : Nat} {s t : State} (hb : t.bb = s.bb) (hr : t.rc = s.rc) (hm : t.mf = s.mf)
    (hl : t.ld = s.ld) : LoadWorks h s t := (UnitOnly.of_same hb hr hm hl).loadWorks

theorem LoadWorks.refl (h : Nat) (s : State) : LoadWorks h s s := .of_same rfl rfl rfl rfl

theorem setHandle_loadWorks {h : Nat} {x : Handle} {s : State} (hx : x.bus = (s.handle h).bus) :
    LoadWorks h s (setHandle h x s) := by
  refine ⟨?_, fun k hk => handle_setHandle_other hk x s, ⟨fun _ => rfl, fun _ => rfl, fun _ => rfl⟩⟩
  rw [handle_setHandle]
  split
  · exact hx
  · rfl

theorem setLdState_loadWorks (h : Nat) (x : LdState) (s : State) : LoadWorks h s (setLdState h x s) :=
  setHandle_loadWorks rfl

/-! ## The handshake lines -/

/-- The gap before an event of the loader is the shifters' only when the handle's bus is RC's. -/
theorem ldGap_loadWorks {h : Nat} {s t : State} (e : ldGap h s = .ok t) : LoadWorks h s t := by
  unfold ldGap at e
  split at e
  · rename_i hrc
    exact UnitOnly.loadWorks (hrc ▸ (shifterGap_rcOnly e).unitOnly)
  · cases e; exact .refl h s

theorem afterGap_loadWorks {α : Type} {h : Nat} {event : State → α} {next : α → State} {s : State} {x : α}
    (hx : ∀ s, LoadWorks h s (next (event s))) (e : afterGap h event s = .ok x) : LoadWorks h s (next x) := by
  obtain ⟨m, hgap, hev⟩ := bind_eq_ok.1 e
  cases hev
  exact (ldGap_loadWorks hgap).trans (hx m)

theorem ncfgEvent_loadWorks (h : Nat) (b : Bool) (s : State) : LoadWorks h s (ncfgEvent h b s) :=
  (setHandle_loadWorks (x := { s.handle h with ncfg := b }) rfl).trans (.of_same rfl rfl rfl rfl)

theorem driveNcfg_loadWorks {h : Nat} {b : Bool} {s t : State} (e : driveNcfg h b s = .ok t) : LoadWorks h s t :=
  afterGap_loadWorks (event := ncfgEvent h b) (next := id) (ncfgEvent_loadWorks h b) e

theorem sampleStatus_loadWorks {h : Nat} {b : Bool} {s t : State} (e : sampleStatus h s = .ok (b, t)) :
    LoadWorks h s t :=
  afterGap_loadWorks (next := Prod.snd) (fun _ => .of_same rfl rfl rfl rfl) e

theorem sampleDone_loadWorks {h : Nat} {b : Bool} {s t : State} (e : sampleDone h s = .ok (b, t)) :
    LoadWorks h s t :=
  afterGap_loadWorks (next := Prod.snd) (fun _ => .of_same rfl rfl rfl rfl) e

theorem sampleCrc_loadWorks {h : Nat} {b : Bool} {s t : State} (e : sampleCrc h s = .ok (b, t)) : LoadWorks h s t :=
  afterGap_loadWorks (next := Prod.snd) (fun _ => .of_same rfl rfl rfl rfl) e

theorem delayMicros_loadWorks {h n : Nat} {s t : State} (e : delayMicros h n s = .ok t) : LoadWorks h s t :=
  afterGap_loadWorks (event := emitPin _) (next := id) (fun _ => .of_same rfl rfl rfl rfl) e

/-! ## The phases of a load -/

theorem diag_loadWorks {h : Nat} {s t : State} (e : diag h s = .ok t) : LoadWorks h s t := by
  unfold diag at e
  split at e
  · obtain ⟨⟨b, m⟩, hcrc, e⟩ := bind_eq_ok.1 e
    cases e
    exact (sampleCrc_loadWorks hcrc).trans (setHandle_loadWorks rfl)
  · cases e; exact .refl h s

theorem fail_loadWorks {h : Nat} {x : Err} {s t : State} {r : OpResult} (e : fail h x s = .ok (r, t)) :
    LoadWorks h s t := by
  obtain ⟨m, hdiag, e⟩ := bind_eq_ok.1 e
  cases e
  exact LoadWorks.trans (t := setHandle h { s.handle h with state := .failed, lastError := some x } s)
    (setHandle_loadWorks rfl) (diag_loadWorks hdiag)

theorem releaseAndFail_loadWorks {h sid : Nat} {x : Err} {s t : State} {r : OpResult}
    (e : releaseAndFail h sid x s = .ok (r, t)) : LoadWorks h s t := by
  obtain ⟨⟨r', m⟩, hrel, e⟩ := bind_eq_ok.1 e
  exact (releaseOp_unitOnly hrel).loadWorks.trans (fail_loadWorks e)

theorem abort_loadWorks {h sid pos : Nat} {x : Err} {s t : State} {r : OpResult}
    (e : abort h sid pos x s = .ok (r, t)) : LoadWorks h s t := by
  unfold abort at e
  split at e
  · obtain ⟨⟨r', m⟩, hend, e⟩ := bind_eq_ok.1 e
    exact (transferOp_unitOnly hend).loadWorks.trans (releaseAndFail_loadWorks e)
  · exact releaseAndFail_loadWorks e

/-- A load that stops in its stream has aborted. -/
theorem stopStream_abort_loadWorks {h sid pos : Nat} {x : Err} {y : Streamed} {s t : State}
    (e : stopStream (abort h sid pos x s) = .ok (y, t)) : LoadWorks h s t := by
  obtain ⟨r, habort, -⟩ := stopStream_eq_ok.1 e
  exact abort_loadWorks habort

theorem resetPulse_loadWorks {h : Nat} {s t : State} (e : resetPulse h s = .ok t) : LoadWorks h s t := by
  obtain ⟨m1, hlow, e⟩ := bind_eq_ok.1 e
  obtain ⟨m2, hdelay, e⟩ := bind_eq_ok.1 e
  exact ((driveNcfg_loadWorks hlow).trans (delayMicros_loadWorks hdelay)).trans (driveNcfg_loadWorks e)

theorem statusWait_loadWorks {h n : Nat} {b : Bool} {s t : State} (e : statusWait h n s = .ok (b, t)) :
    LoadWorks h s t := by
  induction n generalizing s with
  | zero => cases e; exact .refl _ _
  | succ n ih =>
    obtain ⟨⟨st, m⟩, hst, e⟩ := bind_eq_ok.1 e
    refine (sampleStatus_loadWorks hst).trans ?_
    simp only at e
    split at e
    · cases e; exact setLdState_loadWorks _ _ _
    · obtain ⟨m2, hdelay, e⟩ := bind_eq_ok.1 e
      exact (delayMicros_loadWorks hdelay).trans (ih e)

/-- The overlay of one byte for the last transfer changes memory alone, and is taken back. -/
theorem transferWith_unitOnly {a : Nat} {v : Byte} {u : BusUnit} {sid : Nat} {d : Desc} {s t : State}
    {r : OpResult} (e : transferWith a v u sid d s = .ok (r, t)) : UnitOnly u s t := by
  obtain ⟨⟨r', m⟩, htr, e⟩ := bind_eq_ok.1 e
  cases e
  obtain ⟨⟨hb, hr, hm⟩, hl⟩ := transferOp_unitOnly htr
  exact ⟨⟨hb, hr, hm⟩, hl⟩

theorem lastTransfer_loadWorks {h sid src len pos : Nat} {s t : State} {x : Streamed}
    (e : lastTransfer h sid src len pos s = .ok (x, t)) : LoadWorks h s t := by
  obtain ⟨⟨r, m⟩, htr, e⟩ := bind_eq_ok.1 e
  have hpad : LoadWorks h s (drawPad s).2 := .of_same rfl rfl rfl rfl
  refine (hpad.trans (transferWith_unitOnly htr).loadWorks).trans ?_
  simp only at e
  split at e
  · exact stopStream_abort_loadWorks e
  · cases e; exact .refl _ _

theorem stream_loadWorks {h sid src len k pos : Nat} {s t : State} {x : Streamed}
    (e : stream h sid src len k pos s = .ok (x, t)) : LoadWorks h s t := by
  induction k generalizing pos s with
  | zero =>
    obtain ⟨⟨st, m⟩, hst, e⟩ := bind_eq_ok.1 e
    refine (sampleStatus_loadWorks hst).trans ?_
    simp only at e
    split at e
    · exact lastTransfer_loadWorks e
    · exact stopStream_abort_loadWorks e
  | succ k ih =>
    obtain ⟨⟨st, m⟩, hst, e⟩ := bind_eq_ok.1 e
    refine (sampleStatus_loadWorks hst).trans ?_
    simp only at e
    split at e
    · obtain ⟨⟨r, m2⟩, htr, e⟩ := bind_eq_ok.1 e
      refine (transferOp_unitOnly htr).loadWorks.trans ?_
      simp only at e
      split at e
      · exact stopStream_abort_loadWorks e
      · exact ih e
    · exact stopStream_abort_loadWorks e

theorem settleSamples_loadWorks {h : Nat} {x : Option Settled} {s t : State}
    (e : settleSamples h s = .ok (x, t)) : LoadWorks h s t := by
  obtain ⟨⟨st, m⟩, hst, e⟩ := bind_eq_ok.1 e
  refine (sampleStatus_loadWorks hst).trans ?_
  simp only at e
  split at e
  · obtain ⟨⟨dn, m2⟩, hdn, e⟩ := bind_eq_ok.1 e
    cases e; exact sampleDone_loadWorks hdn
  · cases e; exact .refl _ _

theorem readNow_loadWorks (h : Nat) (s : State) : LoadWorks h s (readNow s).2 := .of_same rfl rfl rfl rfl

theorem settleRounds_loadWorks {h t0 k : Nat} {x : Settled} {s t : State}
    (e : settleRounds h t0 k s = .ok (x, t)) : LoadWorks h s t := by
  induction k generalizing s with
  | zero =>
    obtain ⟨⟨y, m⟩, hround, e⟩ := bind_eq_ok.1 e
    refine (settleSamples_loadWorks hround).trans ?_
    simp only at e
    split at e
    · cases e; exact .refl _ _
    · cases e; exact .of_same rfl rfl rfl rfl
  | succ k ih =>
    obtain ⟨⟨y, m⟩, hround, e⟩ := bind_eq_ok.1 e
    refine (settleSamples_loadWorks hround).trans ?_
    simp only at e
    split at e
    · cases e; exact .refl _ _
    · split at e
      · cases e; exact readNow_loadWorks h m
      · exact (readNow_loadWorks h m).trans (ih e)

theorem doneWait_loadWorks {h : Nat} {x : Settled} {s t : State} (e : doneWait h s = .ok (x, t)) : LoadWorks h s t :=
  have hstart : LoadWorks h s (drawRounds (readNow s).2).2 := .of_same rfl rfl rfl rfl
  hstart.trans (settleRounds_loadWorks e)

theorem finishLoad_loadWorks {h sid : Nat} {len : Word} {s t : State} {r : OpResult}
    (e : finishLoad h sid len s = .ok (r, t)) : LoadWorks h s t := by
  obtain ⟨⟨r', m⟩, hrel, e⟩ := bind_eq_ok.1 e
  obtain ⟨⟨x, m2⟩, hwait, e⟩ := bind_eq_ok.1 e
  refine (((releaseOp_unitOnly hrel).loadWorks.trans (setLdState_loadWorks h .awaitingDone m)).trans
    (doneWait_loadWorks hwait)).trans ?_
  simp only at e
  split at e
  · obtain ⟨m3, hdiag, e⟩ := bind_eq_ok.1 e
    cases e
    exact (setLdState_loadWorks _ _ _).trans (diag_loadWorks hdiag)
  · exact fail_loadWorks e

theorem runLoad_loadWorks {h sid src : Nat} {len : Word} {s t : State} {r : OpResult}
    (e : runLoad h sid src len s = .ok (r, t)) : LoadWorks h s t := by
  obtain ⟨m, hpulse, e⟩ := bind_eq_ok.1 e
  obtain ⟨⟨risen, m2⟩, hwait, e⟩ := bind_eq_ok.1 e
  refine (((setLdState_loadWorks h .resetting s).trans (resetPulse_loadWorks hpulse)).trans
    (statusWait_loadWorks hwait)).trans ?_
  simp only at e
  split at e
  · obtain ⟨⟨x, m3⟩, hstream, e⟩ := bind_eq_ok.1 e
    refine (stream_loadWorks hstream).trans ?_
    simp only at e
    split at e
    · exact finishLoad_loadWorks e
    · cases e; exact .refl _ _
  · exact releaseAndFail_loadWorks e

theorem enterIdle_loadWorks (h : Nat) (s : State) : LoadWorks h s (enterIdle h s) := setHandle_loadWorks rfl

theorem ldWriteOp_loadWorks {h src : Nat} {len : Word} {s t : State} {r : OpResult}
    (e : ldWriteOp h src len s = .ok (r, t)) : LoadWorks h s t := by
  obtain ⟨⟨x, m⟩, hclaim, e⟩ := bind_eq_ok.1 e
  refine ((enterIdle_loadWorks h s).trans (claimOp_unitOnly hclaim).loadWorks).trans ?_
  simp only at e
  split at e
  · exact runLoad_loadWorks e
  · exact fail_loadWorks e
  · cases e; exact .refl _ _

/-! ## The instructions of the loader -/

/-- The loader's operations but `ld.write` leave the units and the handles as they are (44_loader R261 to R265). -/
theorem exec_loader_same {i : Instr} {s t : State} (hu : instrUnit i = none)
    (hw : ∀ h o src len, i ≠ .ldWrite o src len h) (h : exec i s = .next t) :
    t.bb = s.bb ∧ t.rc = s.rc ∧ t.mf = s.mf ∧ t.ld = s.ld := by
  cases i <;> cases hu
  case ldWrite o src len k => exact absurd rfl (hw k o src len)
  case ldRead => cases (onHandle_eq_next.1 h).2; rw [storeBytes_eq]; exact ⟨rfl, rfl, rfl, rfl⟩
  case ldErase | ldSync | ldLock | ldUnlock => cases (onHandle_eq_next.1 h).2; exact ⟨rfl, rfl, rfl, rfl⟩

theorem execLdWrite_loadWorks {o len : Word} {src h : Nat} {s t : State}
    (e : exec (.ldWrite o src len h) s = .next t) : LoadWorks h s t := by
  obtain ⟨r, m, hm, rfl⟩ := finish_eq_next.1 (onHandle_eq_next.1 e).2
  exact (ldWriteOp_loadWorks hm).trans (.of_same rfl rfl rfl rfl)

/-- An instruction that names a handle is the loader's. -/
theorem instrUnit_of_instrHandle {i : Instr} {h : Nat} (hh : instrHandle i = some h) : instrUnit i = none := by
  cases i <;> cases hh <;> rfl

/-- Every operation of the loader is a piece of a load on the handle it names. -/
theorem exec_loadWorks {i : Instr} {h : Nat} {s t : State} (hh : instrHandle i = some h) (e : exec i s = .next t) :
    LoadWorks h s t := by
  by_cases hw : ∃ k o src len, i = .ldWrite o src len k
  · obtain ⟨k, o, src, len, rfl⟩ := hw
    cases hh
    exact execLdWrite_loadWorks e
  · obtain ⟨hb, hr, hm, hl⟩ := exec_loader_same (instrUnit_of_instrHandle hh)
      (fun k o src len hi => hw ⟨k, o, src, len, hi⟩) e
    exact .of_same hb hr hm hl

/-- Settles O13: an instruction of a unit stays within it, and each piece of a load within its handle and the unit of
that handle. -/
theorem otherUnitsUntouched : Obligations.OtherUnitsUntouched := by
  unfold Obligations.OtherUnitsUntouched
  intro i s t e
  refine ⟨fun u hu => ?_, fun h hh => ?_, fun hu hw => exec_loader_same hu hw e⟩
  · obtain ⟨⟨hb, hr, hm⟩, hl⟩ := exec_unitOnly hu e
    exact ⟨hl, hb, hr, hm⟩
  · obtain ⟨-, hothers, ⟨hb, hr, hm⟩⟩ := exec_loadWorks hh e
    exact ⟨hothers, hb, hr, hm⟩

end Sys2Proof.Machine
end

section
/-! PROOFS. What every step of the machine keeps (spec 10_state R43 to R46, 60_exceptions R287, R295): the invariant
holds after reset, and a step evolves the state from which the host's next step has been taken. -/

namespace Sys2Proof.Machine

/-! ## The invariant after reset -/

/-- 10_state R44: every channel is as a channel after reset. -/
theorem reset_chan (c : Nat) : RcBus.reset.chan c = Channel.reset c := by
  by_cases h : c < Config.nchanDefault
  · simp [RcBus.chan, RcBus.reset, h]
  · exact chan_of_not_channel (by simpa [RcBus.nchan, RcBus.reset] using h)

theorem channelReset_sound (c : Nat) : (Channel.reset c).Sound where
  conf := BitVec.zero_and
  ctrl := BitVec.zero_and
  word := Bool.noConfusion

theorem channelReset_not_active (c : Nat) : (Channel.reset c).active = false := by
  simp [Channel.active, Channel.force, Channel.reset]

theorem rcReset_sound : RcBus.reset.Sound where
  chan c _ := reset_chan c ▸ channelReset_sound c
  one a _ _ _ ha := by simp [reset_chan, channelReset_not_active] at ha

theorem mfReset_sound (fifo : Nat) : (MfBus.reset).Sound fifo where
  select := .inl rfl
  queue := Nat.zero_le _
  mode := BitVec.zero_and

/-- A bus that nobody has claimed is sound. -/
theorem busRec_sound_of_free {u : BusUnit} {nchan : Nat} {b : BusRec} (h : b.cur = none) : b.Sound u nchan := by
  intro S hS
  simp [h] at hS

/-- Settles O9: after reset memory is empty, every register 0, and no bus claimed. -/
theorem resetInv : Obligations.ResetInv where
  mem := rfl
  rc := rcReset_sound
  mf := mfReset_sound _
  bbBus := busRec_sound_of_free rfl
  rcBus := busRec_sound_of_free rfl
  mfBus := busRec_sound_of_free rfl

/-! ## A step evolves the state -/

/-- What evolves does so whatever stands in the host's queue. -/
theorem Evolves.requeue {rep : Bool} {s t : State} (h : Evolves rep s t) (q : List HostAct) :
    Evolves rep { s with queue := q } { t with queue := q } where
  params := h.params
  profile := h.profile
  targets := ⟨h.targets.length, h.targets.each⟩
  now := h.now
  traced := ⟨h.nchan, h.traced.selects⟩
  queue := rfl
  mark := h.mark
  inv hi := queue_inv (h.inv (queue_inv (s := { s with queue := q }) (q := s.queue) hi))

/-- Whatever a step does: the host's next step leaves the queue, and the rest evolves (00_scope R14). -/
theorem step_evolves {s t : State} (h : step s = .next t) : Evolves true { s with queue := s.queue.tail } t := by
  obtain ⟨-, m, hgap, hrun⟩ := step_cases h
  have gap : Evolves true s m := shifterGap_evolves hgap
  refine (gap.requeue _).trans ?_
  rw [← gap.queue]
  rcases hrun with ⟨hq, rfl⟩ | ⟨a, bs, rest, hq, rfl⟩ | ⟨x, rest, i, hq, -, hexec⟩
  · have hwait : { t with queue := t.queue.tail } = t := by rw [hq, List.tail_nil, ← hq]
    rw [hwait]
    exact .refl t
  · rw [hq]
    exact storeBytes_evolves a bs _
  · rw [hq]
    exact (exec_evolves hexec).repeating

/-- Settles O10: the invariant says nothing of the queue, and what evolves keeps it. -/
theorem stepKeepsInv : Obligations.StepKeepsInv := by
  unfold Obligations.StepKeepsInv
  intro s t hinv hstep
  exact (step_evolves hstep).inv (queue_inv hinv)

/-- Settles O11: what evolves keeps the inputs, and of the queue a step takes the head. -/
theorem stepKeepsInputs : Obligations.StepKeepsInputs := by
  unfold Obligations.StepKeepsInputs
  intro s t hstep
  have e := step_evolves hstep
  exact ⟨e.params, e.nchan, e.profile, e.targets.length, e.targets.each, e.now, e.mark, e.queue, e.trace⟩

end Sys2Proof.Machine
end

section
/-! PROOFS. Host memory (spec 20_memory R61 to R65): the canonical form is unique, and a buffer as a stream of bits, of
elements, and as BB sends it (R63). -/

namespace Sys2Proof.Machine

/-! ## The canonical form (R61) -/

theorem readByte_cons_same (k : Nat) (v : Byte) (m : Memory) : readByte ((k, v) :: m) k = v := by
  simp [readByte]

theorem readByte_cons_lt {a k : Nat} (h : a < k) (v : Byte) (m : Memory) :
    readByte ((k, v) :: m) a = Config.memDefault := by
  simp [readByte, h]

/-- Without its first entry a memory reads the same but at that entry's address, where it reads the default. -/
theorem readByte_tail {k : Nat} {v : Byte} {m : Memory} (hw : Memory.wf ((k, v) :: m) = true) (a : Nat) :
    readByte m a = if a = k then Config.memDefault else readByte ((k, v) :: m) a := by
  obtain ⟨-, hb, -⟩ := wf_cons.1 hw
  rcases Nat.lt_trichotomy a k with h | rfl | h
  · rw [if_neg (by omega), readByte_cons_lt h, readByte_of_belowFirst (belowFirst_trans h hb)]
  · rw [if_pos rfl, readByte_of_belowFirst hb]
  · simp [readByte, show ¬ a < k by omega, show a ≠ k by omega]

/-- The first entry of a memory is not below the first of another that reads as it does. -/
theorem first_le_of_readByte_eq {k k' : Nat} {v v' : Byte} {m m' : Memory} (hw : Memory.wf ((k, v) :: m) = true)
    (h : ∀ a, readByte ((k, v) :: m) a = readByte ((k', v') :: m') a) : k' ≤ k := by
  by_contra hlt
  have e := h k
  rw [readByte_cons_same, readByte_cons_lt (Nat.lt_of_not_le hlt)] at e
  exact (wf_cons.1 hw).1 e

theorem eq_nil_of_readByte_default {m : Memory} (hw : Memory.wf m = true)
    (h : ∀ a, readByte m a = Config.memDefault) : m = [] := by
  cases m with
  | nil => rfl
  | cons x m => exact absurd ((readByte_cons_same x.1 x.2 m).symm.trans (h x.1)) (wf_cons.1 hw).1

/-- Memories in canonical form that read the same everywhere are equal. -/
theorem memory_ext {m m' : Memory} (hw : Memory.wf m = true) (hw' : Memory.wf m' = true)
    (h : ∀ a, readByte m a = readByte m' a) : m = m' := by
  induction m generalizing m' with
  | nil => exact (eq_nil_of_readByte_default hw' fun a => (h a).symm).symm
  | cons x m ih =>
    obtain ⟨k, v⟩ := x
    cases m' with
    | nil => exact eq_nil_of_readByte_default hw h
    | cons y m' =>
      obtain ⟨k', v'⟩ := y
      obtain rfl : k = k' :=
        Nat.le_antisymm (first_le_of_readByte_eq hw' fun a => (h a).symm) (first_le_of_readByte_eq hw h)
      obtain rfl : v = v' := by simpa only [readByte_cons_same] using h k
      have htail : m = m' := ih (wf_cons.1 hw).2.2 (wf_cons.1 hw').2.2 fun a => by
        rw [readByte_tail hw, readByte_tail hw', h a]
      rw [htail]

/-- Settles O15: the laws of `writeByte`, and that the canonical form is determined by what it reads. -/
theorem memoryLaws : Obligations.MemoryLaws := by
  unfold Obligations.MemoryLaws
  exact ⟨fun m a v hw => ⟨writeByte_wf hw a v, readByte_writeByte_same hw a v,
    fun b hne => readByte_writeByte_other hw hne v⟩, fun m m' hw hw' h => memory_ext hw hw' h⟩

/-! ## A buffer as a stream (R62, R63, R65) -/

theorem outBit_some (a : Nat) (lsb : Bool) (m : Memory) (k : Nat) :
    outBit (some a) lsb m k = (readByte m (a + k / 8)).getLsbD (bitPos lsb k) := rfl

/-- An element's bits, the first of the stream the most significant, and zeros above them (R65). -/
theorem outElem_getLsbD (out : Option Nat) (lsb : Bool) (m : Memory) {w : Nat} (hw : w ≤ 32) (i q : Nat) :
    (outElem out lsb m w i).getLsbD q = (decide (q < w) && outBit out lsb m (i * w + (w - 1 - q))) := by
  by_cases hq : q < 32
  · rw [outElem, gatherBits_getLsbD _ _ _ _ hq]
    by_cases hqw : q < w <;> simp [hqw]
  · rw [BitVec.getLsbD_of_ge _ q (Nat.le_of_not_lt hq)]
    simp [show ¬ q < w by omega]

/-- A byte sent bit 7 first as one element of a word length of 8 is the byte (R62). -/
theorem outElem_byte_msb (a : Nat) (m : Memory) (i : Nat) :
    outElem (some a) false m 8 i = (readByte m (a + i)).setWidth 32 := by
  apply BitVec.eq_of_getLsbD_eq
  intro q hq
  rw [outElem_getLsbD _ _ _ (by decide), BitVec.getLsbD_setWidth]
  by_cases h : q < 8
  · have hbyte : (i * 8 + (8 - 1 - q)) / 8 = i := by omega
    have hbit : bitPos false (i * 8 + (8 - 1 - q)) = q := by
      show 7 - (i * 8 + (8 - 1 - q)) % 8 = q
      omega
    rw [outBit_some, hbyte, hbit]
    simp [h, hq]
  · rw [BitVec.getLsbD_of_ge (readByte m (a + i)) q (by omega)]
    simp [h]

/-- Settles O42: an element is gathered from its stream bits, and a byte's stream bits are its own in either order. -/
theorem streamBits : Obligations.StreamBits := by
  unfold Obligations.StreamBits
  refine ⟨fun a m k => ⟨rfl, rfl, fun _ => rfl⟩, fun out l m w i hw => ⟨fun j hj => ?_, fun q hq => ?_⟩,
    fun a m i => ⟨outElem_byte a m i, outElem_byte_msb a m i⟩⟩
  · rw [outElem_getLsbD _ _ _ hw, show w - 1 - (w - 1 - j) = j by omega]
    simp [show w - 1 - j < w by omega]
  · rw [outElem_getLsbD _ _ _ hw]
    simp [Nat.not_lt.2 hq]

/-! ## A transfer of BB (41_bitbang R160) -/

/-- Whether a transfer skips its samples (41_bitbang R159): it depends on the draws, not on the order of the bits. -/
def skipsSamples (S : Session) (d : Desc) (e : Env) : Bool :=
  d.out.isSome && d.inp.isNone && (!S.cpha || e.fast.answer Config.freeFast 0)

theorem chooseFast_fst (S : Session) (d : Desc) (s : State) : (chooseFast S d s).1 = skipsSamples S d s.env := by
  unfold chooseFast skipsSamples
  rw [← next_eq_answer]
  cases d.out.isSome && d.inp.isNone <;> cases S.cpha <;> rfl

/-- The events of a transfer of BB from memory `m`, under a profile and the draws still to come. -/
def bbTransferEvents (S : Session) (d : Desc) (p : BusProfile) (m : Memory) (e : Env) : List PinEvent :=
  whenSet d.flags.begins (bbBeginEvents S p) ++
    whenSet (exchanges d) (cellsEvents S (outBit d.out d.flags.lsb m)
      (fun k => if skipsSamples S d e then none else some (e.miso.answer Config.freeMiso k)) d.n.toNat 0) ++
    whenSet d.flags.ends (bbEndEvents S p)

/-- A legal transfer of BB: its result and its trace. -/
theorem exec_bbTransfer {sid : Nat} {S : Session} {d : Desc} {s : State} (hl : Live .bb sid S s) (hd : Legal .bb S d)
    (hw : Memory.wf s.mem = true) :
    ∃ t, exec (.bbTransfer sid d) s = .next t ∧ t.result = some (transferResult d) ∧
      t.trace = s.trace ++ pins (bbTransferEvents S d s.bb.bus.profile s.mem s.env) := by
  obtain ⟨a, ha, amem, aenv, aprof, atrace⟩ : ∃ a, (if d.flags.begins then bbBegin S s else s) = a ∧ a.mem = s.mem ∧
      a.env = s.env ∧ a.bb.bus.profile = s.bb.bus.profile ∧
      a.trace = s.trace ++ pins (whenSet d.flags.begins (bbBeginEvents S s.bb.bus.profile)) := by
    cases d.flags.begins with
    | false => exact ⟨s, rfl, rfl, rfl, rfl, by simp [whenSet]⟩
    | true => exact ⟨bbBegin S s, rfl, by rw [bbBegin_spec], by rw [bbBegin_spec], by rw [bbBegin_spec],
        by rw [bbBegin_spec]; rfl⟩
  obtain ⟨b, hb, bprof, btrace⟩ : ∃ b, (if exchanges d then bbExchange S d a else a) = b ∧
      b.bb.bus.profile = a.bb.bus.profile ∧
      b.trace = a.trace ++ pins (whenSet (exchanges d) (cellsEvents S (outBit d.out d.flags.lsb s.mem)
        (fun k => if skipsSamples S d s.env then none else some (s.env.miso.answer Config.freeMiso k))
        d.n.toNat 0)) := by
    cases exchanges d with
    | false => exact ⟨a, rfl, rfl, by simp [whenSet]⟩
    | true =>
      have ex := bbExchange_spec (S := S) (d := d) (s := a) (amem ▸ hw) hd.buffers
      rw [chooseFast_fst] at ex
      exact ⟨_, rfl, by rw [if_pos rfl, ex.bb], by rw [if_pos rfl, ex.trace, amem, aenv]; rfl⟩
  obtain ⟨c, hc, ctrace⟩ : ∃ c, (if d.flags.ends then bbEnd S b else b) = c ∧
      c.trace = b.trace ++ pins (whenSet d.flags.ends (bbEndEvents S b.bb.bus.profile)) := by
    cases d.flags.ends with
    | false => exact ⟨b, rfl, by simp [whenSet]⟩
    | true => exact ⟨bbEnd S b, rfl, by rw [bbEnd_spec]; rfl⟩
  have hrun : bbTransferOp sid d s = .ok (transferResult d, c) := by
    rw [bbTransferOp, checkedTransfer_legal hl hd]
    simp only [bbTransferBody, ha, hb, hc]
  refine ⟨{ c with result := some (transferResult d) }, congrArg finish hrun, rfl, ?_⟩
  show c.trace = _
  rw [ctrace, btrace, atrace, bprof, aprof]
  simp only [bbTransferEvents, pins_append, List.append_assoc]

/-- Stream bit `k` of a buffer bit 0 first is that of the reversed bytes bit 7 first (R63). -/
theorem outBit_reversed {a : Nat} {m m' : Memory} {k : Nat}
    (h : readByte m' (a + k / 8) = rev8 (readByte m (a + k / 8))) :
    outBit (some a) false m' k = outBit (some a) true m k := by
  have hrev : ∀ (b : Byte) (p : Nat), p < 8 → (rev8 b).getLsbD (7 - p) = b.getLsbD p := fun b p hp => by
    rw [rev8, BitVec.getLsbD_reverse, BitVec.getMsbD]
    simp [show 7 - p < 8 by omega, show 7 - (7 - p) = p by omega]
  rw [outBit_some, outBit_some, h]
  exact hrev _ _ (Nat.mod_lt k (by decide))

/-- Settles O32: the two transfers have the same events, for the cells carry the same bits. -/
theorem bbLsbFirstReversed : Obligations.BbLsbFirstReversed := by
  unfold Obligations.BbLsbFirstReversed
  intro s sid S d a m hl hd hlsb hout hw hwm hrev
  have hd' : Legal .bb S { d with flags := { d.flags with lsb := false } } :=
    ⟨hd.wordlen, (fun h => by cases h), (fun _ h => by cases h), hd.words, hd.bytes, hd.buffers⟩
  obtain ⟨t, ht, htr, htt⟩ := exec_bbTransfer hl hd hw
  obtain ⟨t', ht', htr', htt'⟩ := exec_bbTransfer (s := { s with mem := m }) hl hd' hwm
  refine ⟨t, t', ht, ht', ?_, htr'.trans htr.symm⟩
  have hcells : ∀ i, cellsEvents S (outBit d.out false m) i d.n.toNat 0 =
      cellsEvents S (outBit d.out d.flags.lsb s.mem) i d.n.toNat 0 := fun i => by
    refine cellsEvents_congr (fun k _ hk => ?_) fun _ _ _ => rfl
    rw [hout, hlsb]
    exact outBit_reversed (hrev _ (by unfold byteLen; omega))
  have hevents : bbTransferEvents S { d with flags := { d.flags with lsb := false } } s.bb.bus.profile m s.env =
      bbTransferEvents S d s.bb.bus.profile s.mem s.env := by
    unfold bbTransferEvents
    exact congrArg (fun x => _ ++ whenSet (exchanges d) x ++ _) (hcells _)
  rw [htt', htt]
  exact congrArg (fun x => s.trace ++ pins x) hevents

end Sys2Proof.Machine
end

section
/-! PROOFS. Accesses of the register windows (spec 30_encoding R98, R99, 20_memory R69, 43_mmfifo R231): an access
decodes by the register its key names, and under the layout of `opcode_table.json` the keys that name a register are
those of the tables. -/

namespace Sys2Proof

open Sys2Proof.Machine (ok_bind)

/-! ## An access decodes by its register -/

/-- An RC access of another width than 32 bits, or whose key names no register, is unmapped. -/
theorem decode_rcWindow_unmapped {L : Config.Layout} {w off : Nat} {wr : Bool} (ho : off < 0x1000)
    (h : w = 32 → rcOfKey L (keyOf wr off) = none) (bs : List Byte) :
    decode L (.rcWindow w) (leBytes 2 (keyOf wr off) ++ bs) = .error .unmappedAccess := by
  simp only [decode, decodeRc, takeKey_keyOf ho, ok_bind]
  by_cases hw : w = 32
  · simp [hw, h hw]
  · simp [hw]

theorem decode_rcWindow_read {L : Config.Layout} {off : Nat} {g : RcReg} (ho : off < 0x1000)
    (h : rcOfKey L (keyOf false off) = some (false, g)) (bs : List Byte) :
    decode L (.rcWindow 32) (leBytes 2 (keyOf false off) ++ bs) = .ok (rcReadInstr g, bs) := by
  simp [decode, decodeRc, takeKey_keyOf ho, h]

theorem decode_rcWindow_write {L : Config.Layout} {off : Nat} {g : RcReg} (ho : off < 0x1000)
    (h : rcOfKey L (keyOf true off) = some (true, g)) (v : Word) (bs : List Byte) :
    decode L (.rcWindow 32) (leBytes 2 (keyOf true off) ++ (leBytes 4 v.toNat ++ bs)) = .ok (rcWriteInstr v g, bs) := by
  simp [decode, decodeRc, takeKey_keyOf ho, h]

/-- An MF access whose key names no register of its width is unmapped. -/
theorem decode_mfWindow_unmapped {L : Config.Layout} {w off : Nat} {wr : Bool} (ho : off < 0x1000)
    (h : ∀ d g, mfOfKey L.mf (keyOf wr off) = some (d, g) → w ≠ mfWidth g) (bs : List Byte) :
    decode L (.mfWindow w) (leBytes 2 (keyOf wr off) ++ bs) = .error .unmappedAccess := by
  simp only [decode, decodeMf, takeKey_keyOf ho, ok_bind]
  cases hk : mfOfKey L.mf (keyOf wr off) with
  | none => rfl
  | some x => simp [h x.1 x.2 hk]

theorem decode_mfWindow_read {L : Config.Layout} {w off : Nat} {g : MfReg} {i : Instr} (hw : mfWidth g = w)
    (ho : off < 0x1000) (h : mfOfKey L.mf (keyOf false off) = some (false, g)) (hi : mfReadInstr g = some i)
    (bs : List Byte) : decode L (.mfWindow w) (leBytes 2 (keyOf false off) ++ bs) = .ok (i, bs) := by
  subst hw
  simp [decode, decodeMf, takeKey_keyOf ho, h, hi, orUnmapped]

theorem decode_mfWindow_write {L : Config.Layout} {w off v : Nat} {g : MfReg} {i : Instr} (hw : mfWidth g = w)
    (ho : off < 0x1000) (h : mfOfKey L.mf (keyOf true off) = some (true, g)) (hv : v < 256 ^ (w / 8))
    (hi : mfWriteInstr (BitVec.ofNat 32 v) g = some i) (bs : List Byte) :
    decode L (.mfWindow w) (leBytes 2 (keyOf true off) ++ (leBytes (w / 8) v ++ bs)) = .ok (i, bs) := by
  subst hw
  simp [decode, decodeMf, takeKey_keyOf ho, h, takeLe_leBytes_lt hv, hi, orUnmapped]

/-! ## The windows of the table's layout -/

theorem legal_layout : legalLayout Config.layout = true := by decide

/-- Every aligned offset of the RC window names a register (R98). -/
theorem rcOfKey_layout {off : Nat} (h4 : off % 4 = 0) (hoff : off < 0x7C) (wr : Bool) :
    ∃ g, rcOfKey Config.layout (keyOf wr off) = some (wr, g) := by
  by_cases hs : off < 0x2C
  · have hoff' : rcOff Config.layout.rc (.shared (off / 4)) = off := by
      show 0 + 4 * (off / 4) = off
      omega
    exact ⟨_, hoff' ▸ rcOfKey_shared legal_layout (decide_eq_true (show off / 4 < 11 by omega)) wr⟩
  · obtain ⟨c, hc, hcases⟩ : ∃ c, c < 4 ∧ (0x2C + 0x14 * c + 0x00 = off ∨ 0x2C + 0x14 * c + 0x04 = off ∨
        0x2C + 0x14 * c + 0x08 = off ∨ 0x2C + 0x14 * c + 0x0C = off ∨ 0x2C + 0x14 * c + 0x10 = off) :=
      ⟨(off - 0x2C) / 0x14, by omega, by omega⟩
    have named : ∀ g, (g = .conf c ∨ g = .stat c ∨ g = .ctrl c ∨ g = .tx c ∨ g = .rx c) →
        rcOff Config.layout.rc g = off → ∃ g, rcOfKey Config.layout (keyOf wr off) = some (wr, g) :=
      fun g hg he => ⟨g, he ▸ rcOfKey_channel legal_layout (mem_rcRegs.2 ⟨c, hc, hg⟩) wr⟩
    rcases hcases with h | h | h | h | h
    · exact named (.conf c) (by simp) h
    · exact named (.stat c) (by simp) h
    · exact named (.ctrl c) (by simp) h
    · exact named (.tx c) (by simp) h
    · exact named (.rx c) (by simp) h

/-- No other offset does. -/
theorem rcOfKey_layout_none {off : Nat} (ho : off < 0x1000) (h : off % 4 ≠ 0 ∨ 0x7C ≤ off) (wr : Bool) :
    rcOfKey Config.layout (keyOf wr off) = none := by
  cases hk : rcOfKey Config.layout (keyOf wr off) with
  | none => rfl
  | some x =>
    obtain ⟨d, g⟩ := x
    obtain ⟨hkey, hg⟩ := rcOfKey_ok legal_layout (keyOf_lt wr ho) hk
    have channel : ∀ c k, chanOk Config.layout c = true → k % 4 = 0 ∧ k < 0x14 →
        (0x2C + 0x14 * c + k) % 4 = 0 ∧ 0x2C + 0x14 * c + k < 0x7C := fun c k hc hk => by
      have hc : c < 4 := of_decide_eq_true hc
      omega
    have place : rcOff Config.layout.rc g % 4 = 0 ∧ rcOff Config.layout.rc g < 0x7C := by
      cases g with
      | shared j =>
        have hj : j < 11 := of_decide_eq_true hg
        show (0 + 4 * j) % 4 = 0 ∧ 0 + 4 * j < 0x7C
        omega
      | conf c => exact channel c 0x00 hg (by decide)
      | stat c => exact channel c 0x04 hg (by decide)
      | ctrl c => exact channel c 0x08 hg (by decide)
      | tx c => exact channel c 0x0C hg (by decide)
      | rx c => exact channel c 0x10 hg (by decide)
    have hoff := ((keyOf_inj ho (Nat.lt_trans place.2 (by decide))).1 hkey).2
    omega

/-- The offset of a command register of MF (10_state R36). -/
theorem mfOff_layout_command {g : MfReg} (hg : g ∈ mfCommands) :
    mfWidth g = 32 ∧ mfOff Config.layout.mf g % 4 = 0 ∧ 0x100 ≤ mfOff Config.layout.mf g ∧
      mfOff Config.layout.mf g < 0x120 ∧ mfOff Config.layout.mf g ≠ 0x118 := by
  revert g
  decide

/-- Every other aligned offset beside `RDBYTE` is one of a command register. -/
theorem exists_mfCommand {off : Nat} (h4 : off % 4 = 0) (hlo : 0x100 ≤ off) (hhi : off < 0x120) (hne : off ≠ 0x118) :
    ∃ g, g ∈ mfCommands ∧ mfOff Config.layout.mf g = off := by
  have hcases : off = 0x100 ∨ off = 0x104 ∨ off = 0x108 ∨ off = 0x10C ∨ off = 0x110 ∨ off = 0x114 ∨ off = 0x11C := by
    omega
  rcases hcases with rfl | rfl | rfl | rfl | rfl | rfl | rfl
  · exact ⟨.busctl, by decide, rfl⟩
  · exact ⟨.cs0, by decide, rfl⟩
  · exact ⟨.cs1, by decide, rfl⟩
  · exact ⟨.speed, by decide, rfl⟩
  · exact ⟨.mode, by decide, rfl⟩
  · exact ⟨.wrbyte, by decide, rfl⟩
  · exact ⟨.read, by decide, rfl⟩

/-- What a key of the MF window names, it names in its own direction, at the place and of the width R36 and R99 give. -/
theorem mfOfKey_layout_ok {off : Nat} {wr d : Bool} {g : MfReg} (ho : off < 0x1000)
    (h : mfOfKey Config.layout.mf (keyOf wr off) = some (d, g)) :
    (wr = true ∧ mfWidth g = 16 ∧ off < 0x100 ∧ off % 2 = 0) ∨
    (wr = true ∧ mfWidth g = 32 ∧ off % 4 = 0 ∧ 0x100 ≤ off ∧ off < 0x120 ∧ off ≠ 0x118) ∨
    (wr = false ∧ mfWidth g = 32 ∧ off = 0x118) ∨
    (wr = false ∧ mfWidth g = 16 ∧ 0x200 ≤ off ∧ off < 0x300 ∧ off % 2 = 0) := by
  obtain ⟨hkey, hg⟩ := mfOfKey_ok legal_layout (keyOf_lt wr ho) h
  have same : ∀ off', mfOff Config.layout.mf g = off' → off' < 0x1000 → wr = d ∧ off = off' := fun off' he hl =>
    (keyOf_inj ho hl).1 (he ▸ hkey)
  rcases hg with ⟨o, hw, ⟨rfl, rfl⟩ | ⟨rfl, rfl⟩⟩ | ⟨rfl, hc⟩ | ⟨rfl, rfl⟩
  · obtain ⟨heven, hlt⟩ := fifoOffOk_iff.1 hw
    replace hlt : o < 0x100 := hlt
    obtain ⟨rfl, rfl⟩ := same o (Nat.zero_add o) (by omega)
    exact .inl ⟨rfl, rfl, hlt, heven⟩
  · obtain ⟨heven, hlt⟩ := fifoOffOk_iff.1 hw
    replace hlt : o < 0x100 := hlt
    obtain ⟨rfl, rfl⟩ := same (0x200 + o) rfl (by omega)
    exact .inr (.inr (.inr ⟨rfl, rfl, by omega, by omega, by omega⟩))
  · obtain ⟨h32, h4, hlo, hhi, hne⟩ := mfOff_layout_command hc
    obtain ⟨rfl, rfl⟩ := same _ rfl (by omega)
    exact .inr (.inl ⟨rfl, h32, h4, hlo, hhi, hne⟩)
  · obtain ⟨rfl, rfl⟩ := same 0x118 rfl (by decide)
    exact .inr (.inr (.inl ⟨rfl, rfl, rfl⟩))

theorem fifoOffOk_layout {o : Nat} (h : o < 0x100) (he : o % 2 = 0) : fifoOffOk Config.layout o = true :=
  fifoOffOk_iff.2 ⟨he, h⟩

/-- Settles O6: by the register the key of an access names. -/
theorem unmappedAccesses : Obligations.UnmappedAccesses := by
  unfold Obligations.UnmappedAccesses
  refine ⟨?rcUnmapped, ?rcMapped, ?mfUnmapped, ?txfifo, ?command, ?rdbyte, ?rxfifo⟩
  case rcUnmapped =>
    intro w off wr bs ho h
    refine decode_rcWindow_unmapped ho (fun hw => rcOfKey_layout_none ho ?_ wr) bs
    exact h.resolve_left (not_not_intro hw)
  case rcMapped =>
    intro off wr v bs h4 hoff
    obtain ⟨g, hg⟩ := rcOfKey_layout h4 hoff wr
    rw [List.append_assoc]
    cases wr with
    | false => exact ⟨_, _, decode_rcWindow_read (by omega) hg _⟩
    | true => exact ⟨_, _, decode_rcWindow_write (by omega) hg v bs⟩
  case mfUnmapped =>
    intro w off wr bs ho htx hcmd hrd hrx
    refine decode_mfWindow_unmapped ho (fun d g hk hw => ?_) bs
    subst hw
    rcases mfOfKey_layout_ok ho hk with h | h | h | h
    · exact htx h
    · exact hcmd h
    · exact hrd h
    · exact hrx h
  case txfifo =>
    intro off v bs hoff h2
    have hk := (mfOfKey_window legal_layout (fifoOffOk_layout hoff h2)).1
    rw [show mfOff Config.layout.mf (.txfifo off) = off from Nat.zero_add off] at hk
    rw [List.append_assoc]
    refine decode_mfWindow_write (w := 16) (v := v.toNat) rfl (by omega) hk v.isLt ?_ bs
    simp [mfWriteInstr]
  case command =>
    intro off v bs h4 hlo hhi hne
    obtain ⟨g, hg, rfl⟩ := exists_mfCommand h4 hlo hhi hne
    have hk := mfOfKey_command legal_layout hg
    obtain ⟨i, hi⟩ : ∃ i, mfWriteInstr v g = some i := by
      simp only [mfCommands, List.mem_cons, List.not_mem_nil, or_false] at hg
      rcases hg with rfl | rfl | rfl | rfl | rfl | rfl | rfl <;> exact ⟨_, rfl⟩
    rw [List.append_assoc]
    refine ⟨i, decode_mfWindow_write (v := v.toNat) (mfOff_layout_command hg).1 (by omega) hk v.isLt ?_ bs⟩
    rw [BitVec.ofNat_toNat, BitVec.setWidth_eq, hi]
  case rdbyte =>
    exact fun bs => decode_mfWindow_read rfl (by decide) (mfOfKey_rdbyte legal_layout) rfl bs
  case rxfifo =>
    intro off bs hlo hhi h2
    have hk := (mfOfKey_window legal_layout (fifoOffOk_layout (o := off - 0x200) (by omega) (by omega))).2
    rw [show mfOff Config.layout.mf (.rxfifo (off - 0x200)) = off from Nat.add_sub_cancel' hlo] at hk
    exact decode_mfWindow_read rfl (by omega) hk rfl bs

end Sys2Proof
end

section
/-! PROOFS. Reads of MF's receive queue (spec 43_mmfifo R227, R229). -/

namespace Sys2Proof.Machine

/-- The two halves of a pair (20_memory R67), as a number. -/
theorem pairWord_eq (lo hi : Byte) : pairWord lo hi = BitVec.ofNat 32 (lo.toNat + 0x100 * hi.toNat) := by
  apply BitVec.eq_of_toNat_eq
  have hlo := lo.isLt
  have hhi := hi.isLt
  rw [pairWord, BitVec.toNat_setWidth, BitVec.toNat_append, BitVec.toNat_ofNat, ← Nat.shiftLeft_add_eq_or_of_lt hlo,
    Nat.shiftLeft_eq, Nat.add_comm, Nat.mul_comm]

theorem mfWindowOk_iff {p : Params} {o : Nat} : mfWindowOk p o = true ↔ o % 2 = 0 ∧ o < p.fifoBytes := by
  simp [mfWindowOk]

/-- A window read finds two bytes in the queue, or is the fault `RxUnderrun` (R229). -/
theorem mfRead_rxfifo {s : State} {o : Nat} (h : mfWindowOk s.params o = true) :
    (s.mf.rxq.length < 2 → mfRead (.rxfifo o) s = .error .rxUnderrun) ∧
    ∀ b0 b1 q, s.mf.rxq = b0 :: b1 :: q → mfRead (.rxfifo o) s =
      .ok (pairWord b0 b1, mfLog false (.rxfifo o) (pairWord b0 b1) { s with mf := { s.mf with rxq := q } }) := by
  refine ⟨fun hlen => ?_, fun b0 b1 q hq => by simp only [mfRead, h, hq, if_true]⟩
  simp only [mfRead, h, if_true]
  match hq : s.mf.rxq with
  | [] => rfl
  | [_] => rfl
  | _ :: _ :: _ => simp [hq] at hlen

/-- Settles O51: by what the queue holds. -/
theorem mfQueueReads : Obligations.MfQueueReads := by
  unfold Obligations.MfQueueReads
  intro s
  refine ⟨fun hq => ?empty, fun b q hq => ?oldest, fun o he ho => ?window, fun o ho => ?outside⟩
  case empty => simp [exec, execMfRdbyteR, mfRead, hq, returnRead]
  case oldest => simp [exec, execMfRdbyteR, mfRead, hq, returnRead, mfLog, emit, mfR]
  case window =>
    obtain ⟨hshort, hpair⟩ := mfRead_rxfifo (mfWindowOk_iff.2 ⟨he, ho⟩)
    refine ⟨fun hlen => ?_, fun b0 b1 q v hq hv => ?_⟩
    · simp [exec, execMfRxfifoR, hshort hlen, returnRead]
    · rw [hv, ← pairWord_eq]
      simp [exec, execMfRxfifoR, hpair b0 b1 q hq, returnRead, mfLog, emit, mfR]
  case outside =>
    have hw : ¬ mfWindowOk s.params o = true := fun h => ho (mfWindowOk_iff.1 h)
    simp [exec, execMfRxfifoR, mfRead, hw, returnRead]

end Sys2Proof.Machine
end

section
/-! PROOFS. A load whose target is willing (spec 44_loader R250 to R258, R268(a)). -/

namespace Sys2Proof.Machine

/-! ## Up to the stream (R251 to R253) -/

/-- A status wait whose first sample reads 1 is over (R253). -/
theorem statusWait_risen {h n : Nat} {s : State} (hq : LoaderQuiet h s)
    (h1 : s.env.status.answer Config.freeStatus 0 = true) :
    statusWait h (n + 1) s = .ok (true, setLdState h .streaming (statusEvent h s).2) := by
  have hsample : sampleStatus h s = .ok (statusEvent h s) := afterGap_quiet hq _
  unfold statusWait
  rw [hsample, ok_bind, statusEvent_spec, h1]
  rfl

/-- What follows the stream of a load (R257). -/
def loadAfterStream (h sid : Nat) (len : Word) : Streamed × State → Except Fault (OpResult × State)
  | (.sent, t) => finishLoad h sid len t
  | (.stopped r, t) => .ok (r, t)

/-- Where a load stands whose target's status has risen: `q` is the state its stream starts in. -/
structure Streaming (h : Nat) (s : State) (S : Session) (sid : Nat) (q : State) : Prop where
  rest : AtRest h (s.handle h).bus sid S q
  handle : q.handle h = { s.handle h with state := .streaming, lastError := none, crcDiag := none, ncfg := true }
  mem : q.mem = s.mem
  params : q.params = s.params
  env : q.env = { s.env with status := s.env.status.drop 1 }
  trace : pinTrace q.trace = pinTrace s.trace ++ pulseEvents h ++ [.status h true]

/-- A load from a ready bus whose first status sample reads 1 is its stream and what follows it. -/
theorem ldWrite_streaming {h : Nat} {s : State} (hr : LoadReady h s) (src : Nat) (len : Word)
    (h1 : s.env.status.answer Config.freeStatus 0 = true) :
    ∃ S sid q, Streaming h s S sid q ∧ ldWriteOp h src len s =
      (stream h sid src len.toNat (chunkCount len.toNat s.params.chunkBytes) 0 q >>= loadAfterStream h sid len) := by
  obtain ⟨S, sid, p, hp, hrun⟩ := ldWrite_pulsed hr src len
  have hlen : h < (statusEvent h p).2.ld.length := by rw [statusEvent_spec]; exact hp.rest.handle
  have hph : p.handle h =
      { s.handle h with state := .resetting, lastError := none, crcDiag := none, ncfg := true } := by
    rw [handle_congr hp.ld, handle_setHandle_same hr.handle]
  have hqh : (setLdState h .streaming (statusEvent h p).2).handle h = { p.handle h with state := .streaming } := by
    rw [setLdState, handle_setHandle_same hlen, statusEvent_spec]
    rfl
  refine ⟨S, sid, setLdState h .streaming (statusEvent h p).2, ?_, ?_⟩
  · refine ⟨hp.rest.congr ?_ ?_ ?_ ?_ (by rw [hqh]) (by rw [hqh]), by rw [hqh, hph], ?_, ?_, ?_, ?_⟩
    all_goals rw [statusEvent_spec]
    · rfl
    · rfl
    · rfl
    · exact setHandle_length ..
    · exact hp.mem
    · exact hp.params
    · show { p.env with status := p.env.status.drop 1 } = _
      rw [hp.env]
    · show pinTrace (p.trace ++ [.pin (.status h (p.env.status.answer Config.freeStatus 0))]) = _
      rw [pinTrace_append, hp.trace, hp.env, h1]
      rfl
  · have hwait := statusWait_risen (n := 199) hp.rest.quiet (by rw [hp.env]; exact h1)
    have hparams : (setLdState h .streaming (statusEvent h p).2).params = s.params := by
      rw [statusEvent_spec]; exact hp.params
    rw [hrun, show Config.nStatus = 199 + 1 from rfl, hwait, ok_bind]
    simp only [if_true, hparams]
    refine congrArg (_ >>= ·) (funext fun x => ?_)
    obtain ⟨_ | r, t⟩ := x <;> rfl

/-! ## The stream and the end of the load (R254 to R258) -/

/-- The chunks of a load leave at most one chunk of it, and something of it when there are any (R254). -/
theorem chunkCount_spec (len : Nat) {chunk : Nat} (hc : 0 < chunk) :
    chunkCount len chunk * chunk ≤ len ∧ len - chunkCount len chunk * chunk ≤ chunk ∧
      (0 < chunkCount len chunk → chunkCount len chunk * chunk < len) := by
  have hdiv : chunkCount len chunk * chunk + (len - 1) % chunk = len - 1 := by
    rw [chunkCount, Nat.mul_comm]
    exact Nat.div_add_mod _ _
  have hmod := Nat.mod_lt (len - 1) hc
  refine ⟨by omega, by omega, fun hk => ?_⟩
  have := Nat.le_mul_of_pos_left chunk hk
  omega

/-- CHUNK_BYTES is positive, and a chunk and one byte more have a bit length of 32 bits (log 16). -/
theorem chunkBytes_bounds (p : Params) : 0 < p.chunkBytes ∧ p.chunkBytes + 1 < 2 ^ 29 := by
  have := p.chunkPred.isLt
  unfold Params.chunkBytes
  omega

/-- Between the two states no bit, word or byte has been sent. -/
structure NothingSent (s t : State) : Prop where
  bits : doutTrace (pinTrace t.trace) = doutTrace (pinTrace s.trace)
  words : wordOutTrace (pinTrace t.trace) = wordOutTrace (pinTrace s.trace)
  bytes : byteOutTrace (pinTrace t.trace) = byteOutTrace (pinTrace s.trace)

/-- Between the two states `n` bytes from `src`, as memory `m` holds them, have been sent on a bus of unit `u`, each
bit 0 first. -/
structure BytesSent (u : BusUnit) (src n : Nat) (m : Memory) (s t : State) : Prop where
  bb : u = .bb → doutTrace (pinTrace t.trace) = doutTrace (pinTrace s.trace) ++
    (List.range (8 * n)).map (outBit (some src) true m)
  rc : u = .rc → wordOutTrace (pinTrace t.trace) = wordOutTrace (pinTrace s.trace) ++
    (List.range n).map (fun k => (rev8 (readByte m (src + k))).setWidth 32)
  mf : u = .mf → byteOutTrace (pinTrace t.trace) = byteOutTrace (pinTrace s.trace) ++
    (List.range n).map (fun k => rev8 (readByte m (src + k)))

theorem BytesSent.between {u : BusUnit} {src n : Nat} {m : Memory} {s q w t : State} (before : NothingSent s q)
    (h : BytesSent u src n m q w) (after : NothingSent w t) : BytesSent u src n m s t :=
  ⟨fun hu => by rw [after.bits, h.bb hu, before.bits], fun hu => by rw [after.words, h.rc hu, before.words],
    fun hu => by rw [after.bytes, h.mf hu, before.bytes]⟩

theorem Fed.bytesSent {u : BusUnit} {sid : Nat} {S : Session} {src j n : Nat} {m : Memory} {s t : State}
    (h : Fed u sid S src m 0 s true j n t) : BytesSent u src n m s t :=
  ⟨fun hu => by rw [List.range_eq_range']; exact h.bbOut hu,
    fun hu => by rw [List.range_eq_range']; exact h.rcOut hu rfl,
    fun hu => by rw [List.range_eq_range']; exact h.mfOut hu⟩

/-- Up to its stream a load has sent nothing. -/
theorem Streaming.nothingSent {h : Nat} {s : State} {S : Session} {sid : Nat} {q : State}
    (hq : Streaming h s S sid q) : NothingSent s q := by
  constructor <;> rw [hq.trace]
  · simp [pulseEvents, doutTrace]
  · simp [pulseEvents, wordOutTrace]
  · simp [pulseEvents, byteOutTrace]

/-- The state `w` in which a stream from `q` was sent whole: `len` bytes of the source and the one after them. -/
structure StreamSent (h : Nat) (u : BusUnit) (S : Session) (sid src len chunk : Nat) (m : Memory) (q w : State) :
    Prop where
  rest : AtRest h u sid S w
  handle : w.handle h = q.handle h
  status : w.env.status = q.env.status.drop (chunkCount len chunk + 1)
  done : w.env.done = q.env.done
  crc : w.env.crc = q.env.crc
  bytes : BytesSent u src (len + 1) m q w

/-- A stream whose every sample reads 1, on RC under a willing shifter, is sent whole. -/
theorem stream_sent {h : Nat} {s : State} {S : Session} {sid : Nat} {q : State} (hq : Streaming h s S sid q)
    (hw : Memory.wf s.mem = true) (src len : Nat)
    (hst : ∀ k, k ≤ chunkCount len s.params.chunkBytes → q.env.status.answer Config.freeStatus k = true)
    (hrc : (s.handle h).bus = .rc → Willing (s.handle h).cs.toNat (len + 1) s.env) :
    ∃ w, stream h sid src len (chunkCount len s.params.chunkBytes) 0 q = .ok (.sent, w) ∧
      StreamSent h (s.handle h).bus S sid src len s.params.chunkBytes (padded src len s) q w := by
  obtain ⟨hpos, hbig⟩ := chunkBytes_bounds s.params
  obtain ⟨hfit, hlast, hmore⟩ := chunkCount_spec len hpos
  have hm : padded src len s = padded src len q := by rw [padded, padded, hq.mem, hq.env]
  have hcs : S.cs = (s.handle h).cs := by rw [← hq.rest.cs, hq.handle]
  have hend := stream_spec hpos hbig (chunkCount len s.params.chunkBytes) 0 q hq.rest.bus hq.rest.unit
    (by rw [hq.mem]; exact hw) hm (by rw [hq.params]) (by omega) (by omega) (fun h0 => by have := hmore h0; omega)
    (fun _ => hq.rest.off) rfl
  generalize stream h sid src len (chunkCount len s.params.chunkBytes) 0 q = x at hend ⊢
  cases hend with
  | sent v w hfed hoff hv _ =>
    refine ⟨w, rfl, ?_⟩
    subst hv
    exact ⟨(hfed.atRest hq.rest hoff).congr rfl rfl rfl rfl rfl rfl, handle_congr hfed.ld h, hfed.status, hfed.done,
      hfed.crc, ⟨hfed.bytesSent.bb, hfed.bytesSent.rc, hfed.bytesSent.mf⟩⟩
  | rejected v i hi _ _ _ hlow => exact absurd (hst i hi) (by rw [hlow]; decide)
  | timeout v w i b hi _ _ _ _ hu hno =>
    refine absurd (fun k hk => ?_) hno
    rw [hcs, hq.env]
    refine hrc hu k (Nat.lt_of_lt_of_le hk ?_)
    split
    · rename_i hlt
      exact Nat.le_trans (Nat.mul_le_mul_right _ hlt) (by omega)
    · omega

/-- What a load that succeeds leaves. -/
structure Loaded (h : Nat) (s : State) (src len : Nat) (t : State) : Prop where
  state : (t.handle h).state = .ready
  lastError : (t.handle h).lastError = none
  crcDiag : (t.handle h).crcDiag = if (s.handle h).hasCrc then some (s.env.crc.answer Config.freeCrc 0) else none
  bytes : BytesSent (s.handle h).bus src (len + 1) (padded src len s) s t

/-- A load with a willing target succeeds (R257, R258). -/
theorem ldWrite_loaded {h : Nat} {s : State} (hr : LoadReady h s) (hw : Memory.wf s.mem = true) (src : Nat)
    (len : Word)
    (hst : ∀ k, k < chunkCount len.toNat s.params.chunkBytes + 3 → s.env.status.answer Config.freeStatus k = true)
    (hdone : s.env.done.answer Config.freeDone 0 = true)
    (hrc : (s.handle h).bus = .rc → Willing (s.handle h).cs.toNat (len.toNat + 1) s.env) :
    ∃ t, ldWriteOp h src len s = .ok (.count len, t) ∧ Loaded h s src len.toNat t := by
  obtain ⟨S, sid, q, hq, hrun⟩ := ldWrite_streaming hr src len (hst 0 (by omega))
  have hqst : ∀ k, q.env.status.answer Config.freeStatus k = s.env.status.answer Config.freeStatus (1 + k) :=
    fun k => by rw [hq.env, answer_drop]
  obtain ⟨w, hsent, hws⟩ := stream_sent hq hw src len.toNat (fun k hk => by rw [hqst]; exact hst _ (by omega)) hrc
  obtain ⟨x, t, hfin, -, -, -, hld, hconf, hbits, hbytes, hwords⟩ := finishLoad_spec hws.rest len
  obtain rfl := hconf (by rw [hws.status, answer_drop, hqst]; exact hst _ (by omega))
    (by rw [hws.done, hq.env]; exact hdone)
  have hth : t.handle h = { s.handle h with
      state := .ready, lastError := none,
      crcDiag := if (s.handle h).hasCrc then some (s.env.crc.answer Config.freeCrc 0) else none, ncfg := true } := by
    rw [handle_congr hld, handle_setHandle_same hws.rest.handle, hws.handle, hq.handle, hws.crc, hq.env]
  refine ⟨t, ?_, by rw [hth], by rw [hth], by rw [hth], hws.bytes.between hq.nothingSent ⟨hbits, hwords, hbytes⟩⟩
  rw [hrun, hsent]
  exact hfin

/-- Settles O59: the load succeeds, and `padded` is the memory it sends. -/
theorem ldWriteSucceeds : Obligations.LdWriteSucceeds := by
  unfold Obligations.LdWriteSucceeds
  intro s h offset len src m hr hw hm hst hdone hrc
  subst hm
  obtain ⟨t, hrun, ht⟩ := ldWrite_loaded hr hw src len hst hdone hrc
  refine ⟨{ t with result := some (.count len) }, ?_, rfl, ht.state, ht.lastError, ht.crcDiag, ht.bytes.bb,
    ht.bytes.rc, ht.bytes.mf⟩
  show onHandle h s (ldWriteOp h src len s) = _
  rw [onHandle, if_pos hr.handle, hrun, finish_ok]

end Sys2Proof.Machine
end

section
/-! PROOFS. Operand fields and headers, read exactly where they are laid out (spec 30_encoding R91 to R96): a field
answers a value just when the bytes begin with that value's, and a header names the one operation whose header it is. -/

namespace Sys2Proof

open Sys2Proof.Machine (bind_eq_ok ok_bind)

/-! ## Operand fields, read exactly where they are laid out -/

theorem takeLe_eq_ok {k v : Nat} {bs rest : List Byte} :
    takeLe k bs = .ok (v, rest) ↔ v < 256 ^ k ∧ bs = leBytes k v ++ rest :=
  ⟨takeLe_ok, fun ⟨hv, hb⟩ => hb ▸ takeLe_leBytes_lt hv rest⟩

theorem takeWord_eq_ok {w : Word} {bs rest : List Byte} :
    takeWord bs = .ok (w, rest) ↔ bs = leBytes 4 w.toNat ++ rest :=
  ⟨takeWord_ok, fun hb => hb ▸ takeWord_leBytes w rest⟩

theorem takeByte_eq_ok {w : Byte} {bs rest : List Byte} :
    takeByte bs = .ok (w, rest) ↔ bs = leBytes 1 w.toNat ++ rest :=
  ⟨takeByte_ok, fun hb => hb ▸ takeByte_leBytes w rest⟩

theorem takeSid_eq_ok {s : Nat} {bs rest : List Byte} :
    takeSid bs = .ok (s, rest) ↔ sidOk s = true ∧ bs = leBytes 4 s ++ rest :=
  ⟨takeSid_ok, fun ⟨hs, hb⟩ => hb ▸ takeSid_leBytes hs rest⟩

theorem takeAddr_eq_ok {a : Nat} {bs rest : List Byte} :
    takeAddr bs = .ok (a, rest) ↔ addrOk a = true ∧ bs = leBytes 8 a ++ rest :=
  ⟨takeAddr_ok, fun ⟨ha, hb⟩ => hb ▸ takeAddr_leBytes ha rest⟩

theorem takeHandle_eq_ok {h : Nat} {bs rest : List Byte} :
    takeHandle bs = .ok (h, rest) ↔ handleOk h = true ∧ bs = leBytes 1 h ++ rest :=
  ⟨takeHandle_ok, fun ⟨hh, hb⟩ => hb ▸ takeHandle_leBytes hh rest⟩

theorem takeBus_eq_ok {bs rest : List Byte} : takeBus bs = .ok rest ↔ bs = leBytes 1 0 ++ rest :=
  ⟨takeBus_ok, fun hb => hb ▸ takeBus_leBytes rest⟩

theorem takeMode_eq_ok {m : Mode} {bs rest : List Byte} :
    takeMode bs = .ok (m, rest) ↔ bs = leBytes 1 (modeByte m) ++ rest :=
  ⟨takeMode_ok, fun hb => hb ▸ takeMode_modeByte m rest⟩

theorem takeDesc_eq_ok {d : Desc} {bs rest : List Byte} :
    takeDesc bs = .ok (d, rest) ↔ (bufOk d.out = true ∧ bufOk d.inp = true) ∧ bs = descBytes d ++ rest :=
  ⟨fun h => have ⟨ho, hi, hb⟩ := takeDesc_ok h; ⟨⟨ho, hi⟩, hb⟩,
    fun ⟨⟨ho, hi⟩, hb⟩ => hb ▸ takeDesc_descBytes ho hi rest⟩

theorem takeKey_eq_ok {k : Nat} {bs rest : List Byte} :
    takeKey bs = .ok (k, rest) ↔ k < 0x2000 ∧ bs = leBytes 2 k ++ rest := by
  refine ⟨takeKey_ok, ?_⟩
  rintro ⟨hk, rfl⟩
  rw [key_split hk]
  exact takeKey_keyOf (by omega) rest

theorem orUnmapped_eq_ok {o : Option Instr} {i : Instr} : orUnmapped o = .ok i ↔ o = some i := by
  cases o <;> simp [orUnmapped]

/-! ## Headers (R91, R92, R102) -/

/-- A header names the operation whose header it is, and nothing else. -/
theorem opOfHeader_eq_some {h : Nat} {k : OpKind} : opOfHeader h = some k ↔ h = headerOf k := by
  refine ⟨fun hk => ?_, fun hk => hk ▸ opOfHeader_headerOf k⟩
  have rows : ∀ r, r ∈ opRows → r.1 = headerOf r.2 := by decide
  obtain ⟨r, hr, rfl⟩ := Option.map_eq_some_iff.1 hk
  have hmatch : r.1 = h := by simpa using List.find?_some hr
  rw [← hmatch, rows r (List.mem_of_find?_eq_some hr)]

/-- The headers the tables have: units 0 to 2 with `opc` 0 to 6, and unit 3 with `opc` 0x10 to 0x15. -/
theorem headerOf_fields (k : OpKind) :
    (headerOf k / 0x100 < 3 ∧ headerOf k % 0x100 < 7) ∨
      (headerOf k / 0x100 = 3 ∧ 0x10 ≤ headerOf k % 0x100 ∧ headerOf k % 0x100 < 0x16) := by
  cases k with
  | contract u o => cases u <;> cases o <;> decide
  | loader o => cases o <;> decide

/-- The operands that follow a header. -/
def decodeOperands : OpKind → List Byte → Except DecodeError (Instr × List Byte)
  | .contract u o, bs => decodeContract u o bs
  | .loader o, bs => decodeLoader o bs

theorem decodeOp_headerOf (k : OpKind) (bs : List Byte) :
    decodeOp (leBytes 2 (headerOf k) ++ bs) = decodeOperands k bs := by
  rw [decodeOp_header]
  cases k <;> rfl

/-- What decodes at the operation port is a header and its operands. -/
theorem decodeOp_ok {bs rest : List Byte} {i : Instr} (h : decodeOp bs = .ok (i, rest)) :
    ∃ k bs', bs = leBytes 2 (headerOf k) ++ bs' ∧ decodeOperands k bs' = .ok (i, rest) := by
  obtain ⟨⟨n, bs'⟩, hn, hrest⟩ := bind_eq_ok.1 h
  obtain ⟨-, rfl⟩ := takeLe_ok hn
  cases hk : opOfHeader n with
  | none => simp [hk] at hrest
  | some k =>
    obtain rfl := opOfHeader_eq_some.1 hk
    exact ⟨k, bs', rfl, decodeOp_headerOf k bs' ▸ h⟩

end Sys2Proof
end

section
/-! PROOFS. The words of the operations (spec 30_encoding R92 to R96). The operands of the contract and of the loader are
named once, so that one law for each operation serves the three units, decoding and encoding. -/

namespace Sys2Proof

open Sys2Proof.Machine (bind_eq_ok ok_bind pure_eq_ok)

/-! ## The contract operations (R92 to R96) -/

/-- A contract operation with its operands, on whichever unit (R92). -/
inductive ContractCall where
  | setup
  | claim (cs : BitVec 8)
  | release (s : Nat)
  | setSpeed (s : Nat) (hz : Word)
  | setMode (s : Nat) (m : Mode)
  | setWordlen (s : Nat) (bits : BitVec 8)
  | transfer (s : Nat) (d : Desc)

namespace ContractCall

def op : ContractCall → ContractOp
  | setup => .setup
  | claim _ => .claim
  | release _ => .release
  | setSpeed _ _ => .setSpeed
  | setMode _ _ => .setMode
  | setWordlen _ _ => .setWordlen
  | transfer _ _ => .transfer

/-- The operands fit their fields. -/
def fits : ContractCall → Bool
  | setup => true
  | claim _ => true
  | release s => sidOk s
  | setSpeed s _ => sidOk s
  | setMode s _ => sidOk s
  | setWordlen s _ => sidOk s
  | transfer s d => sidOk s && bufOk d.out && bufOk d.inp

/-- The operands laid out after the header (log 2). -/
def bytes : ContractCall → List Byte
  | setup => leBytes 1 0
  | claim cs => leBytes 1 0 ++ leBytes 1 cs.toNat
  | release s => leBytes 4 s
  | setSpeed s hz => leBytes 4 s ++ leBytes 4 hz.toNat
  | setMode s m => leBytes 4 s ++ leBytes 1 (modeByte m)
  | setWordlen s w => leBytes 4 s ++ leBytes 1 w.toNat
  | transfer s d => leBytes 4 s ++ descBytes d

/-- The instruction of the call on a unit. -/
def instr (u : BusUnit) : ContractCall → Instr
  | setup => match u with | .bb => .bbSetup | .rc => .rcSetup | .mf => .mfSetup
  | claim cs => match u with | .bb => .bbClaim cs | .rc => .rcClaim cs | .mf => .mfClaim cs
  | release s => match u with | .bb => .bbRelease s | .rc => .rcRelease s | .mf => .mfRelease s
  | setSpeed s hz => match u with | .bb => .bbSetSpeed s hz | .rc => .rcSetSpeed s hz | .mf => .mfSetSpeed s hz
  | setMode s m => match u with | .bb => .bbSetMode s m | .rc => .rcSetMode s m | .mf => .mfSetMode s m
  | setWordlen s w => match u with | .bb => .bbSetWordlen s w | .rc => .rcSetWordlen s w | .mf => .mfSetWordlen s w
  | transfer s d => match u with | .bb => .bbTransfer s d | .rc => .rcTransfer s d | .mf => .mfTransfer s d

@[simp] theorem encode_instr (L : Config.Layout) (u : BusUnit) (x : ContractCall) :
    encode L (x.instr u) = opIssue u x.op x.bytes := by
  cases x <;> cases u <;> rfl

@[simp] theorem wellFormed_instr (L : Config.Layout) (u : BusUnit) (x : ContractCall) :
    (x.instr u).wellFormed L = x.fits := by
  cases x <;> cases u <;> rfl

theorem decode_bytes (u : BusUnit) {x : ContractCall} (hx : x.fits = true) (rest : List Byte) :
    decodeContract u x.op (x.bytes ++ rest) = .ok (x.instr u, rest) := by
  cases x with
  | setup =>
    simp only [op, bytes, decodeContract, takeBus_leBytes, ok_bind]
    rfl
  | claim cs =>
    simp only [op, bytes, decodeContract, List.append_assoc, takeBus_leBytes, takeByte_leBytes, ok_bind]
    rfl
  | release s =>
    simp only [op, bytes, decodeContract, takeSid_leBytes hx, ok_bind]
    rfl
  | setSpeed s hz =>
    simp only [op, bytes, decodeContract, List.append_assoc, takeSid_leBytes hx, takeWord_leBytes, ok_bind]
    rfl
  | setMode s m =>
    simp only [op, bytes, decodeContract, List.append_assoc, takeSid_leBytes hx, takeMode_modeByte, ok_bind]
    rfl
  | setWordlen s w =>
    simp only [op, bytes, decodeContract, List.append_assoc, takeSid_leBytes hx, takeByte_leBytes, ok_bind]
    rfl
  | transfer s d =>
    simp only [fits, Bool.and_eq_true] at hx
    obtain ⟨⟨hs, ho⟩, hi⟩ := hx
    simp only [op, bytes, decodeContract, List.append_assoc, takeSid_leBytes hs, takeDesc_descBytes ho hi, ok_bind]
    rfl

theorem of_decode {u : BusUnit} {o : ContractOp} {bs rest : List Byte} {i : Instr}
    (h : decodeContract u o bs = .ok (i, rest)) :
    ∃ x : ContractCall, x.fits = true ∧ x.op = o ∧ i = x.instr u ∧ bs = x.bytes ++ rest := by
  cases o <;> simp only [decodeContract, bind_eq_ok, pure_eq_ok, Prod.exists, Except.ok.injEq, Prod.mk.injEq,
    takeBus_eq_ok, takeByte_eq_ok, takeSid_eq_ok, takeWord_eq_ok, takeMode_eq_ok, takeDesc_eq_ok] at h
  case setup =>
    obtain ⟨_, rfl, rfl, rfl⟩ := h
    exact ⟨.setup, rfl, rfl, rfl, rfl⟩
  case claim =>
    obtain ⟨_, rfl, cs, _, rfl, rfl, rfl⟩ := h
    exact ⟨.claim cs, rfl, rfl, rfl, (List.append_assoc ..).symm⟩
  case release =>
    obtain ⟨s, _, ⟨hs, rfl⟩, rfl, rfl⟩ := h
    exact ⟨.release s, hs, rfl, rfl, rfl⟩
  case setSpeed =>
    obtain ⟨s, _, ⟨hs, rfl⟩, hz, _, rfl, rfl, rfl⟩ := h
    exact ⟨.setSpeed s hz, hs, rfl, rfl, (List.append_assoc ..).symm⟩
  case setMode =>
    obtain ⟨s, _, ⟨hs, rfl⟩, m, _, rfl, rfl, rfl⟩ := h
    exact ⟨.setMode s m, hs, rfl, rfl, (List.append_assoc ..).symm⟩
  case setWordlen =>
    obtain ⟨s, _, ⟨hs, rfl⟩, w, _, rfl, rfl, rfl⟩ := h
    exact ⟨.setWordlen s w, hs, rfl, rfl, (List.append_assoc ..).symm⟩
  case transfer =>
    obtain ⟨s, _, ⟨hs, rfl⟩, d, _, ⟨⟨ho, hi⟩, rfl⟩, rfl, rfl⟩ := h
    exact ⟨.transfer s d, by simp [fits, hs, ho, hi], rfl, rfl, (List.append_assoc ..).symm⟩

end ContractCall

/-! ## The loader operations (R92) -/

/-- A loader operation with the operands after its handle (R92). -/
inductive LoaderCall where
  | erase (offset len : Word)
  | read (offset len : Word) (dst : Nat)
  | write (offset : Word) (src : Nat) (len : Word)
  | sync
  | lock (offset len : Word)
  | unlock (offset len : Word)

namespace LoaderCall

def op : LoaderCall → LoaderOp
  | erase _ _ => .erase
  | read _ _ _ => .read
  | write _ _ _ => .write
  | sync => .sync
  | lock _ _ => .lock
  | unlock _ _ => .unlock

/-- The operands fit their fields. -/
def fits : LoaderCall → Bool
  | read _ _ dst => addrOk dst
  | write _ src _ => addrOk src
  | _ => true

/-- The operands laid out after the handle (log 2). -/
def bytes : LoaderCall → List Byte
  | erase offset len => leBytes 4 offset.toNat ++ leBytes 4 len.toNat
  | read offset len dst => leBytes 4 offset.toNat ++ leBytes 4 len.toNat ++ leBytes 8 dst
  | write offset src len => leBytes 4 offset.toNat ++ leBytes 8 src ++ leBytes 4 len.toNat
  | sync => []
  | lock offset len => leBytes 4 offset.toNat ++ leBytes 4 len.toNat
  | unlock offset len => leBytes 4 offset.toNat ++ leBytes 4 len.toNat

/-- The instruction of the call on handle `h`. -/
def instr (h : Nat) : LoaderCall → Instr
  | erase offset len => .ldErase offset len h
  | read offset len dst => .ldRead offset len dst h
  | write offset src len => .ldWrite offset src len h
  | sync => .ldSync h
  | lock offset len => .ldLock offset len h
  | unlock offset len => .ldUnlock offset len h

@[simp] theorem encode_instr (L : Config.Layout) (h : Nat) (x : LoaderCall) :
    encode L (x.instr h) = loaderIssue x.op h x.bytes := by
  cases x <;> rfl

@[simp] theorem wellFormed_instr (L : Config.Layout) (h : Nat) (x : LoaderCall) :
    (x.instr h).wellFormed L = (handleOk h && x.fits) := by
  cases x <;> simp [instr, Instr.wellFormed, fits]

theorem decode_bytes {h : Nat} (hh : handleOk h = true) {x : LoaderCall} (hx : x.fits = true) (rest : List Byte) :
    decodeLoader x.op (leBytes 1 h ++ (x.bytes ++ rest)) = .ok (x.instr h, rest) := by
  cases x with
  | read offset len dst => simp [op, bytes, decodeLoader, instr, takeHandle_leBytes hh, takeAddr_leBytes hx]
  | write offset src len => simp [op, bytes, decodeLoader, instr, takeHandle_leBytes hh, takeAddr_leBytes hx]
  | erase offset len => simp [op, bytes, decodeLoader, instr, takeHandle_leBytes hh]
  | sync => simp [op, bytes, decodeLoader, instr, takeHandle_leBytes hh]
  | lock offset len => simp [op, bytes, decodeLoader, instr, takeHandle_leBytes hh]
  | unlock offset len => simp [op, bytes, decodeLoader, instr, takeHandle_leBytes hh]

theorem of_decode {o : LoaderOp} {bs rest : List Byte} {i : Instr} (hd : decodeLoader o bs = .ok (i, rest)) :
    ∃ h x, handleOk h = true ∧ fits x = true ∧ x.op = o ∧ i = x.instr h ∧
      bs = leBytes 1 h ++ (x.bytes ++ rest) := by
  cases o <;> simp only [decodeLoader, bind_eq_ok, pure_eq_ok, Prod.exists, Except.ok.injEq, Prod.mk.injEq,
    takeHandle_eq_ok, takeWord_eq_ok, takeAddr_eq_ok] at hd <;> obtain ⟨h, _, ⟨hh, rfl⟩, hd⟩ := hd
  case erase =>
    obtain ⟨offset, _, rfl, len, _, rfl, rfl, rfl⟩ := hd
    exact ⟨h, .erase offset len, hh, rfl, rfl, rfl, by simp [bytes]⟩
  case read =>
    obtain ⟨offset, _, rfl, len, _, rfl, dst, _, ⟨ha, rfl⟩, rfl, rfl⟩ := hd
    exact ⟨h, .read offset len dst, hh, ha, rfl, rfl, by simp [bytes]⟩
  case write =>
    obtain ⟨offset, _, rfl, src, _, ⟨ha, rfl⟩, len, _, rfl, rfl, rfl⟩ := hd
    exact ⟨h, .write offset src len, hh, ha, rfl, rfl, by simp [bytes]⟩
  case sync =>
    obtain ⟨rfl, rfl⟩ := hd
    exact ⟨h, .sync, hh, rfl, rfl, rfl, rfl⟩
  case lock =>
    obtain ⟨offset, _, rfl, len, _, rfl, rfl, rfl⟩ := hd
    exact ⟨h, .lock offset len, hh, rfl, rfl, rfl, by simp [bytes]⟩
  case unlock =>
    obtain ⟨offset, _, rfl, len, _, rfl, rfl, rfl⟩ := hd
    exact ⟨h, .unlock offset len, hh, rfl, rfl, rfl, by simp [bytes]⟩

end LoaderCall

end Sys2Proof
end

section
/-! PROOFS. The words of the register windows under a legal layout (spec 30_encoding R98 to R100): a key names a register
just when it is that register's key and the window has the register. -/

namespace Sys2Proof

open Sys2Proof.Machine (bind_eq_ok pure_eq_ok)

/-! ## The RC window (R98, R100) -/

theorem encode_rcReadInstr (L : Config.Layout) (g : RcReg) : encode L (rcReadInstr g) = rcReadIssue L.rc g := by
  cases g <;> rfl

theorem encode_rcWriteInstr (L : Config.Layout) (v : Word) (g : RcReg) :
    encode L (rcWriteInstr v g) = rcWriteIssue L.rc g v := by
  cases g <;> rfl

/-- A register that can be written can be read: the window has it. -/
theorem wellFormed_rcWriteInstr (L : Config.Layout) (v : Word) (g : RcReg) :
    (rcWriteInstr v g).wellFormed L = (rcReadInstr g).wellFormed L := by
  cases g <;> rfl

/-- A register the window has is at an offset of its own, in either direction. -/
theorem rcOfKey_keyOf {L : Config.Layout} (hL : legalLayout L = true) {g : RcReg}
    (hg : (rcReadInstr g).wellFormed L = true) (d : Bool) :
    rcOff L.rc g < 0x1000 ∧ rcOfKey L (keyOf d (rcOff L.rc g)) = some (d, g) := by
  have channel : ∀ {c g}, chanOk L c = true →
      (g = .conf c ∨ g = .stat c ∨ g = .ctrl c ∨ g = .tx c ∨ g = .rx c) →
      rcOff L.rc g < 0x1000 ∧ rcOfKey L (keyOf d (rcOff L.rc g)) = some (d, g) := fun hc hcg =>
    have hm := mem_rcRegs.2 ⟨_, of_decide_eq_true hc, hcg⟩
    ⟨(legal_rc hL).within _ hm, rcOfKey_channel hL hm d⟩
  cases g with
  | shared j =>
    refine ⟨?_, rcOfKey_shared hL hg d⟩
    have hj : j < 11 := of_decide_eq_true hg
    have hl := (legal_rc hL).shared.2
    show L.rc.shared + 4 * j < 0x1000
    omega
  | conf c => exact channel (c := c) hg (by simp)
  | stat c => exact channel (c := c) hg (by simp)
  | ctrl c => exact channel (c := c) hg (by simp)
  | tx c => exact channel (c := c) hg (by simp)
  | rx c => exact channel (c := c) hg (by simp)

/-- A key names the register whose key it is, where the window has that register. -/
theorem rcOfKey_eq_some {L : Config.Layout} (hL : legalLayout L = true) {key : Nat} (hk : key < 0x2000) {d : Bool}
    {g : RcReg} :
    rcOfKey L key = some (d, g) ↔ (rcReadInstr g).wellFormed L = true ∧ key = keyOf d (rcOff L.rc g) := by
  refine ⟨fun h => ?_, fun ⟨hg, he⟩ => he ▸ (rcOfKey_keyOf hL hg d).2⟩
  obtain ⟨he, hg⟩ := rcOfKey_ok hL hk h
  exact ⟨by cases g <;> exact hg, he⟩

/-- What decodes in the RC window is a read or a write of a register the window has. -/
theorem decodeRc_ok {L : Config.Layout} (hL : legalLayout L = true) {w : Nat} {bs rest : List Byte} {i : Instr}
    (h : decodeRc L w bs = .ok (i, rest)) :
    w = 32 ∧ ∃ g, (rcReadInstr g).wellFormed L = true ∧
      (i = rcReadInstr g ∧ bs = (rcReadIssue L.rc g).bytes ++ rest ∨
        ∃ v, i = rcWriteInstr v g ∧ bs = (rcWriteIssue L.rc g v).bytes ++ rest) := by
  simp only [decodeRc, bind_eq_ok, Prod.exists, takeKey_eq_ok] at h
  obtain ⟨key, bs', ⟨hlt, rfl⟩, h⟩ := h
  split at h
  case isFalse => cases h
  case isTrue hw =>
    refine ⟨hw, ?_⟩
    cases hk : rcOfKey L key with
    | none => simp [hk] at h
    | some x =>
      obtain ⟨d, g⟩ := x
      obtain ⟨hg, rfl⟩ := (rcOfKey_eq_some hL hlt).1 hk
      refine ⟨g, hg, ?_⟩
      cases d with
      | false =>
        simp only [hk, pure_eq_ok, Except.ok.injEq, Prod.mk.injEq] at h
        obtain ⟨rfl, rfl⟩ := h
        exact .inl ⟨rfl, rfl⟩
      | true =>
        simp only [hk, bind_eq_ok, pure_eq_ok, Prod.exists, takeWord_eq_ok, Except.ok.injEq, Prod.mk.injEq] at h
        obtain ⟨v, _, rfl, rfl, rfl⟩ := h
        exact .inr ⟨v, rfl, (List.append_assoc ..).symm⟩

/-! ## The MF window (R99) -/

/-- The accesses the MF window has: writes of the transmit window and of the written commands, reads of the receive
window and of `RDBYTE`. -/
def mfAccessOk (L : Config.Layout) : Bool → MfReg → Bool
  | wr, .txfifo o => wr && fifoOffOk L o
  | wr, .rxfifo o => !wr && fifoOffOk L o
  | wr, .rdbyte => !wr
  | wr, _ => wr

theorem mfOff_lt {L : Config.Layout} (hL : legalLayout L = true) {wr : Bool} {g : MfReg}
    (hg : mfAccessOk L wr g = true) : mfOff L.mf g < 0x1000 := by
  have P := legal_mf hL
  have window : ∀ {base o}, base % 2 ^ L.mf.winBits = 0 → base < 0x1000 → fifoOffOk L o = true →
      base + o < 0x1000 := fun hb hl ho =>
    have ⟨he, hlt⟩ := fifoOffOk_iff.1 ho
    (window_key P.bits hb hl hlt he false).1
  cases g with
  | txfifo o => exact window P.tx.1 P.tx.2 (Bool.and_eq_true_iff.1 hg).2
  | rxfifo o => exact window P.rx.1 P.rx.2 (Bool.and_eq_true_iff.1 hg).2
  | rdbyte => exact P.rd.1
  | busctl => exact P.within _ (by decide)
  | cs0 => exact P.within _ (by decide)
  | cs1 => exact P.within _ (by decide)
  | speed => exact P.within _ (by decide)
  | mode => exact P.within _ (by decide)
  | wrbyte => exact P.within _ (by decide)
  | read => exact P.within _ (by decide)

theorem mfOfKey_keyOf {L : Config.Layout} (hL : legalLayout L = true) {wr : Bool} {g : MfReg}
    (hg : mfAccessOk L wr g = true) : mfOfKey L.mf (keyOf wr (mfOff L.mf g)) = some (wr, g) := by
  have command : ∀ {g}, g ∈ mfCommands → wr = true → mfOfKey L.mf (keyOf wr (mfOff L.mf g)) = some (wr, g) :=
    fun hm hw => hw ▸ mfOfKey_command hL hm
  cases g with
  | txfifo o =>
    obtain ⟨rfl, ho⟩ := Bool.and_eq_true_iff.1 hg
    exact (mfOfKey_window hL ho).1
  | rxfifo o =>
    obtain ⟨hw, ho⟩ := Bool.and_eq_true_iff.1 hg
    obtain rfl : wr = false := by simpa using hw
    exact (mfOfKey_window hL ho).2
  | rdbyte =>
    obtain rfl : wr = false := by simpa [mfAccessOk] using hg
    exact mfOfKey_rdbyte hL
  | busctl => exact command (by decide) hg
  | cs0 => exact command (by decide) hg
  | cs1 => exact command (by decide) hg
  | speed => exact command (by decide) hg
  | mode => exact command (by decide) hg
  | wrbyte => exact command (by decide) hg
  | read => exact command (by decide) hg

theorem mfOfKey_eq_some {L : Config.Layout} (hL : legalLayout L = true) {key : Nat} (hk : key < 0x2000) {wr : Bool}
    {g : MfReg} :
    mfOfKey L.mf key = some (wr, g) ↔ mfAccessOk L wr g = true ∧ key = keyOf wr (mfOff L.mf g) := by
  refine ⟨fun h => ?_, fun ⟨hg, he⟩ => he ▸ mfOfKey_keyOf hL hg⟩
  obtain ⟨he, hg⟩ := mfOfKey_ok hL hk h
  refine ⟨?_, he⟩
  rcases hg with ⟨o, ho, ⟨rfl, rfl⟩ | ⟨rfl, rfl⟩⟩ | ⟨rfl, hm⟩ | ⟨rfl, rfl⟩
  · exact ho
  · exact ho
  · simp only [mfCommands, List.mem_cons, List.not_mem_nil, or_false] at hm
    rcases hm with rfl | rfl | rfl | rfl | rfl | rfl | rfl <;> rfl
  · rfl

/-- What a read of an MF register is as an instruction. -/
theorem mfReadInstr_spec {g : MfReg} {i : Instr} (h : mfReadInstr g = some i) (L : Config.Layout) :
    i.wellFormed L = mfAccessOk L false g ∧ encode L i = mfReadIssue L.mf g := by
  cases g
  case rdbyte =>
    cases h
    exact ⟨rfl, rfl⟩
  case rxfifo o =>
    cases h
    exact ⟨rfl, rfl⟩
  all_goals cases h

/-- What a write of an MF register is as an instruction: its data in the register's own width. -/
theorem mfWriteInstr_spec {g : MfReg} {v : Nat} (hv : v < 256 ^ (mfWidth g / 8)) {i : Instr}
    (h : mfWriteInstr (BitVec.ofNat 32 v) g = some i) (L : Config.Layout) :
    i.wellFormed L = mfAccessOk L true g ∧ encode L i = mfWriteIssue L.mf g v := by
  cases g
  case rdbyte => cases h
  case rxfifo => cases h
  case txfifo o =>
    cases h
    have hv16 : v < 2 ^ 16 := by simpa [mfWidth] using hv
    refine ⟨rfl, congrArg (mfWriteIssue L.mf (.txfifo o)) ?_⟩
    rw [BitVec.toNat_setWidth, BitVec.toNat_ofNat]
    omega
  all_goals
    cases h
    exact ⟨rfl, congrArg (mfWriteIssue L.mf _) ((BitVec.toNat_ofNat v 32).trans (Nat.mod_eq_of_lt hv))⟩

/-- What decodes in the MF window is a read or a write of a register the window has, in the register's width. -/
theorem decodeMf_ok {L : Config.Layout} (hL : legalLayout L = true) {w : Nat} {bs rest : List Byte} {i : Instr}
    (h : decodeMf L.mf w bs = .ok (i, rest)) :
    ∃ g, w = mfWidth g ∧
      ((mfAccessOk L false g = true ∧ mfReadInstr g = some i ∧ bs = (mfReadIssue L.mf g).bytes ++ rest) ∨
        ∃ v, v < 256 ^ (mfWidth g / 8) ∧ mfAccessOk L true g = true ∧
          mfWriteInstr (BitVec.ofNat 32 v) g = some i ∧ bs = (mfWriteIssue L.mf g v).bytes ++ rest) := by
  simp only [decodeMf, bind_eq_ok, Prod.exists, takeKey_eq_ok] at h
  obtain ⟨key, bs', ⟨hlt, rfl⟩, h⟩ := h
  cases hk : mfOfKey L.mf key with
  | none => simp [hk] at h
  | some x =>
    obtain ⟨wr, g⟩ := x
    obtain ⟨hg, rfl⟩ := (mfOfKey_eq_some hL hlt).1 hk
    simp only [hk] at h
    split at h
    case isFalse => cases h
    case isTrue hw =>
      refine ⟨g, hw, ?_⟩
      cases wr with
      | false =>
        simp only [Bool.false_eq_true, if_false, bind_eq_ok, orUnmapped_eq_ok, pure_eq_ok, Except.ok.injEq,
          Prod.mk.injEq] at h
        obtain ⟨_, hi, rfl, rfl⟩ := h
        exact .inl ⟨hg, hi, rfl⟩
      | true =>
        simp only [if_true, bind_eq_ok, Prod.exists, takeLe_eq_ok, orUnmapped_eq_ok, pure_eq_ok, Except.ok.injEq,
          Prod.mk.injEq] at h
        obtain ⟨v, _, ⟨hv, rfl⟩, _, hi, rfl, rfl⟩ := h
        exact .inr ⟨v, hv, hg, hi, (List.append_assoc ..).symm⟩

end Sys2Proof
end

section
/-! PROOFS. Decoding and encoding agree (spec 30_encoding R90 to R102): under a legal layout what decodes is exactly the
encoding of a well-formed instruction, and what follows it stays; reserved fields spell nothing. -/

namespace Sys2Proof

open Sys2Proof.Machine (ok_bind error_bind throw_eq_error)

/-! ## Every word and every instruction -/

/-- What decodes is a well-formed instruction, and the bytes taken are its encoding. -/
theorem decode_ok {L : Config.Layout} (hL : legalLayout L = true) {p : Port} {bs rest : List Byte} {i : Instr}
    (h : decode L p bs = .ok (i, rest)) :
    i.wellFormed L = true ∧ p = (encode L i).port ∧ bs = (encode L i).bytes ++ rest := by
  cases p with
  | op =>
    obtain ⟨k, bs', rfl, hk⟩ := decodeOp_ok h
    cases k with
    | contract u o =>
      obtain ⟨x, hx, rfl, rfl, rfl⟩ := ContractCall.of_decode hk
      simp [hx, opIssue]
    | loader o =>
      obtain ⟨a, x, ha, hx, rfl, rfl, rfl⟩ := LoaderCall.of_decode hk
      simp [ha, hx, loaderIssue]
  | rcWindow w =>
    obtain ⟨rfl, g, hg, ⟨rfl, hb⟩ | ⟨v, rfl, hb⟩⟩ := decodeRc_ok hL h
    · rw [encode_rcReadInstr]
      exact ⟨hg, rfl, hb⟩
    · rw [encode_rcWriteInstr, wellFormed_rcWriteInstr]
      exact ⟨hg, rfl, hb⟩
  | mfWindow w =>
    obtain ⟨g, rfl, ⟨hg, hi, hb⟩ | ⟨v, hv, hg, hi, hb⟩⟩ := decodeMf_ok hL h
    · obtain ⟨hwf, he⟩ := mfReadInstr_spec hi L
      rw [hwf, he]
      exact ⟨hg, rfl, hb⟩
    · obtain ⟨hwf, he⟩ := mfWriteInstr_spec hv hi L
      rw [hwf, he]
      exact ⟨hg, rfl, hb⟩

/-- The families of instructions, by the words that spell them (R90). -/
inductive Spelled : Instr → Prop where
  | contract (u : BusUnit) (x : ContractCall) : Spelled (x.instr u)
  | loader (h : Nat) (x : LoaderCall) : Spelled (x.instr h)
  | rcRead (g : RcReg) : Spelled (rcReadInstr g)
  | rcWrite (v : Word) (g : RcReg) : Spelled (rcWriteInstr v g)
  | mfRead {g : MfReg} {i : Instr} (hi : mfReadInstr g = some i) : Spelled i
  | mfWrite {g : MfReg} {v : Nat} (hv : v < 256 ^ (mfWidth g / 8)) {i : Instr}
      (hi : mfWriteInstr (BitVec.ofNat 32 v) g = some i) : Spelled i

/-- A write of a command register, its data a number. -/
theorem spelled_mfCommand {g : MfReg} {i : Instr} {v : Word} (hg : mfWidth g = 32) (hi : mfWriteInstr v g = some i) :
    Spelled i :=
  .mfWrite (v := v.toNat) (by rw [hg]; exact v.isLt) (by rw [BitVec.ofNat_toNat, BitVec.setWidth_eq, hi])

theorem spelled : ∀ i, Spelled i
  | .bbSetup => .contract .bb .setup
  | .bbClaim cs => .contract .bb (.claim cs)
  | .bbRelease s => .contract .bb (.release s)
  | .bbSetSpeed s hz => .contract .bb (.setSpeed s hz)
  | .bbSetMode s m => .contract .bb (.setMode s m)
  | .bbSetWordlen s w => .contract .bb (.setWordlen s w)
  | .bbTransfer s d => .contract .bb (.transfer s d)
  | .rcSetup => .contract .rc .setup
  | .rcClaim cs => .contract .rc (.claim cs)
  | .rcRelease s => .contract .rc (.release s)
  | .rcSetSpeed s hz => .contract .rc (.setSpeed s hz)
  | .rcSetMode s m => .contract .rc (.setMode s m)
  | .rcSetWordlen s w => .contract .rc (.setWordlen s w)
  | .rcTransfer s d => .contract .rc (.transfer s d)
  | .mfSetup => .contract .mf .setup
  | .mfClaim cs => .contract .mf (.claim cs)
  | .mfRelease s => .contract .mf (.release s)
  | .mfSetSpeed s hz => .contract .mf (.setSpeed s hz)
  | .mfSetMode s m => .contract .mf (.setMode s m)
  | .mfSetWordlen s w => .contract .mf (.setWordlen s w)
  | .mfTransfer s d => .contract .mf (.transfer s d)
  | .ldErase offset len h => .loader h (.erase offset len)
  | .ldRead offset len dst h => .loader h (.read offset len dst)
  | .ldWrite offset src len h => .loader h (.write offset src len)
  | .ldSync h => .loader h .sync
  | .ldLock offset len h => .loader h (.lock offset len)
  | .ldUnlock offset len h => .loader h (.unlock offset len)
  | .rcChconfR c => .rcRead (.conf c)
  | .rcChconfW c v => .rcWrite v (.conf c)
  | .rcChstatR c => .rcRead (.stat c)
  | .rcChstatW c v => .rcWrite v (.stat c)
  | .rcChctrlR c => .rcRead (.ctrl c)
  | .rcChctrlW c v => .rcWrite v (.ctrl c)
  | .rcTxR c => .rcRead (.tx c)
  | .rcTxW c v => .rcWrite v (.tx c)
  | .rcRxR c => .rcRead (.rx c)
  | .rcRxW c v => .rcWrite v (.rx c)
  | .rcSharedR j => .rcRead (.shared j)
  | .rcSharedW j v => .rcWrite v (.shared j)
  | .mfTxfifoW o v => .mfWrite (g := .txfifo o) (by simpa [mfWidth] using v.isLt) (by simp [mfWriteInstr])
  | .mfBusctlW _ => spelled_mfCommand (g := .busctl) rfl rfl
  | .mfCs0W _ => spelled_mfCommand (g := .cs0) rfl rfl
  | .mfCs1W _ => spelled_mfCommand (g := .cs1) rfl rfl
  | .mfSpeedW _ => spelled_mfCommand (g := .speed) rfl rfl
  | .mfModeW _ => spelled_mfCommand (g := .mode) rfl rfl
  | .mfWrbyteW _ => spelled_mfCommand (g := .wrbyte) rfl rfl
  | .mfRdbyteR => .mfRead (g := .rdbyte) rfl
  | .mfReadW _ => spelled_mfCommand (g := .read) rfl rfl
  | .mfRxfifoR o => .mfRead (g := .rxfifo o) rfl

/-- A well-formed instruction decodes from its encoding, and what follows it stays. -/
theorem decode_encode_append {L : Config.Layout} (hL : legalLayout L = true) {i : Instr} (hi : i.wellFormed L = true)
    (rest : List Byte) : decode L (encode L i).port ((encode L i).bytes ++ rest) = .ok (i, rest) := by
  cases spelled i with
  | contract u x =>
    rw [ContractCall.wellFormed_instr] at hi
    rw [ContractCall.encode_instr, ← ContractCall.decode_bytes u hi rest]
    simp only [opIssue, decode, List.append_assoc, decodeOp_headerOf, decodeOperands]
  | loader h x =>
    rw [LoaderCall.wellFormed_instr, Bool.and_eq_true] at hi
    obtain ⟨hh, hx⟩ := hi
    rw [LoaderCall.encode_instr, ← LoaderCall.decode_bytes hh hx rest]
    simp only [loaderIssue, decode, List.append_assoc, decodeOp_headerOf, decodeOperands]
  | rcRead g =>
    obtain ⟨ho, hk⟩ := rcOfKey_keyOf hL hi false
    rw [encode_rcReadInstr]
    exact decode_rcWindow_read ho hk rest
  | rcWrite v g =>
    obtain ⟨ho, hk⟩ := rcOfKey_keyOf hL (wellFormed_rcWriteInstr L v g ▸ hi) true
    rw [encode_rcWriteInstr]
    exact (congrArg _ (List.append_assoc ..)).trans (decode_rcWindow_write ho hk v rest)
  | mfRead h =>
    obtain ⟨hwf, he⟩ := mfReadInstr_spec h L
    have hg := hwf ▸ hi
    rw [he]
    exact decode_mfWindow_read rfl (mfOff_lt hL hg) (mfOfKey_keyOf hL hg) h rest
  | mfWrite hv h =>
    obtain ⟨hwf, he⟩ := mfWriteInstr_spec hv h L
    have hg := hwf ▸ hi
    rw [he]
    exact (congrArg _ (List.append_assoc ..)).trans
      (decode_mfWindow_write rfl (mfOff_lt hL hg) (mfOfKey_keyOf hL hg) hv h rest)

theorem decodeIssue_encode {L : Config.Layout} (hL : legalLayout L = true) {i : Instr}
    (hi : i.wellFormed L = true) : decodeIssue L (encode L i) = .ok i := by
  have h := decode_encode_append hL hi []
  rw [List.append_nil] at h
  rw [decodeIssue, h]

/-- Settles O3: an instruction is spelled by a contract call, a loader call or a register access, and each of these
decodes from its encoding. -/
theorem decodeEncode : Obligations.DecodeEncode := by
  unfold Obligations.DecodeEncode
  exact ⟨legal_layout, fun L i hL hi => decodeIssue_encode hL hi⟩

/-- Settles O4: by the port, and there by what the header or the key names. -/
theorem encodeDecode : Obligations.EncodeDecode := by
  unfold Obligations.EncodeDecode
  exact fun L p bs rest i hL h => decode_ok hL h

/-! ## Words written out (R106) -/

/-- Settles O2: each word is the encoding of its instruction. -/
theorem wordsDecode : Obligations.WordsDecode := by
  unfold Obligations.WordsDecode
  have spells : ∀ {i : Instr}, i.wellFormed Config.layout = true →
      decodeIssue Config.layout (encode Config.layout i) = .ok i := decodeIssue_encode legal_layout
  exact ⟨spells (i := .bbSetSpeed 7 1000000#32) rfl, spells (i := .rcClaim 3#8) rfl,
    spells (i := .mfSetMode 5 { cpha := true, cpol := true, csHigh := false }) rfl, spells (i := .ldSync 2) rfl,
    spells (i := .rcChconfW 1 0x001003C0#32) rfl, spells (i := .rcSharedR 10) rfl,
    spells (i := .mfTxfifoW 2 0x3412#16) rfl, spells (i := .mfRdbyteR) rfl⟩

/-- Settles O1: the numbers by evaluation, and the tables' readings because a header or key finds the row it was made
from. -/
theorem workedEncodings : Obligations.WorkedEncodings := by
  unfold Obligations.WorkedEncodings
  exact ⟨rfl, rfl, rfl, rfl, opOfHeader_headerOf (.contract .rc .transfer), opOfHeader_headerOf (.contract .bb .claim),
    opOfHeader_headerOf (.contract .mf .setMode), opOfHeader_headerOf (.loader .write), rfl, rfl, rfl, rfl, rfl, rfl,
    (rcOfKey_keyOf legal_layout (g := .conf 1) rfl true).2, (rcOfKey_keyOf legal_layout (g := .stat 0) rfl false).2,
    (rcOfKey_keyOf legal_layout (g := .rx 3) rfl false).2⟩

/-! ## What spells no operation (R102) -/

theorem takeByte_cons (b : Byte) (bs : List Byte) : takeByte (b :: bs) = .ok (b, bs) := by
  simp [takeByte, takeLe]

/-- A buffer operand reads as its address modulo what the field holds. -/
theorem takeBuf_bufBytes_mod (o : Option Nat) (bs : List Byte) :
    takeBuf (bufBytes o ++ bs) = .ok (o.map (· % 256 ^ 8), bs) := by
  cases o with
  | none => exact takeBuf_bufBytes rfl bs
  | some a => simp [takeBuf, bufBytes, takeByte_leBytes_nat, takeAddr, takeLe_leBytes]

theorem takeFlags_reserved {b : Byte} (hb : 8 ≤ b.toNat) (bs : List Byte) :
    takeFlags (b :: bs) = .error .reservedFlags := by
  simp [takeFlags, takeByte_cons, Nat.not_lt.2 hb]

theorem takeMode_reserved {b : Byte} (hb : 8 ≤ b.toNat) (bs : List Byte) :
    takeMode (b :: bs) = .error .reservedMode := by
  simp [takeMode, takeByte_cons, Nat.not_lt.2 hb]

theorem takeBus_mismatch {b : Byte} (hb : b ≠ 0#8) (bs : List Byte) :
    takeBus (b :: bs) = .error .busUnitMismatch := by
  simp [takeBus, takeByte_cons, hb]

theorem takeDesc_reserved (n : Word) (out inp : Option Nat) {b : Byte} (hb : 8 ≤ b.toNat) (bs : List Byte) :
    takeDesc (leBytes 4 n.toNat ++ (bufBytes out ++ (bufBytes inp ++ b :: bs))) = .error .reservedFlags := by
  simp only [takeDesc, takeWord_leBytes, takeBuf_bufBytes_mod, takeFlags_reserved hb, ok_bind, error_bind]

/-- Settles O5: by the field that refuses. -/
theorem reservedOperationsRefused : Obligations.ReservedOperationsRefused := by
  unfold Obligations.ReservedOperationsRefused
  refine ⟨?header, ?flags, ?mode, ?bus⟩
  case header =>
    intro L h bs hlt hcontract hloader
    have hnone : opOfHeader h = none := Option.eq_none_iff_forall_ne_some.2 fun k hk => by
      rw [opOfHeader_eq_some.1 hk] at hcontract hloader
      exact (headerOf_fields k).elim hcontract hloader
    have htake := takeLe_leBytes_lt (k := 2) (v := h) hlt bs
    simp only [decode, decodeOp, htake, ok_bind, hnone, throw_eq_error]
  case flags =>
    intro L u s n out inp b bs hb
    simp only [decode, List.append_assoc, decodeOp_headerOf, decodeOperands, decodeContract, takeSid, takeLe_leBytes,
      takeDesc_reserved n out inp hb, ok_bind, error_bind]
  case mode =>
    intro L u s b bs hb
    simp only [decode, List.append_assoc, decodeOp_headerOf, decodeOperands, decodeContract, takeSid, takeLe_leBytes,
      takeMode_reserved hb, ok_bind, error_bind]
  case bus =>
    intro L u o b bs ho hb
    rcases ho with rfl | rfl
    · simp only [decode, decodeOp_headerOf, decodeOperands, decodeContract, takeBus_mismatch hb, error_bind]
    · simp only [decode, decodeOp_headerOf, decodeOperands, decodeContract, takeBus_mismatch hb, error_bind]

end Sys2Proof
end

section
/-! PROOFS. SETUP, CLAIM, RELEASE and the setters (spec 40_contract R120 to R126): each instruction is one operation of
the contract on its unit, and each operation is an equation for every way its checks fall. -/

namespace Sys2Proof.Machine

/-! ## An instruction is an operation on its unit (R137) -/

theorem exec_setupInstr (u : BusUnit) (s : State) : exec (setupInstr u) s = finish (setupOp u s) := by
  cases u <;> rfl

theorem exec_claimInstr (u : BusUnit) (cs : BitVec 8) (s : State) :
    exec (claimInstr u cs) s = finish (claimOp u cs s) := by
  cases u <;> rfl

theorem exec_releaseInstr (u : BusUnit) (sid : Nat) (s : State) :
    exec (releaseInstr u sid) s = finish (releaseOp u sid s) := by
  cases u <;> rfl

theorem exec_setSpeedInstr (u : BusUnit) (sid : Nat) (hz : Word) (s : State) :
    exec (setSpeedInstr u sid hz) s = finish (setSpeedOp u sid hz s) := by
  cases u <;> rfl

theorem exec_setModeInstr (u : BusUnit) (sid : Nat) (m : Mode) (s : State) :
    exec (setModeInstr u sid m) s = finish (setModeOp u sid m s) := by
  cases u <;> rfl

theorem exec_setWordlenInstr (u : BusUnit) (sid : Nat) (w : BitVec 8) (s : State) :
    exec (setWordlenInstr u sid w) s = finish (setWordlenOp u sid w s) := by
  cases u <;> rfl

theorem exec_transferInstr (u : BusUnit) (sid : Nat) (d : Desc) (s : State) :
    exec (transferInstr u sid d) s = finish (transferOp u sid d s) := by
  cases u <;> rfl

/-! ## The session an operation names (R120) -/

theorem Live.session {u : BusUnit} {sid : Nat} {S : Session} {s : State} (h : Live u sid S s) :
    liveSession u sid s = .ok S := liveSession_of h.1 h.2

theorem liveSession_of_not_live {u : BusUnit} {sid : Nat} {s : State} (h : ∀ S, ¬ Live u sid S s) :
    liveSession u sid s = .error .notClaimed := liveSession_error fun S hc hid => h S ⟨hc, hid⟩

/-- A transfer is its unit's body behind the checks all units share (R127). -/
theorem transferOp_eq_checked (u : BusUnit) (d : Desc) :
    ∃ body, ∀ sid s, transferOp u sid d s = checkedTransfer u sid d body s := by
  cases u
  · exact ⟨bbTransferBody d, fun _ _ => rfl⟩
  · exact ⟨rcTransferBody d, fun _ _ => rfl⟩
  · exact ⟨mfTransferBody d, fun _ _ => rfl⟩

theorem transferOp_not_live {u : BusUnit} {sid : Nat} {s : State} (h : ∀ S, ¬ Live u sid S s) (d : Desc) :
    transferOp u sid d s = .error .notClaimed := by
  obtain ⟨body, hbody⟩ := transferOp_eq_checked u d
  rw [hbody, checkedTransfer, liveSession_of_not_live h, error_bind]

/-- Settles O23: each operation begins by looking its session up. -/
theorem notClaimed : Obligations.NotClaimed := by
  unfold Obligations.NotClaimed
  intro u s sid hn
  have hs := liveSession_of_not_live hn
  refine ⟨?_, fun hz => ?_, fun m => ?_, fun w => ?_, fun d => ?_⟩
  · rw [exec_releaseInstr, releaseOp, hs, error_bind, finish_error]
  · rw [exec_setSpeedInstr, setSpeedOp, hs, error_bind, finish_error]
  · rw [exec_setModeInstr, setModeOp, hs, error_bind, finish_error]
  · rw [exec_setWordlenInstr, setWordlenOp, hs, error_bind, finish_error]
  · rw [exec_transferInstr, transferOp_not_live hn, finish_error]

/-! ## SETUP (R121) -/

theorem claimed_eq_false {b : BusRec} (h : b.cur = none) : b.claimed = false := by
  rw [BusRec.claimed, h, Option.isSome_none]

theorem claimed_eq_true {b : BusRec} (h : b.cur ≠ none) : b.claimed = true := Option.isSome_iff_ne_none.2 h

/-- The secondary select of any bus (R137): its latch and its event, when the bus has one. -/
theorem cs2_eq (u : BusUnit) (a : Bool) (s : State) : cs2 u a s = { s.setBus u { s.bus u with
      cs2Asserted := if (s.bus u).profile.hasCs2 then a else (s.bus u).cs2Asserted } with
    trace := s.trace ++ pins (cs2Events u (s.bus u).profile a) } := by
  unfold cs2 cs2Events
  cases h : (s.bus u).profile.hasCs2 with
  | false => cases u <;> simp [State.setBus] <;> rfl
  | true => cases u <;> simp [driveCs2, emitPin, emit, State.setBus, pins]

/-- R190, R232: the window and the secondary select obtained. -/
theorem windowBind_binds {u : BusUnit} {s : State} (hw : (s.bus u).profile.windowOk = true)
    (hc : (s.bus u).profile.hasCs2 = true → (s.bus u).profile.cs2Ok = true) :
    windowBind u s = (true, cs2 u false s) := by
  cases h : (s.bus u).profile.hasCs2
  · simp [windowBind, hw, h]
  · simp [windowBind, hw, hc h]

/-- R190, R232, R285: one of the two not obtained; nothing is driven (log 17). -/
theorem windowBind_fails {u : BusUnit} {s : State} (h : (s.bus u).profile.windowOk = false ∨
    (s.bus u).profile.hasCs2 = true ∧ (s.bus u).profile.cs2Ok = false) : windowBind u s = (false, s) := by
  rcases h with hw | ⟨h2, hok⟩
  · simp [windowBind, hw]
  · simp [windowBind, h2, hok]

theorem unitBind_window {u : BusUnit} (hu : u ≠ .bb) (s : State) : unitBind u s = windowBind u s := by
  cases u
  · exact absurd rfl hu
  · rfl
  · rfl

/-- R121: a SETUP of a bus that is not claimed, by what its unit's bind answers. -/
theorem exec_setup_free {u : BusUnit} {ok : Bool} {s t : State} (hcur : (s.bus u).cur = none)
    (hb : unitBind u s = (ok, t)) : exec (setupInstr u) s = .next { t.setBus u { t.bus u with cfgOk := ok } with
      result := some (if ok then .ok else .error .resourceUnavailable) } := by
  rw [exec_setupInstr, setupOp_eq hcur (congrArg Prod.fst hb), hb, finish_ok]

/-- Settles O18: by what the window's bind answers. -/
theorem windowSetup : Obligations.WindowSetup := by
  unfold Obligations.WindowSetup
  intro u s hu hcur
  refine ⟨fun hw hc => ?_, fun h => ?_⟩
  · rw [exec_setup_free hcur ((unitBind_window hu s).trans (windowBind_binds hw hc)), cs2_eq]
    cases u <;> rfl
  · rw [exec_setup_free hcur ((unitBind_window hu s).trans (windowBind_fails h))]
    rfl

/-- R150, everything obtained and the counts equal: each line of the count is not asserted, at the level its slave's
profile gives (log 19). -/
theorem bbBind_spec {s : State} (hl : s.bb.bus.profile.linesOk = true)
    (hc : s.bb.bus.profile.hasCs2 = true → s.bb.bus.profile.cs2Ok = true)
    (hn : s.bb.bus.profile.nbound = s.bb.bus.profile.ncs) : ∃ lines levels,
    bbBind s = (true, { s with
      bb := { s.bb with
        csAsserted := lines,
        csLevel := levels,
        nbound := s.bb.bus.profile.nbound,
        bus := { s.bb.bus with
          cs2Asserted := if s.bb.bus.profile.hasCs2 then false else s.bb.bus.cs2Asserted } },
      trace := s.trace ++ pins ((List.range s.bb.bus.profile.ncs.toNat).map (fun i => .cs .bb i false) ++
        cs2Events .bb s.bb.bus.profile false) }) ∧
    ∀ i, i < 256 →
      lines.getLsbD i = (decide (s.bb.bus.profile.ncs.toNat ≤ i) && s.bb.csAsserted.getLsbD i) ∧
      levels.getLsbD i = (if i < s.bb.bus.profile.ncs.toNat then !(s.bb.bus.profile.slave i).csHigh
        else s.bb.csLevel.getLsbD i) := by
  obtain ⟨lines, levels, hlines, hbits⟩ := deassertLines_spec s.bb.bus.profile.ncs.toNat 0 (latchBound true s)
  refine ⟨lines, levels, ?_, fun i hi => ?_⟩
  · rw [bbBind_binds hl hc hn, hlines, cs2_eq, pins_append, List.range_eq_range', ← List.append_assoc]
    rfl
  · obtain ⟨hline, hlevel⟩ := hbits i hi
    rw [hline, hlevel]
    by_cases h : i < s.bb.bus.profile.ncs.toNat
    · simp [h, Nat.not_le.2 h]
    · simp [h, Nat.le_of_not_lt h]

/-- Settles O17: by what `bbBind` answers. -/
theorem bbSetup : Obligations.BbSetup := by
  unfold Obligations.BbSetup
  intro s hcur
  refine ⟨fun hl hc hn => ?_, fun hl => exec_setup_free (u := .bb) hcur (bbBind_lines hl),
    fun hl h => exec_setup_free (u := .bb) hcur (bbBind_fails hl h)⟩
  obtain ⟨lines, levels, hb, hbits⟩ := bbBind_spec hl hc hn
  exact ⟨_, exec_setup_free (u := .bb) hcur hb, rfl, rfl, hbits⟩

/-! ## The accesses of MF's operations (43_mmfifo R222, R224, R225) -/

theorem mfWrite_busctl_claim (s : State) : mfWrite .busctl 1#32 s = .ok { s with
    mf := { s.mf with claimed := true }, trace := s.trace ++ [.reg (mfW .busctl 1#32)] } := rfl

theorem mfWrite_busctl_release (s : State) : mfWrite .busctl 0#32 s = .ok { s with
    mf := { s.mf with claimed := false }, trace := s.trace ++ [.reg (mfW .busctl 0#32)] } := rfl

theorem mfWrite_speed (v : Word) (s : State) : mfWrite .speed v s = .ok { s with
    mf := { s.mf with speed := v }, trace := s.trace ++ [.reg (mfW .speed v)] } := rfl

/-- No mode bit is a reserved bit of MODE. -/
theorem modeWord_masked (cpol cpha csHigh : Bool) :
    modeWord cpol cpha csHigh &&& modeMask = modeWord cpol cpha csHigh := by
  revert cpol cpha csHigh
  decide

theorem mfWrite_modeWord (cpol cpha csHigh : Bool) (s : State) :
    mfWrite .mode (modeWord cpol cpha csHigh) s = .ok { s with
    mf := { s.mf with mode := modeWord cpol cpha csHigh },
    trace := s.trace ++ [.reg (mfW .mode (modeWord cpol cpha csHigh))] } := by
  simp only [mfWrite, modeWord_masked]
  rfl

/-! ## CLAIM (R122) -/

/-- R122: past its three checks a CLAIM opens a session. -/
theorem claimOp_opens {u : BusUnit} {cs : BitVec 8} {s : State} (hcur : (s.bus u).cur = none)
    (hcs : cs.toNat < claimLimit u s.rc.nchan (s.bus u).profile) (hok : (s.bus u).cfgOk = true) :
    claimOp u cs s = openSession u cs s := by
  simp [claimOp, claimed_eq_false hcur, Nat.not_le.2 hcs, hok]

theorem claimOp_noSuchChipSelect {u : BusUnit} {cs : BitVec 8} {s : State} (hcur : (s.bus u).cur = none)
    (hcs : claimLimit u s.rc.nchan (s.bus u).profile ≤ cs.toNat) :
    claimOp u cs s = .ok (.error .noSuchChipSelect, s) := by
  simp [claimOp, claimed_eq_false hcur, hcs]

theorem claimOp_resourceUnavailable {u : BusUnit} {cs : BitVec 8} {s : State} (hcur : (s.bus u).cur = none)
    (hcs : cs.toNat < claimLimit u s.rc.nchan (s.bus u).profile) (hok : (s.bus u).cfgOk = false) :
    claimOp u cs s = .ok (.error .resourceUnavailable, s) := by
  simp [claimOp, claimed_eq_false hcur, Nat.not_le.2 hcs, hok]

/-- Settles O19: neither unit acts at a CLAIM but to store the profile's speed. -/
theorem claimBbRc : Obligations.ClaimBbRc := by
  unfold Obligations.ClaimBbRc
  intro u s cs hu hcur hok hcs
  have hlimit : cs.toNat < claimLimit u s.rc.nchan (s.bus u).profile := by
    cases u
    · exact hcs
    · exact hcs
    · exact absurd rfl hu
  rw [exec_claimInstr, claimOp_opens hcur hlimit hok]
  cases u
  · rfl
  · rfl
  · exact absurd rfl hu

/-- Settles O20: the three accesses one after the other. -/
theorem claimMf : Obligations.ClaimMf := by
  unfold Obligations.ClaimMf
  rintro s cs _ rfl hcur hok hcs _ rfl
  have hop : claimOp .mf cs s = openSession .mf cs s := claimOp_opens hcur hcs hok
  refine (congrArg finish hop).trans ?_
  simp only [openSession, unitClaim, unitSetSpeed, unitSetMode, mfWrite_busctl_claim, mfWrite_speed, mfWrite_modeWord,
    ok_bind, pure_eq_ok, finish_ok]
  simp [putSession, State.setBus, State.bus, newSession, Config.wlInitial, modeWord, modeByte]

/-- Settles O21: the checks of CLAIM and of SETUP in their order. -/
theorem claimErrors : Obligations.ClaimErrors := by
  unfold Obligations.ClaimErrors
  intro u s cs limit hlimit
  have hl : limit = claimLimit u s.rc.nchan (s.bus u).profile := by rw [hlimit]; cases u <;> rfl
  subst hl
  refine ⟨fun hcur => ⟨?_, ?_⟩, fun hcur hcs => ?_, fun hcur hcs hok => ?_⟩
  · simp [exec_claimInstr, claimOp, claimed_eq_true hcur]
  · simp [exec_setupInstr, setupOp, claimed_eq_true hcur]
  · rw [exec_claimInstr, claimOp_noSuchChipSelect hcur hcs, finish_ok]
  · rw [exec_claimInstr, claimOp_resourceUnavailable hcur hcs hok, finish_ok]

/-! ## RELEASE (R123) -/

/-- R123: a RELEASE with the select not asserted is its unit's action, and the end of the session. -/
theorem releaseOp_ends {u : BusUnit} {sid : Nat} {S : Session} {s t : State} (hl : Live u sid S s)
    (hoff : primaryAsserted u S.cs s = false) (ht : unitRelease u s = .ok t) :
    releaseOp u sid s = .ok (.nothing, t.setBus u { t.bus u with cur := none }) := by
  simp [releaseOp, hl.session, hoff, ht]

theorem releaseOp_selected {u : BusUnit} {sid : Nat} {S : Session} {s : State} (hl : Live u sid S s)
    (hon : primaryAsserted u S.cs s = true) : releaseOp u sid s = .error .releaseWhileSelected := by
  simp [releaseOp, hl.session, hon]

/-- R234: MF's select is asserted when the slot of the chip-select holds 0. -/
theorem primaryAsserted_mf {cs : BitVec 8} {s : State} : primaryAsserted .mf cs s = true ↔
    (cs = 0#8 ∧ s.mf.cs0 = false) ∨ (cs = 1#8 ∧ s.mf.cs1 = false) := by
  simp [primaryAsserted]

/-- Settles O22: by whether the primary select is asserted. -/
theorem release : Obligations.Release := by
  unfold Obligations.Release
  refine ⟨fun u s sid S hu hl hoff => ?_, fun s sid S hl h0 h1 => ?_, fun s sid S =>
    ⟨fun hl hon => ?_, fun hl hon => ?_, fun hl hon => ?_⟩⟩
  · rw [exec_releaseInstr]
    cases u
    · rw [releaseOp_ends hl hoff rfl, finish_ok]
    · rw [releaseOp_ends hl hoff rfl, finish_ok]
    · exact absurd rfl hu
  · have hoff : primaryAsserted .mf S.cs s = false := by
      rw [Bool.eq_false_iff, Ne, primaryAsserted_mf]
      rintro (⟨hcs, hlow⟩ | ⟨hcs, hlow⟩)
      · exact absurd ((h0 hcs).symm.trans hlow) (by decide)
      · exact absurd ((h1 hcs).symm.trans hlow) (by decide)
    exact congrArg finish (releaseOp_ends hl hoff (mfWrite_busctl_release s))
  · exact congrArg finish (releaseOp_selected hl hon)
  · exact congrArg finish (releaseOp_selected hl hon)
  · exact congrArg finish (releaseOp_selected hl (primaryAsserted_mf.2 hon))

/-! ## The setters (R124 to R126) -/

theorem setSpeedOp_live {u : BusUnit} {sid : Nat} {S : Session} {hz : Word} {s t : State} (hl : Live u sid S s)
    (ht : unitSetSpeed u S hz s = .ok t) : setSpeedOp u sid hz s = .ok (.nothing, t) := by
  simp [setSpeedOp, hl.session, ht]

/-- The session with the three bits of a mode (R125). -/
def Session.withMode (S : Session) (m : Mode) : Session :=
  { S with cpol := m.cpol, cpha := m.cpha, csHigh := m.csHigh }

theorem setModeOp_live {u : BusUnit} {sid : Nat} {S : Session} {m : Mode} {s t : State} (hl : Live u sid S s)
    (ht : unitSetMode u (S.withMode m) (putSession u (S.withMode m) s) = .ok t) :
    setModeOp u sid m s = .ok (.nothing, t) := by
  have hset : setModeOp u sid m s =
      (unitSetMode u (S.withMode m) (putSession u (S.withMode m) s) >>= fun t => .ok (.nothing, t)) := by
    rw [setModeOp, hl.session]
    rfl
  rw [hset, ht, ok_bind]

theorem setWordlenOp_live {u : BusUnit} {sid : Nat} {S : Session} {s : State} (hl : Live u sid S s) (w : BitVec 8) :
    setWordlenOp u sid w s = .ok (.nothing, putSession u { S with wordlen := w } s) := by
  simp [setWordlenOp, hl.session]

theorem delayOf_zero (dm : Word) : delayOf dm 0#32 = dm := if_pos rfl

/-- The first law of `DelayOf` (41_bitbang R153). -/
theorem delayOf_le (dm hz : Word) : (delayOf dm hz).toNat ≤ dm.toNat := by
  unfold delayOf
  split
  · exact Nat.le_refl _
  · have hmod : (Config.freeDelay hz).toNat % (dm.toNat + 1) < dm.toNat + 1 := Nat.mod_lt _ (Nat.succ_pos _)
    rw [BitVec.toNat_ofNat]
    exact Nat.le_trans (Nat.mod_le _ _) (Nat.le_of_lt_succ hmod)

/-- Settles O24: the delay stored, and the two laws of `DelayOf`. -/
theorem bbSetSpeed : Obligations.BbSetSpeed := by
  unfold Obligations.BbSetSpeed
  exact ⟨fun s sid S hz hl => congrArg finish (setSpeedOp_live (hz := hz) hl rfl), delayOf_le, delayOf_zero⟩

/-- The least index of those counted whose divided clock does not exceed the request (42_regctl R193). -/
theorem leastDiv_least {refHz hz k : Nat} {n j : Nat} (hj : j ≤ k) (hk : k < j + n) (hfits : refHz / 2 ^ k ≤ hz)
    (hleast : ∀ i, i < k → hz < refHz / 2 ^ i) : leastDiv refHz hz n j = k := by
  induction n generalizing j with
  | zero => omega
  | succ n ih =>
    rw [leastDiv]
    by_cases hjk : j = k
    · rw [hjk, if_pos hfits]
    · have hlt : j < k := by omega
      rw [if_neg (Nat.not_le.2 (hleast j hlt)), ih hlt (by omega)]

/-- 15 when none of the indices counted will do (R193). -/
theorem leastDiv_none {refHz hz n j : Nat} (h : ∀ i, j ≤ i → i < j + n → hz < refHz / 2 ^ i) :
    leastDiv refHz hz n j = 15 := by
  induction n generalizing j with
  | zero => rfl
  | succ n ih =>
    rw [leastDiv, if_neg (Nat.not_le.2 (h j (Nat.le_refl _) (by omega)))]
    exact ih fun i hi hlt => h i (by omega) (by omega)

/-- Settles O25: `leastDiv` counts from 0 over the sixteen indices. -/
theorem rcSetSpeed : Obligations.RcSetSpeed := by
  unfold Obligations.RcSetSpeed
  refine ⟨fun s sid S hz hl => congrArg finish (setSpeedOp_live (hz := hz) hl rfl), fun ref hz k hk hfits hleast => ?_,
    fun ref hz h => ?_, by decide, by decide, by decide, by decide, by decide, by decide⟩
  · rw [selectDiv, leastDiv_least (Nat.zero_le k) (by omega) hfits hleast, BitVec.toNat_ofNat]
    exact Nat.mod_eq_of_lt (by omega)
  · rw [selectDiv, leastDiv_none fun i _ hi => h i (by omega)]

/-- Settles O27: BB and RC store the bits; MF writes them to MODE too. -/
theorem setMode : Obligations.SetMode := by
  unfold Obligations.SetMode
  refine ⟨fun u s sid S m hu hl => ?_, ?_⟩
  · rw [exec_setModeInstr]
    cases u
    · rw [setModeOp_live hl rfl]; rfl
    · rw [setModeOp_live hl rfl]; rfl
    · exact absurd rfl hu
  · rintro s sid S m _ hl rfl
    exact congrArg finish (setModeOp_live hl (mfWrite_modeWord m.cpol m.cpha m.csHigh _))

end Sys2Proof.Machine
end

section
/-! PROOFS. TRANSFER's checks (spec 40_contract R126, R127): the seven tests in their order, each under the negations of
those before it. -/

namespace Sys2Proof.Machine

/-! ## Tests 2 to 6 -/

section
variable {u : BusUnit} {S : Session} {d : Desc}

theorem entryError_wordlen (hw : S.wordlen.toNat < 4 ∨ 32 < S.wordlen.toNat) :
    entryError u S d = some .bitLengthNotWordAligned := if_pos hw

/-- A word length within the limits leaves the tests 3 to 6. -/
theorem entryError_of_wordlen (h4 : 4 ≤ S.wordlen.toNat) (h32 : S.wordlen.toNat ≤ 32) : entryError u S d =
    if d.flags.lsb ∧ S.wordlen.toNat ≠ 8 then some .unsupportedBitOrder
    else if u = .rc ∧ d.flags.lsb ∧ d.inp.isSome then some .unsupportedBitOrder
    else if d.n ≠ 0#32 ∧ d.n.toNat % S.wordlen.toNat ≠ 0 then some .bitLengthNotWordAligned
    else if u = .mf ∧ d.n.toNat % 8 ≠ 0 then some .bitLengthNotWordAligned
    else none :=
  if_neg (not_or.2 ⟨Nat.not_lt.2 h4, Nat.not_lt.2 h32⟩)

variable (h4 : 4 ≤ S.wordlen.toNat) (h32 : S.wordlen.toNat ≤ 32)
include h4 h32

theorem entryError_lsb (hlsb : d.flags.lsb = true) (hw : S.wordlen ≠ 8#8) :
    entryError u S d = some .unsupportedBitOrder := by
  rw [entryError_of_wordlen h4 h32, if_pos ⟨hlsb, fun h => hw (BitVec.eq_of_toNat_eq h)⟩]

theorem entryError_rcInput (hu : u = .rc) (hlsb : d.flags.lsb = true) (hin : d.inp ≠ none) :
    entryError u S d = some .unsupportedBitOrder := by
  have hboth : u = .rc ∧ d.flags.lsb = true ∧ d.inp.isSome = true := ⟨hu, hlsb, Option.isSome_iff_ne_none.2 hin⟩
  rw [entryError_of_wordlen h4 h32, if_pos hboth, ite_self]

variable (hlsb : d.flags.lsb = true → S.wordlen = 8#8) (hrc : u = .rc → d.flags.lsb = true → d.inp = none)
include hlsb hrc

/-- A bit order that is supported leaves the tests 5 and 6. -/
theorem entryError_of_bitOrder : entryError u S d =
    if d.n ≠ 0#32 ∧ d.n.toNat % S.wordlen.toNat ≠ 0 then some .bitLengthNotWordAligned
    else if u = .mf ∧ d.n.toNat % 8 ≠ 0 then some .bitLengthNotWordAligned
    else none := by
  rw [entryError_of_wordlen h4 h32, if_neg, if_neg]
  · rintro ⟨hu, hl, hin⟩
    exact Option.isSome_iff_ne_none.1 hin (hrc hu hl)
  · rintro ⟨hl, hw⟩
    exact hw (congrArg BitVec.toNat (hlsb hl))

theorem entryError_words (hn : d.n ≠ 0#32) (hmod : d.n.toNat % S.wordlen.toNat ≠ 0) :
    entryError u S d = some .bitLengthNotWordAligned := by
  rw [entryError_of_bitOrder h4 h32 hlsb hrc, if_pos ⟨hn, hmod⟩]

theorem entryError_bytes (hu : u = .mf) (hmod : d.n.toNat % 8 ≠ 0) :
    entryError u S d = some .bitLengthNotWordAligned := by
  have hmf : u = .mf ∧ d.n.toNat % 8 ≠ 0 := ⟨hu, hmod⟩
  rw [entryError_of_bitOrder h4 h32 hlsb hrc, if_pos hmf, ite_self]

theorem entryError_none (hwords : d.n.toNat % S.wordlen.toNat = 0) (hbytes : u = .mf → d.n.toNat % 8 = 0) :
    entryError u S d = none := by
  rw [entryError_of_bitOrder h4 h32 hlsb hrc, if_neg fun h => h.2 hwords, if_neg fun h => h.2 (hbytes h.1)]

end

/-! ## Test 7 (20_memory R81) -/

theorem overlapping_of_not_apart {d : Desc} {l : Nat} (h : ¬ Apart d l) : overlapping d.out d.inp l = true := by
  cases ho : d.out with
  | none => exact absurd (fun a b ha _ => by simp [ho] at ha) h
  | some a =>
    cases hi : d.inp with
    | none => exact absurd (fun a b _ hb => by simp [hi] at hb) h
    | some b =>
      have hab : ¬ (a = b ∨ a + l ≤ b ∨ b + l ≤ a) := fun hab => h fun x y hx hy => by
        rw [ho, Option.some.injEq] at hx
        rw [hi, Option.some.injEq] at hy
        exact hx ▸ hy ▸ hab
      have hne : a ≠ b := fun e => hab (.inl e)
      simp only [overlapping, ne_eq, Bool.and_eq_true, decide_eq_true_eq]
      exact ⟨⟨hne, by omega⟩, by omega⟩

/-! ## The transfer of a live session -/

theorem exec_transfer_error {u : BusUnit} {sid : Nat} {S : Session} {d : Desc} {s : State} {e : Err}
    (hl : Live u sid S s) (he : entryError u S d = some e) :
    exec (transferInstr u sid d) s = .next { s with result := some (.error e) } := by
  obtain ⟨body, hbody⟩ := transferOp_eq_checked u d
  rw [exec_transferInstr, hbody, checkedTransfer, hl.session, ok_bind, he]
  rfl

theorem exec_transfer_overlap {u : BusUnit} {sid : Nat} {S : Session} {d : Desc} {s : State} (hl : Live u sid S s)
    (he : entryError u S d = none) (ho : overlapping d.out d.inp (byteLen d.n.toNat) = true) :
    exec (transferInstr u sid d) s = .fault .bufferOverlap := by
  obtain ⟨body, hbody⟩ := transferOp_eq_checked u d
  rw [exec_transferInstr, hbody, checkedTransfer, hl.session, ok_bind, he]
  simp [ho]

/-- Settles O28: the word length is stored, and test 2 reads it. -/
theorem setWordlen : Obligations.SetWordlen := by
  unfold Obligations.SetWordlen
  intro u s sid S bits hl
  refine ⟨?_, fun hw d => exec_transfer_error hl (entryError_wordlen hw)⟩
  rw [exec_setWordlenInstr, setWordlenOp_live hl, finish_ok]
  rfl

/-- Settles O29: one law for each test. -/
theorem transferChecks : Obligations.TransferChecks := by
  unfold Obligations.TransferChecks
  intro u s sid d
  refine ⟨fun hn => ?session, fun S hl => ⟨fun hw => ?wordlen, fun h4 h32 => ⟨fun hlsb hw => ?lsb,
    fun hu hlsb hin => ?rcInput, fun hlsb hrc => ⟨fun hn hmod => ?words, fun hu hmod => ?bytes,
    fun hwords hbytes hap => ?overlap⟩⟩⟩⟩
  case session => rw [exec_transferInstr, transferOp_not_live hn, finish_error]
  case wordlen => exact exec_transfer_error hl (entryError_wordlen hw)
  case lsb => exact exec_transfer_error hl (entryError_lsb h4 h32 hlsb hw)
  case rcInput => exact exec_transfer_error hl (entryError_rcInput h4 h32 hu hlsb hin)
  case words => exact exec_transfer_error hl (entryError_words h4 h32 hlsb hrc hn hmod)
  case bytes => exact exec_transfer_error hl (entryError_bytes h4 h32 hlsb hrc hu hmod)
  case overlap =>
    exact exec_transfer_overlap hl (entryError_none h4 h32 hlsb hrc hwords hbytes) (overlapping_of_not_apart hap)

end Sys2Proof.Machine
end

section
/-! PROOFS. TRANSFER on BB (spec 41_bitbang R156 to R160): what the begin and end phases leave of the bus around an
exchange or without one, and the transfer assembled from the two phases and `bbExchange_spec`. -/

namespace Sys2Proof.Machine

/-! ## The begin and end phases (40_contract R128, R133) -/

/-- Line `c` of an array after the phases the flags name: `b` is what BEGIN drives it to, `e` what END does. -/
def phaseLine (f : Flags) (c : Nat) (b e : Bool) (lines : BitVec 256) : BitVec 256 :=
  let begun := if f.begins then putLine lines c b else lines
  if f.ends then putLine begun c e else begun

theorem phaseLine_getLsbD (f : Flags) (c : Nat) (b e : Bool) (lines : BitVec 256) {i : Nat} (hi : i < 256) :
    (phaseLine f c b e lines).getLsbD i =
      if i = c then (if f.ends then e else if f.begins then b else lines.getLsbD i) else lines.getLsbD i := by
  unfold phaseLine
  by_cases hc : i = c
  · subst hc
    cases f.begins <;> cases f.ends <;> simp [putLine_getLsbD _ _ _ hi]
  · cases f.begins <;> cases f.ends <;> simp [putLine_getLsbD _ _ _ hi, hc]

/-- The bus of BB after the phases the flags name, its clock and MOSI at the levels given. -/
def bbPhased (S : Session) (f : Flags) (sclk mosi : Bool) (x : BbBus) : BbBus :=
  { x with
    sclk := sclk,
    mosi := mosi,
    csAsserted := phaseLine f S.cs.toNat true false x.csAsserted,
    csLevel := phaseLine f S.cs.toNat S.csHigh (!S.csHigh) x.csLevel,
    bus := { x.bus with cs2Asserted := cs2Left f x.bus } }

/-- What a transfer that leaves the bus `bbPhased` says of each select. -/
theorem bbPhased_selects (S : Session) (f : Flags) (sclk mosi : Bool) (x : BbBus) {i : Nat} (hi : i < 256) :
    (bbPhased S f sclk mosi x).csAsserted.getLsbD i =
      (if i = S.cs.toNat then selectLeft f (x.csAsserted.getLsbD i) else x.csAsserted.getLsbD i) ∧
    (bbPhased S f sclk mosi x).csLevel.getLsbD i =
      (if i = S.cs.toNat then levelLeft f S.csHigh (x.csLevel.getLsbD i) else x.csLevel.getLsbD i) :=
  ⟨phaseLine_getLsbD f _ true false _ hi, phaseLine_getLsbD f _ S.csHigh (!S.csHigh) _ hi⟩

/-- The begin phase, when the flag is set. -/
def bbBegun (S : Session) (f : Flags) (s : State) : State := if f.begins then bbBegin S s else s

/-- The end phase, when the flag is set. -/
def bbEnded (S : Session) (f : Flags) (s : State) : State := if f.ends then bbEnd S s else s

theorem bbBegun_eq (S : Session) (f : Flags) (s : State) :
    bbBegun S f s = { s with
      bb := bbPhased S { f with ends := false } (if f.begins then S.cpol else s.bb.sclk) s.bb.mosi s.bb,
      trace := s.trace ++ pins (whenSet f.begins (bbBeginEvents S s.bb.bus.profile)) } := by
  cases h : f.begins <;> cases hc : s.bb.bus.profile.hasCs2 <;>
    simp [bbBegun, h, hc, bbBegin_spec, bbPhased, phaseLine, cs2Left, selectLeft, whenSet]

/-- The end phase closes what the begin phase opened, whatever clock, data and trace the exchange between left. -/
theorem bbEnded_eq {S : Session} {f : Flags} {x : BbBus} {sclk mosi : Bool} {s : State}
    (hs : s.bb = bbPhased S { f with ends := false } sclk mosi x) :
    bbEnded S f s = { s with
      bb := bbPhased S f (if f.ends then S.cpol else sclk) mosi x,
      trace := s.trace ++ pins (whenSet f.ends (bbEndEvents S x.bus.profile)) } := by
  have hp : s.bb.bus.profile = x.bus.profile := by rw [hs]; rfl
  cases h : f.ends with
  | false =>
    have hf : { f with ends := false } = f := by rw [← h]
    rw [hf] at hs
    simp [bbEnded, h, whenSet, ← hs]
  | true =>
    simp only [bbEnded, h, if_true, bbEnd_spec, hp, whenSet]
    rw [hs]
    cases hc : x.bus.profile.hasCs2 <;> simp [bbPhased, phaseLine, cs2Left, selectLeft, h, hc]

/-! ## The transfer -/

theorem exec_bbTransfer_body {sid : Nat} {S : Session} {d : Desc} {s : State} (hl : Live .bb sid S s)
    (hd : Legal .bb S d) : exec (.bbTransfer sid d) s = .next { bbEnded S d.flags
      (if exchanges d then bbExchange S d (bbBegun S d.flags s) else bbBegun S d.flags s) with
        result := some (transferResult d) } :=
  congrArg finish (checkedTransfer_legal hl hd)

/-- Settles O30: the end phase follows the begin phase. -/
theorem bbSelectOnly : Obligations.BbSelectOnly := by
  unfold Obligations.BbSelectOnly
  intro s sid S d hl hd hnone
  have hex := exchanges_false hnone
  have hbus : (bbBegun S d.flags s).bb = bbPhased S { d.flags with ends := false }
      (if d.flags.begins then S.cpol else s.bb.sclk) s.bb.mosi s.bb := by rw [bbBegun_eq]
  have hclk : (if d.flags.ends then S.cpol else if d.flags.begins then S.cpol else s.bb.sclk) =
      if d.flags.begins || d.flags.ends then S.cpol else s.bb.sclk := by
    cases d.flags.begins <;> cases d.flags.ends <;> rfl
  refine ⟨_, _, ?_, fun i hi => bbPhased_selects S d.flags
    (if d.flags.begins || d.flags.ends then S.cpol else s.bb.sclk) s.bb.mosi s.bb hi⟩
  rw [exec_bbTransfer_body hl hd, transferResult, hex, if_neg Bool.false_ne_true, bbEnded_eq hbus, hclk, bbBegun_eq]
  simp only [pins_append, List.append_assoc]
  rfl

/-- Settles O31: the begin phase, the exchange in the state it leaves, the end phase. -/
theorem bbTransfer : Obligations.BbTransfer := by
  unfold Obligations.BbTransfer
  intro s sid S d hl hd hn hbuf hw
  have hex := exchanges_true hn hbuf
  have hn' : d.n.toNat ≠ 0 := fun h => hn (BitVec.eq_of_toNat_eq h)
  generalize ha : bbBegun S d.flags s = a
  have hae := ha.symm.trans (bbBegun_eq S d.flags s)
  obtain ⟨hfast, hfast0, -⟩ := chooseFast_spec S d a
  have hx := bbExchange_spec (S := S) (d := d) (s := a) (by rw [hae]; exact hw) hd.buffers
  generalize (chooseFast S d a).1 = fast at hfast hfast0 hx
  generalize he : bbExchange S d a = e at hx
  obtain ⟨hbb, htrace, hmem, hwf, hmiso, hrest⟩ := hx
  have hbus : e.bb = bbPhased S { d.flags with ends := false } S.cpol
      (outBit d.out d.flags.lsb s.mem (d.n.toNat - 1)) s.bb := by
    rw [hbb, hae, sclkAfter, mosiAfter, if_neg hn', if_neg hn']
    rfl
  have hend := bbEnded_eq hbus
  rw [ite_self] at hend
  have hrun := exec_bbTransfer_body hl hd
  rw [hex, if_pos rfl, ha, he, hend, transferResult, hex, if_pos rfl] at hrun
  refine ⟨fast, _, hrun, fun hin => ?_, fun hout hin hcpha => ?_, rfl, ?_, ?_, hwf, rfl,
    fun i hi => bbPhased_selects S d.flags _ _ s.bb hi, ?_⟩
  · rw [Bool.eq_false_iff]
    intro hf
    obtain ⟨hout, hinp⟩ := hfast hf
    exact hin.elim (Option.isSome_iff_ne_none.1 hout) fun h => h hinp
  · exact hfast0 (Option.isSome_iff_ne_none.2 hout) hin hcpha
  · show e.trace ++ _ = _
    rw [htrace, hae]
    simp only [pins_append, List.append_assoc]
  · rw [hae] at hmem
    exact hmem
  · rw [hae] at hrest hmiso
    rw [hmiso] at hrest
    rw [hrest]

end Sys2Proof.Machine
end

section
/-! PROOFS. BB with MOSI wired to MISO (spec 41_bitbang R163): an input buffer as a stream of bits, and buffers that
agree on a whole byte's stream bits hold the same byte. -/

namespace Sys2Proof.Machine

/-- A filled input buffer, read as a stream in the order it was filled, is the input bits (20_memory R62, R63). -/
theorem InputStored.outBit_eq {lsb : Bool} {b n : Nat} {i : Nat → Bool} {m m' : Memory}
    (h : InputStored lsb b n i m m') {k : Nat} (hk : k < n) : outBit (some b) lsb m' k = i k := by
  obtain ⟨hbits, -⟩ := h
  rw [outBit_some, ← bitPos_mod, hbits (k / 8) (k % 8) (by unfold byteLen; omega) (Nat.mod_lt k (by decide)),
    Nat.div_add_mod]
  simp [hk]

/-- `bitPos` is its own inverse on a byte: bit `q` of byte `j` is stream bit `8 * j + bitPos lsb q`. -/
theorem outBit_bitPos (a : Nat) (lsb : Bool) (m : Memory) (j : Nat) {q : Nat} (hq : q < 8) :
    outBit (some a) lsb m (8 * j + bitPos lsb q) = (readByte m (a + j)).getLsbD q := by
  have hlt := bitPos_lt lsb q
  have hbyte : (8 * j + bitPos lsb q) / 8 = j := by omega
  have hbit : bitPos lsb (8 * j + bitPos lsb q) = q := by
    cases lsb <;> simp only [bitPos, if_true, Bool.false_eq_true, if_false] <;> omega
  rw [outBit_some, hbyte, hbit]

/-- Byte `j` of two buffers is the same when their streams agree on its eight bits. -/
theorem readByte_eq_of_outBit_eq {a b : Nat} {lsb : Bool} {m m' : Memory} {j : Nat}
    (h : ∀ p, p < 8 → outBit (some b) lsb m' (8 * j + p) = outBit (some a) lsb m (8 * j + p)) :
    readByte m' (b + j) = readByte m (a + j) := by
  apply BitVec.eq_of_getLsbD_eq
  intro q hq
  rw [← outBit_bitPos b lsb m' j hq, ← outBit_bitPos a lsb m j hq]
  exact h _ (bitPos_lt lsb q)

/-- Settles O33: the transfer stores the samples, the samples are the output stream, and whole bytes follow from their
bits. -/
theorem bbLoopback : Obligations.BbLoopback := by
  unfold Obligations.BbLoopback
  intro s sid S d a b hl hd hn hout hin hw hwire
  obtain ⟨_, t, ht, -, -, hres, -, hstored, -⟩ := bbTransfer s sid S d hl hd hn (.inl (by simp [hout])) hw
  rw [hin] at hstored
  have hstream : ∀ k, k < d.n.toNat → outBit d.inp d.flags.lsb t.mem k = outBit d.out d.flags.lsb s.mem k :=
    fun k hk => by rw [hin, InputStored.outBit_eq hstored hk, hwire k hk]
  refine ⟨t, ht, hres, hstream, fun _ j hj => ?_⟩
  rw [hin, hout] at hstream
  exact readByte_eq_of_outBit_eq fun p hp => hstream _ (by omega)

end Sys2Proof.Machine
end

section
/-! PROOFS. The selects of RC (spec 42_regctl R185, R187): what evolves has the select events of its changes, and a step
evolves. -/

namespace Sys2Proof.Machine

/-- R187: some other channel is forced or shifting. -/
theorem otherActive_eq_true {r : RcBus} {c : Nat} : otherActive r c = true ↔
    ∃ k, k < r.nchan ∧ k ≠ c ∧ ((r.chan k).conf.getLsbD 20 = true ∨ (r.chan k).busy = true) := by
  simp [otherActive, Channel.active, Channel.force]

theorem active_eq_false {x : Channel} : x.active = false ↔ x.conf.getLsbD 20 = false ∧ x.busy = false := by
  simp [Channel.active, Channel.force]

/-- R187: no other channel is forced or shifting. -/
theorem otherActive_of_quiet {r : RcBus} {c : Nat}
    (h : ∀ k, k < r.nchan → k ≠ c → (r.chan k).conf.getLsbD 20 = false ∧ (r.chan k).busy = false) :
    otherActive r c = false :=
  otherActive_eq_false.2 fun k hk hne => active_eq_false.2 (h k hk hne)

/-- The events of one select in the trace of what evolves. -/
theorem Evolves.select {rep : Bool} {s t : State} (h : Evolves rep s t) {c : Nat} (hc : c < s.rc.nchan) :
    ∃ l, t.trace = s.trace ++ l ∧ selectAfter rep c (s.rc.chan c).active l = some (t.rc.chan c).active := by
  obtain ⟨l, htrace, hselects⟩ := h.traced.selects
  exact ⟨l, htrace, hselects c hc⟩

/-- Settles O12: `active` is FORCE or a word in flight, and an instruction or a step evolves. -/
theorem selectFollowsActive : Obligations.SelectFollowsActive := by
  unfold Obligations.SelectFollowsActive
  refine ⟨fun x => ⟨by simp [Channel.active, Channel.force], fun ha => ?level⟩,
    fun i s t c hc hexec => (exec_evolves hexec).select hc, fun s t c hc hstep => (step_evolves hstep).select hc⟩
  case level =>
    rw [Channel.csLevel, ha]
    cases x.conf.getLsbD 6 <;> rfl

end Sys2Proof.Machine
end

section
/-! PROOFS. The host's accesses of the RC window (spec 42_regctl R171 to R181): each instruction is one access of the
controller, and each access is an equation on a channel the controller has. -/

namespace Sys2Proof.Machine

/-! ## A host access ends with its value or with none -/

theorem finish_returnWrite (t : State) :
    finish (returnWrite (.ok t)) = .next { t with result := some .nothing } := rfl

/-- A read that is logged and has no side effect. -/
theorem finish_plainRead (g : RcReg) (v : Word) (s : State) :
    finish (returnRead (.ok (v, rcLog false g v s))) =
      .next { s with trace := s.trace ++ [rcR g v], result := some (.value v) } := rfl

/-! ## Bits of the registers -/

/-- A value with no reserved bit set has 0 in each. -/
theorem WithinMask.getLsbD_eq_false {mask v : Word} (h : WithinMask mask v) {i : Nat} (hi : mask.getLsbD i = false) :
    v.getLsbD i = false := by
  have hbit : (v &&& mask).getLsbD i = false := by rw [BitVec.getLsbD_and, hi, Bool.and_false]
  rwa [h] at hbit

/-- The bits of CONF that are not reserved (R171). -/
theorem confMask_getLsbD (i : Nat) : confMask.getLsbD i = (decide (i < 14) || decide (i = 20)) := by
  by_cases hi : i < 32
  · have hbits : ∀ i, i < 32 → confMask.getLsbD i = (decide (i < 14) || decide (i = 20)) := by decide
    exact hbits i hi
  · rw [BitVec.getLsbD_of_ge _ _ (Nat.not_lt.1 hi), eq_comm, Bool.or_eq_false_iff, decide_eq_false_iff_not,
      decide_eq_false_iff_not]
    omega

/-- The bit of CTRL that is not reserved (R175). -/
theorem ctrlMask_getLsbD (i : Nat) : ctrlMask.getLsbD i = decide (i = 0) := BitVec.getLsbD_one

/-- Bits 0 and 1 of STAT are its fields, the others 0 (10_state R29). -/
theorem stat_getLsbD_reserved (x : Channel) {i : Nat} (hi : 2 ≤ i) : x.stat.getLsbD i = false := by
  have h0 : i ≠ 0 := by omega
  have h1 : i - 1 ≠ 0 := by omega
  simp [Channel.stat, h0, h1]

/-! ## Plain reads -/

section
variable {c : Nat} {s : State} (hc : c < s.rc.nchan)
include hc

theorem rcRead_conf : rcRead (.conf c) s = .ok ((s.rc.chan c).conf, rcLog false (.conf c) (s.rc.chan c).conf s) :=
  if_pos (decide_eq_true hc)

theorem rcRead_ctrl : rcRead (.ctrl c) s = .ok ((s.rc.chan c).ctrl, rcLog false (.ctrl c) (s.rc.chan c).ctrl s) :=
  if_pos (decide_eq_true hc)

theorem rcRead_tx : rcRead (.tx c) s = .ok ((s.rc.chan c).tx, rcLog false (.tx c) (s.rc.chan c).tx s) :=
  if_pos (decide_eq_true hc)

end

theorem rcRead_shared {j : Nat} (hj : j < 11) (s : State) :
    rcRead (.shared j) s = .ok (s.rc.sharedWord j, rcLog false (.shared j) (s.rc.sharedWord j) s) :=
  if_pos (decide_eq_true hj)

/-- Settles O34: each read is its equation, and the invariant has the reserved bits 0. -/
theorem rcPlainReads : Obligations.RcPlainReads := by
  unfold Obligations.RcPlainReads
  refine ⟨fun s c hc => ⟨?conf, ?ctrl, ?tx, ⟨(s.rc.chan c).stat, ?stat, stat_getLsbD_rxs _, stat_getLsbD_txs _,
    fun i hi => stat_getLsbD_reserved _ hi⟩, fun hinv => ?reserved⟩, fun s j hj => ?shared⟩
  case conf => rw [exec, execRcChconfR, rcRead_conf hc, finish_plainRead]
  case ctrl => rw [exec, execRcChctrlR, rcRead_ctrl hc, finish_plainRead]
  case tx => rw [exec, execRcTxR, rcRead_tx hc, finish_plainRead]
  case stat => rw [exec, execRcChstatR, rcRead_stat hc]; rfl
  case reserved =>
    obtain ⟨hconf, hctrl, -⟩ := hinv.rc.chan c hc
    refine ⟨fun i hi hne => hconf.getLsbD_eq_false ?_, fun i hi => hctrl.getLsbD_eq_false ?_⟩
    · rw [confMask_getLsbD, decide_eq_false (Nat.not_lt.2 hi), decide_eq_false hne]; rfl
    · rw [ctrlMask_getLsbD, decide_eq_false (Nat.ne_of_gt hi)]
  case shared => rw [exec, execRcSharedR, rcRead_shared hj, finish_plainRead]

/-! ## Plain writes -/

section
variable {c : Nat} {s : State} (hc : c < s.rc.nchan) (v : Word)
include hc

theorem rcWrite_stat : rcWrite (.stat c) v s = .ok (rcLog true (.stat c) v s) := if_pos (decide_eq_true hc)

theorem rcWrite_rx : rcWrite (.rx c) v s = .ok (rcLog true (.rx c) v s) := if_pos (decide_eq_true hc)

theorem rcWrite_conf : rcWrite (.conf c) v s = confWrite c v (rcLog true (.conf c) v s) :=
  if_pos (decide_eq_true hc)

theorem rcWrite_ctrl : rcWrite (.ctrl c) v s = .ok (ctrlWrite c v (rcLog true (.ctrl c) v s)) :=
  if_pos (decide_eq_true hc)

end

theorem rcWrite_shared {j : Nat} (hj : j < 11) (v : Word) (s : State) :
    rcWrite (.shared j) v s = .ok { rcLog true (.shared j) v s with
      rc := { s.rc with shared := s.rc.shared.setIfInBounds j v } } :=
  if_pos (decide_eq_true hj)

/-- A word of SHARED after one of them was written (R181). -/
theorem sharedWord_set {j k : Nat} (r : RcBus) (hj : j < 11) (v : Word) :
    ({ r with shared := r.shared.setIfInBounds j v } : RcBus).sharedWord k = if k = j then v else r.sharedWord k := by
  unfold RcBus.sharedWord
  rw [Vector.getElem?_setIfInBounds]
  by_cases h : k = j
  · rw [if_pos h, if_pos h.symm, if_pos (h ▸ hj)]
  · rw [if_neg h, if_neg (Ne.symm h)]

/-- Settles O35: the writes are their equations. -/
theorem rcPlainWrites : Obligations.RcPlainWrites := by
  unfold Obligations.RcPlainWrites
  refine ⟨fun s c v hc => ⟨?stat, ?rx⟩, fun s j v hj => ?shared⟩
  case stat => rw [exec, execRcChstatW, rcWrite_stat hc, finish_returnWrite]; rfl
  case rx => rw [exec, execRcRxW, rcWrite_rx hc, finish_returnWrite]; rfl
  case shared =>
    have hrun := congrArg (fun x => finish (returnWrite x)) (rcWrite_shared hj v s)
    exact ⟨_, hrun, rfl, (sharedWord_set s.rc hj v).trans (if_pos rfl),
      fun k _ hne => (sharedWord_set s.rc hj v).trans (if_neg hne)⟩

/-! ## Writes of CONF (R171) -/

/-- The bits of a value written to CONF that the controller reads. -/
theorem conf_masked (v : Word) : (v &&& confMask).getLsbD 20 = v.getLsbD 20 ∧
    (v &&& confMask).extractLsb' 12 2 = v.extractLsb' 12 2 := by
  refine ⟨by simp [confMask_getLsbD], BitVec.eq_of_getLsbD_eq fun i hi => ?_⟩
  have hlow : 12 + i < 14 := by omega
  simp only [BitVec.getLsbD_extractLsb', BitVec.getLsbD_and, confMask_getLsbD, hlow, decide_true, Bool.true_or,
    Bool.and_true]

/-- The channel after a write of CONF. -/
def Channel.configured (x : Channel) (v : Word) : Channel :=
  { x with
    conf := v &&& 0x00103FFF#32,
    rxReq := if v.extractLsb' 12 2 = 1#2 ∧ x.ctrl.getLsbD 0 = true then true else x.rxReq }

theorem confWrite_fault {c : Nat} {v : Word} {s : State} (hf : v.getLsbD 20 = true) (ho : otherActive s.rc c = true) :
    confWrite c v s = .error .multiChannelActive := by
  have hnew : ({ s.rc.chan c with conf := v &&& confMask } : Channel).force = true := (conf_masked v).1.trans hf
  simp only [confWrite, hnew, ho, Bool.and_self, if_true]

theorem confWrite_ok {c : Nat} {v : Word} {s : State} (h : v.getLsbD 20 = false ∨ otherActive s.rc c = false) :
    confWrite c v s = .ok (emits (if (s.rc.chan c).busy = true ∨ (s.rc.chan c).conf.getLsbD 20 = v.getLsbD 20 then []
      else [.pin (.cs .rc c (v.getLsbD 20))]) (setChan c ((s.rc.chan c).configured v) s)) := by
  obtain ⟨hforce, htrm⟩ := conf_masked v
  have hok : (v.getLsbD 20 && otherActive s.rc c) = false := by
    rcases h with h | h
    · rw [h, Bool.false_and]
    · rw [h, Bool.and_false]
  simp only [confWrite, confSelectEvent_eq, confEvents, Channel.force, Channel.trm, Channel.en, hforce, htrm, hok,
    Bool.false_eq_true, if_false, Bool.or_eq_true, beq_iff_eq, Bool.and_eq_true]
  rfl

/-- Settles O36: by whether FORCE would be the second. -/
theorem rcConfWrite : Obligations.RcConfWrite := by
  unfold Obligations.RcConfWrite
  rintro s c v _ hc rfl
  refine ⟨fun hf hother => ?_, fun h => ?_⟩
  · have ho : otherActive (rcLog true (.conf c) v s).rc c = true := otherActive_eq_true.2 hother
    rw [exec, execRcChconfW, rcWrite_conf hc, confWrite_fault hf ho]
    rfl
  · have ho : v.getLsbD 20 = false ∨ otherActive (rcLog true (.conf c) v s).rc c = false :=
      h.imp_right otherActive_of_quiet
    rw [exec, execRcChconfW, rcWrite_conf hc, confWrite_ok ho, finish_returnWrite]
    rfl

/-! ## Writes of CTRL (R175) -/

theorem ctrl_masked (v : Word) : (v &&& ctrlMask).getLsbD 0 = v.getLsbD 0 := by simp [ctrlMask_getLsbD]

/-- Settles O37: by the EN bit before and in the value written. -/
theorem rcCtrlWrite : Obligations.RcCtrlWrite := by
  unfold Obligations.RcCtrlWrite
  rintro s c v _ hc rfl
  have hen := ctrl_masked v
  have hrun : exec (.rcChctrlW c v) s =
      .next { ctrlWrite c v (rcLog true (.ctrl c) v s) with result := some .nothing } := by
    rw [exec, execRcChctrlW, rcWrite_ctrl hc, finish_returnWrite]
  rw [hrun]
  simp only [ctrlWrite, abortEvents_eq, abortList, Channel.force, Channel.en, hen, rcLog_rc]
  refine ⟨fun hold hnew => ?_, fun hold hnew => ?_, fun hsame => ?_⟩
  · simp only [hold, hnew, Bool.not_false, Bool.and_self, if_true]
    rfl
  · simp only [hold, hnew, Bool.not_true, Bool.not_false, Bool.and_self, Bool.false_eq_true, if_true,
      if_false]
    rfl
  · simp only [hsame, Bool.not_and_self, Bool.and_not_self, Bool.false_eq_true, if_false]
    rfl

/-! ## TX and RX (R177, R179) -/

theorem rcWrite_tx_full {c : Nat} {s : State} (hc : c < s.rc.nchan) (v : Word)
    (h : (s.rc.chan c).txFull = true ∨ (s.rc.chan c).busy = true) : rcWrite (.tx c) v s = .error .txOverrun := by
  have hfull : ((s.rc.chan c).txFull || (s.rc.chan c).busy) = true := by simpa using h
  simp [rcWrite, rcMapped, hc, txWrite, hfull]

theorem rcRead_rx_empty {c : Nat} {s : State} (hc : c < s.rc.nchan) (h : (s.rc.chan c).rxFull = false) :
    rcRead (.rx c) s = .error .rxUnderrun := by
  simp [rcRead, rcMapped, hc, h]

/-- Settles O38: by whether the transmitter is empty and the receiver holds a word. -/
theorem rcTxWriteRxRead : Obligations.RcTxWriteRxRead := by
  unfold Obligations.RcTxWriteRxRead
  rintro s c v _ hc rfl
  refine ⟨fun hfull => ?overrun, fun hempty hidle => ?write, fun hempty => ?underrun, fun hfull => ?read⟩
  case overrun => rw [exec, execRcTxW, rcWrite_tx_full hc v hfull]; rfl
  case write => rw [exec, execRcTxW, rcWrite_tx hc v hempty hidle]; rfl
  case underrun => rw [exec, execRcRxR, rcRead_rx_empty hc hempty]; rfl
  case read =>
    rw [exec, execRcRxR, rcRead_rx hc hfull]
    simp only [Channel.rxTaken, Channel.en, Channel.trm, Bool.and_eq_true, beq_iff_eq]
    rfl

end Sys2Proof.Machine
end

section
/-! PROOFS. The shifter of RC (spec 42_regctl R182, R183): when a step starts or completes a word, and what either
leaves. -/

namespace Sys2Proof.Machine

/-- A word of `w` bits, bit by bit. -/
theorem lowBits_getLsbD_all (w : Nat) (v : Word) (i : Nat) :
    (lowBits w v).getLsbD i = (decide (i < w) && v.getLsbD i) := by
  by_cases hi : i < 32
  · exact lowBits_getLsbD w v hi
  · rw [BitVec.getLsbD_of_ge _ _ (Nat.not_lt.1 hi), BitVec.getLsbD_of_ge _ _ (Nat.not_lt.1 hi), Bool.and_false]

/-- The four values of TRM. -/
theorem trm_cases (t : BitVec 2) : t = 0#2 ∨ t = 1#2 ∨ t = 2#2 ∨ t = 3#2 := by
  revert t; decide

/-! ## Start (R182) -/

/-- R182: `Start` is enabled on an enabled channel with no word in flight, by what waits under its direction (log 25). -/
theorem startable_iff {x : Channel} (hb : x.busy = false) : x.startable = true ↔ x.en = true ∧
    ((x.trm = 0#2 ∨ x.trm = 2#2) ∧ x.txFull = true ∨ x.trm = 1#2 ∧ (x.rxReq = true ∧ x.rxFull = false) ∨
      x.trm = 3#2 ∧ (x.txFull = true ∨ (x.rxReq = true ∧ x.rxFull = false))) := by
  rcases trm_cases x.trm with h | h | h | h <;> simp [Channel.startable, Channel.receiveWaits, hb, h]

section
variable {c : Nat} {s : State}

theorem shifterStep_idle (hb : (s.rc.chan c).busy = false) (hs : (s.rc.chan c).startable = false) :
    shifterStep c s = .ok s := by
  simp [shifterStep, hb, hs]

variable (hc : c < s.rc.nchan)
include hc

theorem shifterStep_start (hb : (s.rc.chan c).busy = false) (hs : (s.rc.chan c).startable = true) :
    shifterStep c s = shifterStart c s := by
  simp [shifterStep, hc, hb, hs]

theorem shifterStep_complete (hb : (s.rc.chan c).busy = true) : shifterStep c s = shifterComplete c s := by
  simp [shifterStep, hc, hb]

end

section
variable {c : Nat} {s : State}

theorem shifterStart_reserved (h : (s.rc.chan c).wl.toNat < 3 ∨ (s.rc.chan c).trm = 3#2) :
    shifterStart c s = .error .reservedConfig := by
  simp [shifterStart, h]

variable (hwl : 3 ≤ (s.rc.chan c).wl.toNat) (htrm : (s.rc.chan c).trm ≠ 3#2)
include hwl htrm

theorem shifterStart_second (ho : otherActive s.rc c = true) : shifterStart c s = .error .multiChannelActive := by
  simp [shifterStart, Nat.not_lt.2 hwl, htrm, ho]

theorem shifterStart_alone (ho : otherActive s.rc c = false) :
    shifterStart c s = .ok (emits (if (s.rc.chan c).force = true then [] else [.pin (.cs .rc c true)])
      (setChan c (s.rc.chan c).started s)) := by
  simp only [shifterStart, Nat.not_lt.2 hwl, htrm, ho, decide_false, Bool.false_or, beq_iff_eq, if_false,
    Bool.false_eq_true]
  cases (s.rc.chan c).force
  · rfl
  · simp

end

/-- A start that meets no fault. -/
theorem shifterStart_eq_ok {c : Nat} {s t : State} (h : shifterStart c s = .ok t) :
    t = emits (if (s.rc.chan c).force = true then [] else [.pin (.cs .rc c true)])
      (setChan c (s.rc.chan c).started s) := by
  by_cases hr : (s.rc.chan c).wl.toNat < 3 ∨ (s.rc.chan c).trm = 3#2
  · rw [shifterStart_reserved hr] at h
    cases h
  · obtain ⟨hwl, htrm⟩ := not_or.1 hr
    cases ho : otherActive s.rc c with
    | true =>
      rw [shifterStart_second (Nat.not_lt.1 hwl) htrm ho] at h
      cases h
    | false =>
      rw [shifterStart_alone (Nat.not_lt.1 hwl) htrm ho] at h
      exact (Except.ok.inj h).symm

/-- What a start leaves of what waits, by the direction (R182). -/
theorem started_sending {x : Channel} (h : x.trm ≠ 1#2) :
    x.started.txFull = false ∧ x.started.rxReq = x.rxReq ∧ x.started.shOut = lowBits (x.wl.toNat + 1) x.tx := by
  simp [Channel.started, Channel.startWord, h]

theorem started_receiving {x : Channel} (h : x.trm = 1#2) :
    x.started.txFull = x.txFull ∧ x.started.rxReq = false ∧ x.started.shOut = 0#32 := by
  simp [Channel.started, Channel.startWord, h]

/-- Settles O39: by whether a start is enabled, whether its configuration is reserved, and whether another channel is
active. -/
theorem Settled.shifterStart : Obligations.ShifterStart := by
  unfold Obligations.ShifterStart
  rintro s c _ _ _ sends receives hc rfl rfl rfl hb hsends hreceives
  have hstart := startable_iff hb
  rw [← hsends, ← hreceives] at hstart
  refine ⟨fun hno => ?waits, fun hen htrm hwait => ?reserved, fun hen hwait => ?legal⟩
  case waits => exact shifterStep_idle hb (Bool.eq_false_iff.2 fun h => hno (hstart.1 h))
  case reserved =>
    rw [shifterStep_start hc hb (hstart.2 ⟨hen, .inr (.inr ⟨htrm, hwait⟩)⟩)]
    exact shifterStart_reserved (.inr htrm)
  case legal =>
    rw [shifterStep_start hc hb (hstart.2 ⟨hen, hwait.imp_right .inl⟩)]
    have htrm : (s.rc.chan c).trm ≠ 3#2 := by
      intro h
      rcases hwait with ⟨h' | h', -⟩ | ⟨h', -⟩ <;> exact absurd (h'.symm.trans h) (by decide)
    refine ⟨fun hwl => shifterStart_reserved (.inl hwl), fun hwl =>
      ⟨fun hother => shifterStart_second hwl htrm (otherActive_eq_true.2 hother), fun hquiet =>
      ⟨_, shifterStart_alone hwl htrm (otherActive_of_quiet hquiet), rfl, fun hsend => ?_, started_receiving⟩⟩⟩
    obtain ⟨htx, hreq, hout⟩ := started_sending hsend
    exact ⟨htx, hreq, fun i => by rw [hout]; exact lowBits_getLsbD_all _ _ i⟩

/-! ## Complete (R183) -/

/-- The direction receives: a word of it is delivered to RX. -/
def ShiftCfg.delivers (k : ShiftCfg) : Prop := k.trm = 0#2 ∨ k.trm = 1#2

theorem delivers_iff (k : ShiftCfg) : (k.trm == 0#2 || k.trm == 1#2) = true ↔ k.delivers := by
  simp [ShiftCfg.delivers]

theorem transmit_ne_of_delivers {k : ShiftCfg} (h : k.delivers) : k.trm ≠ 2#2 := by
  rcases h with h | h <;> rw [h] <;> decide

theorem drawWord_transmit {k : ShiftCfg} (h : k.trm = 2#2) (s : State) : drawWord k s = (none, s) := by
  simp [drawWord, h]

theorem drawWord_receive {k : ShiftCfg} (h : k.trm ≠ 2#2) (s : State) :
    drawWord k s = (some (lowBits (k.wl.toNat + 1) (s.env.word.answer Config.freeWord 0)),
      { s with env := { s.env with word := s.env.word.drop 1 } }) := by
  rw [← next_eq_answer, ← rest_eq_drop]
  simp [drawWord, h, ShiftCfg.bits]

/-- The events of completing a word: the word, and the end of its automatic select. -/
def completeEvents (c : Nat) (x : Channel) (inp : Option Word) : List Obs :=
  .pin (.word c (x.shCfg.wl.toNat + 1) x.shCfg.pol x.shCfg.pha (lowBits (x.shCfg.wl.toNat + 1) x.shOut) inp) ::
    (if x.force = true then [] else [.pin (.cs .rc c false)])

/-- R183: a completing word that finds room. -/
theorem shifterComplete_room {c : Nat} {s : State}
    (h : ¬ ((s.rc.chan c).shCfg.delivers ∧ (s.rc.chan c).rxFull = true)) {inp : Option Word} {m : State}
    (hdraw : drawWord (s.rc.chan c).shCfg s = (inp, m)) :
    shifterComplete c s =
      .ok (emits (completeEvents c (s.rc.chan c) inp) (setChan c ((s.rc.chan c).completed inp) m)) := by
  have hroom : (((s.rc.chan c).shCfg.trm == 0#2 || (s.rc.chan c).shCfg.trm == 1#2) && (s.rc.chan c).rxFull) = false := by
    rw [Bool.eq_false_iff, Ne, Bool.and_eq_true, delivers_iff]
    exact h
  simp only [shifterComplete, hdraw, hroom, Bool.false_eq_true, if_false]
  unfold completeEvents
  cases (s.rc.chan c).force
  · simp [emits, emitPin, emit, setChan, ShiftCfg.bits]
  · rfl

theorem shifterComplete_overrun {c : Nat} {s : State} (h : (s.rc.chan c).shCfg.delivers)
    (hfull : (s.rc.chan c).rxFull = true) : shifterComplete c s = .error .rxOverrun := by
  simp only [shifterComplete, (delivers_iff _).2 h, hfull, Bool.and_self, if_true]

/-- The channel once a word has completed shows its status bits (R183). -/
theorem shifterComplete_chan {c : Nat} {s t : State} (hc : c < s.rc.nchan) (h : shifterComplete c s = .ok t) :
    t.rc.chan c = (s.rc.chan c).completed (drawWord (s.rc.chan c).shCfg s).1 := by
  by_cases hover : (s.rc.chan c).shCfg.delivers ∧ (s.rc.chan c).rxFull = true
  · rw [shifterComplete_overrun hover.1 hover.2] at h
    cases h
  · have hrc := drawWord_rc (s.rc.chan c).shCfg s
    rcases hdraw : drawWord (s.rc.chan c).shCfg s with ⟨inp, m⟩
    rw [shifterComplete_room hover hdraw] at h
    obtain rfl := Except.ok.inj h
    rw [hdraw] at hrc
    exact chan_setChan_same (hrc ▸ hc) _

theorem completed_delivered {x : Channel} (h : x.shCfg.delivers) (r : Word) :
    x.completed (some r) = { x with busy := false, rx := r, rxFull := true } := if_pos ((delivers_iff _).2 h)

/-- A step of the shifter with no word in flight shifts no word and delivers none. -/
theorem shifterStep_no_word {c : Nat} {s t : State} (hc : c < s.rc.nchan) (hb : (s.rc.chan c).busy = false)
    (h : shifterStep c s = .ok t) : ∃ l, t.trace = s.trace ++ l ∧
      (∀ k w pol pha o i, .pin (.word k w pol pha o i) ∉ l) ∧ t.env = s.env ∧
      (t.rc.chan c).rx = (s.rc.chan c).rx ∧ (t.rc.chan c).rxFull = (s.rc.chan c).rxFull := by
  cases hs : (s.rc.chan c).startable with
  | false =>
    rw [shifterStep_idle hb hs] at h
    obtain rfl := Except.ok.inj h
    exact ⟨[], (List.append_nil _).symm, fun _ _ _ _ _ _ => List.not_mem_nil, rfl, rfl, rfl⟩
  | true =>
    rw [shifterStep_start hc hb hs] at h
    obtain rfl := shifterStart_eq_ok h
    have hchan : (emits (if (s.rc.chan c).force = true then [] else [.pin (.cs .rc c true)])
      (setChan c (s.rc.chan c).started s)).rc.chan c = (s.rc.chan c).started := chan_setChan_same hc _
    rw [hchan]
    refine ⟨_, rfl, fun k w pol pha o i => ?_, rfl, rfl, rfl⟩
    split <;> simp

/-- Settles O40: by whether a word is in flight, and by its direction. -/
theorem Settled.shifterComplete : Obligations.ShifterComplete := by
  unfold Obligations.ShifterComplete
  rintro s c _ _ _ hc rfl rfl rfl
  refine ⟨fun hb t ht => shifterStep_no_word hc hb ht, fun hb => ?busy, lowBits_getLsbD_all _ _⟩
  rw [shifterStep_complete hc hb]
  refine ⟨fun htrm => ?transmit, shifterComplete_overrun, fun htrm hempty => ?receive, fun t ht => ?status⟩
  case transmit =>
    have hroom : ¬ ((s.rc.chan c).shCfg.delivers ∧ (s.rc.chan c).rxFull = true) :=
      fun h => transmit_ne_of_delivers h.1 htrm
    rw [shifterComplete_room hroom (drawWord_transmit htrm s)]
    simp [emits, completeEvents, setChan, Channel.completed, Channel.force]
  case receive =>
    have hroom : ¬ ((s.rc.chan c).shCfg.delivers ∧ (s.rc.chan c).rxFull = true) := by simp [hempty]
    rw [shifterComplete_room hroom (drawWord_receive (transmit_ne_of_delivers htrm) s), completed_delivered htrm]
    simp [emits, completeEvents, setChan, Channel.force]
  case status =>
    rw [shifterComplete_chan hc ht]
    obtain ⟨-, -, hbusy, htx, -, -⟩ := completed_conf (s.rc.chan c) (drawWord (s.rc.chan c).shCfg s).1
    refine ⟨fun hempty => ?_, fun htrm => ?_⟩
    · exact (stat_getLsbD_txs _).trans (by rw [Channel.txs, hbusy, htx, hempty]; rfl)
    · refine (stat_getLsbD_rxs _).trans ?_
      rw [drawWord_receive (transmit_ne_of_delivers htrm) s, completed_delivered htrm]
      rfl

end Sys2Proof.Machine
end

section
/-! PROOFS. Words as line events (spec 42_regctl R186, 43_mmfifo R230): one bit cell for each bit, the most significant
first. -/

namespace Sys2Proof.Machine

/-- The cell of bit `j` of a word, sampled when the word receives (R186). -/
def bitCell (u : BusUnit) (pol pha : Bool) (out : Word) (inp : Option Word) (j : Nat) : List PinEvent :=
  let sample : List PinEvent := match inp with
    | some i => [.din u (i.getLsbD j)]
    | none => []
  if pha then PinEvent.clk u (!pol) :: .dout u (out.getLsbD j) :: .clk u pol :: sample
  else PinEvent.dout u (out.getLsbD j) :: .clk u (!pol) :: (sample ++ [PinEvent.clk u pol])

theorem expandWord_succ (u : BusUnit) (pol pha : Bool) (out : Word) (inp : Option Word) (w : Nat) :
    expandWord u pol pha out inp (w + 1) = bitCell u pol pha out inp w ++ expandWord u pol pha out inp w := rfl

theorem expandWord_eq_flatMap (u : BusUnit) (pol pha : Bool) (out : Word) (inp : Option Word) (w : Nat) :
    expandWord u pol pha out inp w =
      (List.range w).flatMap (fun j => bitCell u pol pha out inp (w - 1 - j)) := by
  induction w with
  | zero => rfl
  | succ w ih =>
    have hrest : ∀ j, w - 1 - j = w + 1 - 1 - (j + 1) := by omega
    rw [expandWord_succ, ih, List.range_succ_eq_map, List.flatMap_cons, List.flatMap_map]
    simp only [hrest]
    rfl

/-- At zero delay a cell of a word is a cell of BB (41_bitbang R157 to R159). -/
theorem bitCell_bb {S : Session} (h : S.delay = 0#32) (out : Word) (inp : Option Word) (j : Nat) :
    bitCell .bb S.cpol S.cpha out inp j = cellEvents S (out.getLsbD j) (inp.map (·.getLsbD j)) := by
  have hgap : gapEvents S = [] := if_pos h
  unfold bitCell cellEvents
  rw [hgap]
  cases S.cpha <;> cases inp <;> rfl

/-- The last `w` bits of a word are BB's cells from stream bit `k` on. -/
theorem expandWord_bb {S : Session} (h : S.delay = 0#32) (out : Word) (inp : Option Word) (w k : Nat) :
    expandWord .bb S.cpol S.cpha out inp w = cellsEvents S (fun j => out.getLsbD (k + w - 1 - j))
      (fun j => inp.map (·.getLsbD (k + w - 1 - j))) w k := by
  induction w generalizing k with
  | zero => rfl
  | succ w ih =>
    have hbit : k + (w + 1) - 1 - k = w := by omega
    have hnext : k + 1 + w - 1 = k + (w + 1) - 1 := by omega
    rw [expandWord_succ, bitCell_bb h, ih (k + 1), hnext, cellsEvents, hbit]

/-- A transmit-only word has no samples. -/
theorem din_not_mem_expandWord (u v : BusUnit) (pol pha b : Bool) (out : Word) (w : Nat) :
    .din v b ∉ expandWord u pol pha out none w := by
  induction w with
  | zero => exact List.not_mem_nil
  | succ w ih =>
    rw [expandWord_succ, List.mem_append, not_or]
    refine ⟨?_, ih⟩
    cases pha <;> simp [bitCell]

/-- A bit of a byte sent or received as a word. -/
theorem byteBit (b : Byte) (j : Nat) : (b.setWidth 32).getLsbD (8 - 1 - j) = b.getLsbD (7 - j) := by
  have hlt : 7 - j < 32 := by omega
  simp [hlt]

/-- Settles O41: each list is its cells, one for each bit. -/
theorem wordExpansion : Obligations.WordExpansion := by
  unfold Obligations.WordExpansion
  refine ⟨fun u pol pha out inp w => ?word, fun S out inp w h => ?bb,
    fun mode c w pol pha out inp => ⟨rfl, fun u b => din_not_mem_expandWord _ _ _ _ _ _ _⟩, fun mode o i => ?byte,
    fun x => ⟨?cs0, ?cs1⟩⟩
  case word =>
    rw [expandWord_eq_flatMap]
    cases inp <;> rfl
  case bb =>
    have hword := fun inp => expandWord_bb h out inp w 0
    rw [Nat.zero_add] at hword
    exact ⟨hword (some inp), hword none⟩
  case byte =>
    refine (expandWord_eq_flatMap ..).trans ?_
    simp only [bitCell, byteBit]
    rfl
  case cs0 => simp [MfBus.csLevel, selectLevel, MfBus.asserted]
  case cs1 => simp [MfBus.csLevel, selectLevel, MfBus.asserted]

end Sys2Proof.Machine
end

section
/-! PROOFS. The poll of RC's sequencer (spec 42_regctl R196): its last access is a read of STAT, and it expires only past
its deadline. -/

namespace Sys2Proof.Machine

/-- A read of STAT by the sequencer is the controller's, in the state the gap before it leaves. -/
theorem seqRead_stat {c : Nat} {s t : State} {v : Word} (hc : c < s.rc.nchan) (h : seqRead (.stat c) s = .ok (v, t)) :
    ∃ l, t.trace = s.trace ++ l ++ [rcR (.stat c) v] ∧ v = (t.rc.chan c).stat ∧ t.params = s.params := by
  obtain ⟨m, hgap, hread⟩ := bind_eq_ok.1 h
  have hevolves := shifterGap_evolves (rep := true) hgap
  obtain ⟨l, htrace⟩ := hevolves.trace
  rw [rcRead_stat (hevolves.nchan.symm ▸ hc)] at hread
  cases hread
  exact ⟨l, by rw [emit_trace, htrace], rfl, hevolves.params⟩

/-- What a poll that started at `t0` and ended has read (R196). -/
structure Polled (c b t0 : Nat) (s : State) (seen : Bool) (t : State) : Prop where
  last : ∃ l v, t.trace = s.trace ++ l ++ [rcR (.stat c) v] ∧ v = (t.rc.chan c).stat ∧ v.getLsbD b = seen
  expired : seen = false → s.params.tPoll < t.now - t0

theorem pollRounds_polled {c b t0 k : Nat} {s t : State} {seen : Bool} (hc : c < s.rc.nchan)
    (h : pollRounds c b t0 k s = .ok (seen, t)) : Polled c b t0 s seen t := by
  induction k generalizing s with
  | zero =>
    obtain ⟨⟨v, m⟩, hread, h⟩ := bind_eq_ok.1 h
    obtain ⟨l, htrace, hv, hparams⟩ := seqRead_stat hc hread
    dsimp only at h
    cases hbit : v.getLsbD b with
    | true =>
      rw [hbit, if_pos rfl] at h
      cases h
      exact ⟨⟨l, v, htrace, hv, hbit⟩, Bool.noConfusion⟩
    | false =>
      rw [hbit, if_neg Bool.false_ne_true] at h
      cases h
      refine ⟨⟨l, v, htrace, hv, hbit⟩, fun _ => ?_⟩
      rw [readNowFrom_now, hparams]
      omega
  | succ k ih =>
    have hseen := h
    obtain ⟨⟨v, m⟩, hread, h⟩ := bind_eq_ok.1 h
    obtain ⟨l, htrace, hv, hparams⟩ := seqRead_stat hc hread
    cases hbit : v.getLsbD b with
    | true =>
      simp only [hbit, if_true] at h
      cases h
      exact ⟨⟨l, v, htrace, hv, hbit⟩, Bool.noConfusion⟩
    | false =>
      rw [pollRounds_unseen hread hbit] at hseen
      split at hseen
      · rename_i hlate
        cases hseen
        exact ⟨⟨l, v, htrace, hv, hbit⟩, fun _ => hparams ▸ hlate⟩
      · have hcm : c < (readNow m).2.rc.nchan := (seqRead_works (rep := true) hread).evolves.nchan.symm ▸ hc
        obtain ⟨⟨l', v', htrace', hv', hbit'⟩, hexpired⟩ := ih hcm hseen
        refine ⟨⟨l ++ [rcR (.stat c) v] ++ l', v', ?_, hv', hbit'⟩, fun e => ?_⟩
        · rw [htrace', readNow_trace, htrace]
          simp only [List.append_assoc]
        · rw [← hparams]
          exact hexpired e

/-- Settles O43: the rounds of the poll, started at the first reading. -/
theorem pollEnds : Obligations.PollEnds := by
  unfold Obligations.PollEnds
  intro s t c b seen hc h
  obtain ⟨⟨l, v, htrace, hv, hbit⟩, hexpired⟩ := pollRounds_polled (s := (drawRounds (readNow s).2).2) hc h
  refine ⟨l, v, htrace, hv, hbit, fun e => ?_⟩
  rw [← next_eq_answer]
  exact hexpired e

end Sys2Proof.Machine
end

section
/-! PROOFS. A select-only transfer of RC (spec 42_regctl R197, R199): a phase programs CONF with its select event, and the
secondary select goes before a begin phase and after an end phase. -/

namespace Sys2Proof.Machine

/-! ## A transfer of the live session -/

theorem exec_rcTransfer_body {sid : Nat} {S : Session} {d : Desc} {s : State} (hl : Live .rc sid S s)
    (hd : Legal .rc S d) : exec (.rcTransfer sid d) s = finish (rcTransferBody d S s) :=
  congrArg finish (checkedTransfer_legal hl hd)

theorem rcTransferBody_exchange {S : Session} {d : Desc} {s : State} (hn : d.n ≠ 0#32)
    (hb : d.out ≠ none ∨ d.inp ≠ none) : rcTransferBody d S s = rcExchange S S.cs.toNat d s :=
  if_pos (exchanges_true hn hb)

/-! ## What a phase leaves -/

/-- From `s` to `t` CONF of channel `c` has become `v`, the secondary select `b`, and the trace has grown by `l`. -/
structure Phased (c : Nat) (v : Word) (b : Bool) (l : List Obs) (s t : State) : Prop where
  only : ChanOnly c s.rc t.rc
  chan : t.rc.chan c = { s.rc.chan c with conf := v }
  bus : t.rc.bus = { s.rc.bus with cs2Asserted := b }
  rest : t = { s with rc := t.rc, trace := s.trace ++ l }

section
variable {c : Nat} {s t u : State} {v v' : Word} {b b' : Bool} {l l' : List Obs}

theorem Phased.refl (c : Nat) (s : State) : Phased c (s.rc.chan c).conf s.rc.bus.cs2Asserted [] s s :=
  ⟨.refl c s.rc, rfl, rfl, by rw [List.append_nil]⟩

theorem Phased.trans (h : Phased c v b l s t) (h' : Phased c v' b' l' t u) : Phased c v' b' (l ++ l') s u := by
  refine ⟨h.only.trans h'.only, by rw [h'.chan, h.chan], by rw [h'.bus, h.bus], ?_⟩
  rw [h'.rest, h.rest, List.append_assoc]

theorem Phased.quiet (h : Phased c v b l s t) (hq : RcQuiet c s.rc) : RcQuiet c t.rc :=
  ⟨h.only.quiet hq.others, by rw [h.chan]; exact hq.busy, by rw [h.chan]; exact hq.en⟩

theorem Phased.has (h : Phased c v b l s t) (hc : c < s.rc.nchan) : c < t.rc.nchan := h.only.nchan.symm ▸ hc

end

/-- A controller whose only channel that may be forced is disabled stands still. -/
theorem RcQuiet.still {c : Nat} {r : RcBus} (h : RcQuiet c r) : anyMovable r = false :=
  h.others.still (still_of_off h.busy h.en)

theorem cs2_phased (c : Nat) (a : Bool) (s : State) : Phased c (s.rc.chan c).conf
    (if s.rc.bus.profile.hasCs2 then a else s.rc.bus.cs2Asserted) (pins (cs2Events .rc s.rc.bus.profile a)) s
    (cs2 .rc a s) := by
  rw [cs2_rc_spec]
  exact ⟨⟨rfl, rfl, fun _ _ => rfl⟩, rfl, rfl, rfl⟩

/-- CONF as a phase of a select-only transfer programs it: the direction is kept (R197). -/
def phaseConf (S : Session) (old : Word) (a : Bool) : Word := confWord (sessionConf S (old.extractLsb' 12 2) a)

/-- A phase keeps the direction the one before it kept. -/
theorem phaseConf_phaseConf (S : Session) (old : Word) (a b : Bool) :
    phaseConf S (phaseConf S old a) b = phaseConf S old b := by
  have htrm := congrArg ConfFields.trm (confFields_confWord (sessionConf S (old.extractLsb' 12 2) a))
  exact congrArg (fun t => confWord (sessionConf S t b)) htrm

theorem rcPhase_phased {S : Session} {c : Nat} (a : Bool) {s : State} (hc : c < s.rc.nchan) (hq : RcQuiet c s.rc) :
    ∃ t, rcPhase S c none a s = .ok t ∧ Phased c (phaseConf S (s.rc.chan c).conf a) s.rc.bus.cs2Asserted
      (confTrace c (some a) (s.rc.chan c).conf (phaseConf S (s.rc.chan c).conf a)) s t := by
  obtain ⟨t, hrun, hframe, hchan, htrace, hrest⟩ := rcPhase_still (S := S) (trm := none) (a := a) hc hq.others
    (still_of_off hq.busy hq.en) hq.busy
  refine ⟨t, hrun, hframe.chan, ?_, hframe.bus, htrace ▸ hrest⟩
  rw [hchan, hq.en]
  simp only [Bool.false_eq_true, and_false, if_false]
  rfl

/-! ## The two phases (R199) -/

/-- The begin phase: the secondary select, then FORCE. -/
theorem rcBeginOnly_phased {S : Session} {c : Nat} {d : Desc} {s : State} (hc : c < s.rc.nchan)
    (hq : RcQuiet c s.rc) : ∃ t, rcBeginOnly S c d s = .ok t ∧
      Phased c (if d.flags.begins then phaseConf S (s.rc.chan c).conf true else (s.rc.chan c).conf)
        (cs2Left { d.flags with ends := false } s.rc.bus)
        (whenSet d.flags.begins (pins (cs2Events .rc s.rc.bus.profile true) ++
          confTrace c (some true) (s.rc.chan c).conf (phaseConf S (s.rc.chan c).conf true))) s t := by
  unfold rcBeginOnly cs2Left selectLeft
  rw [rcBeginCs2_still hq.still, begun]
  cases d.flags.begins with
  | false =>
    refine ⟨s, rfl, ?_⟩
    simpa [whenSet] using Phased.refl c s
  | true =>
    have hcs2 := cs2_phased c true s
    obtain ⟨t, hrun, hphase⟩ := rcPhase_phased (S := S) true (hcs2.has hc) (hcs2.quiet hq)
    rw [cs2_rc_chan, hcs2.bus] at hphase
    exact ⟨t, hrun, hcs2.trans hphase⟩

/-- The end phase: FORCE, then the secondary select. -/
theorem rcEnd_phased {S : Session} {c : Nat} {d : Desc} {s : State} (hc : c < s.rc.nchan) (hq : RcQuiet c s.rc) :
    ∃ t, rcEnd S c d s = .ok t ∧
      Phased c (if d.flags.ends then phaseConf S (s.rc.chan c).conf false else (s.rc.chan c).conf)
        (cs2Left { d.flags with begins := false } s.rc.bus)
        (whenSet d.flags.ends (confTrace c (some false) (s.rc.chan c).conf (phaseConf S (s.rc.chan c).conf false) ++
          pins (cs2Events .rc s.rc.bus.profile false))) s t := by
  unfold rcEnd cs2Left selectLeft
  cases d.flags.ends with
  | false =>
    refine ⟨s, rfl, ?_⟩
    simpa [whenSet] using Phased.refl c s
  | true =>
    obtain ⟨m, hrun, hphase⟩ := rcPhase_phased (S := S) false hc hq
    have hcs2 := cs2_phased c false m
    rw [hphase.chan, hphase.bus] at hcs2
    refine ⟨_, ?_, hphase.trans hcs2⟩
    simp only [if_true, hrun, ok_bind, seqCs2_still (hphase.quiet hq).still]

theorem cs2Left_cs2Left (f : Flags) (b : BusRec) :
    cs2Left { f with begins := false } { b with cs2Asserted := cs2Left { f with ends := false } b } = cs2Left f b := by
  cases h : b.profile.hasCs2 <;> cases hf : f.ends <;> simp [cs2Left, selectLeft, h, hf]

/-- Settles O44: the end phase follows the begin phase. -/
theorem Settled.rcSelectOnly : Obligations.RcSelectOnly := by
  unfold Obligations.RcSelectOnly
  rintro s sid c S d _ hl hd hnone rfl hc rfl hq _ _ rfl rfl
  obtain ⟨m, hbegin, hb⟩ := rcBeginOnly_phased (S := S) (d := d) hc hq
  obtain ⟨t, hend, he⟩ := rcEnd_phased (S := S) (d := d) (hb.has hc) (hb.quiet hq)
  have hall := hb.trans he
  rw [hb.chan, hb.bus, cs2Left_cs2Left] at hall
  have hfreed : phaseConf S (if d.flags.begins then phaseConf S (s.rc.chan S.cs.toNat).conf true
      else (s.rc.chan S.cs.toNat).conf) false = phaseConf S (s.rc.chan S.cs.toNat).conf false := by
    split
    · exact phaseConf_phaseConf ..
    · rfl
  simp only [hfreed] at hall
  obtain ⟨honly, hchan, hbus, hrest⟩ := hall
  refine ⟨{ t with result := some (.count 0#32) }, ?_, ?_, honly, hchan, hbus⟩
  · rw [exec_rcTransfer_body hl hd, rcTransferBody, exchanges_false hnone, if_neg Bool.false_ne_true, Machine.rcSelectOnly,
      hbegin, ok_bind, hend]
    rfl
  · rw [List.append_assoc, hrest]
    rfl

end Sys2Proof.Machine
end

section
/-! PROOFS. An exchange of RC from a quiet controller (spec 42_regctl R184, R200, R201, R204): `rcExchange_spec` says how
it ends; here its parts are put together into the state and the trace of the whole transfer. -/

namespace Sys2Proof.Machine

/-! ## What an exchange spans -/

/-- Between the two states only channel `c`, RC's secondary select, memory, the timer, the trace and the draws of an RC
transfer differ. -/
structure RcSpan (c : Nat) (s t : State) : Prop where
  chan : ChanOnly c s.rc t.rc
  bus : t.rc.bus = { s.rc.bus with cs2Asserted := t.rc.bus.cs2Asserted }
  rest : t = { s with
    rc := t.rc,
    mem := t.mem,
    now := t.now,
    trace := t.trace,
    env := { s.env with word := t.env.word, tick := t.env.tick, rounds := t.env.rounds, sched := t.env.sched } }

theorem RcSpan.trans {c : Nat} {s t u : State} (a : RcSpan c s t) (b : RcSpan c t u) : RcSpan c s u :=
  ⟨a.chan.trans b.chan, by rw [b.bus, a.bus], b.rest.trans (by rw [a.rest])⟩

theorem RcFrame.span {c : Nat} {s t : State} (h : RcFrame c s t) : RcSpan c s t := ⟨h.chan, by rw [h.bus], h.rest⟩

theorem cs2_span (c : Nat) (a : Bool) (s : State) : RcSpan c s (cs2 .rc a s) := by
  rw [cs2_rc_spec]
  exact ⟨⟨rfl, rfl, fun _ _ => rfl⟩, rfl, rfl⟩

theorem begun_span (c : Nat) (d : Desc) (s : State) : RcSpan c s (begun d s) := by
  rw [begun_eq]
  exact ⟨⟨rfl, rfl, fun _ _ => rfl⟩, rfl, rfl⟩

theorem begun_bus (d : Desc) (s : State) :
    (begun d s).rc.bus = { s.rc.bus with cs2Asserted := cs2Left { d.flags with ends := false } s.rc.bus } := by
  rw [begun_eq]
  cases h : s.rc.bus.profile.hasCs2 <;> simp [cs2Left, selectLeft, h]

/-! ## The trace of an exchange without its polls -/

theorem withoutPolls_whenSet (c : Nat) (b : Bool) (l : List Obs) :
    withoutPolls c (whenSet b l) = whenSet b (withoutPolls c l) := by
  cases b <;> rfl

/-- The trace up to the first element: the secondary select, CTRL and CONF. -/
theorem withoutPolls_begun {c : Nat} {d : Desc} {s a : State} {p : Option Bool} {old new : Word}
    (h : a.trace = (begun d s).trace ++ [rcW (.ctrl c) 1#32] ++ confTrace c p old new) :
    withoutPolls c a.trace = withoutPolls c s.trace ++
      (whenSet d.flags.begins (pins (cs2Events .rc s.rc.bus.profile true)) ++ [rcW (.ctrl c) 1#32] ++ confTrace c p old new) := by
  rw [h, begun_eq]
  simp only [withoutPolls_append, withoutPolls_whenSet, withoutPolls_pins, withoutPolls_rcW, withoutPolls_confTrace,
    List.append_assoc]

/-! ## The end of an exchange that met no timeout -/

/-- The end phase of an exchange, when the flag is set: from `u`, where the last element has been exchanged, to `t`. -/
structure RcClosed (c : Nat) (S : Session) (d : Desc) (K : ConfFields) (u t : State) : Prop where
  span : RcSpan c u t
  chan : t.rc.chan c =
    { u.rc.chan c with conf := if d.flags.ends then confWord (sessionConf S K.trm false) else confWord K }
  only : t = { u with rc := t.rc, trace := t.trace }
  trace : withoutPolls c t.trace = withoutPolls c u.trace ++ whenSet d.flags.ends
    (confTrace c (some false) (confWord K) (confWord (sessionConf S K.trm false)) ++
      pins (cs2Events .rc u.rc.bus.profile false))
  cs2 : t.rc.bus.cs2Asserted = cs2Left { d.flags with begins := false } u.rc.bus

theorem RcDone.closed {c : Nat} {S : Session} {d : Desc} {K : ConfFields} {a u t : State} (h : RcDone c S d K a u t) :
    RcClosed c S d K u t := by
  cases he : d.flags.ends with
  | false =>
    obtain rfl := h.held he
    exact ⟨(RcFrame.refl c t).span, by rw [he, if_neg Bool.false_ne_true, ← h.off.conf], rfl,
      by rw [he]; exact (List.append_nil _).symm, by simp [cs2Left, selectLeft, he]⟩
  | true =>
    obtain ⟨v, rfl, hframe, hchan, hv⟩ := h.freed he
    refine ⟨hframe.span.trans (cs2_span c false v), ?_, ?_, ?_, ?_⟩
    · rw [cs2_rc_chan, he, if_pos rfl, hchan]
    · rw [cs2_rc_spec, hv]
    · rw [cs2_rc_spec, hframe.bus, hv, he]
      simp only [withoutPolls_append, withoutPolls_pins, withoutPolls_confTrace, whenSet, if_true, List.append_assoc]
    · rw [cs2_rc_spec, hframe.bus]
      simp [cs2Left, selectLeft, he]

/-! ## How the transfer ends -/

/-- An exchange is transmit-only exactly when it has no input buffer. -/
theorem trmOf_eq_two_iff {d : Desc} (hb : d.out ≠ none ∨ d.inp ≠ none) : trmOf d = 2#2 ↔ d.inp = none := by
  cases ho : d.out <;> cases hi : d.inp <;> simp_all [trmOf]

theorem FillingAt.outside {inp : Option Nat} {lsb : Bool} {n : Nat} {i : Nat → Bool} {m0 m : Memory} {k : Nat}
    {acc : Byte} (h : FillingAt inp lsb n i m0 k acc m) (a : Nat)
    (ha : ∀ b j, inp = some b → j < byteLen n → a ≠ b + j) : readByte m a = readByte m0 a := by
  cases inp with
  | none => rw [show m = m0 from h]
  | some b => exact Filling.outside h a fun j hj => ha b j rfl hj

theorem FillingAt.canonical {inp : Option Nat} {lsb : Bool} {n : Nat} {i : Nat → Bool} {m0 m : Memory} {k : Nat}
    {acc : Byte} (h : FillingAt inp lsb n i m0 k acc m) (hw : Memory.wf m0 = true) : Memory.wf m = true := by
  cases inp with
  | none => rw [show m = m0 from h]; exact hw
  | some b => exact Filling.wf h

/-- What holds of every end of an exchange (R204): the channel is left disabled and idle. -/
structure RcLeft (c : Nat) (s t : State) : Prop where
  span : RcSpan c s t
  quiet : RcQuiet c t.rc
  wf : Memory.wf t.mem = true
  txFull : (t.rc.chan c).txFull = false
  rxReq : (t.rc.chan c).rxReq = false

section
variable {s a : State} {c : Nat} {S : Session} {d : Desc} {K : ConfFields} (hspan : RcSpan c s a)
  (hq : OthersQuiet c s.rc) (hwf : Memory.wf s.mem = true) (hmem : a.mem = s.mem)
include hspan hq

theorem RcDone.left {u t : State} (h : RcDone c S d K a u t) : RcLeft c s t := by
  obtain ⟨hclosed, hchan, honly, -, -⟩ := h.closed
  have hall := (hspan.trans h.frame.span).trans hclosed
  refine ⟨hall, ⟨hall.chan.quiet hq, by rw [hchan]; exact h.off.busy, by rw [hchan]; exact en_of_ctrl h.off.ctrl⟩, ?_,
    by rw [hchan]; exact h.off.txFull, by rw [hchan]; exact h.off.rxReq⟩
  rw [honly]
  exact h.wf

include hwf hmem

/-- The timeout path leaves the channel in the safe state, and of memory only the input buffer may differ (R201). -/
theorem RcLate.left {t : State} (h : RcLate c S d K a t) : RcLeft c s t ∧
    (t.rc.chan c).conf = confWord (sessionConf S K.trm false) ∧
    t.rc.bus.cs2Asserted = (if s.rc.bus.profile.hasCs2 then false else a.rc.bus.cs2Asserted) ∧
    ∀ x, (∀ b j, d.inp = some b → j < byteLen d.n.toNat → x ≠ b + j) → readByte t.mem x = readByte s.mem x := by
  obtain ⟨u, v, hlate, rfl, hframe, hvmem, hconf, hctrl, hbusy, htx, hreq⟩ := h.late
  obtain ⟨n, i, k, acc, rfl, hfill⟩ := hlate.fill
  have hall := (hspan.trans hframe.span).trans (cs2_span c false v)
  have htmem : (cs2 .rc false v).mem = u.mem := (cs2_mem ..).trans hvmem
  rw [hmem] at hfill
  refine ⟨⟨hall, ⟨hall.chan.quiet hq, ?_, ?_⟩, ?_, ?_, ?_⟩, ?_, ?_, fun x hx => ?_⟩
  · rw [cs2_rc_chan]; exact hbusy
  · rw [cs2_rc_chan]; exact en_of_ctrl hctrl
  · rw [htmem]; exact hfill.canonical hwf
  · rw [cs2_rc_chan]; exact htx
  · rw [cs2_rc_chan]; exact hreq
  · rw [cs2_rc_chan]; exact hconf
  · rw [cs2_rc_spec, hframe.bus, hspan.bus]
  · rw [htmem]; exact hfill.outside x hx

end

/-- An RC transfer that exchanges, from a quiet controller, is `rcExchange_spec`. -/
theorem exec_rcTransfer_exchange {s : State} {sid : Nat} {S : Session} {d : Desc} (hl : Live .rc sid S s)
    (hd : Legal .rc S d) (hn : d.n ≠ 0#32) (hb : d.out ≠ none ∨ d.inp ≠ none) {r : OpResult} {t : State}
    (h : rcExchange S S.cs.toNat d s = .ok (r, t)) :
    exec (.rcTransfer sid d) s = .next { t with result := some r } := by
  rw [exec_rcTransfer_body hl hd, rcTransferBody_exchange hn hb, h, finish_ok]

/-- Settles O45: the exchange ends as `rcExchange_spec` says, and what each end leaves is put together. -/
theorem rcTransferEnds : Obligations.RcTransferEnds := by
  unfold Obligations.RcTransferEnds
  rintro s sid _ _ S d hl hd hn hb rfl hc rfl hq hwf
  obtain ⟨r, t, a, hrun, hframe, hmem, henv, htrace, hend⟩ := rcExchange_spec hd hn hc hq hwf rfl
  have hspan := (begun_span S.cs.toNat d s).trans hframe.span
  refine ⟨_, exec_rcTransfer_exchange hl hd hn hb hrun, ?_⟩
  rcases hend with ⟨rfl, ⟨u, hdone⟩, -⟩ | ⟨rfl, -, -, hlate⟩
  · obtain ⟨hall, hquiet, hwft, htx, hreq⟩ := hdone.left hspan hq.others
    obtain ⟨-, hchan, honly, hclosed, hcs2⟩ := hdone.closed
    refine ⟨hquiet, hall.chan, hwft, hall.bus, ?_, htx, hreq, .inl ⟨rfl, ?_, ?_, ?_, ?_, ?_, ?_⟩⟩
    · exact congrArg (fun x : State => { x with result := some (OpResult.count d.n) }) hall.rest
    · have hprofile : u.rc.bus.profile = s.rc.bus.profile := by rw [hdone.frame.bus, hspan.bus]
      have hwords : wordsIn S.wordlen.toNat a = fun k =>
          lowBits S.wordlen.toNat (s.env.word.answer Config.freeWord k) := by
        unfold wordsIn
        rw [henv]
      refine hclosed.trans ?_
      rw [hdone.trace, withoutPolls_begun htrace, hprofile, hwords, hmem, exchangeTrace, direction_eq]
      simp only [List.append_assoc]
    · have hstored := hdone.stored
      unfold bitsIn at hstored
      rw [henv, hmem] at hstored
      rw [honly]
      exact hstored
    · have hword := hdone.word
      rw [henv] at hword
      rw [honly]
      exact hword.trans (by simp only [sessionConf, trmOf_eq_two_iff hb])
    · refine (congrArg Channel.conf hchan).trans ?_
      rw [direction_eq]
      cases he : d.flags.ends <;> cases hbe : d.flags.begins <;> simp [selectLeft, he, hbe, sessionConf]
    · exact (congrArg Channel.rxFull hchan).trans hdone.off.rxFull
    · refine hcs2.trans ?_
      rw [hdone.frame.bus, hframe.bus, begun_bus, cs2Left_cs2Left]
  · obtain ⟨⟨hall, hquiet, hwft, htx, hreq⟩, hconf, hcs2, hout⟩ := hlate.left hspan hq.others hwf hmem
    refine ⟨hquiet, hall.chan, hwft, hall.bus, ?_, htx, hreq, .inr ⟨rfl, ?_, ?_, hout⟩⟩
    · exact congrArg (fun x : State => { x with result := some (OpResult.error .timeout) }) hall.rest
    · rw [direction_eq]
      exact hconf
    · refine hcs2.trans ?_
      rw [hframe.bus, begun_bus]
      cases h : s.rc.bus.profile.hasCs2 <;> simp [cs2Left, h]

/-- Settles O46: the timeout path contradicts either premise. -/
theorem rcTransferResponsive : Obligations.RcTransferResponsive := by
  unfold Obligations.RcTransferResponsive
  rintro s sid _ _ S d hl hd hn hb rfl hc rfl hq hwf
  obtain ⟨r, t, a, hrun, -, -, -, -, hend⟩ := rcExchange_spec hd hn hc hq hwf rfl
  refine ⟨_, exec_rcTransfer_exchange hl hd hn hb hrun, ?_⟩
  rcases hend with ⟨rfl, -, -⟩ | ⟨-, ⟨u, hshift, hmovable⟩, hunwilling, -⟩
  · exact ⟨fun _ => rfl, fun _ => rfl⟩
  · refine ⟨fun hresponsive => ?_, fun hwilling => absurd hwilling hunwilling⟩
    exact Bool.noConfusion ((hresponsive u hshift).symm.trans hmovable)

end Sys2Proof.Machine
end

section
/-! PROOFS. An exchange of RC under a shifter that never moves (spec 42_regctl R184, R201): the first poll that waits for
a word expires, and the timeout path ends the transfer with no word on the pins. -/

namespace Sys2Proof.Machine

/-! ## What reaches neither memory nor the pins as a word -/

/-- No word was shifted in the trace. -/
def NoWord (l : List Obs) : Prop := ∀ c w pol pha o i, .pin (.word c w pol pha o i) ∉ l

theorem NoWord.append {l l' : List Obs} (h : NoWord l) (h' : NoWord l') : NoWord (l ++ l') :=
  fun c w pol pha o i hmem => (List.mem_append.1 hmem).elim (h c w pol pha o i) (h' c w pol pha o i)

theorem noWord_rcR (g : RcReg) (v : Word) : NoWord [rcR g v] := by simp [NoWord, rcR]
theorem noWord_rcW (g : RcReg) (v : Word) : NoWord [rcW g v] := by simp [NoWord, rcW]

theorem noWord_replicate_rcR (n : Nat) (g : RcReg) (v : Word) : NoWord (List.replicate n (rcR g v)) := by
  simp [NoWord, rcR, List.mem_replicate]

theorem noWord_cs2Events (p : BusProfile) (a : Bool) : NoWord (pins (cs2Events .rc p a)) := by
  unfold cs2Events
  split <;> simp [NoWord, pins]

theorem noWord_confTrace (c : Nat) (phase : Option Bool) (old new : Word) : NoWord (confTrace c phase old new) := by
  cases phase <;> simp [NoWord, confTrace, rcR, rcW]

theorem noWord_confEvents (c : Nat) (x y : Channel) : NoWord (confEvents c x y) := by
  unfold confEvents
  split <;> simp [NoWord]

/-- From `s` to `t` memory is as it was, and no word has been shifted. -/
structure Wordless (s t : State) : Prop where
  mem : t.mem = s.mem
  trace : ∃ l, t.trace = s.trace ++ l ∧ NoWord l

theorem Wordless.trans {s t u : State} (h : Wordless s t) (h' : Wordless t u) : Wordless s u := by
  obtain ⟨l, hl, hno⟩ := h.trace
  obtain ⟨l', hl', hno'⟩ := h'.trace
  exact ⟨h'.mem.trans h.mem, l ++ l', by rw [hl', hl, List.append_assoc], hno.append hno'⟩

theorem cs2_wordless (a : Bool) (s : State) : Wordless s (cs2 .rc a s) := by
  rw [cs2_rc_spec]
  exact ⟨rfl, _, rfl, noWord_cs2Events _ _⟩

theorem begun_wordless (d : Desc) (s : State) : Wordless s (begun d s) := by
  unfold begun
  split
  · exact cs2_wordless true s
  · exact ⟨rfl, [], (List.append_nil _).symm, fun _ _ _ _ _ _ => List.not_mem_nil⟩

/-! ## Waiting for a word that does not come -/

/-- Since `s` no word has been shifted; at `t` channel `c` has been asked for one and does not show the STAT bit `b`, and
for `n` more gaps the shifter takes no step. -/
structure Waits (c b n : Nat) (s t : State) : Prop where
  has : c < t.rc.nchan
  quiet : OthersQuiet c t.rc
  asked : Asked (t.rc.chan c)
  unseen : (t.rc.chan c).stat.getLsbD b = false
  wordless : Wordless s t
  stuck : Stuck c n t.env

/-- A channel asked for a word does not show the bit its poll waits for. -/
theorem asked_unseen {c b : Nat} {t : State} (ha : Asked (t.rc.chan c))
    (hb : b = txsBit ∧ (t.rc.chan c).trm ≠ 1#2 ∨ b = rxsBit) : (t.rc.chan c).stat.getLsbD b = false := by
  refine Bool.eq_false_iff.2 fun hseen => ?_
  cases done_of_seen ha (WordAt.start c t) hb hseen

/-- The poll expires (R196). -/
theorem Waits.poll {c b : Nat} {s t : State}
    (h : Waits c b (t.env.rounds.answer Config.freeRounds 0 + 2) s t) :
    ∃ u, poll c b t = .ok (false, u) ∧ Waits c b 1 s u := by
  obtain ⟨u, hrun, hrc, hmem, hstuck, n, htrace⟩ := poll_stuck (r := 1) h.has h.quiet h.unseen h.stuck
  exact ⟨u, hrun, by rw [hrc]; exact h.has, by rw [hrc]; exact h.quiet, by rw [hrc]; exact h.asked,
    by rw [hrc]; exact h.unseen, h.wordless.trans ⟨hmem, _, htrace, noWord_replicate_rcR _ _ _⟩, hstuck⟩

/-! ## The elements -/

/-- The first word is written to TX: the poll before it saw TXS at once. -/
theorem rcSend_waits {c w b : Nat} {K : ConfFields} {d : Desc} (L : Link w K d) {s a : State} (hc : c < a.rc.nchan)
    (hq : OthersQuiet c a.rc) (hr : Ready K (a.rc.chan c)) (ht : K.trm ≠ 1#2) (hb : b = txsBit ∨ b = rxsBit)
    (hw : Wordless s a) (hs : Stuck c (a.env.rounds.answer Config.freeRounds 1 + 2) a.env) :
    ∃ t, rcSend d c w 0 a = .ok (true, t) ∧ Waits c b (t.env.rounds.answer Config.freeRounds 0 + 2) s t := by
  obtain ⟨p, hpoll, hp⟩ := poll_still hc (hq.still (hr.still ht)) hr.txs
  have hrc : p.rc = a.rc := by rw [hp]
  obtain ⟨hwrite, hasked, hconf, -⟩ := seqWrite_tx_ready (t := p) L ht (hrc ▸ hc) (hrc ▸ hq) (hrc ▸ hr)
    (lowBits_outElem d.out d.flags.lsb p.mem w 0)
  have hframe := asked_frame c (outElem d.out d.flags.lsb p.mem w 0) p
  have htrm := (channel_confWord hconf).2.1
  have hseen : Wordless a p := ⟨by rw [hp], _, by rw [hp], noWord_rcR _ _⟩
  have hwritten : Wordless p (asked c (outElem d.out d.flags.lsb p.mem w 0) p) := ⟨rfl, _, rfl, noWord_rcW _ _⟩
  refine ⟨_, rcSend_seen (L.trm ▸ ht) hpoll hwrite, hframe.has (hrc ▸ hc), hframe.chan.quiet (hrc ▸ hq), hasked,
    asked_unseen hasked (hb.imp_left fun e => ⟨e, htrm ▸ ht⟩), (hw.trans hseen).trans hwritten, ?_⟩
  show Stuck c (p.env.rounds.answer Config.freeRounds 0 + 2) p.env
  rw [hp, answer_drop]
  exact hs

/-- An element whose receive half waits ends in its poll. -/
theorem rcReceive_waits {d : Desc} {c w i : Nat} {last : Bool} {acc : Byte} {s t : State}
    (h : Waits c rxsBit (t.env.rounds.answer Config.freeRounds 0 + 2) s t) :
    ∃ u, rcReceive d c w i last acc t = .ok (false, acc, u) ∧ Waits c rxsBit 1 s u :=
  h.poll.imp fun _ ⟨hrun, hu⟩ => ⟨rcReceive_unseen hrun, hu⟩

/-- After the first word of a transmit-only exchange, the poll for TXS of the second element, or of the drain,
expires. -/
theorem afterFirst_waits {d : Desc} {c w m i : Nat} {acc : Byte} {s t : State} (h2 : trmOf d = 2#2)
    (h : Waits c txsBit (t.env.rounds.answer Config.freeRounds 0 + 2) s t) :
    ∃ fine v u, rcElements d c w m i acc t = .ok (fine, v) ∧
      (if fine then rcDrain d c v else .ok (false, v)) = .ok (false, u) ∧ Waits c txsBit 1 s u := by
  obtain ⟨u, hpoll, hu⟩ := h.poll
  cases m with
  | zero => exact ⟨true, t, u, rfl, by simp [rcDrain, h2, hpoll], hu⟩
  | succ m =>
    have h1 : trmOf d ≠ 1#2 := by rw [h2]; decide
    exact ⟨false, u, u, by simp [rcElements, rcElement, rcSend_unseen h1 hpoll], rfl, hu⟩

/-- The elements of an exchange under a shifter that never moves: a poll expires. -/
theorem rcElements_stuck {c w m : Nat} {K : ConfFields} {d : Desc} (L : Link w K d) {s a : State} (hc : c < a.rc.nchan)
    (hq : OthersQuiet c a.rc) (hr : Ready K (a.rc.chan c)) (hw : Wordless s a)
    (hs : Stuck c (a.env.rounds.answer Config.freeRounds (if d.out = none then 0 else 1) + 2) a.env) :
    ∃ fine v u b, rcElements d c w (m + 1) 0 0#8 a = .ok (fine, v) ∧
      (if fine then rcDrain d c v else .ok (false, v)) = .ok (false, u) ∧ Waits c b 1 s u := by
  rcases trmOf_cases d with h0 | h1 | h2
  · have hout : d.out ≠ none := fun e => by simp [trmOf, e] at h0
    rw [if_neg hout] at hs
    obtain ⟨t, hsend, ht⟩ := rcSend_waits L hc hq hr (by rw [L.trm, h0]; decide) (.inr rfl) hw hs
    obtain ⟨u, hreceive, hu⟩ := rcReceive_waits (d := d) (w := w) (i := 0) (last := m == 0) (acc := 0#8) ht
    exact ⟨false, u, u, rxsBit, by simp [rcElements, rcElement, hsend, h0, hreceive], rfl, hu⟩
  · rw [if_pos (trmOf_one h1)] at hs
    have hasked := hr.asked (L.trm.trans h1) L.least
    obtain ⟨u, hreceive, hu⟩ := rcReceive_waits (d := d) (w := w) (i := 0) (last := m == 0) (acc := 0#8)
      ⟨hc, hq, hasked, asked_unseen hasked (.inr rfl), hw, hs⟩
    exact ⟨false, u, u, rxsBit, by simp [rcElements, rcElement, rcSend, h1, hreceive], rfl, hu⟩
  · have hout : d.out ≠ none := fun e => by simp [trmOf, e] at h2
    rw [if_neg hout] at hs
    obtain ⟨t, hsend, ht⟩ := rcSend_waits L hc hq hr (by rw [L.trm, h2]; decide) (.inl rfl) hw hs
    obtain ⟨fine, v, u, hrest, hdrain, hu⟩ := afterFirst_waits (w := w) (m := m) (i := 1) (acc := 0#8) h2 ht
    exact ⟨fine, v, u, txsBit, by simp [rcElements, rcElement, hsend, h2, hrest], hdrain, hu⟩

/-! ## The timeout path (R201) -/

/-- The timeout path of a channel whose word has not started: no event but FORCE's and the secondary select's. -/
theorem rcTimeout_waits {S : Session} {c b : Nat} {s u : State} (h : Waits c b 1 s u) :
    ∃ t, rcTimeout S c u = .ok (.error .timeout, t) ∧ Wordless s t := by
  obtain ⟨g, hgap, hg, -⟩ := shifterGap_stuck (n := 0) h.quiet h.stuck
  have hrc : g.rc = u.rc := by rw [hg]
  have hhas : c < g.rc.nchan := hrc ▸ h.has
  generalize hy : ({ g.rc.chan c with ctrl := 0#32, txFull := false, rxReq := false, busy := false } : Channel) = y
  generalize hm : setChan c y (emit (rcW (.ctrl c) 0#32) g) = m
  have hdisable : seqWrite (.ctrl c) 0#32 u = .ok m := by
    rw [seqWrite, hgap, ok_bind, rcWrite_ctrl_disable hhas (by rw [hrc]; exact h.asked.en),
      abortEvents_idle (by rw [hrc]; exact h.asked.busy), hy, hm]
  have hframe : RcFrame c g m := hm ▸ (RcFrame.emit c _ g).trans (RcFrame.setChan c _ _)
  have hquiet : OthersQuiet c m.rc := hframe.chan.quiet (by rw [hrc]; exact h.quiet)
  have hoff : RcQuiet c m.rc := by
    have hchan : m.rc.chan c = y := hm ▸ chan_setChan_same (show c < (emit (rcW (.ctrl c) 0#32) g).rc.nchan from hhas) _
    refine ⟨hquiet, ?_, ?_⟩
    · rw [hchan, ← hy]
    · rw [hchan, ← hy]
      exact en_of_ctrl rfl
  obtain ⟨v, hconf, hvframe, hvchan, hvtrace, hvrest⟩ := rcConf_still (S := S) (trm := none) (force := some false)
    (hframe.has hhas) hquiet (still_of_off hoff.busy hoff.en)
  have hstill : anyMovable v.rc = false := (hvframe.chan.quiet hquiet).still (by
    rw [hvchan]
    exact still_of_off hoff.busy hoff.en)
  refine ⟨cs2 .rc false v, by simp [rcTimeout, hdisable, hconf, seqCs2_still hstill], ?_⟩
  have hwrite : Wordless u m := ⟨by rw [← hm, hg]; rfl, _, by rw [← hm, hg]; rfl, noWord_rcW (.ctrl c) 0#32⟩
  have hprogram : Wordless m v := ⟨by rw [hvrest], _, hvtrace.trans (List.append_assoc ..),
    (noWord_confTrace _ _ _ _).append (noWord_confEvents _ _ _)⟩
  exact ((h.wordless.trans hwrite).trans hprogram).trans (cs2_wordless false v)

/-! ## The exchange -/

theorem rcExchange_stuck {S : Session} {c : Nat} {d : Desc} {s : State} (hd : Legal .rc S d) (hn : d.n ≠ 0#32)
    (hc : c < s.rc.nchan) (hq : RcQuiet c s.rc)
    (hs : Stuck c (s.env.rounds.answer Config.freeRounds (if d.out = none then 0 else 1) + 2) s.env) :
    ∃ t, rcExchange S c d s = .ok (.error .timeout, t) ∧ Wordless s t := by
  have hspan := begun_span c d s
  have hqb : RcQuiet c (begun d s).rc := by
    obtain ⟨hchan, -, -⟩ := begun_rc d s
    exact ⟨hspan.chan.quiet hq.others, by rw [hchan]; exact hq.busy, by rw [hchan]; exact hq.en⟩
  have hcb : c < (begun d s).rc.nchan := hspan.chan.nchan.symm ▸ hc
  have hconf : sessionConf S (trmOf d) (d.flags.begins || (s.rc.chan c).conf.getLsbD 20) =
      programConf S (some (trmOf d)) (if d.flags.begins then some true else none) (confFields ((begun d s).rc.chan c).conf) := by
    rw [programConf_direction, (begun_rc d s).1]
    cases d.flags.begins <;> rfl
  obtain ⟨m, a, henable, hprogram, hframe, hmem, henv, hready, htrace⟩ := rcStart_spec (S := S) hcb hqb hconf
  have hbegun : (begun d s).env = s.env := by rw [begun_eq]
  obtain ⟨L, hm, -⟩ := link_of_legal hd hn (d.flags.begins || (s.rc.chan c).conf.getLsbD 20)
  have hwordless : Wordless s a := (begun_wordless d s).trans
    ⟨hmem, _, htrace.trans (List.append_assoc ..), (noWord_rcW _ _).append (noWord_confTrace _ _ _ _)⟩
  have hae : a.env = s.env := henv.trans hbegun
  obtain ⟨k, hk⟩ := Nat.exists_eq_succ_of_ne_zero hm.ne'
  obtain ⟨fine, v, u, b, helements, hdrain, hwaits⟩ := rcElements_stuck (m := k) L (hframe.has hcb)
    (hframe.chan.quiet hqb.others) hready hwordless (by rw [hae]; exact hs)
  have hshift : rcShift S c d s = .ok (false, u) := by
    simp only [rcShift, rcBeginCs2_still hq.still, henable, hprogram, ok_bind, hk, helements]
    exact hdrain
  obtain ⟨t, htimeout, ht⟩ := rcTimeout_waits (S := S) hwaits
  exact ⟨t, by simp [rcExchange, hshift, htimeout], ht⟩

/-- Settles O47: the transfer is `rcExchange_stuck`. -/
theorem rcTransferStuck : Obligations.RcTransferStuck := by
  unfold Obligations.RcTransferStuck
  rintro s sid _ S d hl hd hn hb rfl hc hq - hs
  obtain ⟨t, hrun, hmem, l, htrace, hno⟩ := rcExchange_stuck hd hn hc hq hs
  exact ⟨_, l, exec_rcTransfer_exchange hl hd hn hb hrun, rfl, hmem, htrace, hno _⟩

end Sys2Proof.Machine
end

section
/-! PROOFS. What a transfer of RC leaves of the controller whatever state it starts in (spec 42_regctl R204): only the
session's channel is accessed, and an exchange that ends leaves it disabled. -/

namespace Sys2Proof.Machine

/-! ## What leaves CTRL alone -/

/-- CTRL of every channel is as it was. -/
def CtrlKept (s t : State) : Prop := ∀ c, (t.rc.chan c).ctrl = (s.rc.chan c).ctrl

/-- CTRL of channel `c` has EN 0. -/
def Disabled (c : Nat) (t : State) : Prop := (t.rc.chan c).ctrl.getLsbD 0 = false

theorem CtrlKept.refl (s : State) : CtrlKept s s := fun _ => rfl

theorem CtrlKept.of_rc {s t : State} (h : t.rc = s.rc) : CtrlKept s t := fun c => by rw [h]

section
variable {s t u : State}

theorem CtrlKept.trans (h : CtrlKept s t) (h' : CtrlKept t u) : CtrlKept s u := fun c => (h' c).trans (h c)

theorem Disabled.kept {c : Nat} (h : Disabled c s) (h' : CtrlKept s t) : Disabled c t := by
  unfold Disabled
  rw [h' c]
  exact h

theorem setChan_ctrlKept {c : Nat} {x : Channel} (h : x.ctrl = (s.rc.chan c).ctrl) : CtrlKept s (setChan c x s) := by
  intro k
  rw [chan_setChan]
  split
  next hk => rw [hk.1, h]
  next => rfl

theorem shifterGap_ctrlKept (h : shifterGap s = .ok t) : CtrlKept s t := (shifterGap_shifted h).ctrl

theorem rcRead_ctrlKept {g : RcReg} {v : Word} (h : rcRead g s = .ok (v, t)) : CtrlKept s t := by
  unfold rcRead at h
  split at h
  · cases g with
    | rx c =>
      simp only at h
      split at h
      · cases h
        exact setChan_ctrlKept rfl
      · cases h
    | shared j => cases h; exact .of_rc rfl
    | conf c => cases h; exact .of_rc rfl
    | stat c => cases h; exact .of_rc rfl
    | ctrl c => cases h; exact .of_rc rfl
    | tx c => cases h; exact .of_rc rfl
  · cases h

/-- An access that succeeds is of a register there is. -/
theorem rcMapped_of_rcWrite {g : RcReg} {v : Word} (h : rcWrite g v s = .ok t) : rcMapped s.rc.nchan g = true := by
  by_contra hno
  rw [rcWrite, if_neg hno] at h
  cases h

theorem rcWrite_conf_ctrlKept {c : Nat} {v : Word} (h : rcWrite (.conf c) v s = .ok t) : CtrlKept s t := by
  rw [rcWrite_conf (of_decide_eq_true (rcMapped_of_rcWrite h))] at h
  have hok : v.getLsbD 20 = false ∨ otherActive (rcLog true (.conf c) v s).rc c = false := by
    by_contra hno
    simp only [not_or, Bool.not_eq_false] at hno
    rw [confWrite_fault hno.1 hno.2] at h
    cases h
  rw [confWrite_ok hok] at h
  cases h
  exact setChan_ctrlKept (s := s) rfl

/-- A write of 0 to CTRL leaves EN 0 (R175). -/
theorem rcWrite_ctrl_disabled {c : Nat} (h : rcWrite (.ctrl c) 0#32 s = .ok t) : Disabled c t := by
  have hc : c < s.rc.nchan := of_decide_eq_true (rcMapped_of_rcWrite h)
  have hlog : c < (rcLog true (.ctrl c) 0#32 s).rc.nchan := hc
  rw [rcWrite_ctrl hc] at h
  cases h
  have hchan : ∀ x : Channel, x.ctrl = 0#32 → Disabled c (setChan c x (rcLog true (.ctrl c) 0#32 s)) := fun x hx => by
    rw [Disabled, chan_setChan_same hlog, hx]
    rfl
  have hmask : (0#32 &&& ctrlMask) = 0#32 := by decide
  unfold ctrlWrite
  simp only [abortEvents_eq, hmask]
  split
  · exact hchan _ rfl
  · split
    · exact hchan _ rfl
    · exact hchan _ rfl

/-! ## The sequencer's steps -/

variable {c : Nat}

theorem seqRead_ctrlKept {g : RcReg} {v : Word} (h : seqRead g s = .ok (v, t)) : CtrlKept s t := by
  obtain ⟨m, hgap, hread⟩ := bind_eq_ok.1 h
  exact (shifterGap_ctrlKept hgap).trans (rcRead_ctrlKept hread)

theorem seqWrite_conf_ctrlKept {v : Word} (h : seqWrite (.conf c) v s = .ok t) : CtrlKept s t := by
  obtain ⟨m, hgap, hwrite⟩ := bind_eq_ok.1 h
  exact (shifterGap_ctrlKept hgap).trans (rcWrite_conf_ctrlKept hwrite)

theorem seqWrite_ctrl_disabled (h : seqWrite (.ctrl c) 0#32 s = .ok t) : Disabled c t := by
  obtain ⟨m, -, hwrite⟩ := bind_eq_ok.1 h
  exact rcWrite_ctrl_disabled hwrite

theorem seqCs2_ctrlKept {a : Bool} (h : seqCs2 a s = .ok t) : CtrlKept s t := by
  obtain ⟨m, hgap, hcs2⟩ := bind_eq_ok.1 h
  cases hcs2
  refine (shifterGap_ctrlKept hgap).trans fun k => ?_
  rw [cs2_rc_chan]

theorem rcConf_ctrlKept {S : Session} {trm : Option (BitVec 2)} {force : Option Bool}
    (h : rcConf S c trm force s = .ok t) : CtrlKept s t := by
  obtain ⟨⟨v, m⟩, hread, hwrite⟩ := bind_eq_ok.1 h
  exact (seqRead_ctrlKept hread).trans (seqWrite_conf_ctrlKept hwrite)

theorem rcPhase_ctrlKept {S : Session} {trm : Option (BitVec 2)} {a : Bool} (h : rcPhase S c trm a s = .ok t) :
    CtrlKept s t := by
  obtain ⟨⟨v, m⟩, hread, h⟩ := bind_eq_ok.1 h
  obtain ⟨g, hgap, h⟩ := bind_eq_ok.1 h
  obtain ⟨w, hwrite, h⟩ := bind_eq_ok.1 h
  cases h
  refine ((seqRead_ctrlKept hread).trans (seqWrite_conf_ctrlKept (bind_eq_ok.2 ⟨g, hgap, hwrite⟩))).trans (.of_rc ?_)
  unfold repeatSelect
  split <;> rfl

theorem rcEnd_ctrlKept {S : Session} {d : Desc} (h : rcEnd S c d s = .ok t) : CtrlKept s t := by
  unfold rcEnd at h
  split at h
  · obtain ⟨m, hphase, hcs2⟩ := bind_eq_ok.1 h
    exact (rcPhase_ctrlKept hphase).trans (seqCs2_ctrlKept hcs2)
  · cases h
    exact .refl s

/-! ## What disables the channel (R200, R201) -/

section
variable {d : Desc} {w : Nat}

/-- The last receive of an exchange disables the channel before it reads RX. -/
theorem rcReceive_last_disabled {i : Nat} {acc acc' : Byte} (h : rcReceive d c w i true acc s = .ok (true, acc', t)) :
    Disabled c t := by
  obtain ⟨⟨seen, m⟩, -, h⟩ := bind_eq_ok.1 h
  cases seen with
  | false => cases h
  | true =>
    obtain ⟨m', hdisable, h⟩ := bind_eq_ok.1 h
    obtain ⟨⟨v, m''⟩, hread, h⟩ := bind_eq_ok.1 h
    cases h
    refine (seqWrite_ctrl_disabled hdisable).kept ((seqRead_ctrlKept hread).trans (.of_rc ?_))
    rw [putInElem_eq]

theorem rcElement_last_disabled (ht : trmOf d ≠ 2#2) {i : Nat} {acc acc' : Byte}
    (h : rcElement d c w i true acc s = .ok (true, acc', t)) : Disabled c t := by
  obtain ⟨⟨sent, m⟩, -, h⟩ := bind_eq_ok.1 h
  cases sent with
  | false => cases h
  | true =>
    simp only [if_true, if_neg ht] at h
    exact rcReceive_last_disabled h

theorem rcElements_disabled (ht : trmOf d ≠ 2#2) {m i : Nat} {acc : Byte}
    (h : rcElements d c w (m + 1) i acc s = .ok (true, t)) : Disabled c t := by
  induction m generalizing i acc s with
  | zero =>
    obtain ⟨⟨fine, acc', u⟩, helement, h⟩ := bind_eq_ok.1 h
    cases fine with
    | false => cases h
    | true =>
      cases h
      exact rcElement_last_disabled ht helement
  | succ m ih =>
    obtain ⟨⟨fine, acc', u⟩, -, h⟩ := bind_eq_ok.1 h
    cases fine with
    | false => cases h
    | true => exact ih h

/-- The drain of a transmit-only exchange disables the channel. -/
theorem rcDrain_disabled (ht : trmOf d = 2#2) (h : rcDrain d c s = .ok (true, t)) : Disabled c t := by
  rw [rcDrain, if_pos ht] at h
  obtain ⟨⟨seen, m⟩, -, h⟩ := bind_eq_ok.1 h
  cases seen with
  | false => cases h
  | true =>
    obtain ⟨m', hdisable, h⟩ := bind_eq_ok.1 h
    cases h
    exact seqWrite_ctrl_disabled hdisable

theorem rcShift_disabled {S : Session} (hpos : 0 < d.n.toNat / S.wordlen.toNat)
    (h : rcShift S c d s = .ok (true, t)) : Disabled c t := by
  obtain ⟨m0, -, h⟩ := bind_eq_ok.1 h
  obtain ⟨m1, -, h⟩ := bind_eq_ok.1 h
  obtain ⟨m2, -, h⟩ := bind_eq_ok.1 h
  obtain ⟨⟨fine, m3⟩, helements, h⟩ := bind_eq_ok.1 h
  cases fine with
  | false => cases h
  | true =>
    have hdrain : rcDrain d c m3 = .ok (true, t) := h
    by_cases ht : trmOf d = 2#2
    · exact rcDrain_disabled ht hdrain
    · obtain ⟨k, hk⟩ := Nat.exists_eq_succ_of_ne_zero hpos.ne'
      rw [hk] at helements
      rw [rcDrain, if_neg ht] at hdrain
      cases hdrain
      exact rcElements_disabled ht helements

theorem rcTimeout_disabled {S : Session} {r : OpResult} (h : rcTimeout S c s = .ok (r, t)) : Disabled c t := by
  obtain ⟨m, hdisable, h⟩ := bind_eq_ok.1 h
  obtain ⟨m', hconf, h⟩ := bind_eq_ok.1 h
  obtain ⟨m'', hcs2, h⟩ := bind_eq_ok.1 h
  cases h
  exact (seqWrite_ctrl_disabled hdisable).kept ((rcConf_ctrlKept hconf).trans (seqCs2_ctrlKept hcs2))

/-- Both ends of an exchange leave the channel disabled. -/
theorem rcExchange_disabled {S : Session} {r : OpResult} (hpos : 0 < d.n.toNat / S.wordlen.toNat)
    (h : rcExchange S c d s = .ok (r, t)) : Disabled c t := by
  obtain ⟨⟨fine, m⟩, hshift, h⟩ := bind_eq_ok.1 h
  cases fine with
  | true =>
    obtain ⟨m', hend, h⟩ := bind_eq_ok.1 h
    cases h
    exact (rcShift_disabled hpos hshift).kept (rcEnd_ctrlKept hend)
  | false => exact rcTimeout_disabled h

end
end

/-! ## The transfer -/

/-- A descriptor that passes the tests, with a length, has an element (40_contract R127). -/
theorem elements_pos {u : BusUnit} {S : Session} {d : Desc} (h : entryError u S d = none) (hn : d.n ≠ 0#32) :
    0 < d.n.toNat / S.wordlen.toNat := by
  have hpos : 0 < d.n.toNat := Nat.pos_of_ne_zero fun h => hn (BitVec.eq_of_toNat_eq h)
  have hw : 4 ≤ S.wordlen.toNat := by
    by_contra hlt
    rw [entryError_wordlen (.inl (not_le.1 hlt))] at h
    cases h
  have h32 : S.wordlen.toNat ≤ 32 := by
    by_contra hgt
    rw [entryError_wordlen (.inr (not_le.1 hgt))] at h
    cases h
  have hmod : d.n.toNat % S.wordlen.toNat = 0 := by
    by_contra hmod
    simp only [entryError_of_wordlen hw h32, hn, hmod, ne_eq, not_false_eq_true, and_self, if_true] at h
    repeat' split at h
    all_goals cases h
  exact Nat.div_pos (Nat.le_of_dvd hpos (Nat.dvd_of_mod_eq_zero hmod)) (by omega)

/-- No test answers Timeout, which is the exchange's alone (R201). -/
theorem entryError_ne_timeout {u : BusUnit} {S : Session} {d : Desc} : entryError u S d ≠ some .timeout := by
  unfold entryError
  simp only
  repeat' split
  all_goals exact fun h => by cases h

/-- Settles O48: the accesses are `rcTransferBody_touch`, the channel `rcExchange_disabled`. -/
theorem rcNeverElsewhere : Obligations.RcNeverElsewhere := by
  unfold Obligations.RcNeverElsewhere
  intro s t sid S d hl hrun
  obtain ⟨r, u, hbody, rfl⟩ := finish_eq_next.1 hrun
  obtain ⟨S', hcur, -, hends⟩ := checkedTransfer_cases hbody
  obtain rfl : S' = S := Option.some.inj (hcur.symm.trans hl.1)
  rcases hends with ⟨e, herror, rfl, rfl⟩ | ⟨hnone, -, hbody⟩
  · refine ⟨⟨[], (List.append_nil _).symm, fun _ h => nomatch h⟩, rfl, fun _ _ hr => ?_⟩
    rcases hr with hr | hr
    · cases hr
    · cases hr
      exact absurd herror entryError_ne_timeout
  · obtain ⟨hregs, hshared⟩ := rcTransferBody_touch hbody
    refine ⟨hregs, hshared, fun hn hb _ => ?_⟩
    rw [rcTransferBody_exchange hn hb] at hbody
    have hoff : Disabled S'.cs.toNat u := rcExchange_disabled (elements_pos hnone hn) hbody
    exact hoff

end Sys2Proof.Machine
end

section
/-! PROOFS. Writes of the MF window (spec 43_mmfifo R221 to R230, R235): a write is an equation for every way its checks
fall, and of the exchanges it makes the first that finds the queue full is the fault. -/

namespace Sys2Proof.Machine

/-! ## SET_SPEED (R235) -/

/-- Settles O26: the session's request, then the SPEED write. -/
theorem mfSetSpeed : Obligations.MfSetSpeed := by
  unfold Obligations.MfSetSpeed
  intro s sid S hz hl
  exact congrArg finish (setSpeedOp_live hl (mfWrite_speed hz (putSession .mf { S with hz := hz } s)))

/-! ## A host write ends with no value or with a fault -/

theorem finish_mfWrite_ok {g : MfReg} {v : Word} {s t : State} (h : mfWrite g v s = .ok t) :
    finish (returnWrite (mfWrite g v s)) = .next { t with result := some .nothing } := by
  rw [h, finish_returnWrite]

theorem finish_mfWrite_error {g : MfReg} {v : Word} {s : State} {f : Fault} (h : mfWrite g v s = .error f) :
    finish (returnWrite (mfWrite g v s)) = .fault f := by
  rw [h]
  rfl

/-! ## Writes of BUSCTL, of a select slot, of MODE (R222, R223, R225) -/

theorem mfWrite_busctl_reserved {v : Word} (h1 : v ≠ 1#32) (h0 : v ≠ 0#32) (s : State) :
    mfWrite .busctl v s = .error .reservedConfig := by
  simp [mfWrite, mfBusctl, h1, h0]

/-- R223: a slot is written when the value de-asserts it or the other slot is not asserted. -/
theorem mfSelectWrite_logged {i : Nat} {g : MfReg} {v : Word} {s : State}
    (h : v.getLsbD 0 = true ∨ (if i = 0 then s.mf.cs1 else s.mf.cs0) = true) :
    mfSelectWrite i v (mfLog true g v s) = .ok { s with
      mf := if i = 0 then { s.mf with cs0 := v.getLsbD 0 } else { s.mf with cs1 := v.getLsbD 0 },
      trace := s.trace ++ [.reg (mfW g v), .pin (.cs .mf i (!v.getLsbD 0))] } := by
  have hfree : (!v.getLsbD 0 && !(if i = 0 then s.mf.cs1 else s.mf.cs0)) = false := by
    rcases h with h | h <;> simp only [h, Bool.not_true, Bool.false_and, Bool.and_false]
  rw [mfSelectWrite, mfLog_mf, hfree, if_neg Bool.false_ne_true]
  simp only [mfLog, emitPin, emit, mfW, List.append_assoc, List.cons_append, List.nil_append]

/-- R223: a second slot is not asserted. -/
theorem mfSelectWrite_second {i : Nat} {v : Word} {s : State} (hv : v.getLsbD 0 = false)
    (hother : (if i = 0 then s.mf.cs1 else s.mf.cs0) = false) : mfSelectWrite i v s = .error .multiChannelActive := by
  rw [mfSelectWrite, hv, hother]
  rfl

theorem mfWrite_mode (v : Word) (s : State) : mfWrite .mode v s = .ok { s with
    mf := { s.mf with mode := v &&& modeMask }, trace := s.trace ++ [.reg (mfW .mode v)] } := rfl

/-- Settles O49: each write is its equation. -/
theorem mfCommandWrites : Obligations.MfCommandWrites := by
  unfold Obligations.MfCommandWrites
  intro s v
  refine ⟨fun hv => ?busctl, fun h1 h0 => finish_mfWrite_error (mfWrite_busctl_reserved h1 h0 s),
    fun hv hother => finish_mfWrite_error (mfSelectWrite_second (i := 0) hv hother),
    fun h => finish_mfWrite_ok (g := .cs0) (mfSelectWrite_logged (i := 0) h),
    fun hv hother => finish_mfWrite_error (mfSelectWrite_second (i := 1) hv hother),
    fun h => finish_mfWrite_ok (g := .cs1) (mfSelectWrite_logged (i := 1) h),
    finish_mfWrite_ok (mfWrite_speed v s), finish_mfWrite_ok (mfWrite_mode v s)⟩
  case busctl =>
    rcases hv with rfl | rfl
    · exact finish_mfWrite_ok (mfWrite_busctl_claim s)
    · exact finish_mfWrite_ok (mfWrite_busctl_release s)

/-! ## Writes that exchange bytes (R221, R226, R228) -/

/-- R230: a byte that finds the queue full. -/
theorem mfExch_full {o : Byte} {s : State} (h : s.params.fifoBytes ≤ s.mf.rxq.length) :
    mfExch o s = .error .rxOverrun := by
  simp [mfExch, Nat.not_lt.2 h]

/-- R221, R230: of two bytes the first or the second finds the queue full. -/
theorem mfExch_pair_full {o o' : Byte} {s : State} (h : s.params.fifoBytes < s.mf.rxq.length + 2) :
    (mfExch o s >>= mfExch o') = .error .rxOverrun := by
  by_cases hroom : s.mf.rxq.length < s.params.fifoBytes
  · rw [mfExch_ok hroom, ok_bind, mfExch_full]
    simp only [List.length_append, List.length_singleton]
    omega
  · rw [mfExch_full (Nat.not_lt.1 hroom), error_bind]

/-- R228, R230: one of the bytes of zeros finds the queue full. -/
theorem mfExchZeros_full {n : Nat} {s : State} (hcap : s.mf.rxq.length ≤ s.params.fifoBytes)
    (h : s.params.fifoBytes < s.mf.rxq.length + n) : mfExchZeros n s = .error .rxOverrun := by
  induction n generalizing s with
  | zero => omega
  | succ n ih =>
    rw [mfExchZeros]
    by_cases hroom : s.mf.rxq.length < s.params.fifoBytes
    · rw [mfExch_ok hroom, ok_bind]
      apply ih <;> simp only [List.length_append, List.length_singleton] <;> omega
    · rw [mfExch_full (Nat.not_lt.1 hroom), error_bind]

theorem mfWrite_txfifo_eq {o : Nat} {s : State} (ho : mfWindowOk s.params o = true) (v : Word) :
    mfWrite (.txfifo o) v s = (mfExch (loByte v) (mfLog true (.txfifo o) v s) >>= mfExch (hiByte v)) := if_pos ho

theorem mfWrite_txfifo_unmapped {o : Nat} {s : State} (ho : ¬ (o % 2 = 0 ∧ o < s.params.fifoBytes)) (v : Word) :
    mfWrite (.txfifo o) v s = .error .unmappedAccess := if_neg fun h => ho (mfWindowOk_iff.1 h)

/-- 20_memory R67: the 16 bits of a window write are a pair of bytes. -/
theorem setWidth_eq_pairWord (v : BitVec 16) : v.setWidth 32 = pairWord (v.extractLsb' 0 8) (v.extractLsb' 8 8) := by
  have : v = v.extractLsb' 8 8 ++ v.extractLsb' 0 8 := by
    rw [BitVec.extractLsb'_append_extractLsb'_eq_extractLsb' (by decide)]
    simp
  rw [pairWord, ← this]

theorem mfWrite_wrbyte {v : Word} {s : State} (h : s.mf.rxq.length < s.params.fifoBytes) :
    mfWrite .wrbyte v s = .ok (mfExchanged (s.env.byte.answer Config.freeByte) 0 1
      [.reg (mfW .wrbyte v), .pin (.byte (loByte v) (s.env.byte.answer Config.freeByte 0))] s) := by
  have hexch := mfExch_ok (o := loByte v) (s := mfLog true .wrbyte v s) h
  refine hexch.trans ?_
  simp [mfExchanged, mfLog, emit, mfW]

theorem mfWrite_read {v : Word} {s : State} (h : s.mf.rxq.length + v.toNat ≤ s.params.fifoBytes) :
    mfWrite .read v s = .ok (mfExchanged (s.env.byte.answer Config.freeByte) 0 v.toNat
      (.reg (mfW .read v) ::
        pins ((List.range' 0 v.toNat).map fun k => .byte 0#8 (s.env.byte.answer Config.freeByte k))) s) := by
  have hexch := mfExchZeros_spec (g := s.env.byte.answer Config.freeByte) (n := v.toNat) (j := 0)
    (s := mfLog true .read v s) (fun k _ => by rw [Nat.zero_add]; rfl) h
  refine hexch.trans ?_
  simp [mfExchanged, mfLog, emit, mfW]

/-- Settles O50: by whether the window has the offset and the queue the room. -/
theorem mfExchanges : Obligations.MfExchanges := by
  unfold Obligations.MfExchanges
  rintro s _ rfl
  refine ⟨fun o v he ho => ⟨fun hroom => ?pair, fun hfull => ?pairFull⟩,
    fun o v ho => finish_mfWrite_error (mfWrite_txfifo_unmapped ho _),
    fun v hroom => finish_mfWrite_ok (mfWrite_wrbyte hroom),
    fun v hfull => finish_mfWrite_error (mfExch_full hfull), fun v hroom => ?read,
    fun v hcap hfull => finish_mfWrite_error (mfExchZeros_full hcap hfull)⟩
  case pair =>
    have hwrite := mfWrite_txfifo (g := s.env.byte.answer Config.freeByte) (j := 0) (lo := v.extractLsb' 0 8)
      (hi := v.extractLsb' 8 8) he ho (fun k _ => by rw [Nat.zero_add]) hroom
    rw [← setWidth_eq_pairWord] at hwrite
    exact finish_mfWrite_ok hwrite
  case pairFull =>
    refine finish_mfWrite_error ((mfWrite_txfifo_eq (mfWindowOk_iff.2 ⟨he, ho⟩) _).trans ?_)
    exact mfExch_pair_full hfull
  case read =>
    refine (finish_mfWrite_ok (mfWrite_read hroom)).trans ?_
    simp only [mfExchanged, pins, List.map_map, List.range_eq_range']
    rfl

end Sys2Proof.Machine
end

section
/-! PROOFS. TRANSFER on MF (spec 43_mmfifo R238): what the begin and end phases leave of the peer, and the transfer
assembled from the two phases and `mfExchange_spec`. -/

namespace Sys2Proof.Machine

/-! ## The begin and end phases (40_contract R128, R133) -/

/-- The peer after the phases the flags name, on the slot of a chip-select. -/
def mfPhased (cs : BitVec 8) (f : Flags) (x : MfBus) : MfBus :=
  { x with
    cs0 := if cs = 0#8 then !selectLeft f (!x.cs0) else x.cs0,
    cs1 := if cs = 1#8 then !selectLeft f (!x.cs1) else x.cs1,
    bus := { x.bus with cs2Asserted := cs2Left f x.bus } }

/-- BEGIN alone asserts, or leaves the select as it was (R128). -/
theorem selectLeft_begin (f : Flags) (old : Bool) : selectLeft { f with ends := false } old = (f.begins || old) := by
  unfold selectLeft
  cases f.begins <;> rfl

/-- END alone de-asserts, or leaves the select as it was (R133). -/
theorem selectLeft_end (f : Flags) (old : Bool) : selectLeft { f with begins := false } old = (!f.ends && old) := by
  unfold selectLeft
  cases f.ends <;> rfl

theorem selectLeft_selectLeft (f : Flags) (old : Bool) :
    selectLeft { f with begins := false } (selectLeft { f with ends := false } old) = selectLeft f old := by
  rw [selectLeft_end, selectLeft_begin]
  unfold selectLeft
  cases f.begins <;> cases f.ends <;> rfl

/-- The end phase after the begin phase. -/
theorem mfPhased_mfPhased (cs : BitVec 8) (f : Flags) (x : MfBus) :
    mfPhased cs { f with begins := false } (mfPhased cs { f with ends := false } x) = mfPhased cs f x := by
  simp only [mfPhased, cs2Left_cs2Left, MfBus.mk.injEq]
  by_cases h0 : cs = 0#8 <;> by_cases h1 : cs = 1#8 <;> simp [h0, h1, selectLeft_selectLeft]

theorem mfBegin_phased {S : Session} {s : State} (hq : MfQuiet S.cs s.mf) (d : Desc) :
    ∃ t, mfBegin S d s = .ok t ∧
      t = { s with mf := mfPhased S.cs { d.flags with ends := false } s.mf, trace := t.trace } ∧
      pinTrace t.trace = pinTrace s.trace ++
        whenSet d.flags.begins (cs2Events .mf s.mf.bus.profile true ++ [.cs .mf S.cs.toNat true]) ∧
      regTrace t.trace = regTrace s.trace ++ whenSet d.flags.begins [mfW (slotReg S.cs) 0#32] ∧
      (if S.cs = 0#8 then t.mf.cs1 = true else t.mf.cs0 = true) := by
  obtain ⟨t, hrun, ht, hrest⟩ := mfBegin_spec hq d
  refine ⟨t, hrun, ht.trans ?_, hrest⟩
  simp only [mfPhased, cs2Left, selectLeft_begin]
  cases d.flags.begins <;> simp

theorem mfEnd_phased {S : Session} {s : State} (hs : S.cs.toNat < 2)
    (ho : if S.cs = 0#8 then s.mf.cs1 = true else s.mf.cs0 = true) (d : Desc) :
    ∃ t, mfEnd S d s = .ok t ∧
      t = { s with mf := mfPhased S.cs { d.flags with begins := false } s.mf, trace := t.trace } ∧
      pinTrace t.trace = pinTrace s.trace ++
        whenSet d.flags.ends (.cs .mf S.cs.toNat false :: cs2Events .mf s.mf.bus.profile false) ∧
      regTrace t.trace = regTrace s.trace ++ whenSet d.flags.ends [mfW (slotReg S.cs) 1#32] := by
  obtain ⟨t, hrun, ht, hrest⟩ := mfEnd_spec hs ho d
  refine ⟨t, hrun, ht.trans ?_, hrest⟩
  simp only [mfPhased, cs2Left, selectLeft_end]
  cases d.flags.ends <;> simp

/-! ## The transfer -/

@[simp] theorem mfMoved_mf (m : Memory) (b : Nat) (l : List Obs) (s : State) :
    (mfMoved m b l s).mf = { s.mf with rxq := [] } := rfl

@[simp] theorem mfMoved_trace (m : Memory) (b : Nat) (l : List Obs) (s : State) :
    (mfMoved m b l s).trace = s.trace ++ l := rfl

/-- R134: without a buffer, as with a length of 0, nothing is exchanged. -/
theorem ite_exchanges {α : Type} (d : Desc) (g : Word → α) :
    (if d.out = none ∧ d.inp = none then g 0#32 else g d.n) = if exchanges d then g d.n else g 0#32 := by
  by_cases hnone : d.out = none ∧ d.inp = none
  · rw [if_pos hnone, exchanges_false (.inr hnone), if_neg Bool.false_ne_true]
  · rw [if_neg hnone]
    by_cases hn : d.n = 0#32
    · rw [hn, ite_self]
    · rw [exchanges_true hn (not_and_or.1 hnone), if_pos rfl]

/-- Settles O52: the begin phase, the bursts in the state it leaves, the end phase. -/
theorem mfTransfer : Obligations.MfTransfer := by
  unfold Obligations.MfTransfer
  rintro s sid l S d _ hl hd hq hwf rfl hlen
  replace hlen : l = if exchanges d then d.n.toNat / 8 else 0 :=
    hlen.trans (ite_exchanges d fun n => n.toNat / 8)
  obtain ⟨a, hbegin, ha, hpinA, hregA, hother⟩ := mfBegin_phased hq d
  have hmem : a.mem = s.mem := by rw [ha]
  have hparams : a.params = s.params := by rw [ha]
  have henv : a.env = s.env := by rw [ha]
  have hprofile : a.mf.bus.profile = s.mf.bus.profile := by rw [ha]; rfl
  have hempty : a.mf.rxq = [] := by rw [ha]; exact hq.queue
  obtain ⟨tr, m, hexch, hpinX, hregX, hstored⟩ := mfExchange_spec hd hempty (hmem ▸ hwf) hlen rfl
  rw [hmem, henv] at hpinX hstored
  rw [hmem, henv, hparams] at hregX
  obtain ⟨u, hend, hu, hpinU, hregU⟩ := mfEnd_phased (s := mfMoved m l tr a) hq.slot hother d
  have humem : u.mem = m := by rw [hu]; rfl
  refine ⟨{ u with result := some (transferResult d) }, ?run, ?result, ?pins, ?accesses, fun b hb => ?input,
    fun hb => ?noInput, ?canonical, ?rest⟩
  case run =>
    have hbody : mfTransferBody d S s = .ok (transferResult d, u) := by
      rw [mfTransferBody, hbegin, ok_bind, hexch, ok_bind, hend, ok_bind, pure_eq_ok]
    exact congrArg finish ((checkedTransfer_legal hl hd).trans hbody)
  case result => exact congrArg (fun n => some (OpResult.count n)) (ite_exchanges d id).symm
  case pins =>
    refine hpinU.trans ?_
    rw [mfMoved_trace, pinTrace_append, hpinA, hpinX, mfMoved_mf, hprofile]
  case accesses =>
    refine hregU.trans ?_
    rw [mfMoved_trace, regTrace_append, hregA, hregX]
  case input =>
    rw [hb] at hstored
    obtain ⟨-, hin, hout⟩ := hstored
    simp only [humem]
    exact ⟨fun k hk => hin k (Nat.zero_le k) hk, fun x hx => hout x fun k _ hk => hx k hk⟩
  case noInput =>
    rw [hb] at hstored
    exact humem.trans hstored
  case canonical => exact humem ▸ hstored.wf hwf
  case rest =>
    have hmoved : (mfMoved m l tr a).mf = mfPhased S.cs { d.flags with ends := false } s.mf := by
      rw [mfMoved_mf, ← hempty, ha]
    rw [hmoved, mfPhased_mfPhased] at hu
    rw [hu, ha]
    rfl

end Sys2Proof.Machine
end

section
/-! PROOFS. The loader's operations that touch no line (spec 44_loader R261 to R265), and a load whose claim errs (R251,
R259, R260): it fails at once, with one diagnostic sample when the line is wired. -/

namespace Sys2Proof.Machine

/-! ## The no-operations and `ld.read` (R261 to R265) -/

theorem onHandle_missing {h : Nat} {s : State} (hle : s.ld.length ≤ h) (x : Except Fault (OpResult × State)) :
    onHandle h s x = .refused (.noOperation .noSuchHandle) := if_neg (Nat.not_lt.2 hle)

/-- Settles O53: an operation of the loader runs exactly on a handle the machine has. -/
theorem ldNoOps : Obligations.LdNoOps := by
  unfold Obligations.LdNoOps
  refine fun s h offset len => ⟨fun hh => ?_, fun hle i hi => ?_⟩
  · have hok : onHandle h s (.ok (.ok, s)) = .next { s with result := some .ok } := onHandle_of hh _
    exact ⟨hok, hok, hok, hok⟩
  · cases i <;> cases hi <;> exact onHandle_missing hle _

/-- Settles O54: the bytes stored are `len` copies of the fill value. -/
theorem ldRead : Obligations.LdRead := by
  unfold Obligations.LdRead
  intro s h offset len dst hh hw
  have hlen : (List.replicate len.toNat s.params.fill).length = len.toNat := List.length_replicate
  have hrun : exec (.ldRead offset len dst h) s =
      .next { storeBytes dst (List.replicate len.toNat s.params.fill) s with result := some .ok } := onHandle_of hh _
  refine ⟨_, hrun, ?_, storeBytes_wf dst _ hw, fun q hq => ?_, fun a ha => ?_⟩
  · rw [storeBytes_eq]
  · exact (readByte_storeBytes_inside hw (by rwa [hlen])).trans (List.getElem_replicate _)
  · refine readByte_storeBytes_outside hw ?_
    by_contra hin
    exact ha (a - dst) (by omega) (by omega)

/-! ## A claim that errs (R251, R259) -/

theorem execLdWrite_of {s : State} {h : Nat} (hh : h < s.ld.length) (offset : Word) (src : Nat) (len : Word) :
    exec (.ldWrite offset src len h) s = finish (ldWriteOp h src len s) := onHandle_of hh _

theorem handle_enterIdle {s : State} {h : Nat} (hh : h < s.ld.length) : (enterIdle h s).handle h =
    { s.handle h with state := .idle, lastError := none, crcDiag := none } := handle_setHandle_same hh _

theorem enterIdle_bus (h : Nat) (s : State) (u : BusUnit) : (enterIdle h s).bus u = s.bus u := setHandle_bus ..

/-- A load on a claimed bus does not get past its claim. -/
theorem ldWriteOp_reentrant {s : State} {h : Nat} (hh : h < s.ld.length) (src : Nat) (len : Word)
    (hcur : (s.bus (s.handle h).bus).cur ≠ none) : ldWriteOp h src len s = .error .reentrantClaim := by
  have hclaim : claimOp (s.handle h).bus (s.handle h).cs (enterIdle h s) = .error .reentrantClaim := by
    simp [claimOp, enterIdle_bus, claimed_eq_true hcur]
  simp only [ldWriteOp, handle_enterIdle hh, hclaim, error_bind]

/-- The claim of a load finds its bus as it was before the load, and errs where a CLAIM does (40_contract R122). -/
theorem claimOp_enterIdle_error {s : State} {h : Nat} {u : BusUnit} {cs : BitVec 8} {e : Err}
    (hcur : (s.bus u).cur = none)
    (he : (claimLimit u s.rc.nchan (s.bus u).profile ≤ cs.toNat ∧ e = .noSuchChipSelect) ∨
      (cs.toNat < claimLimit u s.rc.nchan (s.bus u).profile ∧ (s.bus u).cfgOk = false ∧ e = .resourceUnavailable)) :
    claimOp u cs (enterIdle h s) = .ok (.error e, enterIdle h s) := by
  rw [← enterIdle_bus h s u] at hcur he
  obtain ⟨hcs, rfl⟩ | ⟨hcs, hok, rfl⟩ := he
  · exact claimOp_noSuchChipSelect hcur hcs
  · exact claimOp_resourceUnavailable hcur hcs hok

/-- A load whose claim errs is the diagnosis of the handle in `Failed` (R259, R260). -/
theorem ldWriteOp_claimError {s : State} {h : Nat} {e : Err} (hh : h < s.ld.length) (src : Nat) (len : Word)
    (hclaim : claimOp (s.handle h).bus (s.handle h).cs (enterIdle h s) = .ok (.error e, enterIdle h s)) :
    ldWriteOp h src len s = (do
      let t ← diag h (setHandle h { s.handle h with state := .failed, lastError := some e, crcDiag := none } s)
      return (.error e, t)) := by
  have hidle := handle_enterIdle hh
  have hset : ∀ x, setHandle h x (enterIdle h s) = setHandle h x s := fun x => setHandle_setHandle h x _ s
  simp only [ldWriteOp, hidle, hclaim, ok_bind, fail, hset]

/-- The diagnostic sample of a wired line, once the gap before it has left `m` (R260; log 6). -/
theorem diag_wired {h : Nat} {s m : State} (hc : (s.handle h).hasCrc = true) (hgap : ldGap h s = .ok m) :
    diag h s = .ok { m with
      ld := m.ld.set h { m.handle h with crcDiag := some (m.env.crc.answer Config.freeCrc 0) },
      env := { m.env with crc := m.env.crc.drop 1 },
      trace := m.trace ++ [.pin (.crc h (m.env.crc.answer Config.freeCrc 0))] } := by
  simp only [diag, hc, if_true, sampleCrc, afterGap, hgap, ok_bind, pure_eq_ok, crcEvent, next_eq_answer, rest_eq_drop]
  rfl

theorem diag_gapFault {h : Nat} {s : State} {f : Fault} (hc : (s.handle h).hasCrc = true)
    (hgap : ldGap h s = .error f) : diag h s = .error f := by
  simp only [diag, hc, if_true, sampleCrc, afterGap, hgap, error_bind]

/-- What the gap before a loader's event leaves of the handles and of the CRC line. -/
theorem ldGap_crc {h : Nat} {s m : State} (e : ldGap h s = .ok m) : m.ld = s.ld ∧ m.env.crc = s.env.crc := by
  unfold ldGap at e
  split at e
  · have hrest := (shifterGap_shifted e).rest
    exact ⟨by rw [hrest], by rw [hrest]⟩
  · cases e; exact ⟨rfl, rfl⟩

/-- Settles O55: past the claim only the diagnosis is left, which samples a wired line after the gap. -/
theorem ldClaimFails : Obligations.LdClaimFails := by
  unfold Obligations.LdClaimFails
  rintro s failed h offset len src x e hh rfl hfailed
  replace hfailed : failed =
      setHandle h { s.handle h with state := .failed, lastError := some e, crcDiag := none } s := hfailed
  have hx : failed.handle h = { s.handle h with state := .failed, lastError := some e, crcDiag := none } := by
    rw [hfailed]; exact handle_setHandle_same hh _
  rw [execLdWrite_of hh]
  refine ⟨fun hcur => by rw [ldWriteOp_reentrant hh src len hcur, finish_error], fun hcur he => ?_⟩
  rw [ldWriteOp_claimError hh src len (claimOp_enterIdle_error hcur he), ← hfailed]
  refine ⟨fun hc => ?unwired, fun m hc hrc hother => ?sampled, fun f hc hrc hgap => ?fault⟩
  case unwired =>
    have hd : diag h failed = .ok failed := by rw [diag, hx]; exact if_neg (by simp [hc])
    rw [hd]
    rfl
  case sampled =>
    have hgap : ldGap h failed = .ok m := by
      unfold ldGap
      rw [hx]
      split
      · exact hrc ‹_›
      · rw [hother ‹_›]
    obtain ⟨hld, hcrc⟩ := ldGap_crc hgap
    have hfcrc : failed.env.crc = s.env.crc := by rw [hfailed]; rfl
    have hfld : failed.ld = s.ld.set h
        { s.handle h with state := .failed, lastError := some e, crcDiag := none } := by rw [hfailed]; rfl
    rw [diag_wired (by rw [hx]; exact hc) hgap, handle_congr hld, hx, hld, hcrc, hfcrc, hfld, List.set_set]
    rfl
  case fault =>
    have hgap' : ldGap h failed = .error f := by
      unfold ldGap
      rw [hx, if_pos hrc, hgap]
    rw [diag_gapFault (by rw [hx]; exact hc) hgap']
    rfl

end Sys2Proof.Machine
end

section
/-! PROOFS. The settle wait of a load (spec 44_loader R258): its events are those of its rounds, on a bus of RC with
what the gaps before the samples leave in between (log 6). -/

namespace Sys2Proof.Machine

/-! ## Samples and the gaps before them -/

/-- Between the two states the loader's events are `l`, and where no shifter of its bus can move nothing else is. -/
structure Sampled (h : Nat) (l : List PinEvent) (s t : State) : Prop where
  events : loaderTrace t.trace = loaderTrace s.trace ++ l
  alone : LoaderQuiet h s → t.trace = s.trace ++ pins l
  quiet : LoaderQuiet h s → LoaderQuiet h t
  params : t.params = s.params

theorem Sampled.trans {h : Nat} {l m : List PinEvent} {s t r : State} (a : Sampled h l s t) (b : Sampled h m t r) :
    Sampled h (l ++ m) s r := by
  refine ⟨by rw [b.events, a.events, List.append_assoc], fun hq => ?_, fun hq => b.quiet (a.quiet hq),
    b.params.trans a.params⟩
  rw [b.alone (a.quiet hq), a.alone hq, pins, pins, pins, List.map_append, List.append_assoc]

/-- What adds events of the loader to the trace, and leaves the controller, the handles and the parameters. -/
theorem Sampled.of_events {h : Nat} {l : List PinEvent} {s t : State} (hl : l.filter PinEvent.isLoader = l)
    (ht : t.trace = s.trace ++ pins l) (hrc : t.rc = s.rc) (hld : t.ld = s.ld) (hp : t.params = s.params) :
    Sampled h l s t :=
  ⟨by rw [ht, loaderTrace_append, loaderTrace_pins, hl], fun _ => ht,
    fun hq => hq.congr hrc (by rw [handle_congr hld]), hp⟩

theorem ldGap_sampled {h : Nat} {s t : State} (e : ldGap h s = .ok t) : Sampled h [] s t := by
  obtain ⟨hev, hp, -, -, hstill⟩ := ldGap_loaderTrace e
  exact ⟨by rw [hev, List.append_nil], fun hq => by rw [hstill hq]; simp [pins],
    fun hq => by rw [hstill hq]; exact hq, hp⟩

theorem sampleStatus_sampled {h : Nat} {b : Bool} {s t : State} (e : sampleStatus h s = .ok (b, t)) :
    Sampled h [.status h b] s t := by
  obtain ⟨m, hgap, hev⟩ := bind_eq_ok.1 e
  rw [statusEvent_spec] at hev
  cases hev
  exact (ldGap_sampled hgap).trans (.of_events rfl rfl rfl rfl rfl)

theorem sampleDone_sampled {h : Nat} {b : Bool} {s t : State} (e : sampleDone h s = .ok (b, t)) :
    Sampled h [.done h b] s t := by
  obtain ⟨m, hgap, hev⟩ := bind_eq_ok.1 e
  rw [doneEvent_spec] at hev
  cases hev
  exact (ldGap_sampled hgap).trans (.of_events rfl rfl rfl rfl rfl)

/-! ## Rounds -/

/-- The samples of a round that does not end the wait. -/
def openRound (h : Nat) : List PinEvent := [.status h true, .done h false]

/-- The samples of the round that ends the wait; past the settle window it ends between two rounds. -/
def lastRound (h : Nat) (x : Settled) : List PinEvent :=
  if x = .configured then [.status h true, .done h true]
  else if x = .stopped .configurationRejected then [.status h false] else []

/-- The ways the samples of one round end (R258). -/
inductive RoundEnd (h : Nat) (s t : State) : Option Settled → Prop where
  | more : Sampled h (openRound h) s t → RoundEnd h s t none
  | configured : Sampled h (lastRound h .configured) s t → RoundEnd h s t (some .configured)
  | rejected : Sampled h (lastRound h (.stopped .configurationRejected)) s t →
      RoundEnd h s t (some (.stopped .configurationRejected))

theorem settleSamples_roundEnd {h : Nat} {x : Option Settled} {s t : State} (e : settleSamples h s = .ok (x, t)) :
    RoundEnd h s t x := by
  obtain ⟨⟨st, m⟩, hst, e⟩ := bind_eq_ok.1 e
  have hstatus := sampleStatus_sampled hst
  cases st with
  | false => cases e; exact .rejected hstatus
  | true =>
    obtain ⟨⟨dn, r⟩, hdn, e⟩ := bind_eq_ok.1 e
    have hboth := hstatus.trans (sampleDone_sampled hdn)
    cases dn with
    | false => cases e; exact .more hboth
    | true => cases e; exact .configured hboth

/-- How a settle wait from `s` that started at the timer reading `t0` ends: some rounds that leave it open and the one
that ends it; in `Timeout` past the settle window, after at least one round. -/
structure SettleEnd (h t0 : Nat) (s : State) (x : Settled) (n : Nat) (t : State) : Prop where
  ending : x = .configured ∨ x = .stopped .configurationRejected ∨ x = .stopped .timeout
  sampled : Sampled h ((List.replicate n (openRound h)).flatten ++ lastRound h x) s t
  expired : x = .stopped .timeout → 0 < n ∧ s.params.tSettle < t.now - t0

/-- A round before the others. -/
theorem SettleEnd.after_round {h t0 n : Nat} {x : Settled} {s m t : State} (hround : Sampled h (openRound h) s m)
    (e : SettleEnd h t0 m x n t) : SettleEnd h t0 s x (n + 1) t := by
  refine ⟨e.ending, ?_, fun hx => ⟨Nat.succ_pos n, ?_⟩⟩
  · rw [List.replicate_succ, List.flatten_cons, List.append_assoc]
    exact hround.trans e.sampled
  · rw [← hround.params]
    exact (e.expired hx).2

theorem SettleEnd.of_configured {h t0 : Nat} {s t : State} (hs : Sampled h (lastRound h .configured) s t) :
    SettleEnd h t0 s .configured 0 t := ⟨.inl rfl, hs, fun hx => by cases hx⟩

theorem SettleEnd.of_rejected {h t0 : Nat} {s t : State}
    (hs : Sampled h (lastRound h (.stopped .configurationRejected)) s t) :
    SettleEnd h t0 s (.stopped .configurationRejected) 0 t := ⟨.inr (.inl rfl), hs, fun hx => by cases hx⟩

/-- The round whose reading of the timer is past the window (log 7). -/
theorem SettleEnd.of_expired {h t0 : Nat} {s m t : State} (hround : Sampled h (openRound h) s m)
    (hnow : Sampled h [] m t) (hlate : s.params.tSettle < t.now - t0) : SettleEnd h t0 s (.stopped .timeout) 1 t :=
  ⟨.inr (.inr rfl), hround.trans hnow, fun _ => ⟨Nat.one_pos, hlate⟩⟩

theorem readNow_sampled (h : Nat) (s : State) : Sampled h [] s (readNow s).2 :=
  .of_events rfl (List.append_nil _).symm rfl rfl rfl

theorem settleRounds_settleEnd {h t0 k : Nat} {x : Settled} {s t : State}
    (e : settleRounds h t0 k s = .ok (x, t)) : ∃ n, SettleEnd h t0 s x n t := by
  induction k generalizing s with
  | zero =>
    obtain ⟨⟨y, m⟩, hround, e⟩ := bind_eq_ok.1 e
    cases settleSamples_roundEnd hround with
    | configured hs => cases e; exact ⟨0, .of_configured hs⟩
    | rejected hs => cases e; exact ⟨0, .of_rejected hs⟩
    | more hs =>
      cases e
      refine ⟨1, .of_expired hs (.of_events rfl (List.append_nil _).symm rfl rfl rfl) ?_⟩
      have hlate : t0 + m.params.tSettle + 1 ≤ (readNowFrom (t0 + m.params.tSettle + 1) m).now := le_max_right _ _
      rw [hs.params] at hlate ⊢
      omega
  | succ k ih =>
    obtain ⟨⟨y, m⟩, hround, e⟩ := bind_eq_ok.1 e
    cases settleSamples_roundEnd hround with
    | configured hs => cases e; exact ⟨0, .of_configured hs⟩
    | rejected hs => cases e; exact ⟨0, .of_rejected hs⟩
    | more hs =>
      simp only at e
      split at e
      · rename_i hlate
        cases e
        exact ⟨1, .of_expired hs (readNow_sampled h m) (hs.params ▸ hlate)⟩
      · obtain ⟨n, hn⟩ := ih e
        exact ⟨n + 1, hn.after_round (hs.trans (readNow_sampled h m))⟩

/-- The wait starts with a reading of the timer and the draw of its rounds (log 7). -/
theorem doneWait_settleEnd {h : Nat} {x : Settled} {s t : State} (e : doneWait h s = .ok (x, t)) :
    ∃ n, SettleEnd h (s.now + s.env.tick.answer Config.freeTick 0) s x n t := by
  obtain ⟨n, hn⟩ := settleRounds_settleEnd (s := (drawRounds (readNow s).2).2) e
  have hstart : Sampled h [] s (drawRounds (readNow s).2).2 :=
    .of_events rfl (List.append_nil _).symm rfl rfl rfl
  refine ⟨n, hn.ending, hstart.trans hn.sampled, fun hx => ?_⟩
  rw [← next_eq_answer]
  exact hn.expired hx

/-- Settles O56: by induction on the readings before the deadline. -/
theorem settleWait : Obligations.SettleWait := by
  unfold Obligations.SettleWait
  refine ⟨fun s t h x e => ?_, fun s h hq => ?_⟩
  · obtain ⟨n, hending, hsampled, hexpired⟩ := doneWait_settleEnd e
    exact ⟨n, _, hending, rfl, hsampled.events, hsampled.alone, hexpired⟩
  · obtain ⟨x, t, hrun, -, -⟩ := doneWait_waited hq
    exact ⟨x, t, hrun⟩

end Sys2Proof.Machine
end

section
/-! PROOFS. How a load from a ready bus ends (spec 44_loader R250 to R259, R266, R268): in `Ready`, or in `Failed` with
`Timeout` or `ConfigurationRejected`, the bus ready again. -/

namespace Sys2Proof.Machine

/-! ## What a load leaves -/

/-- A load from `s` on handle `h`, past its reset pulse, has the handle in state `x` with error `e`: memory is as it
was, and of the handles only that one has changed. -/
structure LoadAt (h : Nat) (s : State) (x : LdState) (e : Option Err) (t : State) : Prop where
  mem : t.mem = s.mem
  handles : ∃ d, t.ld = (setHandle h { s.handle h with state := x, lastError := e, crcDiag := d, ncfg := true } s).ld

theorem LoadAt.congr {h : Nat} {s t r : State} {x : LdState} {e : Option Err} (ht : LoadAt h s x e t)
    (hmem : r.mem = t.mem) (hld : r.ld = t.ld) : LoadAt h s x e r :=
  ⟨by rw [hmem, ht.mem], by rw [hld]; exact ht.handles⟩

theorem LoadAt.withResult {h : Nat} {s t : State} {x : LdState} {e : Option Err} (ht : LoadAt h s x e t)
    (r : Option OpResult) : LoadAt h s x e { t with result := r } := ht.congr rfl rfl

theorem LoadAt.handle_eq {h : Nat} {s t : State} {x : LdState} {e : Option Err} (ht : LoadAt h s x e t)
    (hh : h < s.ld.length) :
    ∃ d, t.handle h = { s.handle h with state := x, lastError := e, crcDiag := d, ncfg := true } := by
  obtain ⟨d, hld⟩ := ht.handles
  exact ⟨d, by rw [handle_congr hld, handle_setHandle_same hh]⟩

/-- The handle moves to another state, with the error and the diagnostic sample that go with it. -/
theorem LoadAt.move {h : Nat} {s t r : State} {x y : LdState} {e f : Option Err} {d : Option Bool}
    (ht : LoadAt h s x e t) (hh : h < s.ld.length) (hmem : r.mem = t.mem)
    (hld : r.ld = (setHandle h { t.handle h with state := y, lastError := f, crcDiag := d } t).ld) :
    LoadAt h s y f r := by
  obtain ⟨d', htld⟩ := ht.handles
  refine ⟨by rw [hmem, ht.mem], d, ?_⟩
  rw [hld, handle_congr htld, handle_setHandle_same hh]
  show t.ld.set h _ = s.ld.set h _
  rw [htld]
  exact List.set_set ..

theorem LoadAt.handleOnly {h : Nat} {s t : State} {x : LdState} {e : Option Err} (ht : LoadAt h s x e t)
    (hh : h < s.ld.length) : HandleOnly h s t := by
  obtain ⟨d, hld⟩ := ht.handles
  obtain ⟨d', hown⟩ := ht.handle_eq hh
  exact ⟨by rw [hld, setHandle_length], fun k hk => by rw [handle_congr hld, handle_setHandle_other hk], by rw [hown]⟩

/-! ## Up to the stream (R251 to R253) -/

/-- Where a load stands after its status wait: in the state `q` its stream starts in, or past 200 samples
that read 0. -/
inductive WaitEnd (h src : Nat) (len : Word) (s : State) (S : Session) (sid : Nat) : Prop where
  | risen (k : Nat) (q : State) : k < 200 → s.env.status.answer Config.freeStatus k = true →
      AtRest h (s.handle h).bus sid S q → LoadAt h s .streaming none q →
      ldWriteOp h src len s = (stream h sid src len.toNat (chunkCount len.toNat q.params.chunkBytes) 0 q >>=
        loadAfterStream h sid len) → WaitEnd h src len s S sid
  | low (q : State) : AtRest h (s.handle h).bus sid S q → LoadAt h s .resetting none q → q.env.crc = s.env.crc →
      pinTrace q.trace = pinTrace s.trace ++ pulseEvents h ++ lowSamples h 200 →
      ldWriteOp h src len s = releaseAndFail h sid .timeout q → WaitEnd h src len s S sid

theorem ldWrite_waitEnd {h : Nat} {s : State} (hr : LoadReady h s) (src : Nat) (len : Word) :
    ∃ S sid, WaitEnd h src len s S sid := by
  obtain ⟨S, sid, p, hp, hrun⟩ := ldWrite_pulsed hr src len
  have hpulsed : LoadAt h s .resetting none p := ⟨hp.mem, none, hp.ld⟩
  have hph : p.handle h =
      { s.handle h with state := .resetting, lastError := none, crcDiag := none, ncfg := true } :=
    (handle_congr hp.ld h).trans (handle_setHandle_same hr.handle _)
  refine ⟨S, sid, ?_⟩
  obtain ⟨k, l, hk, -, hrisen, hwait, -⟩ | ⟨-, hwait⟩ := statusWait_spec 200 p hp.rest.quiet rfl
  · obtain ⟨q, hq, hwait⟩ : ∃ q, q = _ ∧ statusWait h 200 p = .ok (true, q) := ⟨_, rfl, hwait⟩
    have hqh : q.handle h = { p.handle h with state := .streaming } := by
      rw [hq]; exact handle_setHandle_same hp.rest.handle _
    rw [hp.env] at hrisen
    refine .risen k q hk hrisen ?_ ?_ ?_
    · refine hp.rest.congr ?_ ?_ ?_ ?_ (by rw [hqh]) (by rw [hqh]) <;> rw [hq]
      · rfl
      · rfl
      · rfl
      · exact setHandle_length ..
    · refine hpulsed.move (d := none) hr.handle ?_ ?_ <;> rw [hq]
      · rfl
      · rw [hph]
        show (setHandle h { p.handle h with state := .streaming } p).ld = _
        rw [hph]
    · rw [hrun, show Config.nStatus = 200 from rfl, hwait, ok_bind]
      simp only [if_true]
      refine congrArg (_ >>= ·) (funext fun x => ?_)
      obtain ⟨_ | r, t⟩ := x <;> rfl
  · obtain ⟨q, hq, hwait⟩ : ∃ q, q = _ ∧ statusWait h 200 p = .ok (false, q) := ⟨_, rfl, hwait⟩
    refine .low q ?_ ?_ ?_ ?_ ?_
    · refine hp.rest.congr ?_ ?_ ?_ ?_ ?_ ?_ <;> rw [hq] <;> rfl
    · exact hpulsed.congr (by rw [hq]) (by rw [hq])
    · rw [hq, ← hp.env]
    · rw [hq]
      show pinTrace (p.trace ++ pins (lowSamples h 200)) = _
      rw [pinTrace_append, pinTrace_pins, hp.trace]
    · rw [hrun, show Config.nStatus = 200 from rfl, hwait]
      rfl

/-! ## The ends of a load (R256 to R259) -/

/-- How a load from a ready bus ends (R250, R266). -/
inductive LoadEnd (h : Nat) (len : Word) (s : State) : OpResult → State → Prop where
  | ready (t : State) : LoadReady h t → LoadAt h s .ready none t → LoadEnd h len s (.count len) t
  | failed (e : Err) (t : State) : (e = .timeout ∨ e = .configurationRejected) → LoadReady h t →
      LoadAt h s .failed (some e) t → LoadEnd h len s (.error e) t

section
variable {h : Nat} {u : BusUnit} {sid : Nat} {S : Session} {s q : State} {x : LdState}

theorem releaseAndFail_loadAt (hh : h < s.ld.length) (hrest : AtRest h u sid S q) (hq : LoadAt h s x none q) (e : Err) :
    ∃ t, releaseAndFail h sid e q = .ok (.error e, t) ∧ LoadReady h t ∧ LoadAt h s .failed (some e) t ∧
      pinTrace t.trace = pinTrace q.trace ++ diagEvents h (q.handle h) q.env := by
  obtain ⟨t, hrun, hready, htrace, hmem, hld⟩ := releaseAndFail_atRest hrest e
  exact ⟨t, hrun, hready, hq.move hh hmem hld, htrace⟩

theorem releaseAndFail_loadEnd (hh : h < s.ld.length) (hrest : AtRest h u sid S q) (hq : LoadAt h s x none q) {e : Err}
    (he : e = .timeout ∨ e = .configurationRejected) (len : Word) :
    ∃ r t, releaseAndFail h sid e q = .ok (r, t) ∧ LoadEnd h len s r t := by
  obtain ⟨t, hrun, hready, ht, -⟩ := releaseAndFail_loadAt hh hrest hq e
  exact ⟨_, t, hrun, .failed e t he hready ht⟩

theorem finishLoad_loadEnd (hh : h < s.ld.length) (hrest : AtRest h u sid S q) (hq : LoadAt h s x none q) (len : Word) :
    ∃ r t, finishLoad h sid len q = .ok (r, t) ∧ LoadEnd h len s r t := by
  obtain ⟨y, t, hrun, hy, hready, hmem, hld, -⟩ := finishLoad_spec hrest len
  refine ⟨_, t, hrun, ?_⟩
  cases y with
  | configured =>
    obtain ⟨d, hqh⟩ := hq.handle_eq hh
    have hnone : (q.handle h).lastError = none := by rw [hqh]
    exact .ready t hready (hq.move hh hmem (hnone ▸ hld))
  | stopped e =>
    refine .failed e t ?_ hready (hq.move hh hmem hld)
    obtain hy | hy | hy := hy
    · cases hy
    · exact .inr (Settled.stopped.inj hy)
    · exact .inl (Settled.stopped.inj hy)

/-! ## The stream (R254 to R256) -/

/-- The stream of a load ends in one of the ways of `StreamEnd`. -/
theorem stream_streamEnd (hrest : AtRest h u sid S q) (hw : Memory.wf q.mem = true) (src len : Nat) :
    StreamEnd u h sid S src len (padded src len q) q.params.chunkBytes (chunkCount len q.params.chunkBytes) 0
      (q.env.status.answer Config.freeStatus) q (stream h sid src len (chunkCount len q.params.chunkBytes) 0 q) := by
  obtain ⟨hpos, hbig⟩ := chunkBytes_bounds q.params
  obtain ⟨hfit, hlast, hmore⟩ := chunkCount_spec len hpos
  exact stream_spec hpos hbig _ 0 q hrest.bus hrest.unit hw rfl rfl (by omega) (by omega)
    (fun h0 => by have := hmore h0; omega) (fun _ => hrest.off) rfl

/-- A load that stops in its stream ends as its abort does. -/
theorem stopStream_bind {y : Except Fault (OpResult × State)} {len : Word} :
    (stopStream y >>= loadAfterStream h sid len) = y := by
  cases y <;> rfl

theorem stream_loadEnd (hh : h < s.ld.length) (hrest : AtRest h u sid S q) (hq : LoadAt h s x none q)
    (hw : Memory.wf s.mem = true) (src : Nat) (len : Word) :
    ∃ r t, (stream h sid src len.toNat (chunkCount len.toNat q.params.chunkBytes) 0 q >>=
      loadAfterStream h sid len) = .ok (r, t) ∧ LoadEnd h len s r t := by
  have hend := stream_streamEnd hrest (by rw [hq.mem]; exact hw) src len.toNat
  generalize stream h sid src len.toNat (chunkCount len.toNat q.params.chunkBytes) 0 q = y at hend ⊢
  cases hend with
  | sent v w hfed hoff hv _ =>
    subst hv
    have hw : AtRest h u sid S { v with env := { v.env with pad := v.env.pad.drop 1 } } :=
      (hfed.atRest hrest hoff).congr rfl rfl rfl rfl rfl rfl
    exact finishLoad_loadEnd hh hw (hq.congr hfed.mem hfed.ld) len
  | rejected v i _ hfed hoff _ _ =>
    rw [stopStream_bind]
    exact releaseAndFail_loadEnd hh (hfed.atRest hrest hoff) (hq.congr hfed.mem hfed.ld) (.inr rfl) len
  | timeout v w i b _ hfed hoff hv _ _ _ =>
    rw [stopStream_bind]
    refine releaseAndFail_loadEnd (q := w) (u := u) (S := S) hh ?_ (hq.congr ?_ ?_) (.inl rfl) len
    · rw [hv]; exact (hfed.atRest hrest hoff).congr rfl rfl rfl rfl rfl rfl
    · rw [hv]; exact hfed.mem
    · rw [hv]; exact hfed.ld

end

/-! ## The load as a whole -/

theorem ldWrite_loadEnd {h : Nat} {s : State} (hr : LoadReady h s) (hw : Memory.wf s.mem = true) (src : Nat)
    (len : Word) : ∃ r t, ldWriteOp h src len s = .ok (r, t) ∧ LoadEnd h len s r t := by
  obtain ⟨S, sid, hwait⟩ := ldWrite_waitEnd hr src len
  cases hwait with
  | risen k q _ _ hrest hq hrun => rw [hrun]; exact stream_loadEnd hr.handle hrest hq hw src len
  | low q hrest hq _ _ hrun => rw [hrun]; exact releaseAndFail_loadEnd hr.handle hrest hq (.inl rfl) len

/-- A result is recorded on a bus as ready as it was. -/
theorem LoadReady.withResult {h : Nat} {s : State} (hr : LoadReady h s) (r : Option OpResult) :
    LoadReady h { s with result := r } := hr.congr rfl rfl rfl rfl rfl rfl

/-- Settles O57: by how the load ends. -/
theorem ldWriteCompletes : Obligations.LdWriteCompletes := by
  unfold Obligations.LdWriteCompletes
  intro s h offset len src hr hw
  obtain ⟨r, t, hrun, hend⟩ := ldWrite_loadEnd hr hw src len
  refine ⟨{ t with result := some r }, by rw [execLdWrite_of hr.handle, hrun, finish_ok], ?_⟩
  cases hend with
  | ready _ hready ht =>
    replace ht := ht.withResult (some (.count len))
    obtain ⟨d, hth⟩ := ht.handle_eq hr.handle
    exact ⟨hready.withResult _, ht.mem, ht.handleOnly hr.handle, congrArg Handle.ncfg hth,
      .inl ⟨congrArg Handle.state hth, congrArg Handle.lastError hth, rfl⟩⟩
  | failed e _ he hready ht =>
    replace ht := ht.withResult (some (.error e))
    obtain ⟨d, hth⟩ := ht.handle_eq hr.handle
    exact ⟨hready.withResult _, ht.mem, ht.handleOnly hr.handle, congrArg Handle.ncfg hth,
      .inr ⟨e, he, congrArg Handle.state hth, congrArg Handle.lastError hth, rfl⟩⟩

/-- Settles O58: the status wait does not rise. -/
theorem ldStatusNeverRises : Obligations.LdStatusNeverRises := by
  unfold Obligations.LdStatusNeverRises
  intro s h offset len src hr hlow
  obtain ⟨S, sid, hwait⟩ := ldWrite_waitEnd hr src len
  cases hwait with
  | risen k q hk hrisen => exact absurd hrisen (by rw [hlow k hk]; decide)
  | low q hrest hq hcrc htrace hrun =>
    obtain ⟨t, hfail, hready, ht, hdiag⟩ := releaseAndFail_loadAt hr.handle hrest hq .timeout
    replace ht := ht.withResult (some (.error .timeout))
    obtain ⟨d, hth⟩ := ht.handle_eq hr.handle
    obtain ⟨d', hqh⟩ := hq.handle_eq hr.handle
    have hdiagnosed : diagEvents h (q.handle h) q.env = diagEvents h (s.handle h) s.env := by
      rw [hqh, diagEvents, diagEvents, hcrc]
    refine ⟨{ t with result := some (.error .timeout) }, by rw [execLdWrite_of hr.handle, hrun, hfail, finish_ok], rfl,
      congrArg Handle.state hth, congrArg Handle.lastError hth, congrArg Handle.ncfg hth, hready.withResult _, ht.mem,
      ht.handleOnly hr.handle, ?_⟩
    rw [← hdiagnosed, ← htrace]
    exact hdiag

/-! ## A status that drops (R256, R268(c)) -/

/-- Memories that agree on the bytes sent. -/
theorem BytesSent.mem_congr {u : BusUnit} {src n : Nat} {m m' : Memory} {s t : State} (hs : BytesSent u src n m s t)
    (hm : ∀ k, k < n → readByte m (src + k) = readByte m' (src + k)) : BytesSent u src n m' s t := by
  refine ⟨fun hu => ?_, fun hu => ?_, fun hu => ?_⟩
  · rw [hs.bb hu]
    refine congrArg (_ ++ ·) (List.map_congr_left fun k hk => ?_)
    have hk : k < 8 * n := List.mem_range.1 hk
    simp only [outBit, hm (k / 8) (by omega)]
  · rw [hs.rc hu]
    exact congrArg (_ ++ ·) (List.map_congr_left fun k hk => by rw [hm k (List.mem_range.1 hk)])
  · rw [hs.mf hu]
    exact congrArg (_ ++ ·) (List.map_congr_left fun k hk => by rw [hm k (List.mem_range.1 hk)])

/-- The diagnostic sample sends nothing. -/
theorem NothingSent.of_diag {h : Nat} {x : Handle} {e : Env} {s t : State}
    (ht : pinTrace t.trace = pinTrace s.trace ++ diagEvents h x e) : NothingSent s t := by
  constructor <;> rw [ht, diagEvents] <;> split <;> simp [doutTrace, wordOutTrace, byteOutTrace]

/-- A stream whose status reads 1 before the transfers below `i` and 0 before transfer `i`, on RC under a shifter that
is willing up to there, sends the chunks before it and is rejected. -/
theorem stream_rejected {h : Nat} {s : State} {S : Session} {sid : Nat} {q : State} (hq : Streaming h s S sid q)
    (hw : Memory.wf s.mem = true) (src len : Nat) {i : Nat} (hi : i ≤ chunkCount len s.params.chunkBytes)
    (hhigh : ∀ k, k < i → q.env.status.answer Config.freeStatus k = true)
    (hlow : q.env.status.answer Config.freeStatus i = false)
    (hrc : (s.handle h).bus = .rc → Willing (s.handle h).cs.toNat (i * s.params.chunkBytes) s.env) :
    ∃ v, stream h sid src len (chunkCount len s.params.chunkBytes) 0 q =
        stopStream (releaseAndFail h sid .configurationRejected v) ∧
      AtRest h (s.handle h).bus sid S v ∧ BytesSent (s.handle h).bus src (i * s.params.chunkBytes) s.mem q v := by
  have hcs : S.cs = (s.handle h).cs := by rw [← hq.rest.cs, hq.handle]
  have hend := stream_streamEnd hq.rest (by rw [hq.mem]; exact hw) src len
  rw [hq.params] at hend
  generalize stream h sid src len (chunkCount len s.params.chunkBytes) 0 q = x at hend ⊢
  cases hend with
  | sent v w _ _ _ hall => exact absurd (hall i hi) (by rw [hlow]; decide)
  | rejected v j hj hfed hoff hbefore hdrop =>
    have hji : j = i := by
      obtain hlt | heq | hgt := Nat.lt_trichotomy j i
      · exact absurd (hhigh j hlt) (by rw [hdrop]; decide)
      · exact heq
      · exact absurd (hbefore i hgt) (by rw [hlow]; decide)
    subst hji
    have hfit : j * s.params.chunkBytes ≤ len :=
      Nat.le_trans (Nat.mul_le_mul_right _ hi) (chunkCount_spec len (chunkBytes_bounds s.params).1).1
    refine ⟨v, rfl, hfed.atRest hq.rest hoff, hfed.bytesSent.mem_congr fun k hk => ?_⟩
    rw [readByte_padded (by rw [hq.mem]; exact hw) (by omega), hq.mem]
  | timeout v w j b hj _ _ _ hbefore hu hno =>
    have hji : j < i := by
      by_contra hge
      exact absurd (hbefore i (by omega)) (by rw [hlow]; decide)
    refine absurd ?_ hno
    rw [if_pos (by omega), hcs, hq.env]
    exact (hrc hu).mono (Nat.mul_le_mul_right _ hji)

/-- Settles O60: status sample `i + 1` of the load is sample `i` of its stream. -/
theorem ldWriteRejected : Obligations.LdWriteRejected := by
  unfold Obligations.LdWriteRejected
  intro s h offset len src i hr hw hi hhigh hlow hrc
  obtain ⟨S, sid, q, hq, hrun⟩ := ldWrite_streaming hr src len (hhigh 0 (Nat.zero_le i))
  have hsample : ∀ k, q.env.status.answer Config.freeStatus k = s.env.status.answer Config.freeStatus (k + 1) :=
    fun k => by rw [hq.env, answer_drop, Nat.add_comm]
  obtain ⟨v, hstream, hrest, hsent⟩ := stream_rejected hq hw src len.toNat hi
    (fun k hk => by rw [hsample]; exact hhigh _ hk) (by rw [hsample]; exact hlow) hrc
  obtain ⟨t, hfail, hready, htrace, -, hld⟩ := releaseAndFail_atRest hrest .configurationRejected
  have hth := (handle_congr hld h).trans (handle_setHandle_same hrest.handle _)
  have hbytes := hsent.between hq.nothingSent (.of_diag htrace)
  refine ⟨{ t with result := some (.error .configurationRejected) }, ?_, rfl, congrArg Handle.state hth,
    congrArg Handle.lastError hth, hready.withResult _, hbytes.bb, hbytes.rc, hbytes.mf⟩
  rw [execLdWrite_of hr.handle, hrun, hstream, stopStream_bind, hfail, finish_ok]

end Sys2Proof.Machine
end

section
/-! PROOFS. Who owns a bus and whether it is set up (spec 60_exceptions R294, 10_state R21, R25): `LeavesBus u b s t`
says of an operation on unit `u` what it leaves of both. A load claims the bus of its handle and, however it ends past the
claim, has released it. -/

namespace Sys2Proof.Machine

/-! ## What is left of a bus -/

/-- The bus of unit `u` is left claimed exactly when `b`, and its set-up flag is as before. -/
structure LeavesBus (u : BusUnit) (b : Bool) (s t : State) : Prop where
  claimed : (t.bus u).claimed = b
  cfgOk : (t.bus u).cfgOk = (s.bus u).cfgOk

theorem LeavesBus.trans {u : BusUnit} {a b : Bool} {s m t : State} (x : LeavesBus u a s m) (y : LeavesBus u b m t) :
    LeavesBus u b s t := ⟨y.claimed, y.cfgOk.trans x.cfgOk⟩

theorem LeavesBus.of_bus_eq {u : BusUnit} {s t : State} (h : t.bus u = s.bus u) :
    LeavesBus u (s.bus u).claimed s t := ⟨by rw [h], by rw [h]⟩

theorem SameSessions.leavesBus {s t : State} (h : SameSessions s t) (u : BusUnit) :
    LeavesBus u (s.bus u).claimed s t := ⟨congrArg Option.isSome (h.cur u), by rw [h u]⟩

/-- What follows on an operation and leaves the sessions, leaves the bus as the operation did. -/
theorem LeavesBus.same {u : BusUnit} {b : Bool} {s m t : State} (x : LeavesBus u b s m) (h : SameSessions m t) :
    LeavesBus u b s t := by
  obtain rfl := x.claimed
  exact x.trans (h.leavesBus u)

theorem setBus_leavesBus {u : BusUnit} {a : Bool} {b : BusRec} {s : State} (hc : b.claimed = a)
    (hk : b.cfgOk = (s.bus u).cfgOk) : LeavesBus u a s (s.setBus u b) :=
  ⟨by rw [setBus_bus_same, hc], by rw [setBus_bus_same, hk]⟩

theorem putSession_leavesBus (u : BusUnit) (S : Session) (s : State) : LeavesBus u true s (putSession u S s) :=
  setBus_leavesBus rfl rfl

/-- A bus of another unit is left as it is. -/
theorem OtherUnits.bus {u v : BusUnit} {s t : State} (h : OtherUnits v s t) (hv : v ≠ u) : t.bus u = s.bus u := by
  cases u
  · exact congrArg BbBus.bus (h.bb hv)
  · exact congrArg RcBus.bus (h.rc hv)
  · exact congrArg MfBus.bus (h.mf hv)

/-- What leaves the units as they are leaves the sessions. -/
theorem SameSessions.of_units {s t : State} (hb : t.bb = s.bb) (hr : t.rc = s.rc) (hm : t.mf = s.mf) :
    SameSessions s t := fun u => by rw [bus_congr hr hm (congrArg BbBus.bus hb) u]

/-- Recording a result leaves the bus records. -/
theorem finish_next_bus {x : Except Fault (OpResult × State)} {t : State} (h : finish x = .next t) :
    ∃ r m, x = .ok (r, m) ∧ ∀ u, t.bus u = m.bus u := by
  obtain ⟨r, m, hm, rfl⟩ := finish_eq_next.1 h
  exact ⟨r, m, hm, bus_congr rfl rfl rfl⟩

theorem finish_leavesBus {u : BusUnit} {b : Bool} {x : Except Fault (OpResult × State)} {s t : State}
    (hx : ∀ r m, x = .ok (r, m) → LeavesBus u b s m) (h : finish x = .next t) : LeavesBus u b s t := by
  obtain ⟨r, m, hm, hbus⟩ := finish_next_bus h
  exact ⟨by rw [hbus, (hx r m hm).claimed], by rw [hbus, (hx r m hm).cfgOk]⟩

/-! ## The operations of the contract -/

theorem mfWrite_same {g : MfReg} {v : Word} {s t : State} (h : mfWrite g v s = .ok t) : SameSessions s t :=
  (mfWrite_works (rep := true) h).only.same

theorem unitRelease_same {u : BusUnit} {s t : State} (h : unitRelease u s = .ok t) : SameSessions s t := by
  cases u
  · cases h; exact .refl _
  · cases h; exact .refl _
  · exact mfWrite_same (g := .busctl) (v := 0#32) h

theorem unitSetMode_same {u : BusUnit} {S : Session} {s t : State} (h : unitSetMode u S s = .ok t) :
    SameSessions s t := by
  cases u
  · cases h; exact .refl _
  · cases h; exact .refl _
  · exact mfWrite_same (g := .mode) (v := modeWord S.cpol S.cpha S.csHigh) h

theorem unitSetSpeed_leavesBus {u : BusUnit} {S : Session} {hz : Word} {s t : State}
    (h : unitSetSpeed u S hz s = .ok t) : LeavesBus u true s t := by
  cases u
  · cases h; exact putSession_leavesBus .bb _ s
  · cases h; exact putSession_leavesBus .rc _ s
  · exact (putSession_leavesBus .mf { S with hz := hz } s).same (mfWrite_same (g := .speed) (v := hz) h)

theorem liveSession_claimed {u : BusUnit} {sid : Nat} {s : State} {S : Session} (h : liveSession u sid s = .ok S) :
    (s.bus u).claimed = true := by
  rw [BusRec.claimed, (liveSession_eq_ok.1 h).1, Option.isSome_some]

theorem setSpeedOp_leavesBus {u : BusUnit} {sid : Nat} {hz : Word} {s t : State} {r : OpResult}
    (h : setSpeedOp u sid hz s = .ok (r, t)) : LeavesBus u (s.bus u).claimed s t := by
  obtain ⟨S, hlive, h⟩ := bind_eq_ok.1 h
  obtain ⟨m, hset, h⟩ := bind_eq_ok.1 h
  cases h
  rw [liveSession_claimed hlive]
  exact unitSetSpeed_leavesBus hset

theorem setModeOp_leavesBus {u : BusUnit} {sid : Nat} {m : Mode} {s t : State} {r : OpResult}
    (h : setModeOp u sid m s = .ok (r, t)) : LeavesBus u (s.bus u).claimed s t := by
  obtain ⟨S, hlive, h⟩ := bind_eq_ok.1 h
  obtain ⟨m', hset, h⟩ := bind_eq_ok.1 h
  cases h
  rw [liveSession_claimed hlive]
  exact (putSession_leavesBus u _ s).same (unitSetMode_same hset)

theorem setWordlenOp_leavesBus {u : BusUnit} {sid : Nat} {w : BitVec 8} {s t : State} {r : OpResult}
    (h : setWordlenOp u sid w s = .ok (r, t)) : LeavesBus u (s.bus u).claimed s t := by
  obtain ⟨S, hlive, h⟩ := bind_eq_ok.1 h
  cases h
  rw [liveSession_claimed hlive]
  exact putSession_leavesBus u _ s

/-- R121: SETUP runs on a free bus only, and its bind leaves the sessions. -/
theorem setupOp_claimed {u : BusUnit} {s t : State} {r : OpResult} (h : setupOp u s = .ok (r, t)) :
    (t.bus u).claimed = (s.bus u).claimed := by
  unfold setupOp at h
  split at h
  · cases h
  · cases h
    rw [setBus_bus_same]
    exact congrArg Option.isSome ((unitBind_same u s).cur u)

theorem openSession_leavesBus {u : BusUnit} {cs : BitVec 8} {s t : State} {r : OpResult}
    (h : openSession u cs s = .ok (r, t)) : LeavesBus u true s t ∧ ∃ sid, r = .session sid := by
  obtain ⟨m1, hclaim, h⟩ := bind_eq_ok.1 h
  obtain ⟨m2, hspeed, h⟩ := bind_eq_ok.1 h
  obtain ⟨m3, hmode, h⟩ := bind_eq_ok.1 h
  cases h
  have hset : LeavesBus u true s m1 := by
    refine .same ?_ (unitClaim_same hclaim)
    exact setBus_leavesBus rfl rfl
  exact ⟨(hset.trans (unitSetSpeed_leavesBus hspeed)).same (unitSetMode_same hmode), _, rfl⟩

/-- R122: a CLAIM finds its bus free; it errs and changes nothing, or claims it for a session. -/
theorem claimOp_cases {u : BusUnit} {cs : BitVec 8} {s t : State} {r : OpResult}
    (h : claimOp u cs s = .ok (r, t)) : (s.bus u).claimed = false ∧
      ((∃ e, r = .error e ∧ t = s) ∨ ∃ sid, r = .session sid ∧ LeavesBus u true s t) := by
  unfold claimOp at h
  simp only at h
  split at h
  · cases h
  · rename_i hfree
    refine ⟨Bool.eq_false_iff.2 hfree, ?_⟩
    split at h
    · cases h; exact .inl ⟨_, rfl, rfl⟩
    · split at h
      · cases h; exact .inl ⟨_, rfl, rfl⟩
      · obtain ⟨hopen, sid, hr⟩ := openSession_leavesBus h
        exact .inr ⟨sid, hr, hopen⟩

theorem claimOp_cfgOk {u : BusUnit} {cs : BitVec 8} {s t : State} {r : OpResult}
    (h : claimOp u cs s = .ok (r, t)) : (t.bus u).cfgOk = (s.bus u).cfgOk := by
  obtain ⟨-, ⟨e, -, rfl⟩ | ⟨sid, -, hopen⟩⟩ := claimOp_cases h
  · rfl
  · exact hopen.cfgOk

/-- R123: a RELEASE leaves its bus free. -/
theorem releaseOp_leavesBus {u : BusUnit} {sid : Nat} {s t : State} {r : OpResult}
    (h : releaseOp u sid s = .ok (r, t)) : LeavesBus u false s t := by
  obtain ⟨S, -, h⟩ := bind_eq_ok.1 h
  split at h
  · cases h
  · obtain ⟨m, hrel, h⟩ := bind_eq_ok.1 h
    cases h
    exact ((unitRelease_same hrel).leavesBus u).trans (setBus_leavesBus rfl rfl)

/-! ## The loader's own events leave the sessions (R267) -/

theorem setHandle_same (h : Nat) (x : Handle) (s : State) : SameSessions s (setHandle h x s) := .of_units rfl rfl rfl

theorem ldGap_same {h : Nat} {s t : State} (e : ldGap h s = .ok t) : SameSessions s t := by
  unfold ldGap at e
  split at e
  · exact (shifterGap_rcOnly e).same
  · cases e; exact .refl s

theorem afterGap_same {α : Type} {h : Nat} {event : State → α} {next : α → State} {s : State} {x : α}
    (hx : ∀ s, SameSessions s (next (event s))) (e : afterGap h event s = .ok x) : SameSessions s (next x) := by
  obtain ⟨m, hgap, hev⟩ := bind_eq_ok.1 e
  cases hev
  exact (ldGap_same hgap).trans (hx m)

theorem driveNcfg_same {h : Nat} {b : Bool} {s t : State} (e : driveNcfg h b s = .ok t) : SameSessions s t :=
  afterGap_same (event := ncfgEvent h b) (next := id) (fun _ => .of_units rfl rfl rfl) e

theorem delayMicros_same {h n : Nat} {s t : State} (e : delayMicros h n s = .ok t) : SameSessions s t :=
  afterGap_same (event := emitPin _) (next := id) (fun _ => .of_units rfl rfl rfl) e

theorem sampleStatus_same {h : Nat} {b : Bool} {s t : State} (e : sampleStatus h s = .ok (b, t)) :
    SameSessions s t := afterGap_same (next := Prod.snd) (fun _ => .of_units rfl rfl rfl) e

theorem sampleDone_same {h : Nat} {b : Bool} {s t : State} (e : sampleDone h s = .ok (b, t)) : SameSessions s t :=
  afterGap_same (next := Prod.snd) (fun _ => .of_units rfl rfl rfl) e

theorem sampleCrc_same {h : Nat} {b : Bool} {s t : State} (e : sampleCrc h s = .ok (b, t)) : SameSessions s t :=
  afterGap_same (next := Prod.snd) (fun _ => .of_units rfl rfl rfl) e

theorem diag_same {h : Nat} {s t : State} (e : diag h s = .ok t) : SameSessions s t := by
  unfold diag at e
  split at e
  · obtain ⟨⟨b, m⟩, hcrc, e⟩ := bind_eq_ok.1 e
    cases e
    exact (sampleCrc_same hcrc).trans (setHandle_same _ _ _)
  · cases e; exact .refl s

theorem fail_same {h : Nat} {x : Err} {s t : State} {r : OpResult} (e : fail h x s = .ok (r, t)) :
    SameSessions s t := by
  obtain ⟨m, hdiag, e⟩ := bind_eq_ok.1 e
  cases e
  exact (setHandle_same _ _ s).trans (diag_same hdiag)

theorem resetPulse_same {h : Nat} {s t : State} (e : resetPulse h s = .ok t) : SameSessions s t := by
  obtain ⟨m1, hlow, e⟩ := bind_eq_ok.1 e
  obtain ⟨m2, hdelay, e⟩ := bind_eq_ok.1 e
  exact ((driveNcfg_same hlow).trans (delayMicros_same hdelay)).trans (driveNcfg_same e)

theorem statusWait_same {h n : Nat} {b : Bool} {s t : State} (e : statusWait h n s = .ok (b, t)) :
    SameSessions s t := by
  induction n generalizing s with
  | zero => cases e; exact .refl _
  | succ n ih =>
    obtain ⟨⟨st, m⟩, hst, e⟩ := bind_eq_ok.1 e
    refine (sampleStatus_same hst).trans ?_
    simp only at e
    split at e
    · cases e; exact setHandle_same _ _ _
    · obtain ⟨m2, hdelay, e⟩ := bind_eq_ok.1 e
      exact (delayMicros_same hdelay).trans (ih e)

theorem settleSamples_same {h : Nat} {x : Option Settled} {s t : State} (e : settleSamples h s = .ok (x, t)) :
    SameSessions s t := by
  obtain ⟨⟨st, m⟩, hst, e⟩ := bind_eq_ok.1 e
  refine (sampleStatus_same hst).trans ?_
  simp only at e
  split at e
  · obtain ⟨⟨dn, m2⟩, hdn, e⟩ := bind_eq_ok.1 e
    cases e; exact sampleDone_same hdn
  · cases e; exact .refl _

theorem readNow_same (s : State) : SameSessions s (readNow s).2 := .of_units rfl rfl rfl

theorem settleRounds_same {h t0 k : Nat} {x : Settled} {s t : State} (e : settleRounds h t0 k s = .ok (x, t)) :
    SameSessions s t := by
  induction k generalizing s with
  | zero =>
    obtain ⟨⟨y, m⟩, hround, e⟩ := bind_eq_ok.1 e
    refine (settleSamples_same hround).trans ?_
    cases y with
    | some y => cases e; exact .refl _
    | none => cases e; exact .of_units rfl rfl rfl
  | succ k ih =>
    obtain ⟨⟨y, m⟩, hround, e⟩ := bind_eq_ok.1 e
    refine (settleSamples_same hround).trans ?_
    cases y with
    | some y => cases e; exact .refl _
    | none =>
      simp only at e
      split at e
      · cases e; exact readNow_same m
      · exact (readNow_same m).trans (ih e)

theorem doneWait_same {h : Nat} {x : Settled} {s t : State} (e : doneWait h s = .ok (x, t)) : SameSessions s t :=
  have hstart : SameSessions s (drawRounds (readNow s).2).2 := .of_units rfl rfl rfl
  hstart.trans (settleRounds_same e)

/-! ## A load releases the bus it has claimed (R251, R256 to R259) -/

/-- A piece of a load that leaves the sessions, before one that has done with the bus of the handle. -/
theorem LeavesBus.after {h : Nat} {b : Bool} {s m t : State} (works : LoadWorks h s m) (same : SameSessions s m)
    (x : LeavesBus (m.handle h).bus b m t) : LeavesBus (s.handle h).bus b s t := by
  rw [works.bus] at x
  exact (same.leavesBus _).trans x

theorem releaseAndFail_leavesBus {h sid : Nat} {x : Err} {s t : State} {r : OpResult}
    (e : releaseAndFail h sid x s = .ok (r, t)) : LeavesBus (s.handle h).bus false s t := by
  obtain ⟨⟨r', m⟩, hrel, e⟩ := bind_eq_ok.1 e
  exact (releaseOp_leavesBus hrel).same (fail_same e)

theorem abort_leavesBus {h sid pos : Nat} {x : Err} {s t : State} {r : OpResult}
    (e : abort h sid pos x s = .ok (r, t)) : LeavesBus (s.handle h).bus false s t := by
  unfold abort at e
  split at e
  · obtain ⟨⟨r', m⟩, hend, e⟩ := bind_eq_ok.1 e
    exact .after (transferOp_unitOnly hend).loadWorks (transferOp_same hend) (releaseAndFail_leavesBus e)
  · exact releaseAndFail_leavesBus e

/-- What a stream leaves of the buses: the sessions, when every transfer returned; the bus of its handle free, when the
load has failed. -/
def Streamed.Leaves (h : Nat) (s t : State) : Streamed → Prop
  | .sent => SameSessions s t
  | .stopped _ => LeavesBus (s.handle h).bus false s t

theorem Streamed.Leaves.after {h : Nat} {x : Streamed} {s m t : State} (works : LoadWorks h s m)
    (same : SameSessions s m) (e : x.Leaves h m t) : x.Leaves h s t := by
  cases x with
  | sent => exact SameSessions.trans same e
  | stopped r => exact LeavesBus.after works same e

theorem stopStream_abort_leaves {h sid pos : Nat} {x : Err} {y : Streamed} {s t : State}
    (e : stopStream (abort h sid pos x s) = .ok (y, t)) : y.Leaves h s t := by
  obtain ⟨r, habort, rfl⟩ := stopStream_eq_ok.1 e
  exact abort_leavesBus habort

/-- The overlay of one byte for the last transfer changes memory alone, and is taken back. -/
theorem transferWith_same {a : Nat} {v : Byte} {u : BusUnit} {sid : Nat} {d : Desc} {s t : State} {r : OpResult}
    (e : transferWith a v u sid d s = .ok (r, t)) : SameSessions s t := by
  obtain ⟨⟨r', m⟩, htr, e⟩ := bind_eq_ok.1 e
  cases e
  have hbefore : SameSessions s { s with mem := writeByte s.mem a v } := .of_units rfl rfl rfl
  exact (hbefore.trans (transferOp_same htr)).trans (.of_units rfl rfl rfl)

theorem lastTransfer_leaves {h sid src len pos : Nat} {s t : State} {x : Streamed}
    (e : lastTransfer h sid src len pos s = .ok (x, t)) : x.Leaves h s t := by
  obtain ⟨⟨r, m⟩, htr, e⟩ := bind_eq_ok.1 e
  have hpad : LoadWorks h s (drawPad s).2 := .of_same rfl rfl rfl rfl
  have hsame : SameSessions s (drawPad s).2 := .of_units rfl rfl rfl
  refine .after (hpad.trans (transferWith_unitOnly htr).loadWorks) (hsame.trans (transferWith_same htr)) ?_
  simp only at e
  split at e
  · exact stopStream_abort_leaves e
  · cases e; exact SameSessions.refl _

theorem stream_leaves {h sid src len k pos : Nat} {s t : State} {x : Streamed}
    (e : stream h sid src len k pos s = .ok (x, t)) : x.Leaves h s t := by
  induction k generalizing pos s with
  | zero =>
    obtain ⟨⟨st, m⟩, hst, e⟩ := bind_eq_ok.1 e
    refine .after (sampleStatus_loadWorks hst) (sampleStatus_same hst) ?_
    cases st with
    | true => exact lastTransfer_leaves e
    | false => exact stopStream_abort_leaves e
  | succ k ih =>
    obtain ⟨⟨st, m⟩, hst, e⟩ := bind_eq_ok.1 e
    refine .after (sampleStatus_loadWorks hst) (sampleStatus_same hst) ?_
    cases st with
    | true =>
      obtain ⟨⟨r, m2⟩, htr, e⟩ := bind_eq_ok.1 e
      refine .after (transferOp_unitOnly htr).loadWorks (transferOp_same htr) ?_
      simp only at e
      split at e
      · exact stopStream_abort_leaves e
      · exact ih e
    | false => exact stopStream_abort_leaves e

theorem finishLoad_leavesBus {h sid : Nat} {len : Word} {s t : State} {r : OpResult}
    (e : finishLoad h sid len s = .ok (r, t)) : LeavesBus (s.handle h).bus false s t := by
  obtain ⟨⟨r', m⟩, hrel, e⟩ := bind_eq_ok.1 e
  obtain ⟨⟨x, m2⟩, hwait, e⟩ := bind_eq_ok.1 e
  refine ((releaseOp_leavesBus hrel).same ((setHandle_same _ _ m).trans (doneWait_same hwait))).same ?_
  cases x with
  | configured =>
    obtain ⟨m3, hdiag, e⟩ := bind_eq_ok.1 e
    cases e
    exact (setHandle_same _ _ m2).trans (diag_same hdiag)
  | stopped x => exact fail_same e

theorem runLoad_leavesBus {h sid src : Nat} {len : Word} {s t : State} {r : OpResult}
    (e : runLoad h sid src len s = .ok (r, t)) : LeavesBus (s.handle h).bus false s t := by
  obtain ⟨m, hpulse, e⟩ := bind_eq_ok.1 e
  obtain ⟨⟨risen, m2⟩, hwait, e⟩ := bind_eq_ok.1 e
  refine .after (((setLdState_loadWorks h .resetting s).trans (resetPulse_loadWorks hpulse)).trans
      (statusWait_loadWorks hwait))
    (((setHandle_same _ _ s).trans (resetPulse_same hpulse)).trans (statusWait_same hwait)) ?_
  cases risen with
  | true =>
    obtain ⟨⟨x, m3⟩, hstream, e⟩ := bind_eq_ok.1 e
    have hleft := stream_leaves hstream
    cases x with
    | sent => exact .after (stream_loadWorks hstream) hleft (finishLoad_leavesBus e)
    | stopped r' => cases e; exact hleft
  | false => exact releaseAndFail_leavesBus e

theorem ldWriteOp_leavesBus {h src : Nat} {len : Word} {s t : State} {r : OpResult}
    (e : ldWriteOp h src len s = .ok (r, t)) :
    LeavesBus (s.handle h).bus (s.bus (s.handle h).bus).claimed s t := by
  obtain ⟨⟨x, m⟩, hclaim, e⟩ := bind_eq_ok.1 e
  have hidle : SameSessions s (enterIdle h s) := setHandle_same _ _ s
  rw [(enterIdle_loadWorks h s).bus] at hclaim
  obtain ⟨hfree, ⟨x, rfl, rfl⟩ | ⟨sid, rfl, hopen⟩⟩ := claimOp_cases hclaim
  · exact (hidle.trans (fail_same e)).leavesBus _
  · rw [enterIdle_bus] at hfree
    have hunit : (m.handle h).bus = (s.handle h).bus := by
      rw [handle_congr (claimOp_unitOnly hclaim).ld, (enterIdle_loadWorks h s).bus]
    have hrun : LeavesBus (m.handle h).bus false m t := runLoad_leavesBus e
    rw [hunit] at hrun
    rw [hfree]
    exact ((hidle.leavesBus _).trans hopen).trans hrun

/-! ## The instructions -/

theorem finish_rcRead_leavesBus {g : RcReg} {s t : State} (h : finish (returnRead (rcRead g s)) = .next t)
    (u : BusUnit) : LeavesBus u (s.bus u).claimed s t :=
  finish_leavesBus (fun _ _ hx => by
    obtain ⟨v, hv, -⟩ := returnRead_eq_ok.1 hx
    exact (rcRead_rcOnly hv).same.leavesBus u) h

theorem finish_rcWrite_leavesBus {g : RcReg} {v : Word} {s t : State}
    (h : finish (returnWrite (rcWrite g v s)) = .next t) (u : BusUnit) : LeavesBus u (s.bus u).claimed s t :=
  finish_leavesBus (fun _ _ hx => (rcWrite_rcOnly (returnWrite_eq_ok.1 hx).1).same.leavesBus u) h

theorem finish_mfRead_leavesBus {g : MfReg} {s t : State} (h : finish (returnRead (mfRead g s)) = .next t)
    (u : BusUnit) : LeavesBus u (s.bus u).claimed s t :=
  finish_leavesBus (fun _ _ hx => by
    obtain ⟨v, hv, -⟩ := returnRead_eq_ok.1 hx
    exact (mfRead_works (rep := true) hv).only.same.leavesBus u) h

theorem finish_mfWrite_leavesBus {g : MfReg} {v : Word} {s t : State}
    (h : finish (returnWrite (mfWrite g v s)) = .next t) (u : BusUnit) : LeavesBus u (s.bus u).claimed s t :=
  finish_leavesBus (fun _ _ hx => (mfWrite_same (returnWrite_eq_ok.1 hx).1).leavesBus u) h

/-- Of the operations and accesses of a unit only SETUP, CLAIM and RELEASE can change whether its bus is claimed or set
up. -/
theorem exec_unit_cases {i : Instr} {u : BusUnit} {s t : State} (hu : instrUnit i = some u) (h : exec i s = .next t) :
    i = setupInstr u ∨ (∃ cs, i = claimInstr u cs) ∨ (∃ sid, i = releaseInstr u sid) ∨
      LeavesBus u (s.bus u).claimed s t := by
  cases i <;> cases hu
  case bbSetup | rcSetup | mfSetup => exact .inl rfl
  case bbClaim cs | rcClaim cs | mfClaim cs => exact .inr (.inl ⟨cs, rfl⟩)
  case bbRelease sid | rcRelease sid | mfRelease sid => exact .inr (.inr (.inl ⟨sid, rfl⟩))
  all_goals refine .inr (.inr (.inr ?_))
  case bbSetSpeed | rcSetSpeed | mfSetSpeed => exact finish_leavesBus (fun _ _ hx => setSpeedOp_leavesBus hx) h
  case bbSetMode | rcSetMode | mfSetMode => exact finish_leavesBus (fun _ _ hx => setModeOp_leavesBus hx) h
  case bbSetWordlen | rcSetWordlen | mfSetWordlen => exact finish_leavesBus (fun _ _ hx => setWordlenOp_leavesBus hx) h
  case bbTransfer => exact finish_leavesBus (fun _ _ hx => (transferOp_same (u := .bb) hx).leavesBus _) h
  case rcTransfer => exact finish_leavesBus (fun _ _ hx => (transferOp_same (u := .rc) hx).leavesBus _) h
  case mfTransfer => exact finish_leavesBus (fun _ _ hx => (transferOp_same (u := .mf) hx).leavesBus _) h
  case rcChconfR | rcChstatR | rcChctrlR | rcTxR | rcRxR | rcSharedR => exact finish_rcRead_leavesBus h _
  case rcChconfW | rcChstatW | rcChctrlW | rcTxW | rcRxW | rcSharedW => exact finish_rcWrite_leavesBus h _
  case mfRdbyteR | mfRxfifoR => exact finish_mfRead_leavesBus h _
  case mfSpeedW v => exact finish_mfWrite_leavesBus (g := .speed) (v := v) h _
  case mfModeW v => exact finish_mfWrite_leavesBus (g := .mode) (v := v) h _
  case mfTxfifoW | mfBusctlW | mfCs0W | mfCs1W | mfWrbyteW | mfReadW => exact finish_mfWrite_leavesBus h _

/-- No operation of the loader changes whether a bus is claimed or set up: a load ends as it found its bus. -/
theorem exec_loader_leavesBus {i : Instr} {s t : State} (hi : instrUnit i = none) (h : exec i s = .next t)
    (u : BusUnit) : LeavesBus u (s.bus u).claimed s t := by
  by_cases hw : ∃ k o src len, i = .ldWrite o src len k
  · obtain ⟨k, o, src, len, rfl⟩ := hw
    by_cases hu : (s.handle k).bus = u
    · obtain rfl := hu
      exact finish_leavesBus (fun _ _ hx => ldWriteOp_leavesBus hx) (onHandle_eq_next.1 h).2
    · exact .of_bus_eq ((execLdWrite_loadWorks h).units.bus hu)
  · obtain ⟨hb, hr, hm, -⟩ := exec_loader_same hi (fun k o src len hi => hw ⟨k, o, src, len, hi⟩) h
    exact (SameSessions.of_units hb hr hm).leavesBus u

/-- Of all instructions only a bus's own SETUP, CLAIM and RELEASE can change whether it is claimed or set up. -/
theorem exec_bus_cases {i : Instr} {s t : State} (h : exec i s = .next t) (u : BusUnit) :
    i = setupInstr u ∨ (∃ cs, i = claimInstr u cs) ∨ (∃ sid, i = releaseInstr u sid) ∨
      LeavesBus u (s.bus u).claimed s t := by
  cases hi : instrUnit i with
  | none => exact .inr (.inr (.inr (exec_loader_leavesBus hi h u)))
  | some v =>
    by_cases hv : v = u
    · exact exec_unit_cases (hv ▸ hi) h
    · exact .inr (.inr (.inr (.of_bus_eq ((exec_unitOnly hi h).bus hv))))

/-- Settles O14: of the three instructions that can change a flag, SETUP leaves `claimed`, and CLAIM and RELEASE leave
`cfgOk`. -/
theorem ownershipOnlyByClaimAndRelease : Obligations.OwnershipOnlyByClaimAndRelease := by
  unfold Obligations.OwnershipOnlyByClaimAndRelease
  intro i s t u e
  obtain rfl | ⟨cs, rfl⟩ | ⟨sid, rfl⟩ | hleft := exec_bus_cases e u
  · rw [exec_setupInstr] at e
    obtain ⟨r, m, hm, hbus⟩ := finish_next_bus e
    rw [hbus]
    exact ⟨fun _ _ => setupOp_claimed hm, fun hne => absurd rfl hne⟩
  · rw [exec_claimInstr] at e
    obtain ⟨r, m, hm, hbus⟩ := finish_next_bus e
    rw [hbus]
    exact ⟨fun hne _ => absurd rfl (hne cs), fun _ => claimOp_cfgOk hm⟩
  · rw [exec_releaseInstr] at e
    obtain ⟨r, m, hm, hbus⟩ := finish_next_bus e
    rw [hbus]
    exact ⟨fun _ hne => absurd rfl (hne sid), fun _ => (releaseOp_leavesBus hm).cfgOk⟩
  · exact ⟨fun _ _ => hleft.claimed, fun _ => hleft.cfgOk⟩

end Sys2Proof.Machine
end

section
/-! PROOFS. The machine right after the reset event (spec 70_reset_and_hazards R310, R311): it waits for the host, and
what stands in its channels, shared block and handles; and the two states from which a step runs nothing: one whose
queue is empty, and one with a fault marked. -/

namespace Sys2Proof.Machine

/-! ## Steps that run nothing -/

/-- With quiet channels and an empty queue the machine waits (log 4). -/
theorem step_of_idle {s : State} (hf : s.faultMark = []) (hq : s.queue = [])
    (hidle : ∀ c, c < s.rc.nchan → (s.rc.chan c).busy = false ∧ (s.rc.chan c).en = false) : step s = .next s := by
  rw [step_of_gap hf (shifterGap_idle hidle), issueNext, hq]

/-- A marked fault ends the run before the shifters or the host act (60_exceptions R287, log 12). -/
theorem step_of_faultMark {s : State} {f : Fault} {l : List Fault} (h : s.faultMark = f :: l) :
    step s = .fault f := by
  simp [step, stepOnce, h]

/-! ## What stands in the machine after reset (10_state R44) -/

theorem channelReset_en (c : Nat) : (Channel.reset c).en = false := BitVec.getLsbD_zero

/-- R29: the transmitter of a channel after reset is empty, and nothing has been received. -/
theorem channelReset_stat (c : Nat) : (Channel.reset c).stat = 0x00000002#32 := by
  simp [Channel.stat, Channel.rxs, Channel.txs, Channel.reset]

theorem reset_rc_chan (c : Nat) : State.reset.rc.chan c = Channel.reset c := reset_chan c

/-- After reset no channel is enabled or has a word in flight. -/
theorem reset_idle (c : Nat) : (State.reset.rc.chan c).busy = false ∧ (State.reset.rc.chan c).en = false := by
  rw [reset_rc_chan]
  exact ⟨rfl, channelReset_en c⟩

theorem reset_sharedWord {j : Nat} (hj : j < 11) : State.reset.rc.sharedWord j = 0#32 := by
  have hshared : State.reset.rc.shared = Vector.replicate 11 0#32 := rfl
  simp [RcBus.sharedWord, hshared, hj]

/-- Every handle is as a handle after reset. -/
theorem reset_handle : (h : Nat) → State.reset.handle h = Handle.reset
  | 0 => rfl
  | _ + 1 => rfl

/-- No unit's bus is set up or claimed, whatever profile it has. -/
theorem reset_bus (u : BusUnit) : State.reset.bus u = BusRec.reset (State.reset.bus u).profile := by
  cases u <;> rfl

/-- Settles O8: after reset the channels are idle and the queue empty, so the first clause is a case of the second. -/
theorem waitsAndNeverFinal : Obligations.WaitsAndNeverFinal := by
  unfold Obligations.WaitsAndNeverFinal
  exact ⟨step_of_idle rfl rfl fun c _ => reset_idle c, fun _ hf hq hidle => step_of_idle hf hq hidle,
    fun _ _ _ hmark => step_of_faultMark hmark⟩

/-- Settles O16: each bus record, channel, shared word and handle is read off its reset value. -/
theorem resetValues : Obligations.ResetValues := by
  unfold Obligations.ResetValues
  refine ⟨fun u => ?bus, fun i _ => BitVec.getLsbD_zero, rfl, fun j hj => reset_sharedWord hj, fun c _ => ?chan,
    rfl, rfl, rfl, rfl, rfl, rfl, fun h _ => ?handle, rfl⟩
  case bus =>
    rw [reset_bus u]
    exact ⟨rfl, rfl, rfl, rfl⟩
  case chan =>
    rw [reset_rc_chan]
    exact ⟨rfl, rfl, rfl, rfl, rfl, rfl, rfl, rfl, channelReset_stat c, channelReset_not_active c⟩
  case handle =>
    rw [reset_handle h]
    exact ⟨rfl, rfl, rfl⟩

end Sys2Proof.Machine
end
